-- ==== Sys2Proof/Word.lean ====
section
/-! DEFINITION. The plain words of the part: bytes, blocks and the numbers that name things (00_scope.md sections 5 and 7). -/

namespace Sys2Proof

/-- One byte of a frame or page (10 R154). -/
abbrev Byte := BitVec 8

/-- A block: 512 bytes of data, the unit of every payload (00 section 5). -/
abbrev Block := List Byte

/-- A Target Port, D0 to D3 (00 section 3.3). -/
abbrev Port := Fin 4

/-- An initiator number, 0 to 15 (00 section 3.3). -/
abbrev Initiator := Fin 16

/-- A volume number, 0 to 63; 0 is the control volume (00 section 3.3). -/
abbrev Volume := Fin 64

/-- A class: 0 highest priority to 3 lowest (00 section 5). -/
abbrev Class := Fin 4

/-- A downstream tag, 0 to 15 (00 section 5). -/
abbrev DTag := Fin 16

/-- A reference to a Command Table entry (02 R22), as a serial number (log entry 1). -/
abbrev ParentRef := Nat

/-- A reference to a Sub-command Table entry (04 R64), as a serial number (log entry 1). -/
abbrev SubRef := Nat

end Sys2Proof
end

