-- ==== Sys2Proof/Syntax.lean ====
section
/-! DEFINITION. The commands of the block: one constructor of `Instr` per row of spec/opcode_table.json. -/

namespace Sys2Proof

/-- The link an inbound frame arrives on: the upstream link or one target link (10 R155). -/
inductive Link where
  | upstream
  | target (p : Port)
  deriving DecidableEq, Repr

/-- A CMD frame as taken from the upstream link: the header fields as they stand on the wire, and the payload blocks (10 section 10.2). -/
structure CmdFrame where
  initiator : Byte
  tag : Byte
  volume : Byte
  operation : Byte
  cls : Byte
  count : BitVec 16
  start : BitVec 32
  payload : List Block
  deriving DecidableEq, Repr

/-- An ABT frame: the stamped initiator and the victim tag (07 R115, 10 section 10.2). -/
structure AbtFrame where
  initiator : Byte
  tag : Byte
  deriving DecidableEq, Repr

/-- A TCPL frame as taken from a target link (10 section 10.3). -/
structure TcplFrame where
  tag : Byte
  result : Byte
  flags : Byte
  errorBlock : BitVec 32
  payload : List Block
  deriving DecidableEq, Repr

/-- The commands of the block, in the order of spec/opcode_table.json. -/
inductive Instr where
  /-- RESET_INPUT (R2): the RESET input or a supply rise. -/
  | resetInput
  /-- UPSTREAM_LINK_UP (R21). -/
  | upstreamLinkUp
  /-- UPSTREAM_LINK_LOSS (R38, R39). -/
  | upstreamLinkLoss
  /-- OUTBOUND_FRAME_SEND (R20): the Initiator Port Unit sends the next frame, whole. -/
  | outboundFrameSend
  /-- DROPPED_FRAME (R19, R155): an inbound frame, with whether its check sequence held, that is dropped. -/
  | droppedFrame (link : Link) (checked : Bool) (bytes : List Byte)
  /-- CMD (R30). -/
  | cmd (f : CmdFrame)
  /-- ABT (R115). -/
  | abt (f : AbtFrame)
  /-- FREE_REPORT_MAP (R9): the Map Unit takes the report at place `k` of those on their way to it. -/
  | freeReportMap (k : Nat)
  /-- FREE_REPORT_ORDER (R44): the Order Unit takes the report at place `k` of those on their way to it. -/
  | freeReportOrder (k : Nat)
  /-- LONG_PARENT_GONE_MAP (R18). -/
  | longParentGoneMap (k : Nat)
  /-- LONG_PARENT_GONE_PORT (R130). -/
  | longParentGonePort (k : Nat)
  /-- LONG_PARENT_GONE_FLUSH (R148). -/
  | longParentGoneFlush (k : Nat)
  /-- TARGET_LINK_UP (R123). -/
  | targetLinkUp (p : Port)
  /-- TARGET_LINK_LOST (R124). -/
  | targetLinkLost (p : Port)
  /-- TCPL (R111). -/
  | tcpl (p : Port) (f : TcplFrame)
  /-- TRDY (R125). -/
  | trdy (p : Port)
  /-- DEADLINE_EXPIRY (R107): the deadline of the entry issued under tag `t` of port `p`. -/
  | deadlineExpiry (p : Port) (t : DTag)
  /-- RESET_TIMER_EXPIRY (R126). -/
  | resetTimerExpiry (p : Port)
  /-- LEASE_EXPIRY (R141). -/
  | leaseExpiry
  /-- BAD_PAGE (R137): this and the rows below are execution events of the CONTROL_ACTIVE parent. -/
  | badPage
  /-- IDENTITY_READ (R142). -/
  | identityRead
  /-- STATUS_READ (R142). -/
  | statusRead
  /-- NOTICES_READ (R151). -/
  | noticesRead
  /-- CLAIM (R140). -/
  | claim
  /-- RELEASE (R140). -/
  | release
  /-- VOLUME_READ (R143). -/
  | volumeRead
  /-- DEFINE (R11). -/
  | define
  /-- REMOVE (R17). -/
  | remove
  /-- STAGE (R12). -/
  | stage
  /-- CLEAR (R13). -/
  | clear
  /-- COMMIT (R14). -/
  | commit
  /-- ACCESS_READ (R144). -/
  | accessRead
  /-- ACCESS_WRITE (R144). -/
  | accessWrite
  /-- INITIATOR_READ (R144). -/
  | initiatorRead
  /-- INITIATOR_WRITE (R144). -/
  | initiatorWrite
  /-- PORT_READ (R145). -/
  | portRead
  /-- PORT_WRITE (R145). -/
  | portWrite
  /-- PORT_RESET (R128). -/
  | portReset
  /-- FLUSH_ALL (R147). -/
  | flushAll
  /-- LIVE_MAP_READ (R146). -/
  | liveMapRead
  /-- STAGED_MAP_READ (R146). -/
  | stagedMapRead
  deriving DecidableEq, Repr

end Sys2Proof
end

