-- ==== Sys2Proof/Decode.lean ====
section
/-! DEFINITION. Bytes and fields (10 R154), the command that an inbound frame's bytes are (10 R155, R157), and decodeTableWord (the table gives no bits: log entry 20). -/

namespace Sys2Proof

/-- Byte `i` of a frame or page; 00h beyond its end (10 R156). -/
def byteAt (l : List Byte) (i : Nat) : Byte := l.getD i 0

/-- A 16-bit field at offset `i`, most significant byte first (10 R154). -/
def word16At (l : List Byte) (i : Nat) : BitVec 16 :=
  BitVec.ofNat 16 ((byteAt l i).toNat * 256 + (byteAt l (i + 1)).toNat)

/-- A 32-bit field at offset `i`, most significant byte first (10 R154). -/
def word32At (l : List Byte) (i : Nat) : BitVec 32 :=
  BitVec.ofNat 32 ((word16At l i).toNat * 65536 + (word16At l (i + 2)).toNat)

/-- A number as one byte of a frame or page. -/
def bytes8 (n : Nat) : List Byte := [BitVec.ofNat 8 n]

/-- A number as a 16-bit field, most significant byte first (10 R154). -/
def bytes16 (n : Nat) : List Byte := [BitVec.ofNat 8 (n / 256), BitVec.ofNat 8 n]

/-- A number as a 32-bit field, most significant byte first (10 R154). -/
def bytes32 (n : Nat) : List Byte := bytes16 (n / 65536) ++ bytes16 n

/-- The payload blocks after a header, when what follows the header is a whole number of blocks (10 R155). -/
def payloadBlocks (l : List Byte) : Option (List Block) :=
  if l.length % 512 = 0 then
    some ((List.range (l.length / 512)).map fun i => (l.drop (512 * i)).take 512)
  else none

/-- A CMD frame's fields, when its length fits its kind and its initiator is one of 16 (10 R155, R157). -/
def cmdOfBytes (l : List Byte) : Option CmdFrame :=
  if l.length < 16 then none else
  match payloadBlocks (l.drop 16) with
  | none => none
  | some bs =>
    if bs.length ≤ 2047 ∧ (byteAt l 1).toNat < 16 then
      some { initiator := byteAt l 1, tag := byteAt l 2, volume := byteAt l 3, operation := byteAt l 4,
             cls := byteAt l 5, count := word16At l 6, start := word32At l 8, payload := bs }
    else none

/-- An ABT frame's fields, when it is exactly its header and its initiator is one of 16 (10 R155, R157). -/
def abtOfBytes (l : List Byte) : Option AbtFrame :=
  if l.length = 4 ∧ (byteAt l 1).toNat < 16 then some { initiator := byteAt l 1, tag := byteAt l 2 } else none

/-- A TCPL frame's fields, when its length fits its kind (10 R155). -/
def tcplOfBytes (l : List Byte) : Option TcplFrame :=
  if l.length < 8 then none else
  match payloadBlocks (l.drop 8) with
  | none => none
  | some bs =>
    if bs.length ≤ 1024 then
      some { tag := byteAt l 1, result := byteAt l 2, flags := byteAt l 3, errorBlock := word32At l 4, payload := bs }
    else none

/-- The command that an inbound frame is, by its kind and length, on the upstream link (02 R19, 10 R155). -/
def receiveUpstream (checked : Bool) (l : List Byte) : Instr :=
  if checked then
    match l with
    | 0x01#8 :: _ => ((cmdOfBytes l).map Instr.cmd).getD (.droppedFrame .upstream checked l)
    | 0x02#8 :: _ => ((abtOfBytes l).map Instr.abt).getD (.droppedFrame .upstream checked l)
    | _ => .droppedFrame .upstream checked l
  else .droppedFrame .upstream checked l

/-- The command that an inbound frame is, by its kind and length, on the link of port `p` (07 R111, 10 R155). -/
def receiveDownstream (p : Port) (checked : Bool) (l : List Byte) : Instr :=
  if checked then
    match l with
    | 0xC1#8 :: _ => ((tcplOfBytes l).map (Instr.tcpl p)).getD (.droppedFrame (.target p) checked l)
    | 0xC2#8 :: _ => if l.length = 4 then .trdy p else .droppedFrame (.target p) checked l
    | _ => .droppedFrame (.target p) checked l
  else .droppedFrame (.target p) checked l

/-- The command that an inbound frame is on either kind of link. -/
def receive (k : Link) (checked : Bool) (l : List Byte) : Instr :=
  match k with
  | .upstream => receiveUpstream checked l
  | .target p => receiveDownstream p checked l

/-- No row of spec/opcode_table.json gives bits, so no word spells a command (log entry 20). -/
def decodeTableWord (_nbits _w : Nat) : Option Instr := none

end Sys2Proof
end

