-- ==== Sys2Proof/Config.lean ====
section
/-! DEFINITION. What the manual leaves to each part or leaves open: free values with no body (log entries 10, 11, 12). -/

namespace Sys2Proof

/-- Free value: how many characters the revision string has, before `revisionString` brings it into 1 to 16 (09 R142, log entry 11). -/
opaque Config.revisionLength : Nat

/-- Free value: the characters of the revision string, before `revisionString` brings each into printable ASCII (09 R142, log entry 11). -/
opaque Config.revisionChar : Nat → Nat

/-- Free value: whether a lease timer with this earliest expiry moment runs to the later end of its 1 ms tolerance (00 section 7.2, 09 R141, R142, log entry 10). -/
opaque Config.leaseRunsLate : Nat → Bool

/-- Free value: byte `i` of slot `n` of a READ parent that no TCPL has filled (02 R29, log entry 12). -/
opaque Config.unfilledByte : (n i : Nat) → Byte

end Sys2Proof
end

