-- ==== Sys2Proof/Machine/State.lean ====
section
/-! DEFINITION. The state of the part as plain data, the outcomes that stop it, and the state after the RESET input. -/

namespace Sys2Proof.Machine

/-- The operation of a parent (02 R22). -/
inductive Op where
  | read
  | write
  | verify
  | drain
  deriving DecidableEq, Repr

/-- The operation of a sub-command (04 R64). -/
inductive SubOp where
  | read
  | write
  | verify
  | flush
  deriving DecidableEq, Repr

/-- The number of a copy of an extent (01 R3). -/
inductive CopyNo where
  | one
  | two
  deriving DecidableEq, Repr

/-- The state of a copy (01 R3). -/
inductive CopyState where
  | current
  | stale
  deriving DecidableEq, Repr

/-- One copy of an extent record: its port byte as stored, its first target block, its state (01 R3, 10 R159). -/
structure Copy where
  port : Byte
  first : BitVec 32
  state : CopyState
  deriving DecidableEq, Repr

/-- An extent record, live or staged (01 R3). -/
structure Extent where
  first : BitVec 32
  length : BitVec 32
  copy1 : Copy
  copy2 : Option Copy
  lead : CopyNo
  deriving DecidableEq, Repr

/-- The state of a volume (01 R1). -/
inductive VolState where
  | absent
  | online
  | switching
  | retiring
  deriving DecidableEq, Repr

/-- A pending long operation of a volume; `none` of the Option in `VolRec` is "none" (01 R1). -/
inductive LongOp where
  | commit
  | remove
  deriving DecidableEq, Repr

/-- A Volume Table record (01 R1). -/
structure VolRec where
  state : VolState
  capacity : Option Nat
  writeProtected : Bool
  generation : BitVec 16
  live : List Extent
  staged : List Extent
  longOp : Option LongOp
  longParent : Option ParentRef
  liveParents : Nat
  splitParents : Nat
  deriving DecidableEq, Repr

/-- The status codes of CPL frames (00 section 8, 10 section 10.4). -/
inductive Status where
  | good
  | malformed
  | barred
  | duplicateTag
  | badOperation
  | badCount
  | badVolume
  | noAccess
  | writeProtected
  | outOfRange
  | tableBusy
  | creditExceeded
  | controlBusy
  | noBuffer
  | unmapped
  | fragmented
  | mediumError
  | targetFault
  | targetRefused
  | targetTimeout
  | targetReset
  | targetLost
  | targetHalted
  | aborted
  | notFound
  | abortDenied
  | badPage
  | notManager
  | managerPresent
  | badEntry
  | inProgress
  | tableFull
  deriving DecidableEq, Repr

/-- The nine parent states (02 R24). -/
inductive ParentState where
  | controlWait
  | controlActive
  | controlLong
  | orderWait
  | splitWait
  | switchWait
  | active
  | aborting
  | discarding
  deriving DecidableEq, Repr

/-- The kind of a sub-command's result (06 R87). -/
inductive ResultKind where
  | ok
  | medium
  | fault
  | refused
  | timeout
  | reset
  | lost
  | halted
  deriving DecidableEq, Repr

/-- A member's result as the Merge Unit keeps it: its kind, the volume block it fails at (06 R94, formed when the result is taken), and whether the sub-command had been issued (06 R99). -/
structure MemberResult where
  kind : ResultKind
  failBlock : Nat
  issued : Bool
  deriving DecidableEq, Repr

/-- A member of a piece (04 R63). `sub` is the reference while the entry is held. -/
structure Member where
  copy : CopyNo
  sub : Option SubRef
  result : Option MemberResult
  deriving DecidableEq, Repr

/-- The state of a piece (04 R63). -/
inductive PieceState where
  | pending
  | good
  | failed (status : Status) (failBlock : Nat)
  deriving DecidableEq, Repr

/-- A piece record (04 R63). -/
structure Piece where
  offset : Nat
  length : Nat
  ordinal : Nat
  members : List Member
  retried : Bool
  state : PieceState
  deriving DecidableEq, Repr

/-- The phase of a DRAIN (02 R22, 03 R51). -/
inductive DrainPhase where
  | one
  | two
  deriving DecidableEq, Repr

/-- An entry of a DRAIN's flush results: the port, and its status once written; `none` is pending (03 R52). -/
structure FlushResult where
  port : Port
  status : Option Status
  deriving DecidableEq, Repr

/-- A live entry of the Command Table (02 R22). `pieces` is empty while absent; `slots` are the slots held, each with its block once filled (02 R28, R29). -/
structure Parent where
  id : ParentRef
  initiator : Initiator
  tag : Byte
  volume : Volume
  op : Op
  cls : Class
  start : Nat
  count : Nat
  state : ParentState
  slots : List (Option Block)
  generation : Option (BitVec 16)
  pieces : List Piece
  drainPhase : Option DrainPhase
  flushResults : List FlushResult
  deriving DecidableEq, Repr

/-- An Initiator Table record (02 R25). -/
structure InitRec where
  credit : Nat
  barred : Bool
  liveCount : Nat
  deriving DecidableEq, Repr

/-- A rights entry of the Access Matrix (02 R27). -/
inductive Rights where
  | none
  | read
  | full
  deriving DecidableEq, Repr

/-- An entry of an Active Range List (03 R40). -/
structure RangeEntry where
  parent : ParentRef
  op : Op
  start : Nat
  count : Nat
  deriving DecidableEq, Repr

/-- The kind of a hold record (03 R41). -/
inductive HoldKind where
  | range
  | drain
  deriving DecidableEq, Repr

/-- A hold record (03 R41). -/
structure Hold where
  parent : ParentRef
  kind : HoldKind
  deriving DecidableEq, Repr

/-- What an ISSUED entry records: its downstream tag and its deadline, the earliest moment of expiry (04 R64, 07 R106). -/
structure Issue where
  tag : DTag
  deadline : Nat
  deriving DecidableEq, Repr

/-- An allocated entry of the Sub-command Table (04 R64). `issue` is `none` while QUEUED. -/
structure SubCmd where
  id : SubRef
  parent : ParentRef
  piece : Option Nat
  copy : Option CopyNo
  port : Port
  op : SubOp
  cls : Class
  targetStart : Nat
  count : Nat
  issue : Option Issue
  deriving DecidableEq, Repr

/-- The state of a downstream tag (05 R75). -/
inductive TagState where
  | free
  | issued (e : SubRef)
  | quarantined
  deriving DecidableEq, Repr

/-- The state of a Target Port (08 R122). -/
inductive PortState where
  | down
  | resetting
  | up
  | halted
  deriving DecidableEq, Repr

/-- Why a port is HALTED (08 R122). -/
inductive HaltReason where
  | tagsExhausted
  | resetUnanswered
  deriving DecidableEq, Repr

/-- What the Dispatch Unit keeps for a port (queues, tags, window, pass count: 05) and the port record (08 R122). `resetTimer` is the earliest moment of expiry while running. -/
structure PortRec where
  queues : Vector (List SubRef) 4
  tags : Vector TagState 16
  window : Nat
  passCount : Nat
  state : PortState
  reason : Option HaltReason
  attempts : Nat
  resetTimer : Option Nat
  pendingReset : Option ParentRef
  flushWaiters : List ParentRef
  responseLimit : Nat
  maxTransfer : Nat
  deriving DecidableEq, Repr

/-- The reply kind of a CPL (10 section 10.2). -/
inductive ReplyKind where
  | command
  | abort
  deriving DecidableEq, Repr

/-- A CPL frame (10 section 10.2). -/
structure Cpl where
  initiator : Initiator
  tag : Byte
  reply : ReplyKind
  status : Status
  failBlock : Option Nat
  residual : Nat
  payload : List Block
  deriving DecidableEq, Repr

/-- An ALR frame (09 R152). -/
structure Alr where
  initiator : Initiator
  queued : Nat
  oldest : BitVec 32
  deriving DecidableEq, Repr

/-- A frame of the outbound order of the Initiator Port (02 R20). -/
inductive UpFrame where
  | cpl (c : Cpl)
  | alr (a : Alr)
  deriving DecidableEq, Repr

/-- A SUB frame (05 R81). -/
structure SubFrame where
  tag : DTag
  op : SubOp
  targetStart : Nat
  count : Nat
  payload : List Block
  deriving DecidableEq, Repr

/-- A frame that a Target Port sends (00 section 6). -/
inductive DownFrame where
  | sub (f : SubFrame)
  | trst
  deriving DecidableEq, Repr

/-- A frame that has left the part, and the link it left on (log entry 13). -/
inductive Sent where
  | up (f : UpFrame)
  | down (p : Port) (f : DownFrame)
  deriving DecidableEq, Repr

/-- The notice kinds (09 R149). -/
inductive NoticeKind where
  | portUp
  | portDown
  | portHalted
  | subExpired
  | lateCompletion
  | unknownTag
  | copyStale
  | leadSwapped
  | managerExpired
  | trafficDiscarded
  deriving DecidableEq, Repr

/-- The fields of a notice but its sequence number, each present or absent as its kind gives (09 R149). -/
structure NoticeBody where
  kind : NoticeKind
  port : Option Port
  volume : Option Volume
  initiator : Option Initiator
  generation : Option (BitVec 16)
  ordinal : Option Nat
  tag : Option Byte
  reason : Option Nat
  deriving DecidableEq, Repr

/-- A record of the Notice Queue (09 R149). -/
structure Notice where
  seq : BitVec 32
  body : NoticeBody
  deriving DecidableEq, Repr

/-- The alert state (09 R152). -/
inductive Alert where
  | armed
  | sent
  deriving DecidableEq, Repr

/-- The flush record (09 R147): the operation's own name (the reference its FLUSH ALL parent had), the flush parent while there is one, the ports awaited. -/
structure FlushRec where
  op : ParentRef
  parent : Option ParentRef
  awaited : List Port
  deriving DecidableEq, Repr

/-- A free report on its way to the Map Unit (01 R9, 02 R37 step 5). -/
structure MapReport where
  volume : Volume
  split : Bool
  deriving DecidableEq, Repr

/-- A free report on its way to the Order Unit (02 R37 step 6). -/
structure OrderReport where
  volume : Volume
  parent : ParentRef
  deriving DecidableEq, Repr

/-- A report to the Map Unit that the parent of a pending commit or remove is gone (01 R18, 02 R37 step 7). -/
structure GoneMap where
  volume : Volume
  parent : ParentRef
  deriving DecidableEq, Repr

/-- A report to a Target Port Unit that the parent of its pending management reset is gone (08 R130). -/
structure GonePort where
  port : Port
  parent : ParentRef
  deriving DecidableEq, Repr

/-- The state of the part. INVENTORY.md lists every field with its rule and reset value. Volume tables have a row 0 that no operation of a data volume uses (log entry 18). -/
@[ext]
structure State where
  linkUp : Bool
  outbound : List UpFrame
  parents : List Parent
  initiators : Vector InitRec 16
  access : Vector (Vector Rights 64) 16
  freeSlots : Nat
  mapReports : List MapReport
  orderReports : List OrderReport
  goneMap : List GoneMap
  gonePort : List GonePort
  goneFlush : List ParentRef
  ranges : Vector (List RangeEntry) 64
  holds : Vector (List Hold) 64
  volumes : Vector VolRec 64
  freeExtents : Nat
  subs : List SubCmd
  splitWait : List ParentRef
  switchHolds : Vector (List ParentRef) 64
  ports : Vector PortRec 4
  controlQueue : List ParentRef
  executing : Option ParentRef
  manager : Option Initiator
  lease : Nat
  leaseTimer : Option Nat
  flush : Option FlushRec
  notices : List Notice
  seq : BitVec 32
  dropped : Nat
  alert : Alert
  now : Nat
  nextParent : ParentRef
  nextSub : SubRef
  sent : List Sent
  pending : List Instr
  deriving DecidableEq, Repr

/-- No command of the part ends in a fault: its errors are status codes, port states and notices (log entry 16). -/
inductive Fault where
  deriving DecidableEq, Repr

/-- Why a command has no meaning in the model. -/
inductive Refusal where
  /-- Raised by exec for a command that has no meaning yet; safe. No arm raises it (log entry 16). -/
  | notModelled (mnemonic : String)
  deriving DecidableEq, Repr

/-- A Volume Table record after the RESET input (01 R2). -/
def VolRec.reset : VolRec :=
  { state := .absent, capacity := none, writeProtected := false, generation := 0, live := [], staged := [],
    longOp := none, longParent := none, liveParents := 0, splitParents := 0 }

/-- An Initiator Table record after the RESET input (02 R25). -/
def InitRec.reset : InitRec := { credit := 8, barred := false, liveCount := 0 }

/-- A port after the RESET input (05 introduction, 08 R122). -/
def PortRec.reset : PortRec :=
  { queues := Vector.replicate 4 [], tags := Vector.replicate 16 .free, window := 8, passCount := 0,
    state := .down, reason := none, attempts := 0, resetTimer := none, pendingReset := none, flushWaiters := [],
    responseLimit := 2000, maxTransfer := 256 }

/-- The part right after the RESET input or a supply rise (01 R2, 02 R19 to R28, 03 R40, R41, 04 R64, R68, R70, 05 R73 to R80, 08 R122, 09 R136, R139, R147, R149, R152). -/
def State.reset : State :=
  { linkUp := false, outbound := [], parents := [], initiators := Vector.replicate 16 InitRec.reset,
    access := Vector.replicate 16 (Vector.replicate 64 .none), freeSlots := 2048,
    mapReports := [], orderReports := [], goneMap := [], gonePort := [], goneFlush := [],
    ranges := Vector.replicate 64 [], holds := Vector.replicate 64 [],
    volumes := Vector.replicate 64 VolRec.reset, freeExtents := 512,
    subs := [], splitWait := [], switchHolds := Vector.replicate 64 [],
    ports := Vector.replicate 4 PortRec.reset,
    controlQueue := [], executing := none, manager := none, lease := 0, leaseTimer := none, flush := none,
    notices := [], seq := 0, dropped := 0, alert := .armed,
    now := 0, nextParent := 0, nextSub := 0, sent := [], pending := [] }

end Sys2Proof.Machine
end

