-- ==== Sys2Proof/Machine/Operands.lean ====
section
/-! DEFINITION. Codes, frame layouts, records and page fields: how operands are read from bytes and written to bytes (chapter 10). -/

namespace Sys2Proof.Machine

/-! ## Codes (10 section 10.4) -/

/-- The code of a status (10 section 10.4). -/
def Status.code : Status → Nat
  | .good => 0x00
  | .malformed => 0x10
  | .barred => 0x11
  | .duplicateTag => 0x12
  | .badOperation => 0x13
  | .badCount => 0x14
  | .badVolume => 0x15
  | .noAccess => 0x16
  | .writeProtected => 0x17
  | .outOfRange => 0x18
  | .tableBusy => 0x19
  | .creditExceeded => 0x1A
  | .controlBusy => 0x1B
  | .noBuffer => 0x1C
  | .unmapped => 0x20
  | .fragmented => 0x21
  | .mediumError => 0x30
  | .targetFault => 0x31
  | .targetRefused => 0x32
  | .targetTimeout => 0x33
  | .targetReset => 0x34
  | .targetLost => 0x35
  | .targetHalted => 0x36
  | .aborted => 0x40
  | .notFound => 0x41
  | .abortDenied => 0x42
  | .badPage => 0x50
  | .notManager => 0x51
  | .managerPresent => 0x52
  | .badEntry => 0x53
  | .inProgress => 0x54
  | .tableFull => 0x55

/-- The code of a notice kind (10 section 10.4). -/
def NoticeKind.code : NoticeKind → Nat
  | .portUp => 0x01
  | .portDown => 0x02
  | .portHalted => 0x03
  | .subExpired => 0x04
  | .lateCompletion => 0x05
  | .unknownTag => 0x06
  | .copyStale => 0x07
  | .leadSwapped => 0x08
  | .managerExpired => 0x09
  | .trafficDiscarded => 0x0A

/-- The code of a port state (10 section 10.4). -/
def PortState.code : PortState → Nat
  | .down => 0
  | .resetting => 1
  | .up => 2
  | .halted => 3

/-- The code of a halt reason (10 section 10.4). -/
def HaltReason.code : HaltReason → Nat
  | .tagsExhausted => 1
  | .resetUnanswered => 2

/-- The halt reason byte of a page: 00h when absent (10 section 10.6). -/
def haltByte (r : Option HaltReason) : Nat := (r.map HaltReason.code).getD 0

/-- The code of a volume state (10 section 10.4). -/
def VolState.code : VolState → Nat
  | .absent => 0
  | .online => 1
  | .switching => 2
  | .retiring => 3

/-- The code of a pending long operation (10 section 10.4). -/
def longOpCode : Option LongOp → Nat
  | none => 0
  | some .commit => 1
  | some .remove => 2

/-- The code of a rights value (10 section 10.4). -/
def Rights.code : Rights → Nat
  | .none => 0
  | .read => 1
  | .full => 2

/-- The rights value of a byte; above 02h names none (10 R160). -/
def rightsOf (b : Byte) : Option Rights :=
  if b = 0 then some .none else if b = 1 then some .read else if b = 2 then some .full else none

/-- The code of a yes or no field (10 section 10.4). -/
def boolCode (b : Bool) : Nat := if b then 1 else 0

/-- The number of a copy. -/
def CopyNo.number : CopyNo → Nat
  | .one => 1
  | .two => 2

/-- The code of a copy state (10 R159). -/
def CopyState.code : CopyState → Nat
  | .current => 0
  | .stale => 1

/-- The operation of a CMD's operation byte; any other byte names none (10 section 10.2). -/
def opOf (b : Byte) : Option Op :=
  if b = 1 then some .read else if b = 2 then some .write else if b = 3 then some .verify
  else if b = 4 then some .drain else none

/-- The operation byte of a SUB (10 section 10.3). -/
def SubOp.code : SubOp → Nat
  | .read => 1
  | .write => 2
  | .verify => 3
  | .flush => 5

/-- The initiator that a stamped byte names (10 R157). -/
def initiatorOf (b : Byte) : Option Initiator := if h : b.toNat < 16 then some ⟨b.toNat, h⟩ else none

/-- The volume that a byte names (10 R157). -/
def volumeOf (b : Byte) : Option Volume := if h : b.toNat < 64 then some ⟨b.toNat, h⟩ else none

/-- The class that a byte names (10 R157). -/
def classOf (b : Byte) : Option Class := if h : b.toNat < 4 then some ⟨b.toNat, h⟩ else none

/-- The downstream tag that a byte names; 16 to 255 name none (10 R158). -/
def dtagOf (b : Byte) : Option DTag := if h : b.toNat < 16 then some ⟨b.toNat, h⟩ else none

/-! ## Frames the part sends (10 sections 10.2, 10.3) -/

/-- The bytes of a CPL frame. Bits 1 to 7 of the flags byte have no value in the spec; the model sends 0 (log entry 30). -/
def Cpl.bytes (c : Cpl) : List Byte :=
  [0x81#8, BitVec.ofNat 8 c.initiator.val, c.tag, (match c.reply with | .command => 1 | .abort => 2)]
    ++ bytes8 c.status.code ++ bytes8 (boolCode c.failBlock.isSome) ++ bytes16 c.residual
    ++ bytes32 (c.failBlock.getD 0) ++ bytes32 0 ++ c.payload.flatten

/-- The bytes of an ALR frame. -/
def Alr.bytes (a : Alr) : List Byte :=
  [0x82#8, BitVec.ofNat 8 a.initiator.val] ++ bytes8 a.queued ++ [0] ++ bytes32 a.oldest.toNat

/-- The bytes of a frame of the outbound order. -/
def UpFrame.bytes : UpFrame → List Byte
  | .cpl c => c.bytes
  | .alr a => a.bytes

/-- The bytes of a SUB frame. -/
def SubFrame.bytes (f : SubFrame) : List Byte :=
  [0x41#8, BitVec.ofNat 8 f.tag.val] ++ bytes8 f.op.code ++ [0] ++ bytes16 f.count ++ [0, 0]
    ++ bytes32 f.targetStart ++ f.payload.flatten

/-- The bytes of a frame that a Target Port sends. -/
def DownFrame.bytes : DownFrame → List Byte
  | .sub f => f.bytes
  | .trst => [0x42#8, 0, 0, 0]

/-- The bytes of a frame that has left the part. -/
def Sent.bytes : Sent → List Byte
  | .up f => f.bytes
  | .down _ f => f.bytes

/-! ## Blocks, records and write data (10 sections 10.5, 10.6) -/

/-- A one-block page: the fields, filled with 00h to 512 bytes (10 R156). -/
def page (l : List Byte) : Block := (l ++ List.replicate 512 0).take 512

/-- The result block: the detail, then 00h (10 section 10.6). -/
def resultBlock (detail : Nat) : Block := page (bytes16 detail)

/-- A string field of 16 bytes, filled to its end with 00h (10 R156). -/
def stringField (l : List Byte) : List Byte := (List.range 16).map fun i => byteAt l i

/-- Character `i` of the revision field: 1 to 16 printable ASCII characters that the manual does not give, then 00h (09 R142, log entry 11). -/
def revisionByte (i : Nat) : Byte :=
  if i < Config.revisionLength % 16 + 1 then BitVec.ofNat 8 (0x20 + Config.revisionChar i % 95) else 0

/-- A notice record, 16 bytes (10 section 10.5). Bit 7 of the flags byte has no value in the spec; the model sends 0 (log entry 30). -/
def Notice.bytes (n : Notice) : List Byte :=
  let b := n.body
  bytes32 n.seq.toNat ++ bytes8 b.kind.code
    ++ bytes8 (boolCode b.port.isSome + 2 * boolCode b.volume.isSome + 4 * boolCode b.initiator.isSome
        + 8 * boolCode b.generation.isSome + 16 * boolCode b.ordinal.isSome + 32 * boolCode b.tag.isSome
        + 64 * boolCode b.reason.isSome)
    ++ bytes8 ((b.port.map Fin.val).getD 0) ++ bytes8 ((b.volume.map Fin.val).getD 0)
    ++ bytes8 ((b.initiator.map Fin.val).getD 0) ++ bytes8 (b.reason.getD 0)
    ++ bytes16 ((b.generation.map BitVec.toNat).getD 0) ++ bytes16 (b.ordinal.getD 0)
    ++ [b.tag.getD 0, 0]

/-- An extent record as the part returns it, 28 bytes, with its ordinal (10 section 10.5, R159). Bits 1 to 7 of the flags byte have no value in the spec; the model sends 0 (log entry 30). -/
def Extent.bytes (ordinal : Nat) (x : Extent) : List Byte :=
  bytes16 ordinal ++ bytes8 (boolCode x.copy2.isSome) ++ bytes8 x.lead.number
    ++ bytes32 x.first.toNat ++ bytes32 x.length.toNat
    ++ [x.copy1.port] ++ bytes8 x.copy1.state.code
    ++ [(x.copy2.map Copy.port).getD 0] ++ bytes8 ((x.copy2.map fun c => c.state.code).getD 0)
    ++ bytes32 x.copy1.first.toNat ++ bytes32 ((x.copy2.map fun c => c.first.toNat).getD 0) ++ bytes32 0

/-- The copy state of a byte: 00h is CURRENT, every other value is STALE (10 R159). -/
def copyStateOf (b : Byte) : CopyState := if b = 0 then .current else .stale

/-- A staged extent record decoded from its 28 bytes at offset `o`, so that every byte value gives a value (10 R159). -/
def extentAt (b : Block) (o : Nat) : Extent :=
  { first := word32At b (o + 4), length := word32At b (o + 8),
    copy1 := { port := byteAt b (o + 12), first := word32At b (o + 16), state := copyStateOf (byteAt b (o + 13)) },
    copy2 := if (byteAt b (o + 2)).getLsbD 0 then
        some { port := byteAt b (o + 14), first := word32At b (o + 20), state := copyStateOf (byteAt b (o + 15)) }
      else none,
    lead := if byteAt b (o + 3) = 1 then .one else .two }

/-- The first `n` extent records of STAGE write data, at 8 + 28 i (10 section 10.6). -/
def extentsOf (b : Block) (n : Nat) : List Extent := (List.range n).map fun i => extentAt b (8 + 28 * i)

/-- Records of a map page: up to 18 from the first ordinal on, each with its ordinal (09 R146). -/
def mapRecords (xs : List Extent) (first : Nat) : List (List Byte) :=
  ((xs.drop first).take 18).zipIdx.map fun r => r.1.bytes (first + r.2)

end Sys2Proof.Machine
end

