-- ==== Sys2Proof/Machine/Ops.lean ====
section
/-! DEFINITION. Shared operations: tables, references, extents, CPLs, the free of an entry, and the waits a parent stands in. -/

namespace Sys2Proof.Machine

/-! ## Tables and references -/

/-- Write row `i` of a table. -/
def put {α : Type} {n : Nat} (v : Vector α n) (i : Fin n) (x : α) : Vector α n := v.set i.val x i.isLt

/-- Change every row of a table. -/
def mapRows {α : Type} {n : Nat} (f : α → α) (v : Vector α n) : Vector α n := Vector.ofFn fun i => f v[i]

/-- The live parent a reference names (02 R22). -/
def State.parent? (s : State) (id : ParentRef) : Option Parent := s.parents.find? fun p => p.id == id

/-- The allocated Sub-command Table entry a reference names (04 R64). -/
def State.sub? (s : State) (e : SubRef) : Option SubCmd := s.subs.find? fun x => x.id == e

/-- The record of port `p`. -/
def State.port (s : State) (p : Port) : PortRec := s.ports[p]

/-- The Volume Table record of volume `v`. -/
def State.vol (s : State) (v : Volume) : VolRec := s.volumes[v]

/-- Change the entry of a live parent. -/
def updParent (id : ParentRef) (f : Parent → Parent) (s : State) : State :=
  { s with parents := s.parents.map fun p => if p.id = id then f p else p }

/-- Change an allocated Sub-command Table entry. -/
def updSub (e : SubRef) (f : SubCmd → SubCmd) (s : State) : State :=
  { s with subs := s.subs.map fun x => if x.id = e then f x else x }

/-- Change the record of a port. -/
def updPort (p : Port) (f : PortRec → PortRec) (s : State) : State :=
  { s with ports := put s.ports p (f s.ports[p]) }

/-- Change a Volume Table record. -/
def updVol (v : Volume) (f : VolRec → VolRec) (s : State) : State :=
  { s with volumes := put s.volumes v (f s.volumes[v]) }

/-- Put a parent into a state. -/
def setState (id : ParentRef) (x : ParentState) (s : State) : State :=
  updParent id (fun p => { p with state := x }) s

/-- Some allocated entry names this parent (06 R89). -/
def holdsEntry (id : ParentRef) (s : State) : Bool := s.subs.any fun e => e.parent == id

/-- Some ISSUED entry names this parent (02 R38, 07 R118). -/
def holdsIssued (id : ParentRef) (s : State) : Bool := s.subs.any fun e => e.parent == id && e.issue.isSome

/-- The free Command Table entries (02 R22). -/
def State.freeParents (s : State) : Nat := 128 - s.parents.length

/-- The free Sub-command Table entries (04 R64). -/
def State.freeSubs (s : State) : Nat := 256 - s.subs.length

/-- The two ports that count as usable: UP and RESETTING (08 introduction). -/
def usable (s : State) (p : Port) : Bool := (s.port p).state == .up || (s.port p).state == .resetting

/-! ## Extents (01 R3) -/

/-- The other copy number. -/
def CopyNo.other : CopyNo → CopyNo
  | .one => .two
  | .two => .one

/-- The copy of a number, if the extent has it (01 R3). -/
def Extent.copy? (x : Extent) : CopyNo → Option Copy
  | .one => some x.copy1
  | .two => x.copy2

/-- The copy of a number is present and CURRENT (01 R3). -/
def Extent.isCurrent (x : Extent) (c : CopyNo) : Bool := (x.copy? c).any fun y => y.state == .current

/-- The block after the extent's last (01 R11). -/
def Extent.stop (x : Extent) : Nat := x.first.toNat + x.length.toNat

/-- A volume block lies in the extent (01 R3). -/
def Extent.contains (x : Extent) (b : Nat) : Bool := decide (x.first.toNat ≤ b) && decide (b < x.stop)

/-- The port that a stored port byte names; a live record's byte is 0 to 3 (01 R14, log entry 19). -/
def portOf (b : Byte) : Port := Fin.ofNat 4 b.toNat

/-- The port of copy `c` (port 0 where the copy is absent, which no caller meets: log entry 19). -/
def Extent.portOfCopy (x : Extent) (c : CopyNo) : Port := ((x.copy? c).map fun y => portOf y.port).getD 0

/-- Where copy `c` serves volume block `b` (01 R3). -/
def Extent.targetOf (x : Extent) (c : CopyNo) (b : Nat) : Nat :=
  b - x.first.toNat + ((x.copy? c).map fun y => y.first.toNat).getD 0

/-- Put the state of copy `c` (01 R4). -/
def Extent.setCopy (x : Extent) (c : CopyNo) (st : CopyState) : Extent :=
  match c with
  | .one => { x with copy1 := { x.copy1 with state := st } }
  | .two => { x with copy2 := x.copy2.map fun y => { y with state := st } }

/-- Two runs of blocks share a block; the sums do not wrap (03 R42). -/
def overlap (s1 c1 s2 c2 : Nat) : Bool := decide (s1 < s2 + c2) && decide (s2 < s1 + c1)

/-! ## Slots (02 R28, R29) -/

/-- The contents of slot `n` of a holding that nothing has filled: no meaningful data (02 R29, log entry 12). -/
def unfilledBlock (n : Nat) : Block := (List.range 512).map fun i => Config.unfilledByte n i

/-- The blocks of a holding from `off`, `n` of them. -/
def readSlots (slots : List (Option Block)) (off n : Nat) : List Block :=
  ((slots.drop off).take n).zipIdx.map fun b => b.1.getD (unfilledBlock (off + b.2))

/-- Blocks written into a holding from `off`; slots not reached keep what they held (06 R90). -/
def writeSlots (slots : List (Option Block)) (off : Nat) (bs : List Block) : List (Option Block) :=
  slots.mapIdx fun i b => if off ≤ i ∧ i < off + bs.length then bs[i - off]? else b

/-! ## The outbound order and the links -/

/-- A CPL is produced: it joins the outbound order (02 R20). -/
def emit (c : Cpl) (s : State) : State := { s with outbound := s.outbound ++ [.cpl c] }

/-- A frame leaves on the link of port `p`. -/
def sendDown (p : Port) (f : DownFrame) (s : State) : State := { s with sent := s.sent ++ [.down p f] }

/-! ## The free of an entry (02 R37) -/

/-- The Initiator Table live count changes (02 R26). -/
def setLive (i : Initiator) (f : Nat → Nat) (s : State) : State :=
  { s with initiators := put s.initiators i { s.initiators[i] with liveCount := f s.initiators[i].liveCount } }

/-- The free reports of a data parent to the Map Unit and the Order Unit (02 R37 steps 5 and 6); each is taken as its own event (log entry 5). -/
def reportFree (p : Parent) (s : State) : State :=
  if p.volume = 0 then s else
  { s with mapReports := s.mapReports ++ [{ volume := p.volume, split := p.generation.isSome }]
           orderReports := s.orderReports ++ [{ volume := p.volume, parent := p.id }] }

/-- A parent's entry is freed (02 R37): key, slots, live count and place in admission order are released, and the reports sent. -/
def freeParent (id : ParentRef) (s : State) : State :=
  match s.parent? id with
  | none => s
  | some p =>
    reportFree p (setLive p.initiator (fun n => n - 1)
      { s with parents := s.parents.eraseP (fun q => q.id == id), freeSlots := s.freeSlots + p.slots.length })

/-- A parent's CPL is produced and its entry freed, in one event (02 R37). A reference that names no live parent produces nothing (log entry 7). -/
def complete (id : ParentRef) (st : Status) (fail : Option Nat) (residual : Nat) (payload : List Block) (s : State) : State :=
  match s.parent? id with
  | none => s
  | some p =>
    freeParent id (emit { initiator := p.initiator, tag := p.tag, reply := .command, status := st,
                          failBlock := fail, residual := residual, payload := payload } s)

/-- The CPL ABORTED of a parent: residual its count, no payload (07 R116, 06 R103). -/
def completeAborted (id : ParentRef) (s : State) : State :=
  match s.parent? id with
  | none => s
  | some p => complete id .aborted none p.count [] s

/-- A block is written into a control parent's slot (02 R29). -/
def fillSlot (id : ParentRef) (b : Block) (s : State) : State :=
  updParent id (fun p => { p with slots := writeSlots p.slots 0 [b] }) s

/-- The CPL of a control command: one block from the parent's slot, residual 0 for GOOD and 1 otherwise (09 R137). -/
def answerFromSlot (id : ParentRef) (st : Status) (s : State) : State :=
  match s.parent? id with
  | none => s
  | some p => complete id st none (if st = .good then 0 else 1) (readSlots p.slots 0 1) s

/-- The answer to a control command: the block goes into the parent's slot, and the CPL carries it (09 R137). -/
def answer (id : ParentRef) (st : Status) (b : Block) (s : State) : State :=
  answerFromSlot id st (fillSlot id b s)

/-- The answer of a control command with a result block (09 R137). -/
def answerResult (id : ParentRef) (st : Status) (detail : Nat) (s : State) : State :=
  answer id st (resultBlock detail) s

/-! ## Waits (02 R38, 07 R117) -/

/-- A parent is taken out of the wait that holds it. -/
def leaveWait (p : Parent) (s : State) : State :=
  match p.state with
  | .controlWait => { s with controlQueue := s.controlQueue.erase p.id }
  | .orderWait => { s with holds := put s.holds p.volume (s.holds[p.volume].filter fun h => h.parent != p.id) }
  | .splitWait => { s with splitWait := s.splitWait.erase p.id }
  | .switchWait => { s with switchHolds := put s.switchHolds p.volume (s.switchHolds[p.volume].erase p.id) }
  | .controlActive | .controlLong | .active | .aborting | .discarding => s

/-- The references of the QUEUED entries of a parent (05 R83). -/
def queuedSubs (id : ParentRef) (s : State) : List SubRef :=
  (s.subs.filter fun e => e.parent == id && e.issue.isNone).map SubCmd.id

/-- The class queues of a port without some entries; those behind close up in their order (05 R83). -/
def PortRec.without (gone : List SubRef) (r : PortRec) : PortRec :=
  { r with queues := mapRows (fun q => q.filter fun e => !gone.contains e) r.queues }

/-- The members of a piece without the references of entries freed without a result (06 R95). -/
def Piece.without (gone : List SubRef) (pc : Piece) : Piece :=
  { pc with members := pc.members.map fun m =>
      { m with sub := m.sub.bind fun e => if gone.contains e then none else some e } }

/-- Every QUEUED entry of a parent, on every port and in any position, is removed and freed without a result (05 R83). -/
def removeQueued (id : ParentRef) (s : State) : State :=
  updParent id (fun p => { p with pieces := p.pieces.map (Piece.without (queuedSubs id s)) })
    { s with ports := mapRows (PortRec.without (queuedSubs id s)) s.ports
             subs := s.subs.filter fun e => !(e.parent == id && e.issue.isNone) }

/-- A live data parent is aborted, by an ABT or a flush-all (07 R117, R118, 09 R147 step 2). Parents in other states are left as they are. -/
def abortParent (p : Parent) (s : State) : State :=
  match p.state with
  | .controlWait | .orderWait | .splitWait | .switchWait => completeAborted p.id (leaveWait p s)
  | .active =>
    if holdsIssued p.id (removeQueued p.id s) then setState p.id .aborting (removeQueued p.id s)
    else completeAborted p.id (removeQueued p.id s)
  | .controlActive | .controlLong | .aborting | .discarding => s

end Sys2Proof.Machine
end

