-- ==== Sys2Proof/Machine/Flags.lean ====
section
/-! DEFINITION. Notices and alerts: the Notice Queue, the sequence counter, the dropped count, the alert state and the ALR (09 R149 to R152). -/

namespace Sys2Proof.Machine

/-- A notice with only its kind; the rules that post one fill in what is present (09 R149). -/
def notice (k : NoticeKind) : NoticeBody :=
  { kind := k, port := none, volume := none, initiator := none, generation := none, ordinal := none, tag := none, reason := none }

/-- The sequence number of the record at the head of the Notice Queue (09 R152). -/
def State.oldest (s : State) : BitVec 32 :=
  match s.notices with
  | [] => s.seq
  | n :: _ => n.seq

/-- An ALR to an initiator joins the outbound order and the alert state becomes SENT (09 R152). -/
def sendAlr (m : Initiator) (s : State) : State :=
  { s with outbound := s.outbound ++ [.alr { initiator := m, queued := s.notices.length, oldest := s.oldest }]
           alert := .sent }

/-- The ALR of a stored notice: sent when the alert is ARMED and a manager exists (09 R150). -/
def alertStored (s : State) : State :=
  match s.alert, s.manager with
  | .armed, some m => sendAlr m s
  | .armed, none => s
  | .sent, _ => s

/-- A notice is stored with the counter's value, or dropped and counted when the queue holds 32 records (09 R150). -/
def post (b : NoticeBody) (s : State) : State :=
  if s.notices.length < 32 then
    alertStored { s with notices := s.notices ++ [{ seq := s.seq, body := b }], seq := s.seq + 1 }
  else { s with dropped := if s.dropped < 65535 then s.dropped + 1 else s.dropped }

/-- A port notice with its port and, where its kind has one, its reason (08 R132). -/
def postPort (k : NoticeKind) (p : Port) (reason : Option Nat) (s : State) : State :=
  post { notice k with port := some p, reason := reason } s

/-- A notice of a port and a received or downstream tag (07 R112, R113, 10 R158). -/
def postTag (k : NoticeKind) (p : Port) (tag : Byte) (s : State) : State :=
  post { notice k with port := some p, tag := some tag } s

end Sys2Proof.Machine
end

