-- ==== Sys2Proof/Machine/Issue.lean ====
section
/-! DEFINITION. The Dispatch Unit: class queues, tags, the window, the arbiter and the issue of a sub-command (chapter 5). -/

namespace Sys2Proof.Machine

/-- The number of tags of a port in a state that a test names. -/
def PortRec.countTags (r : PortRec) (f : TagState → Bool) : Nat := r.tags.toList.countP f

/-- A tag is ISSUED. -/
def TagState.isIssued : TagState → Bool
  | .issued _ => true
  | .free | .quarantined => false

/-- The FREE tags of a port (05 R75). -/
def PortRec.freeTags (r : PortRec) : Nat := r.countTags fun t => t == .free

/-- The ISSUED tags of a port (05 R75). -/
def PortRec.issuedTags (r : PortRec) : Nat := r.countTags TagState.isIssued

/-- The QUARANTINED tags of a port (05 R75). -/
def PortRec.quarantinedTags (r : PortRec) : Nat := r.countTags fun t => t == .quarantined

/-- The occupancy: ISSUED plus QUARANTINED tags (05 R75). -/
def PortRec.occupancy (r : PortRec) : Nat := r.issuedTags + r.quarantinedTags

/-- The lowest-numbered FREE tag (05 R81 step 2). -/
def PortRec.lowestFree (r : PortRec) : Option DTag := (List.finRange 16).find? fun t => r.tags[t] == .free

/-- The classes whose queues hold work, highest priority first. -/
def PortRec.busyClasses (r : PortRec) : List Class := (List.finRange 4).filter fun c => !(r.queues[c]).isEmpty

/-- The arbiter: the class whose queue gives up its head, and the pass count after the issue (05 R79). -/
def PortRec.arbiter (r : PortRec) : Option (Class × Nat) :=
  match r.busyClasses with
  | [] => none
  | [h] => some (h, 0)
  | h :: l :: _ => if r.passCount < 8 then some (h, r.passCount + 1) else some (l, 0)

/-- The blocks a SUB carries: for WRITE, the parent's slots from the piece's volume offset, as many as the count (05 R81). -/
def subPayload (e : SubCmd) (s : State) : List Block :=
  match e.op, s.parent? e.parent, e.piece with
  | .write, some p, some i => readSlots p.slots ((p.pieces[i]?.map Piece.offset).getD 0) e.count
  | _, _, _ => []

/-- The SUB frame of an entry under a tag (05 R81 step 4). -/
def subFrame (t : DTag) (e : SubCmd) (s : State) : DownFrame :=
  .sub { tag := t, op := e.op, targetStart := e.targetStart, count := e.count, payload := subPayload e s }

/-- The SUB of the entry a reference names is sent. -/
def sendSub (p : Port) (t : DTag) (e : SubRef) (s : State) : State :=
  match s.sub? e with
  | none => s
  | some x => sendDown p (subFrame t x s) s

/-- Entry `e`, the head of class queue `c` of port `p`, is issued under tag `t` (05 R81). -/
def issueEntry (p : Port) (c : Class) (passes : Nat) (t : DTag) (e : SubRef) (rest : List SubRef) (s : State) : State :=
  sendSub p t e
    (updSub e (fun x => { x with issue := some { tag := t, deadline := s.now + (s.port p).responseLimit } })
      (updPort p (fun r => { r with queues := put r.queues c rest, passCount := passes, tags := put r.tags t (.issued e) }) s))

/-- One issue of port `p`, when its condition holds: the port is UP, its occupancy is below its window, and a class queue holds work (05 R78, R79, R81). -/
def issueOne (p : Port) (s : State) : Option State :=
  if (s.port p).state = .up ∧ (s.port p).occupancy < (s.port p).window then
    match (s.port p).arbiter, (s.port p).lowestFree with
    | some (c, n), some t =>
      match (s.port p).queues[c] with
      | [] => none
      | e :: rest => some (issueEntry p c n t e rest s)
    | _, _ => none
  else none

/-- Issues of port `p`, one after another, while the condition holds, at most `n`. -/
def issueUpTo : Nat → Port → State → State
  | 0, _, s => s
  | n + 1, p, s =>
    match issueOne p s with
    | none => s
    | some t => issueUpTo n p t

/-- The issue test of port `p` (05 R78). Each issue takes one of 16 tags, so 16 issues are all an event can make. -/
def issueTest (p : Port) (s : State) : State := issueUpTo 16 p s

/-- An entry joins the tail of its port's class queue, and the issue test is made (05 R74, R78). -/
def joinQueue (e : SubCmd) (s : State) : State :=
  issueTest e.port (updPort e.port (fun r => { r with queues := put r.queues e.cls (r.queues[e.cls] ++ [e.id]) }) s)

/-- A tag of a port becomes FREE (05 R76). -/
def freeTag (p : Port) (t : DTag) (s : State) : State :=
  updPort p (fun r => { r with tags := put r.tags t .free }) s

/-- A tag of a port becomes QUARANTINED (07 R107 step 1). -/
def quarantineTag (p : Port) (t : DTag) (s : State) : State :=
  updPort p (fun r => { r with tags := put r.tags t .quarantined }) s

/-- Every QUARANTINED tag of a port becomes FREE (08 R124 step 4, R129 step 3). -/
def freeQuarantined (p : Port) (s : State) : State :=
  updPort p (fun r => { r with tags := mapRows (fun t => if t = .quarantined then .free else t) r.tags }) s

/-- The QUEUED entries of a port in queue order, class 0 first, head to tail (05 R82). -/
def PortRec.queued (r : PortRec) : List SubRef :=
  r.queues[(0 : Class)] ++ r.queues[(1 : Class)] ++ r.queues[(2 : Class)] ++ r.queues[(3 : Class)]

end Sys2Proof.Machine
end

