-- ==== Sys2Proof/Machine/Merge.lean ====
section
/-! DEFINITION. The Merge Unit: taking a result, read retry, write resolution, copy-state effects and the end of a parent (chapter 6). -/

namespace Sys2Proof.Machine

/-- A result as it is handed to the Merge Unit (06 R87). `issued` says whether the sub-command had been issued (06 R99). -/
structure Result where
  kind : ResultKind
  errorBlock : Option Nat
  payload : List Block
  issued : Bool
  deriving DecidableEq, Repr

/-- A result with no error block and no payload (06 R87). -/
def bareResult (k : ResultKind) (issued : Bool) : Result := { kind := k, errorBlock := none, payload := [], issued := issued }

/-- The status a result stands for (06 R87). -/
def ResultKind.status : ResultKind → Status
  | .ok => .good
  | .medium => .mediumError
  | .fault => .targetFault
  | .refused => .targetRefused
  | .timeout => .targetTimeout
  | .reset => .targetReset
  | .lost => .targetLost
  | .halted => .targetHalted

/-- The first volume block of a piece (06 R94). -/
def pieceFirst (p : Parent) (pc : Piece) : Nat := p.start + pc.offset

/-- The fail block of a result for a piece: translated from the error block for MEDIUM, the piece's first block otherwise (06 R94). -/
def failBlock (p : Parent) (pc : Piece) (e : SubCmd) (r : Result) : Nat :=
  match r.kind, r.errorBlock with
  | .medium, some b => pieceFirst p pc + (b - e.targetStart)
  | _, _ => pieceFirst p pc

/-- The state a result gives a piece that it alone resolves (06 R91, R95). -/
def pieceStateOf (k : ResultKind) (fail : Nat) : PieceState :=
  if k = .ok then .good else .failed k.status fail

/-- A piece of a parent changes. -/
def updPiece (id : ParentRef) (i : Nat) (f : Piece → Piece) (s : State) : State :=
  updParent id (fun p => { p with pieces := p.pieces.modify i f }) s

/-- A piece's state changes. -/
def setPieceState (id : ParentRef) (i : Nat) (x : PieceState) (s : State) : State :=
  updPiece id i (fun pc => { pc with state := x }) s

/-- The result is written into the member whose copy number is the entry's, which no longer holds the entry (06 R89 step 1). -/
def Piece.record (c : CopyNo) (m : MemberResult) (pc : Piece) : Piece :=
  { pc with members := pc.members.map fun x => if x.copy = c then { x with sub := none, result := some m } else x }

/-- An entry of the Sub-command Table is freed (06 R89 step 4). -/
def freeSub (e : SubRef) (s : State) : State := { s with subs := s.subs.eraseP fun x => x.id == e }

/-! ## The end of a parent (06 R89 step 5) -/

/-- The FAILED piece with the lowest fail block: its status and fail block (06 R101). -/
def lowestFailure : List Piece → Option (Status × Nat)
  | [] => none
  | pc :: rest =>
    match pc.state, lowestFailure rest with
    | .failed st b, some (st', b') => if b ≤ b' then some (st, b) else some (st', b')
    | .failed st b, none => some (st, b)
    | .pending, r => r
    | .good, r => r

/-- Every piece is resolved (06 R101). -/
def allResolved (ps : List Piece) : Bool := ps.all fun pc => pc.state != .pending

/-- The payload of a READ's CPL: the first `n` blocks of the parent's slots; nothing for another operation (06 R101, R102). -/
def readPayload (p : Parent) (n : Nat) : List Block := if p.op = .read then readSlots p.slots 0 n else []

/-- The CPL of an ACTIVE READ, WRITE or VERIFY parent whose pieces are all resolved (06 R101, R102). -/
def completePieces (p : Parent) (s : State) : State :=
  match lowestFailure p.pieces with
  | none => complete p.id .good none 0 (readPayload p p.count) s
  | some (st, b) => complete p.id st (some b) (p.start + p.count - b) (readPayload p (b - p.start)) s

/-- The status of a DRAIN: that of the lowest port whose entry is not GOOD, GOOD if there is none; entries stand in ascending port number (03 R52, R53). -/
def drainStatus (fs : List FlushResult) : Status :=
  ((fs.filterMap FlushResult.status).find? fun st => st != .good).getD .good

/-- The CPL of a DRAIN whose flush results are complete (03 R53). -/
def completeDrain (p : Parent) (s : State) : State :=
  complete p.id (drainStatus p.flushResults) none 0 [] s

/-- The end test of a parent (06 R89 step 5, R101, R103, R104, 03 R53). -/
def endTest (id : ParentRef) (s : State) : State :=
  match s.parent? id with
  | none => s
  | some p =>
    match p.state with
    | .active =>
      if p.op = .drain then
        if p.flushResults.all (fun f => f.status.isSome) then completeDrain p s else s
      else if allResolved p.pieces then completePieces p s else s
    | .aborting => if holdsEntry id s then s else completeAborted id s
    | .discarding => if holdsEntry id s then s else freeParent id s
    | .controlWait | .controlActive | .controlLong | .orderWait | .splitWait | .switchWait => s

/-! ## Reads and verifies (06 R91 to R93) -/

/-- The retry test: the other copy to go to, its port and the target start there, when the piece may be retried (06 R92). -/
def retryTarget (p : Parent) (pc : Piece) (c : CopyNo) (s : State) : Option (CopyNo × Port × Nat) :=
  if pc.retried ∨ p.state ≠ .active then none else
  match (s.vol p.volume).live[pc.ordinal]? with
  | none => none
  | some x =>
    if x.isCurrent c.other ∧ usable s (x.portOfCopy c.other) then
      some (c.other, x.portOfCopy c.other, x.targetOf c.other (pieceFirst p pc))
    else none

/-- The same entry is re-targeted to the other copy and joins that port's class queue (06 R92). -/
def retarget (e : SubCmd) (i : Nat) (c : CopyNo) (d : CopyNo × Port × Nat) (s : State) : State :=
  joinQueue { e with copy := some d.1, port := d.2.1, targetStart := d.2.2, issue := none }
    (updSub e.id (fun x => { x with copy := some d.1, port := d.2.1, targetStart := d.2.2, issue := none })
      (updPiece e.parent i (fun pc =>
        { pc with retried := true
                  members := pc.members.map fun m =>
                    if m.copy = c then { copy := d.1, sub := some e.id, result := none } else m }) s))

/-- Read data goes into the slots of an ACTIVE READ parent, from an OK or MEDIUM result (06 R89 step 2, R90). -/
def storeRead (p : Parent) (pc : Piece) (r : Result) (s : State) : State :=
  if p.op = .read ∧ p.state = .active ∧ (r.kind = .ok ∨ r.kind = .medium) then
    updParent p.id (fun q => { q with slots := writeSlots q.slots pc.offset r.payload }) s
  else s

/-- A READ or VERIFY piece of an ABORTING or DISCARDING parent fails on its result; one of an ACTIVE parent takes the state the result gives it (06 R89 step 3, R91). -/
def readPieceState (p : Parent) (k : ResultKind) (fail : Nat) : PieceState :=
  if p.state = .active then pieceStateOf k fail else .failed k.status fail

/-- A READ or VERIFY entry's result is taken (06 R89, R91, R92). -/
def mergeRead (e : SubCmd) (p : Parent) (i : Nat) (pc : Piece) (c : CopyNo) (r : Result) (s : State) : State :=
  match (if r.kind = .ok then none else retryTarget p pc c s) with
  | some d => retarget e i c d (storeRead p pc r s)
  | none =>
    endTest p.id (freeSub e.id (updPiece p.id i (fun q =>
      { q.record c { kind := r.kind, failBlock := failBlock p pc e r, issued := r.issued } with
        state := readPieceState p r.kind (failBlock p pc e r) }) (storeRead p pc r s)))

/-! ## Writes (06 R95 to R99) -/

/-- What the resolution of a two-copy write piece does to the copies (06 R96). -/
inductive Effect where
  | none
  | stale (c : CopyNo)
  | swap (newLead : CopyNo)
  deriving DecidableEq, Repr

/-- The result that a piece's member of a copy number holds (06 R95: its copy "was written" when there is one). -/
def Piece.resultOf (pc : Piece) (c : CopyNo) : Option MemberResult :=
  (pc.members.find? fun m => m.copy == c).bind Member.result

/-- Every member holds a result or had its entry freed without one (06 R95). -/
def Piece.settled (pc : Piece) : Bool := pc.members.all fun m => m.result.isSome || m.sub.isNone

/-- The resolution table of a two-copy piece, by the results of the lead and of the other copy and whether the other is CURRENT (06 R96, R99); `first` is the piece's first block. -/
def resolveTwo (lead : CopyNo) (otherCurrent : Bool) (first : Nat) : Option MemberResult → Option MemberResult → PieceState × Effect
  | some l, none => (pieceStateOf l.kind l.failBlock, .none)
  | some l, some o =>
    if l.kind = .ok then
      (.good, if o.kind ≠ .ok ∧ otherCurrent then .stale lead.other else .none)
    else if o.kind = .ok ∧ otherCurrent then (.good, .swap lead.other)
    else (.failed l.kind.status l.failBlock, if o.kind ≠ .ok ∧ otherCurrent then .stale lead.other else .none)
  | none, some o => (.failed .aborted first, if o.issued ∧ otherCurrent then .stale lead.other else .none)
  | none, none => (.pending, .none)

/-- The resolution of a settled WRITE piece against its live extent (06 R95, R96, R99). -/
def resolveWrite (x : Extent) (first : Nat) (pc : Piece) : PieceState × Effect :=
  match pc.members with
  | [m] =>
    match m.result with
    | some r => (pieceStateOf r.kind r.failBlock, .none)
    | none => (.pending, .none)
  | _ => resolveTwo x.lead (x.isCurrent x.lead.other) first (pc.resultOf x.lead) (pc.resultOf x.lead.other)

/-- A copy-state effect on an extent (01 R4, 06 R96). -/
def Extent.apply (x : Extent) : Effect → Extent
  | .none => x
  | .stale c => x.setCopy c .stale
  | .swap c => { x.setCopy c.other .stale with lead := c }

/-- The notice of a copy-state effect (06 R98). -/
def effectNotice (p : Parent) (pc : Piece) (x : Extent) (k : NoticeKind) (c : CopyNo) : NoticeBody :=
  { kind := k, port := some (x.portOfCopy c), volume := some p.volume, initiator := some p.initiator,
    generation := p.generation, ordinal := some pc.ordinal, tag := some p.tag, reason := some c.number }

/-- The Map Unit applies a copy-state effect to the live extent at an ordinal, whole (06 R97). -/
def changeCopies (v : Volume) (ordinal : Nat) (f : Effect) (s : State) : State :=
  updVol v (fun r => { r with live := r.live.modify ordinal fun x => x.apply f }) s

/-- A copy-state effect and its notice (06 R97, R98). -/
def applyEffect (p : Parent) (pc : Piece) (x : Extent) (f : Effect) (s : State) : State :=
  match f with
  | .none => s
  | .stale c => post (effectNotice p pc x .copyStale c) (changeCopies p.volume pc.ordinal f s)
  | .swap c => post (effectNotice p pc x .leadSwapped c) (changeCopies p.volume pc.ordinal f s)

/-- A settled WRITE piece is resolved; one that is not settled is left PENDING (06 R95). -/
def resolvePiece (id : ParentRef) (i : Nat) (s : State) : State :=
  match s.parent? id with
  | none => s
  | some p =>
    match p.pieces[i]? with
    | none => s
    | some pc =>
      if pc.settled then
        match (s.vol p.volume).live[pc.ordinal]? with
        | none => s
        | some x =>
          applyEffect p pc x (resolveWrite x (pieceFirst p pc) pc).2
            (setPieceState id i (resolveWrite x (pieceFirst p pc) pc).1 s)
      else s

/-- A WRITE entry's result is taken (06 R89, R95). -/
def mergeWrite (e : SubCmd) (p : Parent) (i : Nat) (pc : Piece) (c : CopyNo) (r : Result) (s : State) : State :=
  endTest p.id (freeSub e.id (resolvePiece p.id i (updPiece p.id i
    (Piece.record c { kind := r.kind, failBlock := failBlock p pc e r, issued := r.issued }) s)))

/-! ## Flushes (03 R52) -/

/-- A FLUSH entry's result is written into the flush results entry of its port (03 R52). -/
def mergeFlush (e : SubCmd) (r : Result) (s : State) : State :=
  endTest e.parent (freeSub e.id (updParent e.parent (fun p =>
    { p with flushResults := p.flushResults.map fun f =>
        if f.port = e.port then { f with status := some r.kind.status } else f }) s))

/-! ## Taking a result (06 R89) -/

/-- A result that finds no parent or piece to go to only frees its entry; no reachable state has one (04 R64). -/
def mergeInto (e : SubCmd) (p : Parent) (r : Result) (s : State) : State :=
  match e.op, e.piece, e.copy with
  | .flush, _, _ => mergeFlush e r s
  | .write, some i, some c =>
    match p.pieces[i]? with
    | some pc => mergeWrite e p i pc c r s
    | none => freeSub e.id s
  | .read, some i, some c =>
    match p.pieces[i]? with
    | some pc => mergeRead e p i pc c r s
    | none => freeSub e.id s
  | .verify, some i, some c =>
    match p.pieces[i]? with
    | some pc => mergeRead e p i pc c r s
    | none => freeSub e.id s
  | _, _, _ => freeSub e.id s

/-- The Merge Unit takes a result for an entry, as one event (06 R89). -/
def mergeResult (e : SubRef) (r : Result) (s : State) : State :=
  match s.sub? e with
  | none => s
  | some x =>
    match s.parent? x.parent with
    | none => freeSub e s
    | some p => mergeInto x p r s

/-- Results of one kind for a list of entries, each taken before the next (05 R82, 06 R87). -/
def mergeAll (k : ResultKind) (issued : Bool) (es : List SubRef) (s : State) : State :=
  es.foldl (fun t e => mergeResult e (bareResult k issued) t) s

/-- A port's class queues are emptied, each entry yielding a result, in queue order (05 R82). -/
def emptyQueues (p : Port) (k : ResultKind) (s : State) : State :=
  mergeAll k false (s.port p).queued (updPort p (fun r => { r with queues := Vector.replicate 4 [] }) s)

/-- An ISSUED tag of a port ends: it becomes FREE and its entry yields a result; another tag is left as it is (08 R124 step 3, R129 step 2). -/
def endIssued (p : Port) (k : ResultKind) (s : State) (t : DTag) : State :=
  match (s.port p).tags[t] with
  | .issued e => mergeResult e (bareResult k true) (freeTag p t s)
  | .free | .quarantined => s

/-- Every ISSUED tag of a port ends, in ascending tag number (08 R124, R129). -/
def endAllIssued (p : Port) (k : ResultKind) (s : State) : State :=
  (List.finRange 16).foldl (endIssued p k) s

end Sys2Proof.Machine
end

