-- ==== Sys2Proof/Machine/Split.lean ====
section
/-! DEFINITION. The Split Unit: the walk, the choice of copies, the cut, the split, the Split-Wait List and the switch holds (chapter 4). -/

namespace Sys2Proof.Machine

/-! ## The walk (01 R10, 04 R57 to R60) -/

/-- A run: the largest part of a range that lies in one extent (04 R57). -/
structure Run where
  ordinal : Nat
  extent : Extent
  first : Nat
  length : Nat
  deriving DecidableEq, Repr

/-- The runs of the range [pos, stop) over live extents from ordinal `i` on, in live order, and the block the walk has come to (04 R57, log entry 24). -/
def walkRuns : Nat → List Extent → Nat → Nat → List Run × Nat
  | _, [], pos, _ => ([], pos)
  | i, x :: xs, pos, stop =>
    if pos < stop ∧ x.contains pos then
      ({ ordinal := i, extent := x, first := pos, length := min stop x.stop - pos }
          :: (walkRuns (i + 1) xs (min stop x.stop) stop).1,
        (walkRuns (i + 1) xs (min stop x.stop) stop).2)
    else walkRuns (i + 1) xs pos stop

/-- The Map Unit's answer for a range of a volume that is not SWITCHING: the runs, or none for a hole (01 R10). -/
def lookup (live : List Extent) (start count : Nat) : Option (List Run) :=
  if (walkRuns 0 live start (start + count)).2 = start + count then some (walkRuns 0 live start (start + count)).1 else none

/-- The copy a READ or VERIFY run is served from (04 R61). -/
def readCopy (s : State) (x : Extent) : CopyNo :=
  if usable s (x.portOfCopy x.lead) then x.lead
  else if x.isCurrent x.lead.other ∧ usable s (x.portOfCopy x.lead.other) then x.lead.other
  else x.lead

/-- The copies a run is served from: one for READ and VERIFY, the lead and a CURRENT other copy for WRITE (04 R61, R62). -/
def chosenCopies (s : State) (op : Op) (x : Extent) : List CopyNo :=
  if op = .write then (if x.isCurrent x.lead.other then [x.lead, x.lead.other] else [x.lead])
  else [readCopy s x]

/-- The maximum transfer that applies to a run: the smallest of its copies' ports (04 R58). -/
def runTransfer (s : State) (x : Extent) : List CopyNo → Nat
  | [] => 0
  | [c] => (s.port (x.portOfCopy c)).maxTransfer
  | c :: cs => min (s.port (x.portOfCopy c)).maxTransfer (runTransfer s x cs)

/-- The lengths a run is cut into: full pieces, then what remains (04 R58). -/
def cutLengths (len mt : Nat) : List Nat :=
  List.replicate (len / mt) mt ++ if len % mt = 0 then [] else [len % mt]

/-- A member of a piece before its entry is allocated: the copy, its port, its target start (04 R58). -/
structure PlannedMember where
  copy : CopyNo
  port : Port
  target : Nat
  deriving DecidableEq, Repr

/-- A piece before the split (04 R58, R63). -/
structure PlannedPiece where
  first : Nat
  length : Nat
  ordinal : Nat
  members : List PlannedMember
  deriving DecidableEq, Repr

/-- The pieces of a run laid one after another from a volume block (04 R58). -/
def layPieces (r : Run) (cs : List CopyNo) : Nat → List Nat → List PlannedPiece
  | _, [] => []
  | b, n :: ns =>
    { first := b, length := n, ordinal := r.ordinal,
      members := cs.map fun c => { copy := c, port := r.extent.portOfCopy c, target := r.extent.targetOf c b } }
      :: layPieces r cs (b + n) ns

/-- The pieces of one run, cut from its first block (04 R58). -/
def cutRun (s : State) (op : Op) (r : Run) : List PlannedPiece :=
  layPieces r (chosenCopies s op r.extent) r.first
    (cutLengths r.length (runTransfer s r.extent (chosenCopies s op r.extent)))

/-- The ports that hold a CURRENT copy of any live extent, in ascending number (01 R10, 04 R71). -/
def drainPorts (live : List Extent) : List Port :=
  (List.finRange 4).filter fun p =>
    live.any fun x => (x.isCurrent .one && x.portOfCopy .one == p) || (x.isCurrent .two && x.portOfCopy .two == p)

/-! ## The decision at the split stage (04 R56) -/

/-- What the split stage finds for a parent, apart from whether it must queue (04 R56). -/
inductive Verdict where
  | switching
  | completed (st : Status) (fail : Option Nat) (residual : Nat)
  | pieces (ps : List PlannedPiece)
  | flushes (ports : List Port)
  deriving DecidableEq, Repr

/-- Cases 1 and 2 of the split stage, and the walk that case 3 uses (04 R56, R59, R60, R71). -/
def verdict (s : State) (p : Parent) : Verdict :=
  if (s.vol p.volume).state = .switching then .switching
  else if p.op = .drain then
    if drainPorts (s.vol p.volume).live = [] then .completed .good none 0
    else .flushes (drainPorts (s.vol p.volume).live)
  else
    match lookup (s.vol p.volume).live p.start p.count with
    | none => .completed .unmapped (some p.start) p.count
    | some rs =>
      if (rs.flatMap (cutRun s p.op)).length > 16 then .completed .fragmented (some p.start) p.count
      else .pieces (rs.flatMap (cutRun s p.op))

/-- The Sub-command Table entries a split takes (04 R65). -/
def Verdict.need : Verdict → Nat
  | .switching => 0
  | .completed _ _ _ => 0
  | .pieces ps => (ps.map fun q => q.members.length).sum
  | .flushes ports => ports.length

/-! ## The split (04 R65 to R67) -/

/-- The operation of a data parent's sub-commands (04 R65 step 2). -/
def subOpOf : Op → SubOp
  | .read => .read
  | .write => .write
  | .verify => .verify
  | .drain => .flush

/-- The members of piece `i`, each with the reference of its entry, from reference `e` on. -/
def membersOf (e : SubRef) (ms : List PlannedMember) : List Member :=
  ms.zipIdx.map fun m => { copy := m.1.copy, sub := some (e + m.2), result := none }

/-- The entries of the members of piece `i` of parent `p`, from reference `e` on (04 R65 step 2). -/
def entriesOf (p : Parent) (i : Nat) (q : PlannedPiece) (e : SubRef) : List SubCmd :=
  q.members.zipIdx.map fun m =>
    { id := e + m.2, parent := p.id, piece := some i, copy := some m.1.copy, port := m.1.port, op := subOpOf p.op,
      cls := p.cls, targetStart := m.1.target, count := q.length, issue := none }

/-- The piece records of a split from piece `i` and reference `e` on (04 R63). -/
def pieceRecords (p : Parent) : SubRef → List PlannedPiece → List Piece
  | _, [] => []
  | e, q :: qs =>
    { offset := q.first - p.start, length := q.length, ordinal := q.ordinal, members := membersOf e q.members,
      retried := false, state := .pending } :: pieceRecords p (e + q.members.length) qs

/-- The entries of a split from piece `i` and reference `e` on, in piece order, lead member first (04 R65, R67). -/
def pieceEntries (p : Parent) : Nat → SubRef → List PlannedPiece → List SubCmd
  | _, _, [] => []
  | i, e, q :: qs => entriesOf p i q e ++ pieceEntries p (i + 1) (e + q.members.length) qs

/-- The FLUSH entries of a DRAIN, one a port, from reference `e` on (04 R71). -/
def flushEntries (p : Parent) (e : SubRef) (ports : List Port) : List SubCmd :=
  ports.zipIdx.map fun q =>
    { id := e + q.2, parent := p.id, piece := none, copy := none, port := q.1, op := .flush, cls := p.cls,
      targetStart := 0, count := 0, issue := none }

/-- Steps 1 to 4 of a split: the entries are allocated, the parent becomes ACTIVE with its generation and its pieces or pending flush results, and the split is reported (04 R65). -/
def allocate (p : Parent) (es : List SubCmd) (ps : List Piece) (fs : List FlushResult) (s : State) : State :=
  updVol p.volume (fun r => { r with splitParents := r.splitParents + 1 })
    (updParent p.id (fun q => { q with state := .active, generation := some (s.vol p.volume).generation, pieces := ps, flushResults := fs })
      { s with subs := s.subs ++ es, nextSub := s.nextSub + es.length })

/-- A new entry whose port is usable joins its class queue (04 R67). -/
def queueNew (s : State) (e : SubCmd) : State := if usable s e.port then joinQueue e s else s

/-- A new entry whose port is DOWN or HALTED fails at once (04 R66). -/
def failNew (s : State) (e : SubCmd) : State :=
  match (s.port e.port).state with
  | .down => mergeResult e.id (bareResult .lost false) s
  | .halted => mergeResult e.id (bareResult .halted false) s
  | .up | .resetting => s

/-- Step 5 of a split: the entries are queued, then those that fail at once are handed to the Merge Unit (04 R66, R67). -/
def handOver (es : List SubCmd) (s : State) : State := es.foldl failNew (es.foldl queueNew s)

/-- A parent is split, as one event (04 R65). -/
def split (p : Parent) (v : Verdict) (s : State) : State :=
  match v with
  | .pieces ps =>
    handOver (pieceEntries p 0 s.nextSub ps)
      (allocate p (pieceEntries p 0 s.nextSub ps) (pieceRecords p s.nextSub ps) p.flushResults s)
  | .flushes ports =>
    handOver (flushEntries p s.nextSub ports)
      (allocate p (flushEntries p s.nextSub ports) [] (ports.map fun q => { port := q, status := none }) s)
  | .switching | .completed _ _ _ => s

/-! ## Switch holds and the Split-Wait List (04 R68 to R70) -/

/-- A reference inserted into a list kept in admission order; references rise in admission order (02 R23, log entry 1). -/
def insertAdmitted (id : ParentRef) : List ParentRef → List ParentRef
  | [] => [id]
  | x :: xs => if id < x then id :: x :: xs else x :: insertAdmitted id xs

/-- A parent goes into its volume's switch hold (04 R70). -/
def holdSwitch (p : Parent) (s : State) : State :=
  setState p.id .switchWait { s with switchHolds := put s.switchHolds p.volume (insertAdmitted p.id s.switchHolds[p.volume]) }

/-- A parent joins the tail of the Split-Wait List (04 R56 case 4, R68). -/
def waitSplit (p : Parent) (s : State) : State :=
  setState p.id .splitWait { s with splitWait := s.splitWait ++ [p.id] }

/-- A parent arrives at the split stage from the Order Unit or a switch hold (04 R55, R56). -/
def arrive (id : ParentRef) (s : State) : State :=
  match s.parent? id with
  | none => s
  | some p =>
    match verdict s p with
    | .switching => holdSwitch p s
    | .completed st fail res => complete id st fail res [] s
    | .pieces ps =>
      if s.splitWait = [] ∧ (Verdict.pieces ps).need ≤ s.freeSubs then split p (.pieces ps) s else waitSplit p s
    | .flushes ports =>
      if s.splitWait = [] ∧ (Verdict.flushes ports).need ≤ s.freeSubs then split p (.flushes ports) s else waitSplit p s

/-- Several parents handed over in one event, one after another (04 R55). -/
def arriveAll (ids : List ParentRef) (s : State) : State := ids.foldl (fun t id => arrive id t) s

/-- The Split-Wait List without its head. -/
def popSplitWait (s : State) : State := { s with splitWait := s.splitWait.tail }

/-- A try at the head of the Split-Wait List: the state after it when the head left the list, none when it stays (04 R56, R68). -/
def tryOnce (s : State) : Option State :=
  match s.splitWait with
  | [] => none
  | id :: _ =>
    match s.parent? id with
    | none => some (popSplitWait s)
    | some p =>
      match verdict s p with
      | .switching => some (holdSwitch p (popSplitWait s))
      | .completed st fail res => some (complete id st fail res [] (popSplitWait s))
      | .pieces ps =>
        if (Verdict.pieces ps).need ≤ s.freeSubs then some (split p (.pieces ps) (popSplitWait s)) else none
      | .flushes ports =>
        if (Verdict.flushes ports).need ≤ s.freeSubs then some (split p (.flushes ports) (popSplitWait s)) else none

/-- Tries go on down the Split-Wait List, at most `n`, until one leaves its head in place or the list is empty (04 R68). -/
def tryUpTo : Nat → State → State
  | 0, s => s
  | n + 1, s =>
    match tryOnce s with
    | none => s
    | some t => tryUpTo n t

/-- The Split Unit tries the head of the Split-Wait List, and then the next heads in turn; nothing joins the list meanwhile (04 R68). -/
def tryHeads (s : State) : State := tryUpTo s.splitWait.length s

/-- The head is tried once an event's frees are all taken, if the event has raised the free Sub-command Table count from that of `before` (04 R68). -/
def tryIfFreed (before s : State) : State := if s.subs.length < before.subs.length then tryHeads s else s

end Sys2Proof.Machine
end

