-- ==== Sys2Proof/Machine/Volumes.lean ====
section
/-! DEFINITION. The Map Unit: DEFINE, STAGE, CLEAR, COMMIT and its validation, the swap, REMOVE and the removal (chapter 1). -/

namespace Sys2Proof.Machine

/-! ## Validation and the swap (01 R14, R16) -/

/-- Two records overlap in volume blocks (01 R14). -/
def Extent.overlaps (x y : Extent) : Bool := overlap x.first.toNat x.length.toNat y.first.toNat y.length.toNat

/-- A copy's port number and target range pass validation (01 R14). -/
def Copy.valid (length : Nat) (c : Copy) : Bool :=
  decide (c.port.toNat ≤ 3) && decide (c.first.toNat + length ≤ 4294967296)

/-- A staged record passes every check but that of overlap (01 R14). -/
def Extent.valid (capacity : Nat) (x : Extent) : Bool :=
  decide (0 < x.length.toNat) && decide (x.length.toNat ≤ 2147483648) && decide (x.stop ≤ capacity)
    && x.copy1.valid x.length.toNat && x.copy2.all (Copy.valid x.length.toNat)
    && x.isCurrent x.lead && x.copy2.all fun c => c.port != x.copy1.port

/-- The ordinal of the first bad staged record, in staging order from ordinal `i`; `before` are the records of lower ordinal (01 R14). -/
def firstBad (capacity : Nat) : Nat → List Extent → List Extent → Option Nat
  | _, _, [] => none
  | i, before, x :: xs =>
    if x.valid capacity ∧ ¬ before.any x.overlaps then firstBad capacity (i + 1) (before ++ [x]) xs else some i

/-- A record inserted into a list sorted by first volume block (01 R5). -/
def insertExtent (x : Extent) : List Extent → List Extent
  | [] => [x]
  | y :: ys => if x.first.toNat ≤ y.first.toNat then x :: y :: ys else y :: insertExtent x ys

/-- Records sorted by first volume block (01 R5, R16 step 2). -/
def sortExtents (xs : List Extent) : List Extent := xs.foldr insertExtent []

/-- Steps 1 to 5 of the swap on the Volume Table and the Extent Pool (01 R16). -/
def swapMaps (v : Volume) (s : State) : State :=
  updVol v (fun r => { r with live := sortExtents r.staged, staged := [], generation := r.generation + 1,
                              state := .online, longOp := none, longParent := none })
    { s with freeExtents := s.freeExtents + (s.vol v).live.length }

/-- Step 6 of the swap: the parents of the switch hold are released to the split stage in admission order (01 R16, 04 R70). -/
def releaseSwitch (v : Volume) (s : State) : State :=
  arriveAll s.switchHolds[v] { s with switchHolds := put s.switchHolds v [] }

/-- The CPL of a long operation's end, when it has a parent (01 R16 step 7, R17 step 4, 09 R137). -/
def finishLong (parent : Option ParentRef) (st : Status) (s : State) : State :=
  match parent with
  | some id => answerResult id st 0 s
  | none => s

/-- The commit swap, as one event (01 R16). -/
def commitSwap (v : Volume) (s : State) : State :=
  finishLong (s.vol v).longParent .good (releaseSwitch v (swapMaps v s))

/-- A volume's column of the Access Matrix becomes NONE (01 R17 step 2). -/
def clearColumn (v : Volume) (s : State) : State :=
  { s with access := mapRows (fun row => put row v .none) s.access }

/-- The removal, as one event (01 R17). The Active Range List of a volume that is ABSENT is empty (03 R40, log entry 6). -/
def removal (v : Volume) (s : State) : State :=
  finishLong (s.vol v).longParent .good
    (updVol v (fun _ => VolRec.reset)
      (clearColumn v { s with freeExtents := s.freeExtents + (s.vol v).live.length + (s.vol v).staged.length
                              ranges := put s.ranges v [] }))

/-! ## The operations the Control Unit passes on. Each answers the CPL of the command `id` (09 R143). -/

/-- The ordinal of the first live extent that ends beyond a capacity, from ordinal `i` on (01 R11). -/
def firstBeyond (capacity : Nat) : Nat → List Extent → Option Nat
  | _, [] => none
  | i, x :: xs => if capacity < x.stop then some i else firstBeyond capacity (i + 1) xs

/-- DEFINE (01 R11). -/
def takeDefine (id : ParentRef) (v : Volume) (capacity : Nat) (wp : Bool) (s : State) : State :=
  match (s.vol v).state with
  | .absent =>
    if capacity = 0 then answerResult id .badEntry 0 s
    else answerResult id .good 0 (updVol v (fun r =>
      { r with state := .online, capacity := some capacity, writeProtected := wp, generation := 0,
               live := [], staged := [], longOp := none }) s)
  | .online =>
    if capacity = 0 then answerResult id .badEntry 0 s
    else match firstBeyond capacity 0 (s.vol v).live with
      | some i => answerResult id .badEntry i s
      | none => answerResult id .good 0 (updVol v (fun r => { r with capacity := some capacity, writeProtected := wp }) s)
  | .switching | .retiring => answerResult id .inProgress 0 s

/-- STAGE with records to add: `n` is the record count of the write data `b` (01 R12, 10 R160). -/
def takeStage (id : ParentRef) (v : Volume) (n : Nat) (b : Block) (s : State) : State :=
  match (s.vol v).state with
  | .absent => answerResult id .badVolume 0 s
  | .switching | .retiring => answerResult id .inProgress 0 s
  | .online =>
    if n = 0 ∨ 16 < n then answerResult id .badEntry 0 s
    else if s.freeExtents < n then answerResult id .tableFull 0 s
    else answerResult id .good 0
      (updVol v (fun r => { r with staged := r.staged ++ extentsOf b n }) { s with freeExtents := s.freeExtents - n })

/-- CLEAR (01 R13). -/
def takeClear (id : ParentRef) (v : Volume) (s : State) : State :=
  match (s.vol v).state with
  | .absent => answerResult id .badVolume 0 s
  | .switching | .retiring => answerResult id .inProgress 0 s
  | .online =>
    answerResult id .good 0
      (updVol v (fun r => { r with staged := [] }) { s with freeExtents := s.freeExtents + (s.vol v).staged.length })

/-- A commit that passes validation: the volume becomes SWITCHING and the parent CONTROL_LONG; the swap is taken at once when no split parent is left (01 R14). -/
def startCommit (id : ParentRef) (v : Volume) (s : State) : State :=
  if (s.vol v).splitParents = 0 then
    commitSwap v (setState id .controlLong (updVol v (fun r =>
      { r with state := .switching, longOp := some .commit, longParent := some id }) s))
  else setState id .controlLong (updVol v (fun r =>
      { r with state := .switching, longOp := some .commit, longParent := some id }) s)

/-- COMMIT (01 R14). -/
def takeCommit (id : ParentRef) (v : Volume) (s : State) : State :=
  match (s.vol v).state with
  | .absent => answerResult id .badVolume 0 s
  | .switching | .retiring => answerResult id .inProgress 0 s
  | .online =>
    match firstBad ((s.vol v).capacity.getD 0) 0 [] (s.vol v).staged with
    | some i => answerResult id .badEntry i s
    | none => startCommit id v s

/-- A remove that is accepted: the volume becomes RETIRING; removal is taken at once when no parent is live (01 R17). -/
def startRemove (id : ParentRef) (v : Volume) (s : State) : State :=
  if (s.vol v).liveParents = 0 then
    removal v (setState id .controlLong (updVol v (fun r =>
      { r with state := .retiring, longOp := some .remove, longParent := some id }) s))
  else setState id .controlLong (updVol v (fun r =>
      { r with state := .retiring, longOp := some .remove, longParent := some id }) s)

/-- REMOVE (01 R17). -/
def takeRemove (id : ParentRef) (v : Volume) (s : State) : State :=
  match (s.vol v).state with
  | .absent => answerResult id .badVolume 0 s
  | .switching | .retiring => answerResult id .inProgress 0 s
  | .online => startRemove id v s

/-! ## Reports to the Map Unit (01 R9, R18) -/

/-- A free report lowers the parent counts (01 R9). -/
def lowerCounts (r : MapReport) (s : State) : State :=
  updVol r.volume (fun x => { x with liveParents := x.liveParents - 1
                                     splitParents := if r.split then x.splitParents - 1 else x.splitParents }) s

/-- What a lowered count ends: the wait of a commit, or of a removal (01 R9, R15, R17). -/
def endWaits (r : MapReport) (s : State) : State :=
  match (s.vol r.volume).state with
  | .switching => if r.split ∧ (s.vol r.volume).splitParents = 0 then commitSwap r.volume s else s
  | .retiring => if (s.vol r.volume).liveParents = 0 then removal r.volume s else s
  | .absent | .online => s

/-- The Map Unit takes a free report (01 R9). -/
def takeMapReport (r : MapReport) (s : State) : State := endWaits r (lowerCounts r s)

/-- The long operation parent of a volume becomes none, when it is the parent that is gone (01 R18). -/
def takeGoneMap (g : GoneMap) (s : State) : State :=
  updVol g.volume (fun r => if r.longParent = some g.parent then { r with longParent := none } else r) s

end Sys2Proof.Machine
end

