-- ==== Sys2Proof/Machine/Ports.lean ====
section
/-! DEFINITION. Target Port states: link events, the reset exchange, halting, deadlines, TCPLs, port resets and the end of a flush (chapters 7 and 8, 09 R148). -/

namespace Sys2Proof.Machine

/-! ## The end of a port's reset (08 R130, R131, 09 R148) -/

/-- The end test of a flush: the record is removed and its parent's CPL GOOD produced when no port is awaited (09 R148). -/
def flushEndTest (s : State) : State :=
  match s.flush with
  | none => s
  | some f => if f.awaited = [] then finishLong f.parent .good { s with flush := none } else s

/-- One flush waiter is told that a port's reset has ended: the port leaves the ports awaited, and the end test is made (08 R131, 09 R148). -/
def tellFlush (p : Port) (s : State) (op : ParentRef) : State :=
  match s.flush with
  | none => s
  | some f => if f.op = op then flushEndTest { s with flush := some { f with awaited := f.awaited.filter fun q => q ≠ p } } else s

/-- The flush waiters of a port are told in list order, and the list becomes empty (08 R124, R125, R126). -/
def endFlushWaiters (p : Port) (s : State) : State :=
  (s.port p).flushWaiters.foldl (tellFlush p) (updPort p (fun r => { r with flushWaiters := [] }) s)

/-- The pending management reset ends with a status and becomes none (08 R130). -/
def endManagementReset (p : Port) (st : Status) (s : State) : State :=
  finishLong (s.port p).pendingReset st (updPort p (fun r => { r with pendingReset := none }) s)

/-! ## Resets (08 R123, R126, R129, R131) -/

/-- A TRST is sent as attempt `n`, and the reset timer started with the response limit in force (08 R123, R126, R129). -/
def sendTrst (p : Port) (n : Nat) (s : State) : State :=
  sendDown p .trst (updPort p (fun r => { r with attempts := n, resetTimer := some (s.now + r.responseLimit) }) s)

/-- Steps 1 to 4 of a reset of a port that is UP or HALTED (08 R129). -/
def beginReset (p : Port) (s : State) : State :=
  sendTrst p 1 (freeQuarantined p (endAllIssued p .reset
    (updPort p (fun r => { r with state := .resetting, reason := none }) s)))

/-- A flush-all waits for a port: it joins the tail of the port's flush waiters, and the port joins the ports awaited (08 R131, 09 R147 step 3). -/
def awaitPort (op : ParentRef) (p : Port) (s : State) : State :=
  { updPort p (fun r => { r with flushWaiters := r.flushWaiters ++ [op] }) s with
    flush := s.flush.map fun f => { f with awaited := f.awaited ++ [p] } }

/-- The Target Port Unit takes a flush-all's request (08 R131); `op` is the flush-all. A reset it begins ends with a try at the Split-Wait List (08 R129 step 6). -/
def takeFlushRequest (op : ParentRef) (s : State) (p : Port) : State :=
  match (s.port p).state with
  | .down => s
  | .resetting => awaitPort op p s
  | .up | .halted => tryHeads (awaitPort op p (beginReset p s))

/-- A management port reset request is accepted by the port as its pending reset (08 R128). -/
def attachReset (id : ParentRef) (p : Port) (s : State) : State :=
  setState id .controlLong (updPort p (fun r => { r with pendingReset := some id }) s)

/-- The Target Port Unit takes a management port reset request (08 R128, R129); step 6 tries the Split-Wait List. -/
def takePortReset (id : ParentRef) (p : Port) (s : State) : State :=
  match (s.port p).state with
  | .up | .halted => tryHeads (attachReset id p (beginReset p s))
  | .resetting =>
    if (s.port p).pendingReset = none then attachReset id p s else answerResult id .inProgress 0 s
  | .down => answerResult id .targetLost 0 s

/-! ## Halting (07 R110, 08 R126, R127) -/

/-- A port goes HALTED: state and reason, the notice, the emptied queues (08 R126, R127 steps 1 to 3). -/
def haltPort (p : Port) (why : HaltReason) (s : State) : State :=
  emptyQueues p .halted (postPort .portHalted p (some why.code)
    (updPort p (fun r => { r with state := .halted, reason := some why, resetTimer := none }) s))

/-- The halting test of a port (07 R110), with the try at the Split-Wait List that ends its event: without condition when the port halts (08 R127 step 4), and otherwise when the event has freed an entry since `before` (04 R68, 07 R107 step 5). -/
def haltingTest (p : Port) (before s : State) : State :=
  if (s.port p).state = .up ∧ (s.port p).window ≤ (s.port p).quarantinedTags then tryHeads (haltPort p .tagsExhausted s)
  else tryIfFreed before s

/-! ## Link events (08 R123, R124) -/

/-- The target link comes up; it comes up only from down (08 R123). -/
def takeLinkUp (p : Port) (s : State) : State :=
  if (s.port p).state = .down then
    sendTrst p 1 (updPort p (fun r => { r with state := .resetting, reason := none }) s)
  else s

/-- Steps 1 to 7 of the loss of a target link (08 R124). -/
def losePort (p : Port) (s : State) : State :=
  endFlushWaiters p (endManagementReset p .targetLost (emptyQueues p .lost (freeQuarantined p (endAllIssued p .lost
    (postPort .portDown p none (updPort p (fun r => { r with state := .down, reason := none, resetTimer := none }) s))))))

/-- The loss of the target link, in any state but DOWN (08 R124); step 8 tries the Split-Wait List. -/
def takeLinkLost (p : Port) (s : State) : State :=
  if (s.port p).state = .down then s else tryHeads (losePort p s)

/-! ## TRDY and the reset timer (08 R125, R126) -/

/-- A TRDY taken while RESETTING: the port becomes UP and issues (08 R125, 05 R84). -/
def endReset (p : Port) (s : State) : State :=
  issueTest p (updPort p (fun r => { r with passCount := 0 })
    (endFlushWaiters p (endManagementReset p .good
      (postPort .portUp p (some (s.port p).attempts)
        (updPort p (fun r => { r with state := .up, resetTimer := none }) s)))))

/-- A TRDY frame (08 R125). -/
def takeTrdy (p : Port) (s : State) : State :=
  match (s.port p).state with
  | .resetting => endReset p s
  | .down | .up | .halted => s

/-- The third TRST went unanswered; the Split-Wait List is tried at the end (08 R126). -/
def resetFailed (p : Port) (s : State) : State :=
  tryHeads (endFlushWaiters p (endManagementReset p .targetTimeout (haltPort p .resetUnanswered s)))

/-- The reset timer of a port is due: it runs, and its earliest moment of expiry has come (00 section 7.2, 08 R126). -/
def resetTimerDue (p : Port) (s : State) : Bool :=
  (s.port p).state == .resetting && (s.port p).resetTimer.any fun t => decide (t ≤ s.now)

/-- The expiry of the reset timer (08 R126). -/
def takeResetTimer (p : Port) (s : State) : State :=
  if resetTimerDue p s then
    if (s.port p).attempts < 3 then sendTrst p ((s.port p).attempts + 1) s else resetFailed p s
  else s

/-! ## Deadlines (07 R106 to R110) -/

/-- The entry ISSUED under a tag of a port. -/
def issuedUnder (p : Port) (t : DTag) (s : State) : Option SubCmd :=
  match (s.port p).tags[t] with
  | .issued e => s.sub? e
  | .free | .quarantined => none

/-- The deadline of an entry has come to its earliest moment of expiry (00 section 7.2, 07 R106). -/
def deadlineDue (e : SubCmd) (s : State) : Bool := e.issue.any fun i => decide (i.deadline ≤ s.now)

/-- The notice SUB_EXPIRED (07 R108). -/
def expiredNotice (p : Port) (t : DTag) (e : SubCmd) (s : State) : NoticeBody :=
  { notice .subExpired with port := some p, tag := some (BitVec.ofNat 8 t.val), volume := (s.parent? e.parent).map Parent.volume }

/-- The expiry of the deadline of entry `e`, ISSUED under tag `t` of port `p` (07 R107). -/
def expire (p : Port) (t : DTag) (e : SubCmd) (s : State) : State :=
  haltingTest p s (mergeResult e.id (bareResult .timeout true)
    (post (expiredNotice p t e s) (quarantineTag p t s)))

/-- A deadline expiry, when one is due under that tag (07 R106, R107). -/
def takeDeadline (p : Port) (t : DTag) (s : State) : State :=
  match issuedUnder p t s with
  | none => s
  | some e => if deadlineDue e s then expire p t e s else s

/-! ## TCPLs (06 R88, 07 R111 to R113, 10 R158) -/

/-- The result kind of a TCPL's result byte; above 03h names none (10 R158). -/
def tcplKind (b : Byte) : Option ResultKind :=
  if b = 0 then some .ok else if b = 1 then some .medium else if b = 2 then some .fault
  else if b = 3 then some .refused else none

/-- The error block of a TCPL, when its flag shows it present (10 R156, section 10.3). -/
def errorOf (f : TcplFrame) : Option Nat := if f.flags.getLsbD 0 then some f.errorBlock.toNat else none

/-- The contents of a TCPL are fit for the entry as it was issued (06 R88). -/
def tcplFit (e : SubCmd) (f : TcplFrame) (k : ResultKind) : Bool :=
  match k with
  | .ok => (errorOf f).isNone && f.payload.length == (if e.op = .read then e.count else 0)
  | .medium =>
    if e.op = .flush then f.payload.isEmpty
    else (errorOf f).any fun b => decide (e.targetStart ≤ b) && decide (b < e.targetStart + e.count)
          && f.payload.length == (if e.op = .read then b - e.targetStart else 0)
  | .fault | .refused => (errorOf f).isNone && f.payload.isEmpty
  | .timeout | .reset | .lost | .halted => false

/-- The result handed over for a TCPL: its own when its contents are fit, FAULT otherwise (06 R88). -/
def tcplResult (e : SubCmd) (f : TcplFrame) : Result :=
  match tcplKind f.result with
  | none => bareResult .fault true
  | some k => if tcplFit e f k then { kind := k, errorBlock := errorOf f, payload := f.payload, issued := true }
              else bareResult .fault true

/-- A TCPL for an ISSUED tag (06 R88). -/
def takeAnswer (p : Port) (t : DTag) (e : SubCmd) (f : TcplFrame) (s : State) : State :=
  tryIfFreed s (issueTest p (mergeResult e.id (tcplResult e f) (freeTag p t s)))

/-- A late completion: a TCPL for a QUARANTINED tag (07 R112). -/
def takeLate (p : Port) (t : DTag) (f : TcplFrame) (s : State) : State :=
  issueTest p (postTag .lateCompletion p f.tag (freeTag p t s))

/-- A TCPL on a port that is UP or HALTED, by the state of the tag it names (07 R111). -/
def takeTagged (p : Port) (f : TcplFrame) (s : State) : State :=
  match dtagOf f.tag with
  | none => postTag .unknownTag p f.tag s
  | some t =>
    match (s.port p).tags[t] with
    | .free => postTag .unknownTag p f.tag s
    | .quarantined => takeLate p t f s
    | .issued e =>
      match s.sub? e with
      | none => freeTag p t s
      | some x => takeAnswer p t x f s

/-- A TCPL frame, by the state of the port (07 R111). -/
def takeTcpl (p : Port) (f : TcplFrame) (s : State) : State :=
  match (s.port p).state with
  | .up | .halted => takeTagged p f s
  | .down | .resetting => s

/-! ## Port parameters (05 R77, R85, 08 R133) -/

/-- The three parameters of a port take new values (05 R85). -/
def writeParameters (p : Port) (window limit transfer : Nat) (s : State) : State :=
  updPort p (fun r => { r with window := window, responseLimit := limit, maxTransfer := transfer }) s

/-- The port parameters are written, with the halting test that a window change makes and the issue test that a raise makes (05 R77, R85). -/
def setParameters (p : Port) (window limit transfer : Nat) (s : State) : State :=
  if (s.port p).window = window then writeParameters p window limit transfer s
  else if (s.port p).window < window then
    issueTest p (haltingTest p s (writeParameters p window limit transfer s))
  else haltingTest p s (writeParameters p window limit transfer s)

end Sys2Proof.Machine
end

