-- ==== Sys2Proof/Machine/Admission.lean ====
section
/-! DEFINITION. The Admission Unit and the Order Unit: the admission checks, admission, the hand-off, holds, the ABT and the free reports (chapters 2, 3, 7). -/

namespace Sys2Proof.Machine

/-! ## The admission checks (02 R30 to R34, 10 R157) -/

/-- The fields of a CMD that pass the value tests of check 1 (10 R157). -/
structure CmdFields where
  initiator : Initiator
  tag : Byte
  volume : Volume
  op : Op
  cls : Class
  start : Nat
  count : Nat
  payload : List Block
  deriving DecidableEq, Repr

/-- The fields of a CMD whose volume, operation, class and count name values (10 R157). -/
def cmdFields (i : Initiator) (f : CmdFrame) : Option CmdFields :=
  match volumeOf f.volume, opOf f.operation, classOf f.cls with
  | some v, some op, some c =>
    if f.count.toNat ≤ 2047 then
      some { initiator := i, tag := f.tag, volume := v, op := op, cls := c, start := f.start.toNat, count := f.count.toNat, payload := f.payload }
    else none
  | _, _, _ => none

/-- Check 1: the payload has the blocks the operation and volume ask for (02 R32). -/
def shapeOk (f : CmdFields) : Bool :=
  if f.op = .write then (if f.volume = 0 then f.payload.length == 1 else f.payload.length == f.count)
  else f.payload.isEmpty

/-- A live parent, in any state, holds the key (02 R22, R30 check 3). -/
def keyHeld (i : Initiator) (t : Byte) (s : State) : Bool := s.parents.any fun p => p.initiator == i && p.tag == t

/-- Check 4: on volume 0 VERIFY and DRAIN fail (02 R32). -/
def operationOk (f : CmdFields) : Bool := !(f.volume == 0 && (f.op == .verify || f.op == .drain))

/-- Check 5 (02 R32). -/
def countOk (f : CmdFields) : Bool :=
  if f.volume = 0 then f.count == 1
  else if f.op = .drain then f.count == 0 && f.start == 0
  else decide (1 ≤ f.count) && decide (f.count ≤ 1024)

/-- Check 6: the volume is ONLINE or SWITCHING (02 R33). -/
def volumeOk (f : CmdFields) (s : State) : Bool :=
  (s.vol f.volume).state == .online || (s.vol f.volume).state == .switching

/-- Check 7: rights and write protection (02 R27, R33). -/
def rightsCheck (f : CmdFields) (s : State) : Option Status :=
  match s.access[f.initiator][f.volume], f.op with
  | .none, _ => some .noAccess
  | .read, .read => none
  | .read, .verify => none
  | .read, .write => some .noAccess
  | .read, .drain => some .noAccess
  | .full, .write => if (s.vol f.volume).writeProtected then some .writeProtected else none
  | .full, _ => none

/-- Check 8: the range lies within the capacity; the sum does not wrap (02 R33). -/
def rangeOk (f : CmdFields) (s : State) : Bool :=
  f.op == .drain || decide (f.start + f.count ≤ (s.vol f.volume).capacity.getD 0)

/-- The slots a parent holds (02 R28). -/
def slotsNeeded (f : CmdFields) : Nat :=
  if f.volume = 0 then 1 else if f.op = .read ∨ f.op = .write then f.count else 0

/-- Checks 6 to 8, for data volumes (02 R33). -/
def volumeChecks (f : CmdFields) (s : State) : Option Status :=
  if f.volume = 0 then none
  else if ¬ volumeOk f s then some .badVolume
  else match rightsCheck f s with
    | some st => some st
    | none => if ¬ rangeOk f s then some .outOfRange else none

/-- Checks 9 to 12 (02 R34). -/
def resourceChecks (f : CmdFields) (s : State) : Option Status :=
  if 128 ≤ s.parents.length then some .tableBusy
  else if s.initiators[f.initiator].credit ≤ s.initiators[f.initiator].liveCount then some .creditExceeded
  else if f.volume = 0 ∧ 8 ≤ s.controlQueue.length then some .controlBusy
  else if s.freeSlots < slotsNeeded f then some .noBuffer
  else none

/-- Checks 2 to 12 in their order: the status of the first that fails, none when all pass (02 R30). -/
def laterChecks (f : CmdFields) (s : State) : Option Status :=
  if s.initiators[f.initiator].barred then some .barred
  else if keyHeld f.initiator f.tag s then some .duplicateTag
  else if ¬ operationOk f then some .badOperation
  else if ¬ countOk f then some .badCount
  else match volumeChecks f s with
    | some st => some st
    | none => resourceChecks f s

/-- A CMD is refused: a CPL at once, and no trace in any table (02 R31). -/
def refuse (i : Initiator) (f : CmdFrame) (st : Status) (s : State) : State :=
  emit { initiator := i, tag := f.tag, reply := .command, status := st, failBlock := none,
         residual := min f.count.toNat 1024, payload := [] } s

/-! ## Admission (02 R35) -/

/-- The slots of an admitted parent: for WRITE, filled from the payload (02 R29). -/
def admittedSlots (f : CmdFields) : List (Option Block) :=
  if f.op = .write then f.payload.map some else List.replicate (slotsNeeded f) none

/-- The entry of an admitted parent (02 R35 step 1, R36). Its first state is set with it; the hand-off moves it on. -/
def admittedParent (f : CmdFields) (id : ParentRef) : Parent :=
  { id := id, initiator := f.initiator, tag := f.tag, volume := f.volume, op := f.op, cls := f.cls, start := f.start,
    count := f.count, state := if f.volume = 0 then .controlWait else .orderWait, slots := admittedSlots f,
    generation := none, pieces := [], drainPhase := if f.op = .drain then some .one else none, flushResults := [] }

/-- Steps 1 to 4 of admission: the entry, last in admission order, its slots and its live count place (02 R35). -/
def admitEntry (f : CmdFields) (s : State) : State :=
  setLive f.initiator (fun n => n + 1)
    { s with parents := s.parents ++ [admittedParent f s.nextParent], nextParent := s.nextParent + 1,
             freeSlots := s.freeSlots - slotsNeeded f }

/-- The lease timer is started with the lease length in force, or stopped for a lease of 0 (09 R140, R141). -/
def startLease (s : State) : State :=
  { s with leaseTimer := if s.lease = 0 then none else some (s.now + 1000 * s.lease) }

/-! ## The Control Queue (09 R136) -/

/-- The Control Unit, when IDLE, takes the head of the Control Queue (09 R136). -/
def takeHead (s : State) : State :=
  match s.executing, s.controlQueue with
  | none, id :: rest => setState id .controlActive { s with controlQueue := rest, executing := some id }
  | none, [] => s
  | some _, _ => s

/-- A control parent joins the tail of the Control Queue (02 R36, 09 R136). -/
def handControl (id : ParentRef) (s : State) : State := takeHead { s with controlQueue := s.controlQueue ++ [id] }

/-! ## The Order Unit (03 R42 to R44, R49 to R51) -/

/-- The conflict test of a range against an earlier entry (03 R42). -/
def conflicts (op : Op) (start count : Nat) (e : RangeEntry) : Bool :=
  overlap start count e.start e.count && (op == .write || e.op == .write)

/-- The entries of a list that stand before a parent's own (03 R42). -/
def earlier (id : ParentRef) (l : List RangeEntry) : List RangeEntry := l.takeWhile fun e => e.parent != id

/-- Some entry that stands earlier than a parent's own conflicts with it (03 R42). -/
def rangeHeld (l : List RangeEntry) (id : ParentRef) : Bool :=
  match l.find? fun e => e.parent == id with
  | none => false
  | some x => (earlier id l).any (conflicts x.op x.start x.count)

/-- A live parent of the same initiator and volume was admitted earlier than DRAIN `p` (03 R49). -/
def drainHeld (p : Parent) (s : State) : Bool :=
  s.parents.any fun q => q.initiator == p.initiator && q.volume == p.volume && decide (q.id < p.id)

/-- A parent is held: ORDER_WAIT, and a hold record (03 R41, R43, R49). -/
def holdParent (p : Parent) (k : HoldKind) (s : State) : State :=
  setState p.id .orderWait { s with holds := put s.holds p.volume (s.holds[p.volume] ++ [{ parent := p.id, kind := k }]) }

/-- A DRAIN enters phase 2; other parents are left as they are (03 R51). -/
def enterPhase2 (id : ParentRef) (s : State) : State :=
  updParent id (fun p => if p.op = .drain then { p with drainPhase := some .two } else p) s

/-- A released parent goes to the split stage, a DRAIN in phase 2 (03 R44, R51). -/
def release (id : ParentRef) (s : State) : State := arrive id (enterPhase2 id s)

/-- The entry of a READ, WRITE or VERIFY parent goes to the tail of its volume's list (03 R40, R43 step 1). -/
def appendRange (p : Parent) (s : State) : State :=
  { s with ranges := put s.ranges p.volume (s.ranges[p.volume] ++ [{ parent := p.id, op := p.op, start := p.start, count := p.count }]) }

/-- The hand-off of a READ, WRITE or VERIFY parent (03 R43). -/
def handRange (p : Parent) (s : State) : State :=
  if rangeHeld (appendRange p s).ranges[p.volume] p.id then holdParent p .range (appendRange p s)
  else release p.id (appendRange p s)

/-- The hand-off of a DRAIN parent (03 R49). -/
def handDrain (p : Parent) (s : State) : State :=
  if drainHeld p s then holdParent p .drain s else release p.id s

/-- Steps 5 to 7 of admission: the admission report, the lease restart and the hand-off (02 R35, R36). The live parent count still includes freed parents whose report is on its way, so it may pass the 128 of 01 R1 (01 R9, log entry 29). -/
def handOn (p : Parent) (s : State) : State :=
  if p.volume = 0 then handControl p.id (if s.manager = some p.initiator then startLease s else s)
  else if p.op = .drain then handDrain p (updVol p.volume (fun r => { r with liveParents := r.liveParents + 1 }) s)
  else handRange p (updVol p.volume (fun r => { r with liveParents := r.liveParents + 1 }) s)

/-- A CMD that passes every check is admitted (02 R35). -/
def admitCmd (f : CmdFields) (s : State) : State := handOn (admittedParent f s.nextParent) (admitEntry f s)

/-- A CMD frame from initiator `i` (02 R30). -/
def takeCmd (i : Initiator) (f : CmdFrame) (s : State) : State :=
  match cmdFields i f with
  | none => refuse i f .malformed s
  | some x =>
    if ¬ shapeOk x then refuse i f .malformed s
    else match laterChecks x s with
      | some st => refuse i f st s
      | none => admitCmd x s

/-! ## Free reports to the Order Unit (03 R44) -/

/-- A hold passes its re-test (03 R44, R50). -/
def holdPasses (s : State) (l : List RangeEntry) (h : Hold) : Bool :=
  match h.kind with
  | .range => !rangeHeld l h.parent
  | .drain => match s.parent? h.parent with
    | none => true
    | some p => !drainHeld p s

/-- The Order Unit takes a free report: the entry goes, every hold of the volume is re-tested, and those that pass are released in admission order (03 R44). -/
def takeOrderReport (r : OrderReport) (s : State) : State :=
  ((s.holds[r.volume].filter (holdPasses s (s.ranges[r.volume].filter fun e => e.parent != r.parent))).map Hold.parent).foldl
    (fun t id => release id t)
    { s with ranges := put s.ranges r.volume (s.ranges[r.volume].filter fun e => e.parent != r.parent)
             holds := put s.holds r.volume (s.holds[r.volume].filter fun h =>
               !holdPasses s (s.ranges[r.volume].filter fun e => e.parent != r.parent) h) }

/-! ## ABT (07 R115 to R120) -/

/-- The ABORT reply (07 R115). -/
def abortReply (i : Initiator) (t : Byte) (st : Status) (s : State) : State :=
  emit { initiator := i, tag := t, reply := .abort, status := st, failBlock := none, residual := 0, payload := [] } s

/-- The status of the ABORT reply, by the victim's state (07 R116). -/
def abortStatus : ParentState → Status
  | .controlActive | .controlLong => .abortDenied
  | .discarding => .notFound
  | .controlWait | .orderWait | .splitWait | .switchWait | .active | .aborting => .good

/-- The head of the Split-Wait List is tried when an abort took the head away or raised the free count (04 R68, 07 R117, R118). -/
def tryAfterAbort (before s : State) : State :=
  if before.splitWait.head? ≠ s.splitWait.head? ∨ s.subs.length < before.subs.length then tryHeads s else s

/-- An ABT frame from initiator `i` naming tag `t` (07 R115, R116). For every victim, the head of the Split-Wait List among them, the try at the list comes after the victim's CPL and the ABORT reply: the model's choice (log entry 8). -/
def takeAbt (i : Initiator) (t : Byte) (s : State) : State :=
  match s.parents.find? fun p => p.initiator == i && p.tag == t with
  | none => abortReply i t .notFound s
  | some p => tryAfterAbort s (abortReply i t (abortStatus p.state) (abortParent p s))

end Sys2Proof.Machine
end

