-- ==== Sys2Proof/Machine/Pages.lean ====
section
/-! DEFINITION. Control addresses and the contents of the pages a READ returns (09 R135, R142 to R146, R151, 10 section 10.6). -/

namespace Sys2Proof.Machine

/-! ## Control addresses (09 R135) -/

/-- What a control address and access name, when they are valid (09 R135). -/
inductive PageOp where
  | identityRead
  | statusRead
  | noticesRead
  | claimWrite
  | volumeRead (v : Volume)
  | volumeWrite (v : Volume)
  | stageWrite (v : Volume)
  | commitWrite (v : Volume)
  | accessRead (i : Initiator)
  | accessWrite (i : Initiator)
  | initiatorRead (i : Initiator)
  | initiatorWrite (i : Initiator)
  | portRead (p : Port)
  | portWrite (p : Port)
  | portResetWrite (p : Port)
  | flushAllWrite
  | liveMapRead (v : Volume) (first : Nat)
  | stagedMapRead (v : Volume) (first : Nat)
  deriving DecidableEq, Repr

/-- A data volume selector, 1 to 63 (09 R135). -/
def selVolume (n : Nat) : Option Volume := if h : 1 ≤ n ∧ n < 64 then some ⟨n, h.2⟩ else none

/-- An initiator selector, 0 to 15 (09 R135). -/
def selInitiator (n : Nat) : Option Initiator := if h : n < 16 then some ⟨n, h⟩ else none

/-- A port selector, 0 to 3 (09 R135). -/
def selPort (n : Nat) : Option Port := if h : n < 4 then some ⟨n, h⟩ else none

/-- A page without a selector accepts selector 0 only (09 R135). -/
def selZero (n : Nat) (x : PageOp) : Option PageOp := if n = 0 then some x else none

/-- What a READ of a page and selector names; none is BAD_PAGE (09 R135). -/
def readPage (pg sel : Nat) : Option PageOp :=
  match pg with
  | 0 => selZero sel .identityRead
  | 1 => selZero sel .statusRead
  | 2 => selZero sel .noticesRead
  | 4 => (selVolume sel).map .volumeRead
  | 7 => (selInitiator sel).map .accessRead
  | 8 => (selInitiator sel).map .initiatorRead
  | 9 => (selPort sel).map .portRead
  | 12 => (selVolume (sel / 1024)).map fun v => .liveMapRead v (sel % 1024)
  | 13 => (selVolume (sel / 1024)).map fun v => .stagedMapRead v (sel % 1024)
  | _ => none

/-- What a WRITE to a page and selector names; none is BAD_PAGE (09 R135). -/
def writePage (pg sel : Nat) : Option PageOp :=
  match pg with
  | 3 => selZero sel .claimWrite
  | 4 => (selVolume sel).map .volumeWrite
  | 5 => (selVolume sel).map .stageWrite
  | 6 => (selVolume sel).map .commitWrite
  | 7 => (selInitiator sel).map .accessWrite
  | 8 => (selInitiator sel).map .initiatorWrite
  | 9 => (selPort sel).map .portWrite
  | 10 => (selPort sel).map .portResetWrite
  | 11 => selZero sel .flushAllWrite
  | _ => none

/-- What a control parent's operation and start name: page and selector are the start divided by 65536 and the remainder (09 R135). VERIFY and DRAIN never reach the Control Unit (02 R32). -/
def pageOp (p : Parent) : Option PageOp :=
  match p.op with
  | .read => readPage (p.start / 65536) (p.start % 65536)
  | .write => writePage (p.start / 65536) (p.start % 65536)
  | .verify | .drain => none

/-- The write data of a control parent: the block in its slot (02 R29). -/
def writeData (p : Parent) : Block := (p.slots.head?.bind id).getD []

/-! ## Page contents -/

/-- The whole seconds left of the lease, rounded down; 0 without a manager or a running timer. Where the timer's tolerance of 1 ms straddles a second, the value is free (09 R142, log entry 10). -/
def leaseLeft (s : State) : Nat :=
  match s.manager, s.leaseTimer with
  | some _, some t => (t + (if Config.leaseRunsLate t then 1 else 0) - s.now) / 1000
  | _, _ => 0

/-- The IDENTITY page (09 R142): strings "Ulkotra", "Ekhtal", "2240" and the revision, capacities, manager and lease. Bits 1 to 7 of the flags byte have no value in the spec; the model sends 0 (log entry 30). -/
def identityPage (s : State) : Block :=
  page (stringField [0x55, 0x6C, 0x6B, 0x6F, 0x74, 0x72, 0x61] ++ stringField [0x45, 0x6B, 0x68, 0x74, 0x61, 0x6C]
    ++ stringField [0x32, 0x32, 0x34, 0x30] ++ (List.range 16).map revisionByte
    ++ bytes16 128 ++ bytes16 256 ++ bytes16 512 ++ bytes16 2048 ++ bytes8 63 ++ bytes8 16 ++ bytes8 4 ++ bytes8 32
    ++ bytes8 (boolCode s.manager.isSome) ++ bytes8 ((s.manager.map Fin.val).getD 0) ++ bytes8 s.lease ++ bytes8 (leaseLeft s))

/-- A port's part of the STATUS page (10 section 10.6). -/
def statusPort (r : PortRec) : List Byte :=
  bytes8 r.state.code ++ bytes8 (haltByte r.reason) ++ bytes8 r.freeTags ++ bytes8 r.issuedTags ++ bytes8 r.quarantinedTags ++ [0, 0, 0]

/-- The STATUS page (09 R142). -/
def statusPage (s : State) : Block :=
  page (statusPort (s.port 0) ++ statusPort (s.port 1) ++ statusPort (s.port 2) ++ statusPort (s.port 3)
    ++ bytes16 s.freeParents ++ bytes16 s.freeSubs ++ bytes16 s.freeSlots ++ bytes16 s.freeExtents
    ++ bytes16 s.splitWait.length ++ bytes8 s.notices.length)

/-- The NOTICES page: up to 15 records from the head, oldest first, and the dropped count before the read (09 R151). -/
def noticesPage (s : State) : Block :=
  page (bytes8 (s.notices.take 15).length ++ [0] ++ bytes16 s.dropped ++ List.replicate 12 0
    ++ ((s.notices.take 15).map Notice.bytes).flatten)

/-- The VOLUME page (01 R1, 10 section 10.6). Byte 13, between the pending long operation and the live parent count, has no value in the spec; the model sends 00h (log entry 28). Nor have bits 2 to 7 of the flags byte; the model sends 0 (log entry 30). -/
def volumePage (r : VolRec) : Block :=
  page (bytes8 r.state.code ++ bytes8 (boolCode r.capacity.isSome + 2 * boolCode r.writeProtected)
    ++ bytes16 r.generation.toNat ++ bytes32 (r.capacity.getD 0) ++ bytes16 r.live.length ++ bytes16 r.staged.length
    ++ bytes8 (longOpCode r.longOp) ++ [0] ++ bytes16 r.liveParents ++ bytes16 r.splitParents)

/-- The ACCESS page of an initiator: byte v holds the rights on volume v, 1 to 63 (09 R144). -/
def accessPage (row : Vector Rights 64) : Block :=
  page (0 :: (List.finRange 63).map fun k => BitVec.ofNat 8 (row[k.succ]).code)

/-- The INITIATOR page (09 R144). -/
def initiatorPage (r : InitRec) : Block := page (bytes8 r.credit ++ bytes8 (boolCode r.barred) ++ bytes16 r.liveCount)

/-- The PORT page (09 R145). -/
def portPage (r : PortRec) : Block :=
  page (bytes8 r.window ++ bytes8 r.state.code ++ bytes8 (haltByte r.reason) ++ bytes8 r.attempts
    ++ bytes16 r.responseLimit ++ bytes16 r.maxTransfer)

/-- The LIVE MAP or STAGED MAP page: the total, and up to 18 records from the first ordinal on (09 R146). -/
def mapPage (xs : List Extent) (generation : BitVec 16) (first : Nat) : Block :=
  page (bytes16 xs.length ++ bytes8 (mapRecords xs first).length ++ [0] ++ bytes16 generation.toNat ++ [0, 0]
    ++ (mapRecords xs first).flatten)

end Sys2Proof.Machine
end

