-- ==== Sys2Proof/Machine/Control.lean ====
section
/-! DEFINITION. The Control Unit: the execution event and the meaning of every command that is one (chapter 9). -/

namespace Sys2Proof.Machine

/-! ## The execution event (09 R136, R137) -/

/-- The CONTROL_ACTIVE parent. -/
def State.active? (s : State) : Option Parent := s.executing.bind s.parent?

/-- The end of an execution event: the Control Unit becomes IDLE and takes the next head, if any (09 R136). -/
def endExecution (s : State) : State := takeHead { s with executing := none }

/-- An execution event of the CONTROL_ACTIVE parent, when it is the command that a row names: `pick` gives the row's effect on such a parent. Otherwise the event does not arise (log entries 4, 14). -/
def execute (pick : Parent → Option (State → State)) (s : State) : State :=
  match s.active? with
  | none => s
  | some p =>
    match pick p with
    | none => s
    | some f => endExecution (f s)

/-- Test 2: a page that needs the manager is refused NOT_MANAGER to any other initiator (09 R137). -/
def managed (p : Parent) (f : State → State) (s : State) : State :=
  if s.manager = some p.initiator then f s else answerResult p.id .notManager 0 s

/-- The action byte of write data (10 section 10.6). -/
def action (p : Parent) : Byte := byteAt (writeData p) 0

/-- A good READ: the page contents (09 R137). -/
def answerPage (p : Parent) (b : Block) (s : State) : State := answer p.id .good b s

/-! ## The manager role (09 R140) -/

/-- The ALR to a new manager, when notices wait (09 R140, R152). -/
def alertNew (m : Initiator) (s : State) : State := if s.notices = [] then s else sendAlr m s

/-- A CLAIM by the initiator that becomes manager; the ALR follows its CPL (09 R140). -/
def claimNew (p : Parent) (lease : Nat) (s : State) : State :=
  alertNew p.initiator
    (answerResult p.id .good 0 (startLease { s with manager := some p.initiator, lease := lease, alert := .armed }))

/-- CLAIM, once its fields are good (09 R140). -/
def doClaim (p : Parent) (lease : Nat) (s : State) : State :=
  match s.manager with
  | none => claimNew p lease s
  | some m =>
    if m = p.initiator then answerResult p.id .good 0 (startLease { s with lease := lease })
    else answerResult p.id .managerPresent 0 s

/-- RELEASE (09 R140). -/
def doRelease (p : Parent) (s : State) : State :=
  if s.manager = some p.initiator then
    answerResult p.id .good 0 { s with manager := none, lease := 0, leaseTimer := none, alert := .armed }
  else answerResult p.id .notManager 0 s

/-- A WRITE to the CLAIM page, by its action byte (09 R140, 10 R160). -/
def claimWrite (p : Parent) (s : State) : State :=
  if action p = 1 then
    if 255 < (word16At (writeData p) 2).toNat then answerResult p.id .badEntry 0 s
    else doClaim p (word16At (writeData p) 2).toNat s
  else if action p = 2 then doRelease p s
  else answerResult p.id .badEntry 0 s

/-! ## VOLUME and STAGE writes (09 R143, 10 R160) -/

/-- A WRITE to the VOLUME page, by its action byte (09 R143, 10 R160). -/
def volumeWrite (p : Parent) (v : Volume) (s : State) : State :=
  if action p = 1 then
    if byteAt (writeData p) 1 = 0 then takeDefine p.id v (word32At (writeData p) 4).toNat false s
    else if byteAt (writeData p) 1 = 1 then takeDefine p.id v (word32At (writeData p) 4).toNat true s
    else answerResult p.id .badEntry 0 s
  else if action p = 2 then takeRemove p.id v s
  else answerResult p.id .badEntry 0 s

/-- A WRITE to the STAGE page, by its action byte (09 R143, 10 R160). -/
def stageWrite (p : Parent) (v : Volume) (s : State) : State :=
  if action p = 1 then takeStage p.id v (byteAt (writeData p) 1).toNat (writeData p) s
  else if action p = 2 then takeClear p.id v s
  else answerResult p.id .badEntry 0 s

/-! ## NOTICES, ACCESS, INITIATOR and PORT (09 R144, R145, R151) -/

/-- The records a NOTICES read takes leave the queue; a read that leaves it empty arms the alert (09 R151). -/
def takeNotices (s : State) : State :=
  { s with notices := s.notices.drop 15, dropped := 0, alert := if s.notices.drop 15 = [] then .armed else s.alert }

/-- A rights byte is at fault for a volume: it names no value, or gives rights on an ABSENT volume (09 R144). -/
def rightsFault (b : Byte) (r : VolRec) : Bool :=
  match rightsOf b with
  | none => true
  | some .none => false
  | some _ => r.state == .absent

/-- The lowest volume, 1 to 63, whose rights byte is at fault (09 R144). -/
def firstRightsFault (b : Block) (s : State) : Option Volume :=
  ((List.finRange 63).map Fin.succ).find? fun v => rightsFault (byteAt b v.val) s.volumes[v]

/-- The rights of a good ACCESS write (09 R144): row 0 keeps its value (log entry 18). -/
def writtenRights (b : Block) (row : Vector Rights 64) : Vector Rights 64 :=
  Vector.ofFn fun v : Volume => if v = 0 then row[v] else (rightsOf (byteAt b v.val)).getD .none

/-- A WRITE to the ACCESS page, all or none (09 R144). -/
def writeAccess (p : Parent) (i : Initiator) (s : State) : State :=
  match firstRightsFault (writeData p) s with
  | some v => answerResult p.id .badEntry v.val s
  | none => answerResult p.id .good 0 { s with access := put s.access i (writtenRights (writeData p) s.access[i]) }

/-- A WRITE to the INITIATOR page (09 R144). -/
def writeInitiator (p : Parent) (i : Initiator) (s : State) : State :=
  if (byteAt (writeData p) 0).toNat < 1 ∨ 32 < (byteAt (writeData p) 0).toNat then answerResult p.id .badEntry 0 s
  else if 1 < (byteAt (writeData p) 1).toNat then answerResult p.id .badEntry 1 s
  else answerResult p.id .good 0
    { s with initiators := put s.initiators i
               { s.initiators[i] with credit := (byteAt (writeData p) 0).toNat, barred := byteAt (writeData p) 1 == 1 } }

/-- The first parameter of a PORT write that is outside its range (09 R145). -/
def parameterFault (window limit transfer : Nat) : Option Nat :=
  if window < 1 ∨ 16 < window then some 0
  else if limit < 10 ∨ 60000 < limit then some 1
  else if transfer < 8 ∨ 1024 < transfer then some 2
  else none

/-- A WRITE to the PORT page (09 R145). -/
def writePort (p : Parent) (d : Port) (s : State) : State :=
  match parameterFault (byteAt (writeData p) 0).toNat (word16At (writeData p) 4).toNat (word16At (writeData p) 6).toNat with
  | some k => answerResult p.id .badEntry k s
  | none => answerResult p.id .good 0
      (setParameters d (byteAt (writeData p) 0).toNat (word16At (writeData p) 4).toNat (word16At (writeData p) 6).toNat s)

/-! ## FLUSH ALL (09 R147) -/

/-- Step 2 of a flush-all for one parent that was live: a data parent that is not DISCARDING is aborted (09 R147). -/
def flushParent (s : State) (p : Parent) : State := if p.volume = 0 then s else abortParent p s

/-- Steps 2 to 5 of a flush-all, once the record is made (09 R147). -/
def flushSteps (id : ParentRef) (s : State) : State :=
  flushEndTest (setState id .controlLong ((List.finRange 4).foldl (takeFlushRequest id) (s.parents.foldl flushParent s)))

/-- FLUSH ALL (09 R147). The Split-Wait List is tried once the frees are all taken; step 2 has emptied it (log entry 9). -/
def doFlushAll (id : ParentRef) (s : State) : State :=
  if s.flush.isSome then answerResult id .inProgress 0 s
  else tryIfFreed s (flushSteps id { s with flush := some { op := id, parent := some id, awaited := [] } })

/-! ## What each row picks out (log entry 14) -/

def pickBadPage (p : Parent) : Option (State → State) :=
  match pageOp p with
  | none => some (answerResult p.id .badPage 0)
  | some _ => none

def pickIdentityRead (p : Parent) : Option (State → State) :=
  match pageOp p with
  | some .identityRead => some fun s => answerPage p (identityPage s) s
  | _ => none

def pickStatusRead (p : Parent) : Option (State → State) :=
  match pageOp p with
  | some .statusRead => some fun s => answerPage p (statusPage s) s
  | _ => none

def pickNoticesRead (p : Parent) : Option (State → State) :=
  match pageOp p with
  | some .noticesRead => some (managed p fun s => answerPage p (noticesPage s) (takeNotices s))
  | _ => none

/-- A CLAIM page WRITE whose action is not RELEASE. -/
def pickClaim (p : Parent) : Option (State → State) :=
  match pageOp p with
  | some .claimWrite => if action p = 2 then none else some (claimWrite p)
  | _ => none

/-- A CLAIM page WRITE whose action is not CLAIM. -/
def pickRelease (p : Parent) : Option (State → State) :=
  match pageOp p with
  | some .claimWrite => if action p = 1 then none else some (claimWrite p)
  | _ => none

def pickVolumeRead (p : Parent) : Option (State → State) :=
  match pageOp p with
  | some (.volumeRead v) => some (managed p fun s => answerPage p (volumePage (s.vol v)) s)
  | _ => none

/-- A VOLUME WRITE whose action is not REMOVE. -/
def pickDefine (p : Parent) : Option (State → State) :=
  match pageOp p with
  | some (.volumeWrite v) => if action p = 2 then none else some (managed p (volumeWrite p v))
  | _ => none

/-- A VOLUME WRITE whose action is not DEFINE. -/
def pickRemove (p : Parent) : Option (State → State) :=
  match pageOp p with
  | some (.volumeWrite v) => if action p = 1 then none else some (managed p (volumeWrite p v))
  | _ => none

/-- A STAGE WRITE whose action is not CLEAR. -/
def pickStage (p : Parent) : Option (State → State) :=
  match pageOp p with
  | some (.stageWrite v) => if action p = 2 then none else some (managed p (stageWrite p v))
  | _ => none

/-- A STAGE WRITE whose action is not ADD. -/
def pickClear (p : Parent) : Option (State → State) :=
  match pageOp p with
  | some (.stageWrite v) => if action p = 1 then none else some (managed p (stageWrite p v))
  | _ => none

def pickCommit (p : Parent) : Option (State → State) :=
  match pageOp p with
  | some (.commitWrite v) => some (managed p (takeCommit p.id v))
  | _ => none

def pickAccessRead (p : Parent) : Option (State → State) :=
  match pageOp p with
  | some (.accessRead i) => some (managed p fun s => answerPage p (accessPage s.access[i]) s)
  | _ => none

def pickAccessWrite (p : Parent) : Option (State → State) :=
  match pageOp p with
  | some (.accessWrite i) => some (managed p (writeAccess p i))
  | _ => none

def pickInitiatorRead (p : Parent) : Option (State → State) :=
  match pageOp p with
  | some (.initiatorRead i) => some (managed p fun s => answerPage p (initiatorPage s.initiators[i]) s)
  | _ => none

def pickInitiatorWrite (p : Parent) : Option (State → State) :=
  match pageOp p with
  | some (.initiatorWrite i) => some (managed p (writeInitiator p i))
  | _ => none

def pickPortRead (p : Parent) : Option (State → State) :=
  match pageOp p with
  | some (.portRead d) => some (managed p fun s => answerPage p (portPage (s.port d)) s)
  | _ => none

def pickPortWrite (p : Parent) : Option (State → State) :=
  match pageOp p with
  | some (.portWrite d) => some (managed p (writePort p d))
  | _ => none

def pickPortReset (p : Parent) : Option (State → State) :=
  match pageOp p with
  | some (.portResetWrite d) => some (managed p (takePortReset p.id d))
  | _ => none

def pickFlushAll (p : Parent) : Option (State → State) :=
  match pageOp p with
  | some .flushAllWrite => some (managed p (doFlushAll p.id))
  | _ => none

def pickLiveMapRead (p : Parent) : Option (State → State) :=
  match pageOp p with
  | some (.liveMapRead v n) => some (managed p fun s => answerPage p (mapPage (s.vol v).live (s.vol v).generation n) s)
  | _ => none

def pickStagedMapRead (p : Parent) : Option (State → State) :=
  match pageOp p with
  | some (.stagedMapRead v n) => some (managed p fun s => answerPage p (mapPage (s.vol v).staged (s.vol v).generation n) s)
  | _ => none

end Sys2Proof.Machine
end

