-- ==== Sys2Proof/WellFormed.lean ====
section
/-! DEFINITION. Which commands can reach the part as what they are: frames that fit the length and initiator tests (10 R155, R157). -/

namespace Sys2Proof

/-- Every block of a payload holds 512 bytes, and there are at most `n` (10 R154, R155). -/
def payloadFits (n : Nat) (bs : List Block) : Bool :=
  decide (bs.length ≤ n) && bs.all (fun b => b.length == 512)

/-- A CMD frame that passes the port's tests: at most 2047 payload blocks, an initiator of 0 to 15 (10 R155, R157). Other fields out of range are refused MALFORMED at admission. -/
def CmdFrame.wf (f : CmdFrame) : Bool := decide (f.initiator.toNat < 16) && payloadFits 2047 f.payload

/-- An ABT frame whose initiator is 0 to 15 (10 R157). -/
def AbtFrame.wf (f : AbtFrame) : Bool := decide (f.initiator.toNat < 16)

/-- A TCPL frame with at most 1024 payload blocks (10 R155). -/
def TcplFrame.wf (f : TcplFrame) : Bool := payloadFits 1024 f.payload

/-- A command that can stand for what its row says: a frame that is taken as its kind, and as DROPPED_FRAME only one that is dropped. -/
def Instr.wf (i : Instr) : Bool :=
  match i with
  | .droppedFrame k ok bytes => receive k ok bytes == .droppedFrame k ok bytes
  | .cmd f => f.wf
  | .abt f => f.wf
  | .tcpl _ f => f.wf
  | .resetInput | .upstreamLinkUp | .upstreamLinkLoss | .outboundFrameSend
  | .freeReportMap _ | .freeReportOrder _ | .longParentGoneMap _ | .longParentGonePort _ | .longParentGoneFlush _
  | .targetLinkUp _ | .targetLinkLost _ | .trdy _ | .deadlineExpiry _ _ | .resetTimerExpiry _ | .leaseExpiry
  | .badPage | .identityRead | .statusRead | .noticesRead | .claim | .release | .volumeRead | .define | .remove
  | .stage | .clear | .commit | .accessRead | .accessWrite | .initiatorRead | .initiatorWrite | .portRead
  | .portWrite | .portReset | .flushAll | .liveMapRead | .stagedMapRead => true

end Sys2Proof
end

