-- ==== Sys2Proof/Machine/Link.lean ====
section
/-! DEFINITION. The RESET input, the upstream link and the frames of the Initiator Port: the meanings of RESET_INPUT, UPSTREAM_LINK_UP, UPSTREAM_LINK_LOSS, OUTBOUND_FRAME_SEND, DROPPED_FRAME, CMD and ABT. -/

namespace Sys2Proof.Machine

/-! ## The loss of the upstream link (02 R38, R39) -/

/-- The block that owns the long operation of a CONTROL_LONG parent is told that the parent is gone (02 R37 step 7, R38); the report is taken as its own event (log entry 5). -/
def reportGone (p : Parent) (s : State) : State :=
  match pageOp p with
  | some (.volumeWrite v) => { s with goneMap := s.goneMap ++ [{ volume := v, parent := p.id }] }
  | some (.commitWrite v) => { s with goneMap := s.goneMap ++ [{ volume := v, parent := p.id }] }
  | some (.portResetWrite d) => { s with gonePort := s.gonePort ++ [{ port := d, parent := p.id }] }
  | some .flushAllWrite => { s with goneFlush := s.goneFlush ++ [p.id] }
  | _ => s

/-- An ACTIVE or ABORTING parent at the loss: its QUEUED entries are freed; it becomes DISCARDING while it holds an ISSUED one, and is freed otherwise (02 R38). -/
def discardRunning (p : Parent) (s : State) : State :=
  if holdsIssued p.id (removeQueued p.id s) then setState p.id .discarding (removeQueued p.id s)
  else freeParent p.id (removeQueued p.id s)

/-- One live parent at the loss of the upstream link, by its state (02 R38). -/
def discard (s : State) (p : Parent) : State :=
  match p.state with
  | .controlWait | .orderWait | .splitWait | .switchWait => freeParent p.id (leaveWait p s)
  | .controlActive => freeParent p.id { s with executing := none }
  | .controlLong => reportGone p (freeParent p.id s)
  | .active | .aborting => discardRunning p s
  | .discarding => s

/-- The notice TRAFFIC_DISCARDED, for `n` parents live at the loss; none is posted for 0 (02 R39). -/
def postDiscarded (n : Nat) (s : State) : State :=
  if n = 0 then s else post { notice .trafficDiscarded with reason := some n } s

/-- The manager record is cleared and the alert state is ARMED (02 R39, 09 R139, R152). -/
def clearManager (s : State) : State := { s with manager := none, lease := 0, leaseTimer := none, alert := .armed }

/-- The upstream link is found lost: nothing when it was not UP (02 R38, R39, log entry 4). -/
def takeUpstreamLoss (s : State) : State :=
  if s.linkUp then
    postDiscarded s.parents.length (clearManager (s.parents.foldl discard { s with linkUp := false }))
  else s

/-! ## The outbound order (02 R20) -/

/-- The frame at the head of the outbound order is sent, whole; nothing while the link is DOWN or no frame waits (02 R20, log entries 4, 13). -/
def sendOutbound (s : State) : State :=
  match s.outbound with
  | [] => s
  | f :: rest => if s.linkUp then { s with outbound := rest, sent := s.sent ++ [.up f] } else s

/-! ## Inbound frames (02 R19, 10 R155, R157) -/

/-- A CMD frame is passed to the Admission Unit when the link is UP and the frame's length and initiator pass; it is dropped otherwise (02 R19, 10 R155, R157). -/
def receiveCmd (f : CmdFrame) (s : State) : State :=
  match initiatorOf f.initiator with
  | none => s
  | some i => if s.linkUp ∧ f.wf then takeCmd i f s else s

/-- An ABT frame is passed to the abort handling when the link is UP and the frame's initiator passes; it is dropped otherwise (02 R19, 07 R115, 10 R157). -/
def receiveAbt (f : AbtFrame) (s : State) : State :=
  match initiatorOf f.initiator with
  | none => s
  | some i => if s.linkUp then takeAbt i f.tag s else s

/-! ## Meanings -/

/-- RESET_INPUT (01 R2, 02 R19 to R29 and every other rule that gives a value after the RESET input). What lies outside the part is not reset: the commands still to come, the time that has passed, the frames already sent (log entry 15). -/
def execResetInput (s : State) : Host.Outcome State Fault Refusal :=
  .next { State.reset with pending := s.pending, now := s.now, sent := s.sent }

/-- UPSTREAM_LINK_UP (02 R21). The frames kept from before are then sent by OUTBOUND_FRAME_SEND, ahead of later ones. -/
def execUpstreamLinkUp (s : State) : Host.Outcome State Fault Refusal := .next { s with linkUp := true }

/-- UPSTREAM_LINK_LOSS (02 R38, R39). -/
def execUpstreamLinkLoss (s : State) : Host.Outcome State Fault Refusal := .next (takeUpstreamLoss s)

/-- OUTBOUND_FRAME_SEND (02 R20). -/
def execOutboundFrameSend (s : State) : Host.Outcome State Fault Refusal := .next (sendOutbound s)

/-- DROPPED_FRAME: a dropped frame changes no table and posts no notice (02 R19, 10 R155). -/
def execDroppedFrame (_k : Link) (_checked : Bool) (_bytes : List Byte) (s : State) : Host.Outcome State Fault Refusal := .next s

/-- CMD (02 R30 to R36). -/
def execCmd (f : CmdFrame) (s : State) : Host.Outcome State Fault Refusal := .next (receiveCmd f s)

/-- ABT (07 R115 to R120). -/
def execAbt (f : AbtFrame) (s : State) : Host.Outcome State Fault Refusal := .next (receiveAbt f s)

end Sys2Proof.Machine
end

