-- ==== Sys2Proof/Machine/Reports.lean ====
section
/-! DEFINITION. Reports between the part's blocks, each taken as its own event (02 R37): the meanings of FREE_REPORT_MAP, FREE_REPORT_ORDER and the three LONG_PARENT_GONE rows. The operand is the place of the report among those on their way (log entry 5). -/

namespace Sys2Proof.Machine

/-- The Map Unit takes the free report at place `k`; where none stands there, the event does not arise (01 R9, log entry 4). -/
def takeMapReportAt (k : Nat) (s : State) : State :=
  match s.mapReports[k]? with
  | none => s
  | some r => takeMapReport r { s with mapReports := s.mapReports.eraseIdx k }

/-- The Order Unit takes the free report at place `k` (03 R44). -/
def takeOrderReportAt (k : Nat) (s : State) : State :=
  match s.orderReports[k]? with
  | none => s
  | some r => takeOrderReport r { s with orderReports := s.orderReports.eraseIdx k }

/-- The Map Unit takes the gone report at place `k` (01 R18). -/
def takeGoneMapAt (k : Nat) (s : State) : State :=
  match s.goneMap[k]? with
  | none => s
  | some g => takeGoneMap g { s with goneMap := s.goneMap.eraseIdx k }

/-- The pending management reset of a port becomes none when it is the parent that is gone; the reset runs on (08 R130). -/
def takeGonePort (g : GonePort) (s : State) : State :=
  updPort g.port (fun r => if r.pendingReset = some g.parent then { r with pendingReset := none } else r) s

/-- The Target Port Unit takes the gone report at place `k` (08 R130). -/
def takeGonePortAt (k : Nat) (s : State) : State :=
  match s.gonePort[k]? with
  | none => s
  | some g => takeGonePort g { s with gonePort := s.gonePort.eraseIdx k }

/-- The flush record holds no parent, when it is the parent that is gone (09 R148). -/
def takeGoneFlush (id : ParentRef) (s : State) : State :=
  { s with flush := s.flush.map fun f => if f.parent = some id then { f with parent := none } else f }

/-- The Control Unit takes the gone report at place `k` (09 R148). -/
def takeGoneFlushAt (k : Nat) (s : State) : State :=
  match s.goneFlush[k]? with
  | none => s
  | some id => takeGoneFlush id { s with goneFlush := s.goneFlush.eraseIdx k }

/-! ## Meanings -/

/-- FREE_REPORT_MAP (01 R9, R15, R17). -/
def execFreeReportMap (k : Nat) (s : State) : Host.Outcome State Fault Refusal := .next (takeMapReportAt k s)

/-- FREE_REPORT_ORDER (03 R44, R50). -/
def execFreeReportOrder (k : Nat) (s : State) : Host.Outcome State Fault Refusal := .next (takeOrderReportAt k s)

/-- LONG_PARENT_GONE_MAP (01 R18). -/
def execLongParentGoneMap (k : Nat) (s : State) : Host.Outcome State Fault Refusal := .next (takeGoneMapAt k s)

/-- LONG_PARENT_GONE_PORT (08 R130). -/
def execLongParentGonePort (k : Nat) (s : State) : Host.Outcome State Fault Refusal := .next (takeGonePortAt k s)

/-- LONG_PARENT_GONE_FLUSH (09 R148). -/
def execLongParentGoneFlush (k : Nat) (s : State) : Host.Outcome State Fault Refusal := .next (takeGoneFlushAt k s)

end Sys2Proof.Machine
end

