-- ==== Sys2Proof/Machine/Targets.lean ====
section
/-! DEFINITION. Events and frames of the target links, and the timers: the meanings of TARGET_LINK_UP, TARGET_LINK_LOST, TCPL, TRDY, DEADLINE_EXPIRY, RESET_TIMER_EXPIRY and LEASE_EXPIRY. -/

namespace Sys2Proof.Machine

/-- The lease timer is due: it runs, and its earliest moment of expiry has come (00 section 7.2, 09 R141). -/
def leaseDue (s : State) : Bool := s.leaseTimer.any fun t => decide (t ≤ s.now)

/-- The expiry of the lease timer; nothing when none is due (09 R141, log entry 3). -/
def takeLeaseExpiry (s : State) : State :=
  if leaseDue s then post { notice .managerExpired with initiator := s.manager } (clearManager s) else s

/-- A TCPL frame whose length fits; a longer one is dropped at the port (10 R155). -/
def receiveTcpl (p : Port) (f : TcplFrame) (s : State) : State := if f.wf then takeTcpl p f s else s

/-! ## Meanings -/

/-- TARGET_LINK_UP (08 R123). -/
def execTargetLinkUp (p : Port) (s : State) : Host.Outcome State Fault Refusal := .next (takeLinkUp p s)

/-- TARGET_LINK_LOST (08 R124). -/
def execTargetLinkLost (p : Port) (s : State) : Host.Outcome State Fault Refusal := .next (takeLinkLost p s)

/-- TCPL (06 R88, 07 R111 to R113, 10 R155, R158). -/
def execTcpl (p : Port) (f : TcplFrame) (s : State) : Host.Outcome State Fault Refusal := .next (receiveTcpl p f s)

/-- TRDY (08 R125). -/
def execTrdy (p : Port) (s : State) : Host.Outcome State Fault Refusal := .next (takeTrdy p s)

/-- DEADLINE_EXPIRY (07 R106 to R110). -/
def execDeadlineExpiry (p : Port) (t : DTag) (s : State) : Host.Outcome State Fault Refusal := .next (takeDeadline p t s)

/-- RESET_TIMER_EXPIRY (08 R126). -/
def execResetTimerExpiry (p : Port) (s : State) : Host.Outcome State Fault Refusal := .next (takeResetTimer p s)

/-- LEASE_EXPIRY (09 R141). -/
def execLeaseExpiry (s : State) : Host.Outcome State Fault Refusal := .next (takeLeaseExpiry s)

end Sys2Proof.Machine
end

