-- ==== Sys2Proof/Machine/Execution.lean ====
section
/-! DEFINITION. The execution event of the CONTROL_ACTIVE parent (09 R137): one meaning for each row of the command table that names what that parent asks for (log entry 14). -/

namespace Sys2Proof.Machine

/-- BAD_PAGE (09 R137). -/
def execBadPage (s : State) : Host.Outcome State Fault Refusal := .next (execute pickBadPage s)

/-- IDENTITY_READ (09 R142). -/
def execIdentityRead (s : State) : Host.Outcome State Fault Refusal := .next (execute pickIdentityRead s)

/-- STATUS_READ (09 R142). -/
def execStatusRead (s : State) : Host.Outcome State Fault Refusal := .next (execute pickStatusRead s)

/-- NOTICES_READ (09 R151). -/
def execNoticesRead (s : State) : Host.Outcome State Fault Refusal := .next (execute pickNoticesRead s)

/-- CLAIM (09 R140). -/
def execClaim (s : State) : Host.Outcome State Fault Refusal := .next (execute pickClaim s)

/-- RELEASE (09 R140). -/
def execRelease (s : State) : Host.Outcome State Fault Refusal := .next (execute pickRelease s)

/-- VOLUME_READ (01 R1, 09 R143). -/
def execVolumeRead (s : State) : Host.Outcome State Fault Refusal := .next (execute pickVolumeRead s)

/-- DEFINE (01 R11). -/
def execDefine (s : State) : Host.Outcome State Fault Refusal := .next (execute pickDefine s)

/-- REMOVE (01 R17). -/
def execRemove (s : State) : Host.Outcome State Fault Refusal := .next (execute pickRemove s)

/-- STAGE (01 R12). -/
def execStage (s : State) : Host.Outcome State Fault Refusal := .next (execute pickStage s)

/-- CLEAR (01 R13). -/
def execClear (s : State) : Host.Outcome State Fault Refusal := .next (execute pickClear s)

/-- COMMIT (01 R14). -/
def execCommit (s : State) : Host.Outcome State Fault Refusal := .next (execute pickCommit s)

/-- ACCESS_READ (09 R144). -/
def execAccessRead (s : State) : Host.Outcome State Fault Refusal := .next (execute pickAccessRead s)

/-- ACCESS_WRITE (09 R144). -/
def execAccessWrite (s : State) : Host.Outcome State Fault Refusal := .next (execute pickAccessWrite s)

/-- INITIATOR_READ (09 R144). -/
def execInitiatorRead (s : State) : Host.Outcome State Fault Refusal := .next (execute pickInitiatorRead s)

/-- INITIATOR_WRITE (09 R144). -/
def execInitiatorWrite (s : State) : Host.Outcome State Fault Refusal := .next (execute pickInitiatorWrite s)

/-- PORT_READ (09 R145). -/
def execPortRead (s : State) : Host.Outcome State Fault Refusal := .next (execute pickPortRead s)

/-- PORT_WRITE (09 R145). -/
def execPortWrite (s : State) : Host.Outcome State Fault Refusal := .next (execute pickPortWrite s)

/-- PORT_RESET (08 R128). -/
def execPortReset (s : State) : Host.Outcome State Fault Refusal := .next (execute pickPortReset s)

/-- FLUSH_ALL (09 R147). -/
def execFlushAll (s : State) : Host.Outcome State Fault Refusal := .next (execute pickFlushAll s)

/-- LIVE_MAP_READ (09 R146). -/
def execLiveMapRead (s : State) : Host.Outcome State Fault Refusal := .next (execute pickLiveMapRead s)

/-- STAGED_MAP_READ (09 R146). -/
def execStagedMapRead (s : State) : Host.Outcome State Fault Refusal := .next (execute pickStagedMapRead s)

end Sys2Proof.Machine
end

