-- ==== Sys2Proof/Machine/Dispatch.lean ====
section
/-! DEFINITION. The meaning of each command: one arm per constructor of Instr. -/

namespace Sys2Proof.Machine

/-- The effect of a command on everything but the queue. -/
def exec (i : Instr) (s : State) : Host.Outcome State Fault Refusal :=
  match i with
  | .resetInput => Sys2Proof.Machine.execResetInput s
  | .upstreamLinkUp => Sys2Proof.Machine.execUpstreamLinkUp s
  | .upstreamLinkLoss => Sys2Proof.Machine.execUpstreamLinkLoss s
  | .outboundFrameSend => Sys2Proof.Machine.execOutboundFrameSend s
  | .droppedFrame k ok bytes => Sys2Proof.Machine.execDroppedFrame k ok bytes s
  | .cmd f => Sys2Proof.Machine.execCmd f s
  | .abt f => Sys2Proof.Machine.execAbt f s
  | .freeReportMap k => Sys2Proof.Machine.execFreeReportMap k s
  | .freeReportOrder k => Sys2Proof.Machine.execFreeReportOrder k s
  | .longParentGoneMap k => Sys2Proof.Machine.execLongParentGoneMap k s
  | .longParentGonePort k => Sys2Proof.Machine.execLongParentGonePort k s
  | .longParentGoneFlush k => Sys2Proof.Machine.execLongParentGoneFlush k s
  | .targetLinkUp p => Sys2Proof.Machine.execTargetLinkUp p s
  | .targetLinkLost p => Sys2Proof.Machine.execTargetLinkLost p s
  | .tcpl p f => Sys2Proof.Machine.execTcpl p f s
  | .trdy p => Sys2Proof.Machine.execTrdy p s
  | .deadlineExpiry p t => Sys2Proof.Machine.execDeadlineExpiry p t s
  | .resetTimerExpiry p => Sys2Proof.Machine.execResetTimerExpiry p s
  | .leaseExpiry => Sys2Proof.Machine.execLeaseExpiry s
  | .badPage => Sys2Proof.Machine.execBadPage s
  | .identityRead => Sys2Proof.Machine.execIdentityRead s
  | .statusRead => Sys2Proof.Machine.execStatusRead s
  | .noticesRead => Sys2Proof.Machine.execNoticesRead s
  | .claim => Sys2Proof.Machine.execClaim s
  | .release => Sys2Proof.Machine.execRelease s
  | .volumeRead => Sys2Proof.Machine.execVolumeRead s
  | .define => Sys2Proof.Machine.execDefine s
  | .remove => Sys2Proof.Machine.execRemove s
  | .stage => Sys2Proof.Machine.execStage s
  | .clear => Sys2Proof.Machine.execClear s
  | .commit => Sys2Proof.Machine.execCommit s
  | .accessRead => Sys2Proof.Machine.execAccessRead s
  | .accessWrite => Sys2Proof.Machine.execAccessWrite s
  | .initiatorRead => Sys2Proof.Machine.execInitiatorRead s
  | .initiatorWrite => Sys2Proof.Machine.execInitiatorWrite s
  | .portRead => Sys2Proof.Machine.execPortRead s
  | .portWrite => Sys2Proof.Machine.execPortWrite s
  | .portReset => Sys2Proof.Machine.execPortReset s
  | .flushAll => Sys2Proof.Machine.execFlushAll s
  | .liveMapRead => Sys2Proof.Machine.execLiveMapRead s
  | .stagedMapRead => Sys2Proof.Machine.execStagedMapRead s

end Sys2Proof.Machine
end

