-- ==== Sys2Proof/Machine/Time.lean ====
section
/-! DEFINITION. The internal time base: the tick that an idle step is, and the expiry that can wait no longer (00 section 7.2, log entries 2 and 3). -/

namespace Sys2Proof.Machine

/-- One millisecond passes (00 section 7.2). -/
def tick (s : State) : State := { s with now := s.now + 1 }

/-- The latest moment of a timer, one millisecond after its earliest, has come (00 section 7.2). -/
def overdue (now : Nat) (t : Option Nat) : Bool := t.any fun x => decide (x < now)

/-- The reset timer of a port can wait no longer (08 R126). -/
def resetOverdue (s : State) (p : Port) : Bool := resetTimerDue p s && overdue s.now (s.port p).resetTimer

/-- The deadline under a tag can wait no longer (07 R106). -/
def deadlineOverdue (s : State) (d : Port × DTag) : Bool :=
  (issuedUnder d.1 d.2 s).any fun e => overdue s.now (e.issue.map Issue.deadline)

/-- Every port with every downstream tag, in ascending order. -/
def allTags : List (Port × DTag) := (List.finRange 4).flatMap fun p => (List.finRange 16).map fun t => (p, t)

/-- The expiry that an idle step takes in place of a tick: one whose latest moment has come (log entry 3). -/
def idleEvent (s : State) : Option Instr :=
  if overdue s.now s.leaseTimer then some .leaseExpiry
  else match (List.finRange 4).find? (resetOverdue s) with
    | some p => some (.resetTimerExpiry p)
    | none => (allTags.find? (deadlineOverdue s)).map fun d => .deadlineExpiry d.1 d.2

/-- What a step does when no command waits: an expiry that can wait no longer, or else a tick (log entries 2, 3). -/
def idle (s : State) : Host.Outcome State Fault Refusal :=
  match idleEvent s with
  | some c => exec c s
  | none => .next (tick s)

end Sys2Proof.Machine
end

