-- ==== Sys2Proof/Safety.lean ====
section
/-! DEFINITION. The laws that the manual states of the part's tables, and the terms in which claims speak of a running control command. -/

namespace Sys2Proof.Machine

/-! ## The Command Table (02 R22, R23, R26, R28) -/

/-- The slots that a parent holds, by its operation and volume (02 R28). -/
def slotHolding (v : Volume) (op : Op) (count : Nat) : Nat :=
  match op with
  | .read => if v = 0 then 1 else count
  | .write => if v = 0 then 1 else count
  | .verify => if v = 0 then 1 else 0
  | .drain => if v = 0 then 1 else 0

/-- Live parents stand in admission order, each named by its own reference (02 R23, log entry 1). -/
def AdmissionOrder (s : State) : Prop :=
  s.parents.Pairwise (fun p q => p.id < q.id) ∧ ∀ p ∈ s.parents, p.id < s.nextParent

/-- The law of the key: no two live parents share initiator and tag (02 R22). -/
def KeyLaw (s : State) : Prop := s.parents.Pairwise fun p q => ¬(p.initiator = q.initiator ∧ p.tag = q.tag)

/-- The law of the pool, with the holding of each parent: slots free and slots held make 2048 (02 R28). -/
def SlotLaw (s : State) : Prop :=
  (∀ p ∈ s.parents, p.slots.length = slotHolding p.volume p.op p.count)
    ∧ s.freeSlots + (s.parents.map fun p => p.slots.length).sum = 2048

/-- The live count of an initiator is the number of live parents that carry its number (02 R26). -/
def LiveCountLaw (s : State) : Prop :=
  ∀ i : Initiator, s.initiators[i].liveCount = s.parents.countP fun p => p.initiator == i

/-- What the Command Table keeps in every event: its size, its order, its keys, its slots and its live counts (02 R22, R23, R26, R28). -/
def CommandTableLaw (s : State) : Prop :=
  s.parents.length ≤ 128 ∧ AdmissionOrder s ∧ KeyLaw s ∧ SlotLaw s ∧ LiveCountLaw s

/-! ## The Extent Pool and the maps (01 R2, R4, R5, R7) -/

/-- An ABSENT volume has no capacity and no record, and an existing one has a capacity of 1 to 4,294,967,295 (01 R1). -/
def VolRec.Present (r : VolRec) : Prop :=
  if r.state = .absent then r.capacity = none ∧ r.live = [] ∧ r.staged = []
  else ∃ c, r.capacity = some c ∧ 1 ≤ c ∧ c ≤ 4294967295

/-- The records that a table of volumes holds. -/
def recordsHeld (vs : Vector VolRec 64) : Nat := (vs.toList.map fun r => r.live.length + r.staged.length).sum

/-- The law of the Extent Pool: records free, and records held by the maps, make 512 (01 R7). -/
def ExtentPoolLaw (s : State) : Prop :=
  (∀ v : Volume, (s.vol v).Present) ∧ s.freeExtents + recordsHeld s.volumes = 512

/-- A record that a live map may hold, within a capacity (01 R3, R4, R5, R14). -/
structure Extent.Sound (capacity : Nat) (x : Extent) : Prop where
  length : 1 ≤ x.length.toNat ∧ x.length.toNat ≤ 2147483648
  within : x.first.toNat + x.length.toNat ≤ capacity
  port1 : x.copy1.port.toNat ≤ 3
  port2 : ∀ c, x.copy2 = some c → c.port.toNat ≤ 3 ∧ c.port ≠ x.copy1.port
  range1 : x.copy1.first.toNat + x.length.toNat ≤ 4294967296
  range2 : ∀ c, x.copy2 = some c → c.first.toNat + x.length.toNat ≤ 4294967296
  lead : ∃ c, x.copy? x.lead = some c ∧ c.state = .current

/-- Two extents share no volume block (01 R5). -/
def Extent.Apart (x y : Extent) : Prop :=
  x.first.toNat + x.length.toNat ≤ y.first.toNat ∨ y.first.toNat + y.length.toNat ≤ x.first.toNat

/-- The laws of a live map: sorted, without overlap, each record sound, its lead CURRENT (01 R4, R5). -/
structure VolRec.MapSound (r : VolRec) : Prop where
  absent : r.state = .absent → r.live = []
  sorted : r.live.Pairwise fun x y => x.first.toNat ≤ y.first.toNat
  apart : r.live.Pairwise Extent.Apart
  sound : ∀ x ∈ r.live, x.Sound (r.capacity.getD 0)
  validated : r.state = .switching →
    r.staged.Pairwise Extent.Apart ∧ ∀ x ∈ r.staged, x.Sound (r.capacity.getD 0)

/-- Every live map keeps its two laws; the staged map of a SWITCHING volume has passed validation (01 R4, R5, R14). -/
def LiveMapLaw (s : State) : Prop := ∀ v : Volume, (s.vol v).MapSound

/-- What the Volume Table keeps of the parents and the ranges of its volumes: the live parent count of a data volume is the number of its live parents and of the free reports of it on their way, which may pass 128 (log entry 29), and the Active Range List of an ABSENT volume is empty (01 R9, 03 R40). -/
def VolumeCountLaw (s : State) : Prop :=
  (∀ v : Volume, v ≠ 0 →
    (s.vol v).liveParents = (s.parents.countP fun p => p.volume == v) + s.mapReports.countP fun r => r.volume == v)
    ∧ ∀ v : Volume, (s.vol v).state = .absent → s.ranges[v] = []

/-! ## Notices and the manager (09 R139, R149, R150, R152) -/

/-- The law of the Notice Queue: at most 32 records, with consecutive sequence numbers up to the counter's (09 R149). -/
def NoticeLaw (s : State) : Prop :=
  s.notices.length ≤ 32 ∧ s.dropped ≤ 65535 ∧
    s.notices.map Notice.seq
      = (List.range s.notices.length).map fun i => s.seq - BitVec.ofNat 32 (s.notices.length - i)

/-- Without a manager there is no lease, no lease timer and no alert sent; a lease of 0 runs no timer (09 R139, R141, R152). -/
def ManagerLaw (s : State) : Prop :=
  s.lease ≤ 255 ∧ (s.manager = none → s.lease = 0 ∧ s.alert = .armed) ∧ (s.lease = 0 → s.leaseTimer = none)

/-! ## Ports (05 R77, R79, 08 R122, R133) -/

/-- What a port record keeps: a reason only while HALTED, a reset timer only while RESETTING, and every value in its range (08 R122, R133, 05 R77, R80). -/
structure PortRec.Sound (r : PortRec) : Prop where
  reason : r.reason.isSome ↔ r.state = .halted
  timer : r.resetTimer.isSome → r.state = .resetting
  attempts : r.attempts ≤ 3
  passes : r.passCount ≤ 8
  window : 1 ≤ r.window ∧ r.window ≤ 16
  limit : 10 ≤ r.responseLimit ∧ r.responseLimit ≤ 60000
  transfer : 8 ≤ r.maxTransfer ∧ r.maxTransfer ≤ 1024

/-- Every port record is sound. -/
def PortLaw (s : State) : Prop := ∀ p : Port, (s.port p).Sound

/-- What goes with the state of a port between two events: no entry is queued while DOWN or HALTED; a management reset is pending, and a flush-all waits, only while RESETTING, when the reset timer always runs; every tag is FREE while DOWN or RESETTING (05 R73, R76, 08 R122). -/
structure PortRec.Settled (r : PortRec) : Prop where
  queues : r.state = .down ∨ r.state = .halted → ∀ c : Sys2Proof.Class, r.queues[c] = []
  pending : r.pendingReset ≠ none → r.state = .resetting
  waiters : r.flushWaiters ≠ [] → r.state = .resetting
  timer : r.state = .resetting → r.resetTimer ≠ none
  tags : r.state = .down ∨ r.state = .resetting → ∀ t : DTag, r.tags[t] = .free

/-- Every port record goes with its state. -/
def PortStateLaw (s : State) : Prop := ∀ p : Port, (s.port p).Settled

/-! ## Sub-commands, class queues and tags (04 R64, 05 R73, R75) -/

/-- The law of sub-commands and tags: entry names are unique and below the next; each ISSUED tag names an allocated entry ISSUED under it, and each ISSUED entry stands under its tag; each place of a class queue holds an allocated QUEUED entry of that port and class, and each QUEUED entry stands in its queue, once (04 R64, 05 R73, R75). -/
structure SubCommandLaw (s : State) : Prop where
  names : s.subs.Pairwise fun x y => x.id ≠ y.id
  fresh : ∀ x ∈ s.subs, x.id < s.nextSub
  tagged : ∀ (p : Port) (t : DTag) (e : SubRef), (s.port p).tags[t] = .issued e →
    ∃ x ∈ s.subs, x.id = e ∧ x.port = p ∧ ∃ i, x.issue = some i ∧ i.tag = t
  issued : ∀ x ∈ s.subs, ∀ i, x.issue = some i → (s.port x.port).tags[i.tag] = .issued x.id
  queued : ∀ (p : Port) (c : Sys2Proof.Class), ∀ e ∈ (s.port p).queues[c],
    ∃ x ∈ s.subs, x.id = e ∧ x.port = p ∧ x.cls = c ∧ x.issue = none
  waiting : ∀ x ∈ s.subs, x.issue = none → x.id ∈ (s.port x.port).queues[x.cls]
  once : ∀ (p : Port) (c : Sys2Proof.Class), ((s.port p).queues[c]).Nodup

/-- The Sub-command Table holds at most 256 entries, and the Control Queue at most 8 parents (04 R64, 09 R136). -/
def BoundLaw (s : State) : Prop := s.subs.length ≤ 256 ∧ s.controlQueue.length ≤ 8

/-! ## Ordering (03 R40, R42, R47) -/

/-- A parent that the Order Unit has released (02 R24, 03 R44). -/
def ParentState.released : ParentState → Bool
  | .splitWait | .switchWait | .active | .aborting | .discarding => true
  | .controlWait | .controlActive | .controlLong | .orderWait => false

/-- Two parents of one volume race: they carry ranges, the ranges overlap, and one of them is a WRITE (03 R42). -/
def Races (p q : Parent) : Prop :=
  p.volume = q.volume ∧ p.volume ≠ 0 ∧ p.op ≠ .drain ∧ q.op ≠ .drain ∧ (p.op = .write ∨ q.op = .write)
    ∧ p.start < q.start + q.count ∧ q.start < p.start + p.count

/-- No live parent admitted earlier races the parent that a reference names (03 R47). -/
def Unraced (s : State) (id : ParentRef) : Prop :=
  ∀ p ∈ s.parents, p.id = id → ∀ q ∈ s.parents, q.id < id → ¬ Races q p

/-- The law of ordering, as the Order Unit keeps it: a released parent, and one in a list of the Split Unit, is raced by no earlier live parent; every live parent with a range has its entry in the list, which is in admission order; a hold record stands at its parent's volume and is of its parent's kind; a free report names a parent that is gone (02 R37, 03 R40, R41, R43, R44, R47). -/
structure OrderLaw (s : State) : Prop where
  admission : AdmissionOrder s
  listed : ∀ p ∈ s.parents, p.volume ≠ 0 → p.op ≠ .drain →
    { parent := p.id, op := p.op, start := p.start, count := p.count } ∈ s.ranges[p.volume]
  sorted : ∀ v : Volume, s.ranges[v].Pairwise fun x y => x.parent < y.parent
  known : ∀ v : Volume, ∀ x ∈ s.ranges[v], x.parent < s.nextParent
  reported : ∀ r ∈ s.orderReports, r.parent < s.nextParent ∧ ∀ p ∈ s.parents, p.id ≠ r.parent
  held : ∀ v : Volume, ∀ h ∈ s.holds[v], h.parent < s.nextParent ∧
    ∀ p ∈ s.parents, p.id = h.parent → p.volume = v ∧ (h.kind = .drain → p.op = .drain)
  released : ∀ p ∈ s.parents, p.state.released = true → Unraced s p.id
  waiting : ∀ id ∈ s.splitWait, id < s.nextParent ∧ Unraced s id
  holding : ∀ v : Volume, ∀ id ∈ s.switchHolds[v], id < s.nextParent ∧ Unraced s id

/-! ## A running control command (09 R136, R137) -/

/-- Parent `p` is the CONTROL_ACTIVE parent, a READ or WRITE on volume 0 with its one slot (02 R28, 09 R136). -/
structure Running (p : Parent) (s : State) : Prop where
  order : AdmissionOrder s
  live : p ∈ s.parents
  now : s.executing = some p.id
  volume : p.volume = 0
  slot : p.slots.length = 1

/-- The control address of a parent: page and selector (09 R135). -/
def addressed (p : Parent) (op : Op) (pg sel : Nat) : Prop := p.op = op ∧ p.start = pg * 65536 + sel ∧ sel < 65536

/-- The CPL of a control command: one block, residual 0 for GOOD and 1 otherwise (09 R137). -/
def controlCpl (p : Parent) (st : Status) (b : Block) : Cpl :=
  { initiator := p.initiator, tag := p.tag, reply := .command, status := st, failBlock := none,
    residual := if st = .good then 0 else 1, payload := [b] }

/-- The Command Table without a parent of volume 0: its place, its slot and its live count place are released (02 R37). -/
def withoutControl (p : Parent) (s : State) : State :=
  { s with
    parents := s.parents.filter fun q => q.id ≠ p.id
    freeSlots := s.freeSlots + 1
    initiators := put s.initiators p.initiator
      { s.initiators[p.initiator] with liveCount := s.initiators[p.initiator].liveCount - 1 } }

/-- The tables after a parent's entry is freed: its place, its slots and its live count place are released, and the reports of a data parent are on their way (02 R37). -/
def freed (p : Parent) (s : State) : State :=
  { s with
    parents := s.parents.filter fun q => q.id ≠ p.id
    freeSlots := s.freeSlots + p.slots.length
    initiators := put s.initiators p.initiator
      { s.initiators[p.initiator] with liveCount := s.initiators[p.initiator].liveCount - 1 }
    mapReports := if p.volume = 0 then s.mapReports
      else s.mapReports ++ [{ volume := p.volume, split := p.generation.isSome }]
    orderReports := if p.volume = 0 then s.orderReports
      else s.orderReports ++ [{ volume := p.volume, parent := p.id }] }

/-- The Control Unit after an execution: IDLE, or EXECUTING the parent that was at the head of the Control Queue (09 R136). -/
def nextControl (s : State) : State :=
  match s.controlQueue with
  | [] => { s with executing := none }
  | id :: rest =>
    { s with controlQueue := rest, executing := some id,
             parents := s.parents.map fun q => if q.id = id then { q with state := .controlActive } else q }

/-- The whole effect of a short control command beside what its page does: the CPL is produced, the parent freed, and the Control Unit goes on (09 R136, R137). -/
def answered (p : Parent) (st : Status) (b : Block) (s : State) : State :=
  nextControl { withoutControl p s with outbound := s.outbound ++ [.cpl (controlCpl p st b)] }

/-- The Control Unit goes on after a command is handed to its owning block: the parent is CONTROL_LONG (09 R136, R138). -/
def handedOff (p : Parent) (s : State) : State :=
  nextControl { s with parents := s.parents.map fun q => if q.id = p.id then { q with state := .controlLong } else q }

/-- The CPL of a long operation whose parent is still live, and the free of that parent (09 R137, 02 R37). -/
def longEnded (p : Parent) (st : Status) (s : State) : State :=
  { withoutControl p s with outbound := s.outbound ++ [.cpl (controlCpl p st (resultBlock 0))] }

/-- Parent `p` is the live parent of a long operation: on volume 0, with its one slot (09 R138). -/
structure LongParent (p : Parent) (s : State) : Prop where
  order : AdmissionOrder s
  live : p ∈ s.parents
  volume : p.volume = 0
  slot : p.slots.length = 1

/-- The Volume Table with a new record for one volume. -/
def withVol (v : Volume) (r : VolRec) (s : State) : State := { s with volumes := put s.volumes v r }

/-- The ports with a new record for one port. -/
def withPort (d : Port) (r : PortRec) (s : State) : State := { s with ports := put s.ports d r }

/-! ## Control addresses (09 R135) -/

/-- A row of the table of pages: its number, the accesses it accepts, its first and last selector, and whether it needs the manager (09 R135). -/
structure PageRow where
  page : Nat
  reads : Bool
  writes : Bool
  first : Nat
  last : Nat
  manager : Bool
  deriving DecidableEq, Repr

/-- The table of pages (09 R135). A map selector is the volume, 1 to 63, times 1024 plus the first ordinal. -/
def pageRows : List PageRow :=
  [⟨0, true, false, 0, 0, false⟩, ⟨1, true, false, 0, 0, false⟩, ⟨2, true, false, 0, 0, true⟩,
   ⟨3, false, true, 0, 0, false⟩, ⟨4, true, true, 1, 63, true⟩, ⟨5, false, true, 1, 63, true⟩,
   ⟨6, false, true, 1, 63, true⟩, ⟨7, true, true, 0, 15, true⟩, ⟨8, true, true, 0, 15, true⟩,
   ⟨9, true, true, 0, 3, true⟩, ⟨10, false, true, 0, 3, true⟩, ⟨11, false, true, 0, 0, true⟩,
   ⟨12, true, false, 1024, 65535, true⟩, ⟨13, true, false, 1024, 65535, true⟩]

/-- A row names the address and access of a control READ or WRITE (09 R135). -/
def PageRow.names (p : Parent) (r : PageRow) : Bool :=
  r.page == p.start / 65536 && (if p.op = .read then r.reads else r.writes)
    && decide (r.first ≤ p.start % 65536) && decide (p.start % 65536 ≤ r.last)

/-- The action byte of a control WRITE's data (10 section 10.6). -/
def wroteAction (p : Parent) (n : Byte) : Prop := ∃ b, p.slots = [some b] ∧ byteAt b 0 = n

/-- The address at which each row of the command table that needs the manager runs (09 R135); a write data page with two actions has a row for each. -/
def managedAddress (p : Parent) : Instr → Prop
  | .noticesRead => addressed p .read 2 0
  | .volumeRead => ∃ v : Volume, v ≠ 0 ∧ addressed p .read 4 v.val
  | .define => (∃ v : Volume, v ≠ 0 ∧ addressed p .write 4 v.val) ∧ wroteAction p 1
  | .remove => (∃ v : Volume, v ≠ 0 ∧ addressed p .write 4 v.val) ∧ wroteAction p 2
  | .stage => (∃ v : Volume, v ≠ 0 ∧ addressed p .write 5 v.val) ∧ wroteAction p 1
  | .clear => (∃ v : Volume, v ≠ 0 ∧ addressed p .write 5 v.val) ∧ wroteAction p 2
  | .commit => ∃ v : Volume, v ≠ 0 ∧ addressed p .write 6 v.val
  | .accessRead => ∃ i : Initiator, addressed p .read 7 i.val
  | .accessWrite => ∃ i : Initiator, addressed p .write 7 i.val
  | .initiatorRead => ∃ i : Initiator, addressed p .read 8 i.val
  | .initiatorWrite => ∃ i : Initiator, addressed p .write 8 i.val
  | .portRead => ∃ d : Port, addressed p .read 9 d.val
  | .portWrite => ∃ d : Port, addressed p .write 9 d.val
  | .portReset => ∃ d : Port, addressed p .write 10 d.val
  | .flushAll => addressed p .write 11 0
  | .liveMapRead => ∃ (v : Volume) (n : Nat), v ≠ 0 ∧ n < 1024 ∧ addressed p .read 12 (v.val * 1024 + n)
  | .stagedMapRead => ∃ (v : Volume) (n : Nat), v ≠ 0 ∧ n < 1024 ∧ addressed p .read 13 (v.val * 1024 + n)
  | _ => False

/-! ## Records on a page (10 section 10.5) -/

/-- A notice record stands at offset `o` of a block (10 section 10.5). -/
structure Notice.ReadsAt (b : Block) (o : Nat) (n : Notice) : Prop where
  seq : word32At b o = n.seq
  kind : byteAt b (o + 4) = BitVec.ofNat 8 n.body.kind.code
  flags : (byteAt b (o + 5)).getLsbD 0 = n.body.port.isSome ∧ (byteAt b (o + 5)).getLsbD 1 = n.body.volume.isSome
    ∧ (byteAt b (o + 5)).getLsbD 2 = n.body.initiator.isSome ∧ (byteAt b (o + 5)).getLsbD 3 = n.body.generation.isSome
    ∧ (byteAt b (o + 5)).getLsbD 4 = n.body.ordinal.isSome ∧ (byteAt b (o + 5)).getLsbD 5 = n.body.tag.isSome
    ∧ (byteAt b (o + 5)).getLsbD 6 = n.body.reason.isSome ∧ (byteAt b (o + 5)).getLsbD 7 = false
  port : byteAt b (o + 6) = BitVec.ofNat 8 ((n.body.port.map Fin.val).getD 0)
  volume : byteAt b (o + 7) = BitVec.ofNat 8 ((n.body.volume.map Fin.val).getD 0)
  initiator : byteAt b (o + 8) = BitVec.ofNat 8 ((n.body.initiator.map Fin.val).getD 0)
  reason : byteAt b (o + 9) = BitVec.ofNat 8 (n.body.reason.getD 0)
  generation : word16At b (o + 10) = n.body.generation.getD 0
  ordinal : word16At b (o + 12) = BitVec.ofNat 16 (n.body.ordinal.getD 0)
  tag : byteAt b (o + 14) = n.body.tag.getD 0
  reserved : byteAt b (o + 15) = 0

/-- An extent record, with its ordinal, stands at offset `o` of a block (10 section 10.5, R159). -/
structure Extent.ReadsAt (b : Block) (o ordinal : Nat) (x : Extent) : Prop where
  ordinal : word16At b o = BitVec.ofNat 16 ordinal
  flags : byteAt b (o + 2) = if x.copy2.isSome then 1 else 0
  lead : byteAt b (o + 3) = if x.lead = .one then 1 else 2
  first : word32At b (o + 4) = x.first
  length : word32At b (o + 8) = x.length
  port1 : byteAt b (o + 12) = x.copy1.port
  state1 : byteAt b (o + 13) = if x.copy1.state = .current then 0 else 1
  copy2 : ∀ c, x.copy2 = some c → byteAt b (o + 14) = c.port
    ∧ byteAt b (o + 15) = (if c.state = .current then 0 else 1) ∧ word32At b (o + 20) = c.first
  absent : x.copy2 = none → byteAt b (o + 14) = 0 ∧ byteAt b (o + 15) = 0 ∧ word32At b (o + 20) = 0
  target1 : word32At b (o + 16) = x.copy1.first
  reserved : word32At b (o + 24) = 0

/-- The record that STAGE data at offset `o` gives (10 R159). -/
structure Extent.StoredFrom (b : Block) (o : Nat) (x : Extent) : Prop where
  first : x.first = word32At b (o + 4)
  length : x.length = word32At b (o + 8)
  lead : x.lead = if byteAt b (o + 3) = 1 then .one else .two
  copy1 : x.copy1 = ⟨byteAt b (o + 12), word32At b (o + 16), if byteAt b (o + 13) = 0 then .current else .stale⟩
  copy2 : x.copy2 = if (byteAt b (o + 2)).getLsbD 0
    then some ⟨byteAt b (o + 14), word32At b (o + 20), if byteAt b (o + 15) = 0 then .current else .stale⟩ else none

/-! ## Validation and the swap (01 R14, R16) -/

/-- A staged record is bad, with the records of lower ordinal (01 R14). -/
def Extent.Bad (capacity : Nat) (lower : List Extent) (x : Extent) : Prop :=
  x.length.toNat = 0 ∨ 2147483648 < x.length.toNat
    ∨ capacity < x.first.toNat + x.length.toNat
    ∨ 3 < x.copy1.port.toNat ∨ (∃ c, x.copy2 = some c ∧ 3 < c.port.toNat)
    ∨ 4294967296 < x.copy1.first.toNat + x.length.toNat ∨ (∃ c, x.copy2 = some c ∧ 4294967296 < c.first.toNat + x.length.toNat)
    ∨ (x.lead = .two ∧ x.copy2 = none) ∨ (∃ c, x.copy? x.lead = some c ∧ c.state = .stale)
    ∨ (∃ c, x.copy2 = some c ∧ c.port = x.copy1.port)
    ∨ ∃ y ∈ lower, x.first.toNat < y.first.toNat + y.length.toNat ∧ y.first.toNat < x.first.toNat + x.length.toNat

/-- The record of a volume after the commit swap, with the new live map (01 R16 steps 2 to 5). -/
def VolRec.swapped (m : List Extent) (r : VolRec) : VolRec :=
  { r with live := m, staged := [], generation := r.generation + 1, state := .online, longOp := none, longParent := none }

/-- A list of records in live order: the staged records, sorted by first volume block (01 R5, R16). -/
def SortedFrom (staged m : List Extent) : Prop := m.Perm staged ∧ m.Pairwise fun x y => x.first.toNat ≤ y.first.toNat

/-- The part after a removal: the volume's records are free, its column of the Access Matrix is NONE, it is ABSENT, and its Active Range List is empty (01 R17 steps 1 to 3, 03 R40). -/
def removed (v : Volume) (s : State) : State :=
  { s with
    ranges := put s.ranges v []
    volumes := put s.volumes v VolRec.reset
    freeExtents := s.freeExtents + (s.vol v).live.length + (s.vol v).staged.length
    access := s.access.map fun row => put row v .none }

/-! ## Notices (09 R150, R152) -/

/-- The posting of a notice: stored with the counter's value, with an ALR when the alert is ARMED and a manager exists; or, at 32 records, counted as dropped (09 R150, R152). -/
def noticed (b : NoticeBody) (s : State) : State :=
  if 32 ≤ s.notices.length then { s with dropped := if s.dropped < 65535 then s.dropped + 1 else s.dropped }
  else
    match s.manager, s.alert with
    | some m, .armed =>
      { s with notices := s.notices ++ [{ seq := s.seq, body := b }], seq := s.seq + 1, alert := .sent,
               outbound := s.outbound ++ [.alr ⟨m, s.notices.length + 1, (s.notices.head?.map Notice.seq).getD s.seq⟩] }
    | _, _ => { s with notices := s.notices ++ [{ seq := s.seq, body := b }], seq := s.seq + 1 }

/-- A notice with its kind, its port, and what else its kind gives; every other field is absent (09 R149). -/
def portNotice (k : NoticeKind) (p : Port) (tag : Option Byte) (reason : Option Nat) (v : Option Volume) : NoticeBody :=
  { kind := k, port := some p, volume := v, initiator := none, generation := none, ordinal := none, tag := tag, reason := reason }

/-! ## Parents with one sub-command left (03 R52, 04 R63 to R65, 05 R75) -/

/-- Entry `e` is the one sub-command of READ `p`, on port `d`, and covers its whole range (04 R63 to R65). -/
structure SoleRead (s : State) (d : Port) (p : Parent) (pc : Piece) (e : SubCmd) : Prop where
  order : AdmissionOrder s
  live : p ∈ s.parents
  state : p.state = .active
  op : p.op = .read
  slots : p.slots.length = p.count
  pieces : p.pieces = [pc]
  whole : pc.offset = 0 ∧ pc.length = p.count
  member : ∃ c, pc.members = [⟨c, some e.id, none⟩] ∧ e.copy = some c
  entry : e.parent = p.id ∧ e.piece = some 0 ∧ e.op = .read ∧ e.count = p.count ∧ e.port = d
  known : e ∈ s.subs
  names : s.subs.Pairwise fun x y => x.id ≠ y.id

/-- The one sub-command of a READ is ISSUED under tag `t` of port `d` (05 R75). -/
structure InFlight (s : State) (d : Port) (t : DTag) (p : Parent) (pc : Piece) (e : SubCmd) : Prop extends SoleRead s d p pc e where
  tag : (s.port d).tags[t] = .issued e.id

/-- The one sub-command of a READ is the only QUEUED entry of port `d`, in class queue `c` (05 R73). -/
structure InQueue (s : State) (d : Port) (c : Sys2Proof.Class) (p : Parent) (pc : Piece) (e : SubCmd) : Prop extends SoleRead s d p pc e where
  queue : (s.port d).queues[c] = [e.id] ∧ ∀ k : Sys2Proof.Class, k ≠ c → (s.port d).queues[k] = []

/-- Entry `e`, ISSUED under tag `t` of port `d`, writes copy `c` of the one piece of WRITE `p`, which lies in live extent `x` of ordinal `n`; every other member of the piece is settled. The WRITE is ACTIVE, or it is ABORTING or DISCARDING and holds no other entry (06 R95, R103, R104). -/
structure LastWrite (s : State) (d : Port) (t : DTag) (p : Parent) (pc : Piece) (e : SubCmd) (c : CopyNo) (n : Nat) (x : Extent) : Prop where
  order : AdmissionOrder s
  live : p ∈ s.parents
  state : p.state = .active ∨ ((p.state = .aborting ∨ p.state = .discarding) ∧ ∀ z ∈ s.subs, z.parent = p.id → z = e)
  op : p.op = .write
  pieces : p.pieces = [pc]
  whole : pc.offset = 0 ∧ pc.length = p.count
  extent : pc.ordinal = n ∧ (s.vol p.volume).live[n]? = some x
  member : ⟨c, some e.id, none⟩ ∈ pc.members
  copies : (pc.members.map Member.copy).Nodup
  settled : ∀ m ∈ pc.members, m.copy ≠ c → m.sub = none
  entry : e.parent = p.id ∧ e.piece = some 0 ∧ e.copy = some c ∧ e.op = .write ∧ e.port = d
  known : e ∈ s.subs
  names : s.subs.Pairwise fun x y => x.id ≠ y.id
  tag : (s.port d).tags[t] = .issued e.id

/-- Entry `e`, ISSUED under tag `t` of port `d`, is a FLUSH of DRAIN `p`, whose flush results name each port once, in ascending order (03 R52). -/
structure Flushing (s : State) (d : Port) (t : DTag) (p : Parent) (e : SubCmd) : Prop where
  order : AdmissionOrder s
  live : p ∈ s.parents
  state : p.state = .active
  op : p.op = .drain
  results : p.flushResults.Pairwise fun x y => x.port < y.port
  pending : ⟨d, none⟩ ∈ p.flushResults
  entry : e.parent = p.id ∧ e.op = .flush ∧ e.port = d
  known : e ∈ s.subs
  names : s.subs.Pairwise fun x y => x.id ≠ y.id
  tag : (s.port d).tags[t] = .issued e.id

/-- Entry `e`, ISSUED under tag `t` of port `d`, is the last one of ABORTING or DISCARDING parent `p`; it is a READ or VERIFY of one of its pieces, or a FLUSH (06 R89, R103, R104). -/
structure LastOfLeaving (s : State) (d : Port) (t : DTag) (p : Parent) (e : SubCmd) : Prop where
  order : AdmissionOrder s
  live : p ∈ s.parents
  state : p.state = .aborting ∨ p.state = .discarding
  entry : e.parent = p.id ∧ e.port = d ∧ (e.op = .flush ∨ ((e.op = .read ∨ e.op = .verify) ∧ ∃ (i : Nat) (c : CopyNo),
    e.piece = some i ∧ e.copy = some c ∧ i < p.pieces.length))
  last : ∀ z ∈ s.subs, z.parent = p.id → z = e
  known : e ∈ s.subs
  names : s.subs.Pairwise fun x y => x.id ≠ y.id
  tag : (s.port d).tags[t] = .issued e.id

/-- A parent without the references of its QUEUED entries, which are freed without a result (05 R83, 06 R95). -/
def withoutQueued (s : State) (p : Parent) : Parent :=
  { p with pieces := p.pieces.map fun pc => { pc with members := pc.members.map fun m =>
      if (m.sub.any fun r => s.subs.any fun e => e.id == r && e.parent == p.id && e.issue.isNone) then { m with sub := none } else m } }

/-! ## Splits (04 R57 to R65) -/

/-- The copies that serve a part of an extent: for WRITE, the lead and a CURRENT other copy; for READ and VERIFY, the lead, or the other copy when that is CURRENT and on an UP or RESETTING port and the lead's port is neither (04 R61, R62). -/
def servingCopies (s : State) (op : Op) (x : Extent) : List CopyNo :=
  let works := fun c => (s.port (x.portOfCopy c)).state = .up ∨ (s.port (x.portOfCopy c)).state = .resetting
  if op = .write then (if x.isCurrent x.lead.other then [x.lead, x.lead.other] else [x.lead])
  else if ¬ works x.lead ∧ x.isCurrent x.lead.other ∧ works x.lead.other then [x.lead.other] else [x.lead]

/-- The pieces of a range up to block `stop`, from block `pos` on, over live extents: each begins where the one before ends, lies in one extent, has a member for each copy that serves it, and is as long as the extent, the range and the maximum transfers of those copies' ports let it be (04 R57, R58). -/
def CutsFrom (s : State) (live : List Extent) (op : Op) (stop : Nat) : Nat → List PlannedPiece → Prop
  | pos, [] => pos = stop
  | pos, q :: qs => q.first = pos ∧ 1 ≤ q.length
    ∧ (∃ x, live[q.ordinal]? = some x ∧ x.first.toNat ≤ pos ∧ pos + q.length ≤ x.first.toNat + x.length.toNat ∧ pos + q.length ≤ stop
      ∧ (∀ c ∈ servingCopies s op x, q.length ≤ (s.port (x.portOfCopy c)).maxTransfer)
      ∧ (pos + q.length = x.first.toNat + x.length.toNat ∨ pos + q.length = stop
        ∨ ∃ c ∈ servingCopies s op x, q.length = (s.port (x.portOfCopy c)).maxTransfer)
      ∧ q.members = (servingCopies s op x).map fun c => ⟨c, x.portOfCopy c, x.targetOf c pos⟩)
    ∧ CutsFrom s live op stop (pos + q.length) qs

/-- The entries that the pieces before piece `i` take (04 R65). -/
def entriesBefore (qs : List PlannedPiece) (i : Nat) : Nat := ((qs.take i).map fun q => q.members.length).sum

/-- The piece records of a split of a range that begins at `start`, whose entries are named from `n` on, in piece order, lead member first (04 R63, R65). -/
def splitPieces (start n : Nat) (qs : List PlannedPiece) : List Piece :=
  qs.mapIdx fun i q => ⟨q.first - start, q.length, q.ordinal, q.members.mapIdx fun k m => ⟨m.copy, some (n + entriesBefore qs i + k), none⟩, false, .pending⟩

/-- The Sub-command Table entries of a split of parent `p`, named from `n` on, QUEUED (04 R64, R65). -/
def splitEntries (p : Parent) (n : Nat) (qs : List PlannedPiece) : List SubCmd :=
  (qs.mapIdx fun i q => q.members.mapIdx fun k m =>
    ⟨n + entriesBefore qs i + k, p.id, some i, some m.copy, m.port, subOpOf p.op, p.cls, m.target, q.length, none⟩).flatten

/-! ## Issues, retries and writes (05 R79, R81, 06 R92, R96 to R98) -/

/-- The blocks that the SUB of an entry carries: for WRITE, the parent's slots from the piece's volume offset; none otherwise (05 R81). -/
def Carries (s : State) (x : SubCmd) (bs : List Block) : Prop :=
  (x.op ≠ .write ∧ bs = [])
    ∨ (x.op = .write ∧ ∃ p ∈ s.parents, ∃ (i : Nat) (pc : Piece), p.id = x.parent ∧ x.piece = some i ∧ p.pieces[i]? = some pc
        ∧ (p.slots.drop pc.offset).take x.count = bs.map some)

/-- The issue of entry `x` from the head of class queue `c` of port `d`, with pass count `n` after it: the entry leaves its queue, is ISSUED under tag `t` with its deadline, and its SUB is sent (05 R79, R81). -/
def issued (d : Port) (c : Sys2Proof.Class) (n : Nat) (t : DTag) (x : SubCmd) (rest : List SubRef) (bs : List Block) (s : State) : State :=
  { withPort d { s.port d with queues := put (s.port d).queues c rest, passCount := n, tags := put (s.port d).tags t (.issued x.id) } s with
    subs := s.subs.map fun y => if y.id = x.id then { y with issue := some ⟨t, s.now + (s.port d).responseLimit⟩ } else y
    sent := s.sent ++ [.down d (.sub ⟨t, x.op, x.targetStart, x.count, bs⟩)] }

/-- The retry of the one sub-command of a READ: piece, member and entry go to copy `c` on port `d`, and the entry joins the tail of its class queue there (06 R92). -/
def retried (p : Parent) (pc : Piece) (e : SubCmd) (c : CopyNo) (d : Port) (start : Nat) (s : State) : State :=
  { withPort d { s.port d with queues := put (s.port d).queues e.cls ((s.port d).queues[e.cls] ++ [e.id]) } s with
    parents := s.parents.map fun q =>
      if q.id = p.id then { p with pieces := [{ pc with retried := true, members := [⟨c, some e.id, none⟩] }] } else q
    subs := s.subs.map fun y => if y.id = e.id then { e with copy := some c, port := d, targetStart := start, issue := none } else y }

/-- A READ with the blocks that its one result has brought in its slots (06 R90). -/
def keeping (p : Parent) (bs : List Block) : Parent := { p with slots := bs.map some ++ p.slots.drop bs.length }

/-- A TCPL that fails READ entry `e` at its block `n`, with status `st`: FAULT or REFUSED without error block or payload, or MEDIUM with the blocks before its error block (06 R87, R88, R94). -/
def Fails (f : TcplFrame) (e : SubCmd) (n : Nat) (st : Status) : Prop :=
  f.wf = true ∧ f.payload.length = n
    ∧ ((n = 0 ∧ f.flags.getLsbD 0 = false ∧ ((f.result = 2 ∧ st = .targetFault) ∨ (f.result = 3 ∧ st = .targetRefused)))
      ∨ (f.result = 1 ∧ st = .mediumError ∧ f.flags.getLsbD 0 = true ∧ f.errorBlock.toNat = e.targetStart + n ∧ n < e.count))

/-- How port `q` takes a retried entry: RESETTING, it keeps the entry QUEUED; UP, with nothing queued and room in its window, it issues the entry under its lowest FREE tag (05 R74, R78, R81). -/
def Ready (s : State) (q : Port) : Option DTag → Prop
  | none => (s.port q).state = .resetting
  | some u => (s.port q).state = .up ∧ (∀ k : Sys2Proof.Class, (s.port q).queues[k] = []) ∧ (s.port q).occupancy < (s.port q).window
      ∧ (s.port q).tags[u] = .free ∧ ∀ k : DTag, k < u → (s.port q).tags[k] ≠ .free

/-- The retry of the one sub-command of a READ to copy `c` on port `q`, which keeps the entry QUEUED, or issues it under a tag (06 R92, 05 R78, R81). -/
def retriedTo (p : Parent) (pc : Piece) (e : SubCmd) (c : CopyNo) (q : Port) (start : Nat) (o : Option DTag) (s : State) : State :=
  match o with
  | none => retried p pc e c q start s
  | some u => issued q e.cls 0 u { e with copy := some c, port := q, targetStart := start, issue := none } [] [] (retried p pc e c q start s)

/-- The split of parent `p` into pieces: it becomes ACTIVE with its generation and its pieces, its entries are allocated, and the split is reported (04 R63 to R65). -/
def splitInto (p : Parent) (qs : List PlannedPiece) (s : State) : State :=
  { s with
    parents := s.parents.map fun q => if q.id = p.id then
      { p with state := .active, generation := some (s.vol p.volume).generation, pieces := splitPieces p.start s.nextSub qs } else q
    volumes := put s.volumes p.volume { s.vol p.volume with splitParents := (s.vol p.volume).splitParents + 1 }
    nextSub := s.nextSub + entriesBefore qs qs.length
    subs := s.subs ++ splitEntries p s.nextSub qs }

/-- The blocks that the SUB of a new entry of `p` carries: of a WRITE, its piece's part of the slots (05 R81). -/
def carried (p : Parent) (qs : List PlannedPiece) (e : SubCmd) : List Block :=
  match p.op, e.piece.bind (qs[·]?) with
  | .write, some q => ((p.slots.drop (q.first - p.start)).take q.length).filterMap id
  | _, _ => []

/-- A new entry with its blocks: it joins the tail of its class queue, or is issued at once under a tag (04 R67, 05 R78, R81). -/
def startedBy (bs : List Block) (x : SubCmd × Option DTag) (s : State) : State :=
  match x.2 with
  | some t => issued x.1.port x.1.cls 0 t x.1 [] bs s
  | none => withPort x.1.port { s.port x.1.port with
      queues := put (s.port x.1.port).queues x.1.cls ((s.port x.1.port).queues[x.1.cls] ++ [x.1.id]) } s

/-- The split of parent `p`, and then each entry QUEUED or issued, in their order; `ts` gives the tags of the issues (04 R65, R67). -/
def begun (p : Parent) (qs : List PlannedPiece) (ts : List (Option DTag)) (s : State) : State :=
  ((splitEntries p s.nextSub qs).zip ts).foldl (fun u x => startedBy (carried p qs x.1) x u) (splitInto p qs s)

/-- Every entry of the split of `p` finds its port RESETTING, or UP and ready to issue it alone under the tag that `ts` gives; a WRITE holds its data (04 R67, 05 R78, R81). -/
def CanBegin (s : State) (p : Parent) (qs : List PlannedPiece) (ts : List (Option DTag)) : Prop :=
  ts.length = (splitEntries p s.nextSub qs).length
    ∧ (∀ x ∈ (splitEntries p s.nextSub qs).zip ts, Ready s x.1.port x.2)
    ∧ (((splitEntries p s.nextSub qs).zip ts).Pairwise fun x y => x.1.port = y.1.port → x.2 = none)
    ∧ (p.op = .write → ∀ b ∈ p.slots, b.isSome = true)

/-- The notice of a copy-state effect of a WRITE on extent `x` of ordinal `n`: of the copy marked STALE, or of the new lead (06 R98). -/
def copyNotice (k : NoticeKind) (p : Parent) (n : Nat) (x : Extent) (c : CopyNo) : NoticeBody :=
  { kind := k, port := some (x.portOfCopy c), volume := some p.volume, initiator := some p.initiator, generation := p.generation,
    ordinal := some n, tag := some p.tag, reason := some (match c with | .one => 1 | .two => 2) }

/-- A copy-state effect of a WRITE: the live extent changes, and then its notice is posted (06 R97, R98). -/
def effected (p : Parent) (n : Nat) (x : Extent) (f : Effect) (s : State) : State :=
  let changed := withVol p.volume { s.vol p.volume with live := (s.vol p.volume).live.set n (x.apply f) } s
  match f with
  | .none => s
  | .stale c => noticed (copyNotice .copyStale p n x c) changed
  | .swap c => noticed (copyNotice .leadSwapped p n x c) changed

/-! ## Admission (02 R27, R30 to R36) -/

/-- The rights of an initiator on a volume do not permit an operation (02 R27). -/
def noRights (r : Rights) (op : Op) : Bool := r == .none || (r == .read && (op == .write || op == .drain))

/-- The admission checks of a CMD in their order: whether each fails, and its status (02 R30 to R34). -/
def admissionChecks (s : State) (i : Initiator) (v : Volume) (op : Op) (f : CmdFrame) : List (Bool × Status) :=
  [(decide (f.payload.length ≠ if op = .write then (if v = 0 then 1 else f.count.toNat) else 0), .malformed),
   (s.initiators[i].barred, .barred),
   (s.parents.any fun p => p.initiator == i && p.tag == f.tag, .duplicateTag),
   (v == 0 && (op == .verify || op == .drain), .badOperation),
   (decide (¬ if v = 0 then f.count.toNat = 1 else if op = .drain then f.count.toNat = 0 ∧ f.start.toNat = 0
      else 1 ≤ f.count.toNat ∧ f.count.toNat ≤ 1024), .badCount),
   (v != 0 && (s.vol v).state != .online && (s.vol v).state != .switching, .badVolume),
   (v != 0 && noRights s.access[i][v] op, .noAccess),
   (v != 0 && op == .write && (s.vol v).writeProtected, .writeProtected),
   (v != 0 && op != .drain && decide ((s.vol v).capacity.getD 0 < f.start.toNat + f.count.toNat), .outOfRange),
   (decide (128 ≤ s.parents.length), .tableBusy),
   (decide (s.initiators[i].credit ≤ s.initiators[i].liveCount), .creditExceeded),
   (v == 0 && decide (8 ≤ s.controlQueue.length), .controlBusy),
   (decide (s.freeSlots < slotHolding v op f.count.toNat), .noBuffer)]

/-- The status of the first check that fails (02 R30). -/
def firstFailure (s : State) (i : Initiator) (v : Volume) (op : Op) (f : CmdFrame) : Option Status :=
  ((admissionChecks s i v op f).find? Prod.fst).map Prod.snd

/-- A CMD frame that the part takes, from initiator `i`, with fields that name volume `v`, operation `op` and class `c` (02 R19, 10 R155, R157). -/
structure Taken (s : State) (f : CmdFrame) (i : Initiator) (v : Volume) (op : Op) (c : Sys2Proof.Class) : Prop where
  link : s.linkUp = true
  fits : f.wf = true
  initiator : f.initiator.toNat = i.val
  volume : f.volume.toNat = v.val
  operation : opOf f.operation = some op
  cls : f.cls.toNat = c.val
  count : f.count.toNat ≤ 2047

/-- The CPL of a refused CMD (02 R31). -/
def refusalCpl (i : Initiator) (f : CmdFrame) (st : Status) : Cpl :=
  { initiator := i, tag := f.tag, reply := .command, status := st, failBlock := none,
    residual := if 1024 < f.count.toNat then 1024 else f.count.toNat, payload := [] }

/-- The Command Table entry of an admitted CMD (02 R22, R29, R35). -/
def newParent (s : State) (f : CmdFrame) (i : Initiator) (v : Volume) (op : Op) (c : Sys2Proof.Class) (x : ParentState) : Parent :=
  { id := s.nextParent, initiator := i, tag := f.tag, volume := v, op := op, cls := c, start := f.start.toNat,
    count := f.count.toNat, state := x,
    slots := if op = .write then f.payload.map some else List.replicate (slotHolding v op f.count.toNat) none,
    generation := none, pieces := [], drainPhase := if op = .drain then some .one else none, flushResults := [] }

/-- The Command Table with a parent admitted last (02 R35 steps 1 to 4). -/
def withParent (p : Parent) (s : State) : State :=
  { s with
    parents := s.parents ++ [p]
    nextParent := s.nextParent + 1
    freeSlots := s.freeSlots - p.slots.length
    initiators := put s.initiators p.initiator
      { s.initiators[p.initiator] with liveCount := s.initiators[p.initiator].liveCount + 1 } }

/-- The admission report: one more live parent of a volume (01 R9, 02 R35 step 5). -/
def withLiveParent (v : Volume) (s : State) : State :=
  { s with volumes := put s.volumes v { s.volumes[v] with liveParents := s.volumes[v].liveParents + 1 } }

/-- The CPL that ends a parent, with reply kind COMMAND (02 R37). -/
def commandCpl (p : Parent) (st : Status) (fail : Option Nat) (residual : Nat) (payload : List Block) : Cpl :=
  { initiator := p.initiator, tag := p.tag, reply := .command, status := st, failBlock := fail, residual := residual, payload := payload }

/-- The CPL of a WRITE or VERIFY with one piece over its whole range, by what the piece became: GOOD, or its status with its fail block (06 R101). -/
def pieceCpl (p : Parent) (x : PieceState) : Cpl :=
  match x with
  | .failed st b => commandCpl p st (some b) (p.start + p.count - b) []
  | .pending | .good => commandCpl p .good none 0 []

/-- The frames at the end of a data parent: for an ACTIVE one, the CPL that its pieces give; for an ABORTING one, its CPL ABORTED with residual equal to the count; for a DISCARDING one, none (06 R101, R103, R104). -/
def endFrames (p : Parent) (c : Cpl) : List UpFrame :=
  match p.state with
  | .aborting => [.cpl (commandCpl p .aborted none p.count [])]
  | .discarding => []
  | _ => [.cpl c]

/-- The end of a long operation with the status GOOD or another: its parent's CPL and free, when it has a parent (09 R137, 01 R18). -/
def longEndedFor (o : Option Parent) (st : Status) (s : State) : State :=
  match o with
  | none => s
  | some p => longEnded p st s

/-- The ABORT reply to an ABT (07 R115). -/
def abortCpl (i : Initiator) (t : Byte) (st : Status) : Cpl :=
  { initiator := i, tag := t, reply := .abort, status := st, failBlock := none, residual := 0, payload := [] }

/-! ## The split stage (04 R55, R56, R70) -/

/-- A parent that joins the tail of the Split-Wait List (04 R56 case 4, R68). -/
def waiting (p : Parent) (s : State) : State :=
  { s with splitWait := s.splitWait ++ [p.id]
           parents := s.parents.map fun q => if q.id = p.id then { q with state := .splitWait } else q }

/-- What becomes of parent `p` of an ONLINE volume at the split stage (04 R56 cases 2 to 4, R59, R60, R65, R71): over a hole it completes UNMAPPED; cut into more than 16 pieces, FRAGMENTED; cut into fewer, it joins the tail of the Split-Wait List when that holds a parent or the entries do not suffice, and is split otherwise; a DRAIN completes GOOD when no live copy is CURRENT, and else joins a Split-Wait List that holds a parent. -/
def Arrives (p : Parent) (s t : State) : Prop :=
  (p.op ≠ .drain ∧ (∃ b, p.start ≤ b ∧ b < p.start + p.count ∧ ∀ x ∈ (s.vol p.volume).live, b < x.first.toNat ∨ x.first.toNat + x.length.toNat ≤ b)
      ∧ t = { freed p s with outbound := s.outbound ++ [.cpl (commandCpl p .unmapped (some p.start) p.count [])] })
    ∨ (p.op ≠ .drain ∧ ∃ qs, CutsFrom s (s.vol p.volume).live p.op (p.start + p.count) p.start qs
      ∧ ((16 < qs.length ∧ t = { freed p s with outbound := s.outbound ++ [.cpl (commandCpl p .fragmented (some p.start) p.count [])] })
        ∨ (qs.length ≤ 16 ∧ (s.splitWait ≠ [] ∨ 256 - s.subs.length < entriesBefore qs qs.length) ∧ t = waiting p s)
        ∨ (qs.length ≤ 16 ∧ s.splitWait = [] ∧ entriesBefore qs qs.length ≤ 256 - s.subs.length
          ∧ ∃ ts, CanBegin s p qs ts ∧ t = begun p qs ts s)))
    ∨ (p.op = .drain ∧ (∀ x ∈ (s.vol p.volume).live, ∀ c : CopyNo, x.isCurrent c = false)
      ∧ t = { freed p s with outbound := s.outbound ++ [.cpl (commandCpl p .good none 0 [])] })
    ∨ (p.op = .drain ∧ (∃ x ∈ (s.vol p.volume).live, ∃ c : CopyNo, x.isCurrent c = true) ∧ s.splitWait ≠ [] ∧ t = waiting p s)

/-- What becomes of several parents that are handed to the split stage one after another (04 R55, R70). -/
def Released : List Parent → State → State → Prop
  | [], s, t => t = s
  | p :: ps, s, t => ∃ u, Arrives p s u ∧ Released ps u t

end Sys2Proof.Machine
end

