-- ==== Sys2Proof/Certificates/Slice0/Obligations.lean ====
section
/-! DEFINITION. The statements for the provers. -/

open Sys2Proof Sys2Proof.Machine

/-! ## The queue, the reset and time -/

/-- A step with command `c` at the front of the queue is the effect of `c` on the state with the queue's rest. -/
def Obligations.StepRunsFrontCommand : Prop :=
  ∀ (c : Instr) (rest : List Instr) (s : State), s.pending = c :: rest → step s = exec c { s with pending := rest }

/-- The model's choice (log entries 2, 3): with no command waiting, one millisecond passes while no timer is past its earliest moment of expiry; a lease that can wait no longer expires instead. -/
def Obligations.IdleStepPassesTimeOrExpires : Prop :=
  ∀ s : State, s.pending = [] →
    ((∀ t, s.leaseTimer = some t → s.now ≤ t) →
      (∀ p : Port, ∀ t, (s.port p).state = .resetting → (s.port p).resetTimer = some t → s.now ≤ t) →
      (∀ e ∈ s.subs, ∀ i, e.issue = some i → s.now ≤ i.deadline) →
      step s = .next { s with now := s.now + 1 })
    ∧ (∀ t, s.leaseTimer = some t → t < s.now → step s = exec .leaseExpiry s)

/-- R2: what the RESET input leaves of the Volume Table, the Extent Pool and the Command Table. -/
def Obligations.ResetInputClearsVolumeTable : Prop :=
  ∀ s : State, ∃ t, exec .resetInput s = .next t ∧
    (∀ v : Volume, (t.vol v).state = .absent ∧ (t.vol v).capacity = none ∧ (t.vol v).writeProtected = false
      ∧ (t.vol v).generation = 0 ∧ (t.vol v).live = [] ∧ (t.vol v).staged = [] ∧ (t.vol v).longOp = none
      ∧ (t.vol v).liveParents = 0 ∧ (t.vol v).splitParents = 0)
    ∧ t.freeExtents = 512 ∧ t.parents = []

/-- What the RESET input leaves of every other table; what is outside the part stays (the model's choice, log entry 15). -/
def Obligations.ResetInputClearsOtherTables : Prop :=
  ∀ s : State, ∃ t, exec .resetInput s = .next t ∧ t.linkUp = false ∧ t.outbound = [] ∧ t.freeSlots = 2048
    ∧ (∀ i : Initiator, t.initiators[i] = { credit := 8, barred := false, liveCount := 0 })
    ∧ (∀ (i : Initiator) (v : Volume), t.access[i][v] = .none)
    ∧ (∀ v : Volume, t.ranges[v] = [] ∧ t.holds[v] = [] ∧ t.switchHolds[v] = [])
    ∧ t.subs = [] ∧ t.splitWait = []
    ∧ (∀ p : Port, (t.port p).state = .down ∧ (t.port p).reason = none ∧ (t.port p).attempts = 0
        ∧ (t.port p).resetTimer = none ∧ (t.port p).pendingReset = none ∧ (t.port p).flushWaiters = []
        ∧ (t.port p).responseLimit = 2000 ∧ (t.port p).maxTransfer = 256 ∧ (t.port p).window = 8
        ∧ (t.port p).passCount = 0 ∧ (∀ k : DTag, (t.port p).tags[k] = .free) ∧ (∀ c : Sys2Proof.Class, (t.port p).queues[c] = []))
    ∧ t.controlQueue = [] ∧ t.executing = none ∧ t.manager = none ∧ t.lease = 0 ∧ t.leaseTimer = none ∧ t.flush = none
    ∧ t.notices = [] ∧ t.seq = 0 ∧ t.dropped = 0 ∧ t.alert = .armed
    ∧ t.mapReports = [] ∧ t.orderReports = [] ∧ t.goneMap = [] ∧ t.gonePort = [] ∧ t.goneFlush = []
    ∧ t.pending = s.pending ∧ t.sent = s.sent ∧ t.now = s.now

/-- Every law that the other statements speak of holds right after reset. -/
def Obligations.LawsHoldAtReset : Prop :=
  CommandTableLaw State.reset ∧ ExtentPoolLaw State.reset ∧ LiveMapLaw State.reset ∧ VolumeCountLaw State.reset
    ∧ NoticeLaw State.reset ∧ ManagerLaw State.reset ∧ PortLaw State.reset ∧ PortStateLaw State.reset
    ∧ SubCommandLaw State.reset ∧ BoundLaw State.reset ∧ OrderLaw State.reset

/-! ## Invariants of every step -/

/-- R22, R23, R26, R28: every step keeps the laws of the Command Table. -/
def Obligations.StepKeepsCommandTable : Prop :=
  ∀ s t : State, CommandTableLaw s → step s = .next t → CommandTableLaw t

/-- R4, R5, R7: every step keeps the law of the Extent Pool, and the two laws of every live map. -/
def Obligations.StepKeepsExtentPoolAndLiveMaps : Prop :=
  ∀ s t : State, step s = .next t → (ExtentPoolLaw s → ExtentPoolLaw t) ∧ (LiveMapLaw s → LiveMapLaw t)

/-- R64, R136, R139, R141, R149, R152: every step keeps the law of the Notice Queue, the law of the manager record and the alert, and the Sub-command Table and the Control Queue in their bounds. -/
def Obligations.StepKeepsNoticesManagerAndBounds : Prop :=
  ∀ s t : State, step s = .next t → (NoticeLaw s → NoticeLaw t) ∧ (ManagerLaw s → ManagerLaw t) ∧ (BoundLaw s → BoundLaw t)

/-- R73, R76, R122, R133: every step keeps every port record sound, and keeps what goes with each port's state: empty class queues while DOWN or HALTED, a pending management reset and flush waiters only while RESETTING, a reset timer always while RESETTING, every tag FREE while DOWN or RESETTING. -/
def Obligations.StepKeepsPortRecords : Prop :=
  ∀ s t : State, step s = .next t → (PortLaw s → PortLaw t) ∧ (PortStateLaw s → PortStateLaw t)

/-- R47: every step keeps the law of ordering. The premise on the counts is kept too (StepKeepsVolumeCounts). -/
def Obligations.StepKeepsOrdering : Prop :=
  ∀ s t : State, VolumeCountLaw s → OrderLaw s → step s = .next t → OrderLaw t

/-- R64, R73, R75: every step keeps the law of sub-commands and tags: entry names are unique and below the next; each ISSUED tag names an entry ISSUED under it, and each ISSUED entry stands under its tag; each QUEUED entry stands in exactly one class queue, that of its port and class, once, and a queue holds nothing else. ISSUED and QUARANTINED tags of a port never exceed 16. -/
def Obligations.StepKeepsSubCommandsAndTags : Prop :=
  ∀ s t : State, step s = .next t → (SubCommandLaw s → SubCommandLaw t)
    ∧ ∀ p : Port, (t.port p).issuedTags + (t.port p).quarantinedTags ≤ 16

/-- R9, R40: every step keeps the counts of the Volume Table: the live parent count of a data volume is the number of its live parents and of the free reports of it on their way, and the Active Range List of an ABSENT volume is empty. That the count may then pass the 128 of R1 (log entry 29), and that a removal empties the list (log entry 6), are DEDUCED. -/
def Obligations.StepKeepsVolumeCounts : Prop :=
  ∀ s t : State, VolumeCountLaw s → step s = .next t → VolumeCountLaw t

/-! ## The upstream link and the frames on it -/

/-- R20: the head of the outbound order is sent while the link is UP; while it is DOWN every waiting frame is kept. UPSTREAM_LINK_UP and the frames' order are part of it. -/
def Obligations.OutboundOrderIsSentFromItsHead : Prop :=
  (∀ (s : State) (f : UpFrame) (rest : List UpFrame), s.linkUp = true → s.outbound = f :: rest →
      exec .outboundFrameSend s = .next { s with outbound := rest, sent := s.sent ++ [.up f] })
    ∧ (∀ s : State, s.linkUp = false → exec .outboundFrameSend s = .next s)
    ∧ (∀ s : State, exec .upstreamLinkUp s = .next { s with linkUp := true })

/-- R155, R157 and the layouts of 10.2 and 10.3: an inbound frame that passed its check sequence is the command of its kind with the fields at their offsets, when its length fits its kind and its initiator is 0 to 15; it is dropped otherwise, and a dropped frame changes nothing. -/
def Obligations.FramesAreTakenByKindAndLength : Prop :=
  (∀ (l : List Byte) (n : Nat), l.head? = some 0x01 → l.length = 16 + 512 * n → n ≤ 2047 →
      ((byteAt l 1).toNat < 16 → ∃ bs : List Block, bs.length = n ∧ (∀ b ∈ bs, b.length = 512) ∧ bs.flatten = l.drop 16
        ∧ receiveUpstream true l = .cmd ⟨byteAt l 1, byteAt l 2, byteAt l 3, byteAt l 4, byteAt l 5, word16At l 6, word32At l 8, bs⟩)
      ∧ (16 ≤ (byteAt l 1).toNat → receiveUpstream true l = .droppedFrame .upstream true l))
    ∧ (∀ l : List Byte, l.head? = some 0x02 → l.length = 4 →
      ((byteAt l 1).toNat < 16 → receiveUpstream true l = .abt ⟨byteAt l 1, byteAt l 2⟩)
      ∧ (16 ≤ (byteAt l 1).toNat → receiveUpstream true l = .droppedFrame .upstream true l))
    ∧ (∀ (p : Port) (l : List Byte) (n : Nat), l.head? = some 0xC1 → l.length = 8 + 512 * n → n ≤ 1024 →
      ∃ bs : List Block, bs.length = n ∧ (∀ b ∈ bs, b.length = 512) ∧ bs.flatten = l.drop 8
        ∧ receiveDownstream p true l = .tcpl p ⟨byteAt l 1, byteAt l 2, byteAt l 3, word32At l 4, bs⟩)
    ∧ (∀ (p : Port) (l : List Byte), l.head? = some 0xC2 → l.length = 4 → receiveDownstream p true l = .trdy p)
    ∧ (∀ l : List Byte,
      ((l.head? ≠ some 0x01 ∧ l.head? ≠ some 0x02)
        ∨ (l.head? = some 0x01 ∧ (l.length < 16 ∨ (l.length - 16) % 512 ≠ 0 ∨ 2047 < (l.length - 16) / 512))
        ∨ (l.head? = some 0x02 ∧ l.length ≠ 4)) →
      receiveUpstream true l = .droppedFrame .upstream true l)
    ∧ (∀ (p : Port) (l : List Byte),
      ((l.head? ≠ some 0xC1 ∧ l.head? ≠ some 0xC2)
        ∨ (l.head? = some 0xC1 ∧ (l.length < 8 ∨ (l.length - 8) % 512 ≠ 0 ∨ 1024 < (l.length - 8) / 512))
        ∨ (l.head? = some 0xC2 ∧ l.length ≠ 4)) →
      receiveDownstream p true l = .droppedFrame (.target p) true l)
    ∧ (∀ (k : Link) (l : List Byte), receive k false l = .droppedFrame k false l)
    ∧ (∀ (k : Link) (ok : Bool) (l : List Byte) (s : State), exec (.droppedFrame k ok l) s = .next s)

/-- R157: a CMD or ABT from an initiator above 15 changes nothing; a CMD with a field out of its range is refused MALFORMED. That a CMD or ABT while the link is DOWN changes nothing is the model's choice (log entry 4): R19 says that no frame arrives then. -/
def Obligations.FieldsOutOfRangeAreDroppedOrMalformed : Prop :=
  (∀ (s : State) (f : CmdFrame), s.linkUp = false ∨ 16 ≤ f.initiator.toNat → exec (.cmd f) s = .next s)
    ∧ (∀ (s : State) (f : AbtFrame), s.linkUp = false ∨ 16 ≤ f.initiator.toNat → exec (.abt f) s = .next s)
    ∧ (∀ (s : State) (f : CmdFrame) (i : Initiator), s.linkUp = true → f.wf = true → f.initiator.toNat = i.val →
        64 ≤ f.volume.toNat ∨ f.operation.toNat = 0 ∨ 4 < f.operation.toNat ∨ 3 < f.cls.toNat ∨ 2047 < f.count.toNat →
        exec (.cmd f) s = .next { s with outbound := s.outbound ++ [.cpl (refusalCpl i f .malformed)] })

/-- R31 (with the order of R30): the first admission check that fails names the status of the CPL, and a refused CMD changes nothing else. -/
def Obligations.FirstFailedCheckRefusesCmd : Prop :=
  ∀ (s : State) (f : CmdFrame) (i : Initiator) (v : Volume) (op : Op) (c : Sys2Proof.Class) (st : Status),
    Taken s f i v op c → firstFailure s i v op f = some st →
    exec (.cmd f) s = .next { s with outbound := s.outbound ++ [.cpl (refusalCpl i f st)] }

/-- R35, R36, R136: a control CMD that passes every check is admitted; it joins the Control Queue, or is taken for execution at once, and restarts the manager's lease. -/
def Obligations.AdmittedControlCommandIsQueuedOrTaken : Prop :=
  ∀ (s : State) (f : CmdFrame) (i : Initiator) (op : Op) (c : Sys2Proof.Class),
    AdmissionOrder s → Taken s f i 0 op c → firstFailure s i 0 op f = none →
    (∀ id, s.executing = some id →
      exec (.cmd f) s = .next { withParent (newParent s f i 0 op c .controlWait) s with
        controlQueue := s.controlQueue ++ [s.nextParent]
        leaseTimer := if s.manager = some i then (if s.lease = 0 then none else some (s.now + 1000 * s.lease)) else s.leaseTimer })
    ∧ (s.executing = none → s.controlQueue = [] →
      exec (.cmd f) s = .next { withParent (newParent s f i 0 op c .controlActive) s with
        executing := some s.nextParent
        leaseTimer := if s.manager = some i then (if s.lease = 0 then none else some (s.now + 1000 * s.lease)) else s.leaseTimer })

/-- R43, R49: a READ, WRITE or VERIFY that passes every check and conflicts with an earlier entry of its volume's list enters ORDER_WAIT with a hold record of kind RANGE; a DRAIN that passes every check, while an earlier parent of its initiator and volume is live, enters ORDER_WAIT with a hold record of kind DRAIN. -/
def Obligations.ConflictingCommandOrDrainIsHeld : Prop :=
  (∀ (s : State) (f : CmdFrame) (i : Initiator) (v : Volume) (op : Op) (c : Sys2Proof.Class) (e : RangeEntry),
      OrderLaw s → Taken s f i v op c → firstFailure s i v op f = none → v ≠ 0 → op ≠ .drain →
      e ∈ s.ranges[v] → f.start.toNat < e.start + e.count → e.start < f.start.toNat + f.count.toNat → (op = .write ∨ e.op = .write) →
      exec (.cmd f) s = .next { withLiveParent v (withParent (newParent s f i v op c .orderWait) s) with
        ranges := put s.ranges v (s.ranges[v] ++ [{ parent := s.nextParent, op := op, start := f.start.toNat, count := f.count.toNat }])
        holds := put s.holds v (s.holds[v] ++ [{ parent := s.nextParent, kind := .range }]) })
    ∧ (∀ (s : State) (f : CmdFrame) (i : Initiator) (v : Volume) (c : Sys2Proof.Class) (q : Parent),
      AdmissionOrder s → Taken s f i v .drain c → firstFailure s i v .drain f = none → v ≠ 0 →
      q ∈ s.parents → q.initiator = i → q.volume = v →
      exec (.cmd f) s = .next { withLiveParent v (withParent (newParent s f i v .drain c .orderWait) s) with
        holds := put s.holds v (s.holds[v] ++ [{ parent := s.nextParent, kind := .drain }]) })

/-- R59: a READ, WRITE or VERIFY that nothing holds back and whose range touches a hole of an ONLINE volume completes UNMAPPED at once, with no sub-command and no generation; its free is reported. -/
def Obligations.RangeOverHoleCompletesUnmapped : Prop :=
  ∀ (s : State) (f : CmdFrame) (i : Initiator) (v : Volume) (op : Op) (c : Sys2Proof.Class) (b : Nat),
    OrderLaw s → Taken s f i v op c → firstFailure s i v op f = none → v ≠ 0 → op ≠ .drain → (s.vol v).state = .online →
    (∀ e ∈ s.ranges[v], f.start.toNat < e.start + e.count → e.start < f.start.toNat + f.count.toNat → op ≠ .write ∧ e.op ≠ .write) →
    f.start.toNat ≤ b → b < f.start.toNat + f.count.toNat →
    (∀ x ∈ (s.vol v).live, b < x.first.toNat ∨ x.first.toNat + x.length.toNat ≤ b) →
    exec (.cmd f) s = .next { withLiveParent v s with
      nextParent := s.nextParent + 1
      ranges := put s.ranges v (s.ranges[v] ++ [{ parent := s.nextParent, op := op, start := f.start.toNat, count := f.count.toNat }])
      outbound := s.outbound ++ [.cpl (commandCpl (newParent s f i v op c .orderWait) .unmapped (some f.start.toNat) f.count.toNat [])]
      mapReports := s.mapReports ++ [{ volume := v, split := false }]
      orderReports := s.orderReports ++ [{ volume := v, parent := s.nextParent }] }

/-- R51, R52, R66, R71: a DRAIN that nothing holds back enters phase 2 at its hand-off. With no port that holds a CURRENT copy of its volume it completes GOOD at once. Otherwise it is split into one FLUSH for each such port, in ascending port number, with a pending flush result for each: the FLUSHes wait in the class queues of RESETTING ports; the one of a single UP port with nothing before it is issued; the one of a single DOWN or HALTED port fails at once, and the DRAIN completes with its status. -/
def Obligations.DrainInPhase2IsSplitIntoFlushes : Prop :=
  ∀ (s : State) (f : CmdFrame) (i : Initiator) (v : Volume) (c : Sys2Proof.Class) (ports : List Port),
    AdmissionOrder s → LiveMapLaw s → (∀ e ∈ s.subs, e.id < s.nextSub) →
    Taken s f i v .drain c → firstFailure s i v .drain f = none → v ≠ 0 → (s.vol v).state = .online →
    (∀ q ∈ s.parents, ¬(q.initiator = i ∧ q.volume = v)) →
    ports = (List.finRange 4).filter (fun d => (s.vol v).live.any fun x => [CopyNo.one, .two].any fun k =>
      (x.copy? k).any fun y => y.state == .current && y.port.toNat == d.val) →
    (ports = [] →
      exec (.cmd f) s = .next { withLiveParent v s with
        nextParent := s.nextParent + 1
        outbound := s.outbound ++ [.cpl (commandCpl (newParent s f i v .drain c .orderWait) .good none 0 [])]
        mapReports := s.mapReports ++ [⟨v, false⟩]
        orderReports := s.orderReports ++ [⟨v, s.nextParent⟩] })
    ∧ (ports ≠ [] → s.splitWait = [] → s.subs.length + ports.length ≤ 256 →
      ((∀ d ∈ ports, (s.port d).state = .resetting) →
        exec (.cmd f) s = .next { withParent
          { newParent s f i v .drain c .active with
            drainPhase := some .two, generation := some (s.vol v).generation, flushResults := ports.map fun d => ⟨d, none⟩ } s with
          volumes := put s.volumes v { s.vol v with liveParents := (s.vol v).liveParents + 1, splitParents := (s.vol v).splitParents + 1 }
          nextSub := s.nextSub + ports.length
          subs := s.subs ++ ports.zipIdx.map fun q => ⟨s.nextSub + q.2, s.nextParent, none, none, q.1, .flush, c, 0, 0, none⟩
          ports := Vector.ofFn fun d : Port => if d ∈ ports then
              { s.port d with queues := put (s.port d).queues c ((s.port d).queues[c] ++ [s.nextSub + ports.idxOf d]) }
            else s.port d })
      ∧ (∀ (d : Port) (t : DTag), ports = [d] → (s.port d).state = .up →
          (∀ k : Sys2Proof.Class, (s.port d).queues[k] = []) → (s.port d).occupancy < (s.port d).window →
          (s.port d).tags[t] = .free → (∀ u : DTag, u < t → (s.port d).tags[u] ≠ .free) →
        exec (.cmd f) s = .next { withParent
          { newParent s f i v .drain c .active with
            drainPhase := some .two, generation := some (s.vol v).generation, flushResults := [⟨d, none⟩] } s with
          volumes := put s.volumes v { s.vol v with liveParents := (s.vol v).liveParents + 1, splitParents := (s.vol v).splitParents + 1 }
          nextSub := s.nextSub + 1
          subs := s.subs ++ [⟨s.nextSub, s.nextParent, none, none, d, .flush, c, 0, 0, some ⟨t, s.now + (s.port d).responseLimit⟩⟩]
          ports := put s.ports d { s.port d with tags := put (s.port d).tags t (.issued s.nextSub), passCount := 0 }
          sent := s.sent ++ [.down d (.sub ⟨t, .flush, 0, 0, []⟩)] })
      ∧ (∀ (d : Port) (st : Status), ports = [d] →
          ((s.port d).state = .down ∧ st = .targetLost) ∨ ((s.port d).state = .halted ∧ st = .targetHalted) →
        exec (.cmd f) s = .next { s with
          volumes := put s.volumes v { s.vol v with liveParents := (s.vol v).liveParents + 1, splitParents := (s.vol v).splitParents + 1 }
          nextParent := s.nextParent + 1
          nextSub := s.nextSub + 1
          outbound := s.outbound ++ [.cpl (commandCpl (newParent s f i v .drain c .orderWait) st none 0 [])]
          mapReports := s.mapReports ++ [⟨v, true⟩]
          orderReports := s.orderReports ++ [⟨v, s.nextParent⟩] }))

/-- R68 (with R56, R59, R65, R70): a try at the Split-Wait List takes its head through the split stage, and the next heads in turn. A head of a SWITCHING volume goes to the switch hold; one over a hole completes UNMAPPED; a READ inside one extent is split when an entry is free, and stays at the head, with nothing changed, when none is. An empty list is left. -/
def Obligations.SplitWaitHeadIsTried : Prop :=
  ∀ s : State, (s.splitWait = [] → tryHeads s = s)
    ∧ ∀ (p : Parent) (rest : List ParentRef), AdmissionOrder s → p ∈ s.parents → s.splitWait = p.id :: rest →
      ((s.vol p.volume).state = .switching → (∀ id ∈ s.switchHolds[p.volume], id < p.id) →
        tryHeads s = tryHeads { s with
          splitWait := rest
          switchHolds := put s.switchHolds p.volume (s.switchHolds[p.volume] ++ [p.id])
          parents := s.parents.map fun q => if q.id = p.id then { q with state := .switchWait } else q })
      ∧ (∀ b : Nat, (s.vol p.volume).state = .online → p.op ≠ .drain → p.start ≤ b → b < p.start + p.count →
          (∀ x ∈ (s.vol p.volume).live, b < x.first.toNat ∨ x.first.toNat + x.length.toNat ≤ b) →
        tryHeads s = tryHeads { freed p s with
          splitWait := rest
          outbound := s.outbound ++ [.cpl (commandCpl p .unmapped (some p.start) p.count [])] })
      ∧ (∀ (n : Nat) (x : Extent) (y : Copy) (d : Port) (t : DTag), LiveMapLaw s → (∀ e ∈ s.subs, e.id < s.nextSub) →
          (s.vol p.volume).state = .online → p.op = .read → 1 ≤ p.count → (s.vol p.volume).live[n]? = some x →
          x.first.toNat ≤ p.start → p.start + p.count ≤ x.first.toNat + x.length.toNat →
          x.copy? x.lead = some y → y.port.toNat = d.val → (s.port d).state = .up → p.count ≤ (s.port d).maxTransfer →
          (∀ k : Sys2Proof.Class, (s.port d).queues[k] = []) → (s.port d).occupancy < (s.port d).window →
          (s.port d).tags[t] = .free → (∀ u : DTag, u < t → (s.port d).tags[u] ≠ .free) →
        (256 ≤ s.subs.length → tryHeads s = s)
        ∧ (s.subs.length < 256 → tryHeads s = tryHeads { s with
          splitWait := rest
          parents := s.parents.map fun q => if q.id = p.id then
              { p with state := .active, generation := some (s.vol p.volume).generation
                       pieces := [⟨0, p.count, n, [⟨x.lead, some s.nextSub, none⟩], false, .pending⟩] } else q
          volumes := put s.volumes p.volume { s.vol p.volume with splitParents := (s.vol p.volume).splitParents + 1 }
          nextSub := s.nextSub + 1
          subs := s.subs ++ [⟨s.nextSub, p.id, some 0, some x.lead, d, .read, p.cls,
            p.start - x.first.toNat + y.first.toNat, p.count, some ⟨t, s.now + (s.port d).responseLimit⟩⟩]
          ports := put s.ports d { s.port d with tags := put (s.port d).tags t (.issued s.nextSub), passCount := 0 }
          sent := s.sent ++ [.down d (.sub ⟨t, .read, p.start - x.first.toNat + y.first.toNat, p.count, []⟩)] }))

/-! ## The loss of the upstream link -/

/-- R37 to R39: the loss frees every live parent without an ISSUED sub-command and leaves the others DISCARDING, with every other field as it was but for the references of their QUEUED entries. Each freed parent leaves its wait (the Control Queue, the Control Unit's execution, its hold record, the Split-Wait List or its switch hold), gives back its slots and its live count place, and has its free reports sent; the owner of a CONTROL_LONG one is told; every QUEUED entry of an ACTIVE or ABORTING parent leaves its class queue and is freed without a result. The manager is cleared, the alert armed and TRAFFIC_DISCARDED posted with the count of live parents, or counted as dropped. No CPL is produced, and no map, right, credit, port state or tag changes. -/
def Obligations.UpstreamLinkLossDiscardsTraffic : Prop :=
  ∀ s : State, s.linkUp = true → AdmissionOrder s →
    ∃ (t : State) (stays : Parent → Bool), exec .upstreamLinkLoss s = .next t ∧ t.linkUp = false
      ∧ (∀ p, stays p = true ↔
          p.state = .discarding ∨ ((p.state = .active ∨ p.state = .aborting) ∧ ∃ e ∈ s.subs, e.parent = p.id ∧ e.issue.isSome))
      ∧ t.parents = (s.parents.filter stays).map (fun p =>
          if p.state = .discarding then p else { withoutQueued s p with state := .discarding })
      ∧ t.freeSlots = s.freeSlots + ((s.parents.filter fun p => !stays p).map fun p => p.slots.length).sum
      ∧ (∀ i : Initiator, t.initiators[i] =
          { s.initiators[i] with liveCount := s.initiators[i].liveCount - s.parents.countP fun p => !stays p && p.initiator == i })
      ∧ t.mapReports = s.mapReports ++ (s.parents.filter fun p => !stays p && p.volume != 0).map (fun p => ⟨p.volume, p.generation.isSome⟩)
      ∧ t.orderReports = s.orderReports ++ (s.parents.filter fun p => !stays p && p.volume != 0).map (fun p => ⟨p.volume, p.id⟩)
      ∧ (∃ l, t.goneMap = s.goneMap ++ l ∧ ∀ g, g ∈ l ↔ g.volume ≠ 0 ∧ ∃ p ∈ s.parents, p.id = g.parent ∧ p.state = .controlLong
          ∧ (addressed p .write 4 g.volume.val ∨ addressed p .write 6 g.volume.val))
      ∧ (∃ l, t.gonePort = s.gonePort ++ l ∧ ∀ g, g ∈ l ↔ ∃ p ∈ s.parents, p.id = g.parent ∧ p.state = .controlLong ∧ addressed p .write 10 g.port.val)
      ∧ (∃ l, t.goneFlush = s.goneFlush ++ l ∧ ∀ g, g ∈ l ↔ ∃ p ∈ s.parents, p.id = g ∧ p.state = .controlLong ∧ addressed p .write 11 0)
      ∧ t.controlQueue = s.controlQueue.diff ((s.parents.filter fun p => p.state == .controlWait).map Parent.id)
      ∧ t.executing = (if ∃ p ∈ s.parents, p.state = .controlActive then none else s.executing)
      ∧ (∀ v : Volume, t.holds[v] = s.holds[v].filter fun h =>
          !s.parents.any fun p => p.state == .orderWait && p.volume == v && p.id == h.parent)
      ∧ t.splitWait = s.splitWait.diff ((s.parents.filter fun p => p.state == .splitWait).map Parent.id)
      ∧ (∀ v : Volume, t.switchHolds[v] = s.switchHolds[v].diff
          ((s.parents.filter fun p => p.state == .switchWait && p.volume == v).map Parent.id))
      ∧ t.subs = s.subs.filter (fun e => !(e.issue.isNone && s.parents.any fun p => p.id == e.parent && (p.state == .active || p.state == .aborting)))
      ∧ (∀ (d : Port) (c : Sys2Proof.Class), (t.port d).queues[c] = (s.port d).queues[c].filter fun r => !(s.subs.any fun e =>
          e.id == r && e.issue.isNone && s.parents.any fun p => p.id == e.parent && (p.state == .active || p.state == .aborting)))
      ∧ (∀ p : Port, { t.port p with queues := (s.port p).queues } = s.port p)
      ∧ t.manager = none ∧ t.lease = 0 ∧ t.leaseTimer = none ∧ t.alert = .armed
      ∧ (s.parents = [] → t.notices = s.notices ∧ t.seq = s.seq ∧ t.dropped = s.dropped)
      ∧ (s.parents ≠ [] → s.notices.length < 32 → t.dropped = s.dropped ∧ t.seq = s.seq + 1
          ∧ t.notices = s.notices ++ [{ seq := s.seq, body :=
            { kind := .trafficDiscarded, port := none, volume := none, initiator := none, generation := none, ordinal := none,
              tag := none, reason := some s.parents.length } }])
      ∧ (s.parents ≠ [] → 32 ≤ s.notices.length →
          t.notices = s.notices ∧ t.seq = s.seq ∧ t.dropped = if s.dropped < 65535 then s.dropped + 1 else s.dropped)
      ∧ t.outbound = s.outbound ∧ t.volumes = s.volumes ∧ t.ranges = s.ranges ∧ t.freeExtents = s.freeExtents ∧ t.access = s.access
      ∧ t.flush = s.flush ∧ t.nextParent = s.nextParent ∧ t.nextSub = s.nextSub
      ∧ t.pending = s.pending ∧ t.now = s.now ∧ t.sent = s.sent

/-! ## Aborts -/

/-- R115 to R117, R119, R120: an ABT that finds no victim, one that executes, one already ABORTING or one DISCARDING answers with its reply alone and changes nothing else; an ABT of a waiting parent takes it out of its wait and frees it, its CPL ABORTED first in the outbound order, the ABORT reply second. -/
def Obligations.AbortRepliesAndFreesWaitingParent : Prop :=
  (∀ (s : State) (f : AbtFrame) (i : Initiator), s.linkUp = true → f.initiator.toNat = i.val →
      ((∀ p ∈ s.parents, ¬(p.initiator = i ∧ p.tag = f.tag)) →
        exec (.abt f) s = .next { s with outbound := s.outbound ++ [.cpl (abortCpl i f.tag .notFound)] })
      ∧ (KeyLaw s → ∀ p ∈ s.parents, p.initiator = i → p.tag = f.tag →
        (p.state = .controlActive ∨ p.state = .controlLong →
          exec (.abt f) s = .next { s with outbound := s.outbound ++ [.cpl (abortCpl i f.tag .abortDenied)] })
        ∧ (p.state = .aborting → exec (.abt f) s = .next { s with outbound := s.outbound ++ [.cpl (abortCpl i f.tag .good)] })
        ∧ (p.state = .discarding → exec (.abt f) s = .next { s with outbound := s.outbound ++ [.cpl (abortCpl i f.tag .notFound)] })))
    ∧ (∀ (s : State) (f : AbtFrame) (p : Parent), s.linkUp = true → f.initiator.toNat = p.initiator.val → f.tag = p.tag →
      KeyLaw s → AdmissionOrder s → p ∈ s.parents →
      (p.state = .controlWait →
        exec (.abt f) s = .next { freed p s with
          controlQueue := s.controlQueue.erase p.id
          outbound := s.outbound ++ [.cpl (commandCpl p .aborted none p.count []), .cpl (abortCpl p.initiator p.tag .good)] })
      ∧ (p.state = .orderWait →
        exec (.abt f) s = .next { freed p s with
          holds := put s.holds p.volume (s.holds[p.volume].filter fun h => h.parent ≠ p.id)
          outbound := s.outbound ++ [.cpl (commandCpl p .aborted none p.count []), .cpl (abortCpl p.initiator p.tag .good)] })
      ∧ (p.state = .switchWait →
        exec (.abt f) s = .next { freed p s with
          switchHolds := put s.switchHolds p.volume (s.switchHolds[p.volume].erase p.id)
          outbound := s.outbound ++ [.cpl (commandCpl p .aborted none p.count []), .cpl (abortCpl p.initiator p.tag .good)] })
      ∧ (p.state = .splitWait → (∃ q rest, s.splitWait = q :: rest ∧ q ≠ p.id) ∨ s.splitWait = [p.id] →
        exec (.abt f) s = .next { freed p s with
          splitWait := s.splitWait.erase p.id
          outbound := s.outbound ++ [.cpl (commandCpl p .aborted none p.count []), .cpl (abortCpl p.initiator p.tag .good)] }))

/-- R118 (with R37, R83, R95, R116): an ABT of an ACTIVE parent takes its QUEUED entries out of the table, of the class queues and of its pieces. Without an ISSUED entry the parent then completes ABORTED and is freed, with its free reports, before the ABORT reply; otherwise it becomes ABORTING and only the reply is sent. Nothing else changes, here with no parent waiting to be split. -/
def Obligations.AbortOfActiveParentRemovesItsQueuedEntries : Prop :=
  ∀ (s : State) (f : AbtFrame) (p : Parent), s.linkUp = true → f.initiator.toNat = p.initiator.val → f.tag = p.tag →
    KeyLaw s → AdmissionOrder s → p ∈ s.parents → p.state = .active → s.splitWait = [] →
    ∃ t, exec (.abt f) s = .next t
      ∧ t.subs = s.subs.filter (fun e => !(e.parent == p.id && e.issue.isNone))
      ∧ (∀ (d : Port) (c : Sys2Proof.Class), (t.port d).queues[c] = (s.port d).queues[c].filter
          fun r => !(s.subs.any fun e => e.id == r && e.parent == p.id && e.issue.isNone))
      ∧ (∀ d : Port, { t.port d with queues := (s.port d).queues } = s.port d)
      ∧ ((∀ e ∈ s.subs, e.parent = p.id → e.issue = none) →
          t = { freed p s with
            subs := t.subs
            ports := t.ports
            outbound := s.outbound ++ [.cpl (commandCpl p .aborted none p.count []), .cpl (abortCpl p.initiator p.tag .good)] })
      ∧ ((∃ e ∈ s.subs, e.parent = p.id ∧ e.issue ≠ none) →
          t = { s with
            subs := t.subs
            ports := t.ports
            parents := s.parents.map fun q => if q.id = p.id then { withoutQueued s p with state := .aborting } else q
            outbound := s.outbound ++ [.cpl (abortCpl p.initiator p.tag .good)] })

/-! ## Control commands: the tests of every page -/

/-- R135, and test 1 of R137: a control address that the table of pages does not accept for the command's access is answered BAD_PAGE. -/
def Obligations.InvalidControlAddressIsBadPage : Prop :=
  ∀ (s : State) (p : Parent), Running p s → p.op = .read ∨ p.op = .write → pageRows.any (PageRow.names p) = false →
    exec .badPage s = .next (answered p .badPage (resultBlock 0) s)

/-- Test 2 of R137: every command of a page that needs the manager is answered NOT_MANAGER to any other initiator, and does nothing else. -/
def Obligations.ManagedPageRefusesOtherInitiators : Prop :=
  ∀ (c : Instr) (s : State) (p : Parent), Running p s → s.manager ≠ some p.initiator → managedAddress p c →
    exec c s = .next (answered p .notManager (resultBlock 0) s)

/-- R154, R156 and the layouts of 10.2 to 10.4 and 10.6: the bytes of the frames that the part sends, CPL, ALR, SUB and TRST, with the status codes; and the result block, which holds the detail in its first two bytes, most significant byte first, and 00h in the rest. That bits 1 to 7 of a CPL's flags byte are 0 is the model's choice (log entry 30). -/
def Obligations.SentFramesAndResultBlockHaveTheirLayout : Prop :=
  (∀ c : Cpl, byteAt c.bytes 0 = 0x81 ∧ byteAt c.bytes 1 = BitVec.ofNat 8 c.initiator.val ∧ byteAt c.bytes 2 = c.tag
      ∧ byteAt c.bytes 3 = (match c.reply with | .command => 1 | .abort => 2) ∧ byteAt c.bytes 4 = BitVec.ofNat 8 c.status.code
      ∧ byteAt c.bytes 5 = (if c.failBlock.isSome then 1 else 0) ∧ word16At c.bytes 6 = BitVec.ofNat 16 c.residual
      ∧ word32At c.bytes 8 = BitVec.ofNat 32 (c.failBlock.getD 0) ∧ word32At c.bytes 12 = 0
      ∧ c.bytes.length = 16 + c.payload.flatten.length ∧ c.bytes.drop 16 = c.payload.flatten)
    ∧ (∀ x ∈ [(Status.good, 0x00), (.malformed, 0x10), (.barred, 0x11), (.duplicateTag, 0x12), (.badOperation, 0x13), (.badCount, 0x14),
        (.badVolume, 0x15), (.noAccess, 0x16), (.writeProtected, 0x17), (.outOfRange, 0x18), (.tableBusy, 0x19), (.creditExceeded, 0x1A),
        (.controlBusy, 0x1B), (.noBuffer, 0x1C), (.unmapped, 0x20), (.fragmented, 0x21), (.mediumError, 0x30), (.targetFault, 0x31),
        (.targetRefused, 0x32), (.targetTimeout, 0x33), (.targetReset, 0x34), (.targetLost, 0x35), (.targetHalted, 0x36), (.aborted, 0x40),
        (.notFound, 0x41), (.abortDenied, 0x42), (.badPage, 0x50), (.notManager, 0x51), (.managerPresent, 0x52), (.badEntry, 0x53),
        (.inProgress, 0x54), (.tableFull, 0x55)], Status.code x.1 = x.2)
    ∧ (∀ a : Alr, a.bytes.length = 8 ∧ byteAt a.bytes 0 = 0x82 ∧ byteAt a.bytes 1 = BitVec.ofNat 8 a.initiator.val
      ∧ byteAt a.bytes 2 = BitVec.ofNat 8 a.queued ∧ byteAt a.bytes 3 = 0 ∧ word32At a.bytes 4 = a.oldest)
    ∧ (∀ f : SubFrame, byteAt f.bytes 0 = 0x41 ∧ byteAt f.bytes 1 = BitVec.ofNat 8 f.tag.val
      ∧ byteAt f.bytes 2 = (match f.op with | .read => 1 | .write => 2 | .verify => 3 | .flush => 5) ∧ byteAt f.bytes 3 = 0
      ∧ word16At f.bytes 4 = BitVec.ofNat 16 f.count ∧ word16At f.bytes 6 = 0 ∧ word32At f.bytes 8 = BitVec.ofNat 32 f.targetStart
      ∧ f.bytes.length = 12 + f.payload.flatten.length ∧ f.bytes.drop 12 = f.payload.flatten)
    ∧ DownFrame.trst.bytes = [0x42, 0, 0, 0]
    ∧ ∀ d : Nat, (resultBlock d).length = 512 ∧ word16At (resultBlock d) 0 = BitVec.ofNat 16 d ∧ ∀ i, 2 ≤ i → byteAt (resultBlock d) i = 0

/-! ## IDENTITY, STATUS, NOTICES and CLAIM -/

/-- R142: a READ of the IDENTITY page returns, to any initiator, the strings, the capacities, the manager and the lease. The revision's characters, and the side of the 1 ms tolerance on which the seconds left are read, are free values (log entries 10, 11). That bits 1 to 7 of the flags byte are 0 is the model's choice (log entry 30). -/
def Obligations.IdentityReadReturnsIdentity : Prop :=
  ∀ (s : State) (p : Parent), Running p s → addressed p .read 0 0 →
    ∃ b : Block, b.length = 512
      ∧ b.take 48 = [0x55, 0x6C, 0x6B, 0x6F, 0x74, 0x72, 0x61] ++ List.replicate 9 0
          ++ [0x45, 0x6B, 0x68, 0x74, 0x61, 0x6C] ++ List.replicate 10 0 ++ [0x32, 0x32, 0x34, 0x30] ++ List.replicate 12 0
      ∧ (∃ n, 1 ≤ n ∧ n ≤ 16 ∧ (∀ i, i < n → 0x20 ≤ (byteAt b (48 + i)).toNat ∧ (byteAt b (48 + i)).toNat ≤ 0x7E)
          ∧ ∀ i, n ≤ i → i < 16 → byteAt b (48 + i) = 0)
      ∧ word16At b 64 = 128 ∧ word16At b 66 = 256 ∧ word16At b 68 = 512 ∧ word16At b 70 = 2048
      ∧ byteAt b 72 = 63 ∧ byteAt b 73 = 16 ∧ byteAt b 74 = 4 ∧ byteAt b 75 = 32
      ∧ byteAt b 76 = (if s.manager.isSome then 1 else 0) ∧ byteAt b 77 = BitVec.ofNat 8 ((s.manager.map Fin.val).getD 0)
      ∧ byteAt b 78 = BitVec.ofNat 8 s.lease
      ∧ (s.manager = none ∨ s.leaseTimer = none → byteAt b 79 = 0)
      ∧ (∀ m t, s.manager = some m → s.leaseTimer = some t →
          byteAt b 79 = BitVec.ofNat 8 ((t - s.now) / 1000) ∨ byteAt b 79 = BitVec.ofNat 8 ((t + 1 - s.now) / 1000))
      ∧ (∀ i, 80 ≤ i → byteAt b i = 0)
      ∧ exec .identityRead s = .next (answered p .good b s)

/-- R142: a READ of the STATUS page returns, to any initiator, each port's state, reason and tag counts, and the counts of the tables as they stand, the reading command counted in. -/
def Obligations.StatusReadReturnsCounts : Prop :=
  ∀ (s : State) (p : Parent), Running p s → addressed p .read 1 0 →
    ∃ b : Block, b.length = 512
      ∧ (∀ d : Port,
          byteAt b (8 * d) = (match (s.port d).state with | .down => 0 | .resetting => 1 | .up => 2 | .halted => 3)
          ∧ byteAt b (8 * d + 1) = (match (s.port d).reason with | none => 0 | some .tagsExhausted => 1 | some .resetUnanswered => 2)
          ∧ byteAt b (8 * d + 2) = BitVec.ofNat 8 ((List.finRange 16).countP fun t => (s.port d).tags[t] == .free)
          ∧ byteAt b (8 * d + 3) = BitVec.ofNat 8 ((List.finRange 16).countP fun t => (s.port d).tags[t].isIssued)
          ∧ byteAt b (8 * d + 4) = BitVec.ofNat 8 ((List.finRange 16).countP fun t => (s.port d).tags[t] == .quarantined)
          ∧ byteAt b (8 * d + 5) = 0 ∧ byteAt b (8 * d + 6) = 0 ∧ byteAt b (8 * d + 7) = 0)
      ∧ word16At b 32 = BitVec.ofNat 16 (128 - s.parents.length) ∧ word16At b 34 = BitVec.ofNat 16 (256 - s.subs.length)
      ∧ word16At b 36 = BitVec.ofNat 16 s.freeSlots ∧ word16At b 38 = BitVec.ofNat 16 s.freeExtents
      ∧ word16At b 40 = BitVec.ofNat 16 s.splitWait.length ∧ byteAt b 42 = BitVec.ofNat 8 s.notices.length
      ∧ (∀ i, 43 ≤ i → byteAt b i = 0)
      ∧ exec .statusRead s = .next (answered p .good b s)

/-- R151: a READ of the NOTICES page by the manager returns up to 15 records from the head with the dropped count; they leave the queue, the dropped count becomes 0, and the alert is ARMED when the queue is then empty. That bit 7 of a record's flags byte is 0 is the model's choice (log entry 30). -/
def Obligations.NoticesReadTakesRecordsFromHead : Prop :=
  ∀ (s : State) (p : Parent), Running p s → s.manager = some p.initiator → addressed p .read 2 0 →
    ∃ b : Block, b.length = 512
      ∧ byteAt b 0 = BitVec.ofNat 8 (if s.notices.length < 15 then s.notices.length else 15) ∧ byteAt b 1 = 0
      ∧ word16At b 2 = BitVec.ofNat 16 s.dropped ∧ (∀ i, 4 ≤ i → i < 16 → byteAt b i = 0)
      ∧ (∀ (k : Nat) (n : Notice), k < 15 → s.notices[k]? = some n → n.ReadsAt b (16 + 16 * k))
      ∧ (∀ i, 16 + 16 * s.notices.length ≤ i ∨ 256 ≤ i → byteAt b i = 0)
      ∧ exec .noticesRead s = .next (answered p .good b
          { s with notices := s.notices.drop 15, dropped := 0, alert := if s.notices.length ≤ 15 then .armed else s.alert })

/-- R140: CLAIM and RELEASE by what the manager record holds: a new manager with its lease, its timer and, where notices wait, the ALR after the CPL; a new lease for the manager; MANAGER_PRESENT; a RELEASE by the manager, or NOT_MANAGER; BAD_ENTRY for a lease above 255 or an action that is neither. -/
def Obligations.ClaimAndReleaseFollowManagerTable : Prop :=
  ∀ (s : State) (p : Parent) (b : Block) (n : Nat), Running p s → addressed p .write 3 0 → p.slots = [some b] →
    (word16At b 2).toNat = n →
    (byteAt b 0 ≠ 1 → byteAt b 0 ≠ 2 → exec .claim s = .next (answered p .badEntry (resultBlock 0) s))
    ∧ (byteAt b 0 = 1 → 255 < n → exec .claim s = .next (answered p .badEntry (resultBlock 0) s))
    ∧ (byteAt b 0 = 1 → n ≤ 255 →
      (s.manager = none → s.notices = [] →
        exec .claim s = .next (answered p .good (resultBlock 0)
          { s with manager := some p.initiator, lease := n, alert := .armed,
                   leaseTimer := if n = 0 then none else some (s.now + 1000 * n) }))
      ∧ (∀ (x : Notice) (rest : List Notice), s.manager = none → s.notices = x :: rest →
        exec .claim s = .next (nextControl { withoutControl p s with
          manager := some p.initiator, lease := n, alert := .sent
          leaseTimer := if n = 0 then none else some (s.now + 1000 * n)
          outbound := s.outbound ++ [.cpl (controlCpl p .good (resultBlock 0)), .alr ⟨p.initiator, s.notices.length, x.seq⟩] }))
      ∧ (s.manager = some p.initiator →
        exec .claim s = .next (answered p .good (resultBlock 0)
          { s with lease := n, leaseTimer := if n = 0 then none else some (s.now + 1000 * n) }))
      ∧ (∀ m, s.manager = some m → m ≠ p.initiator →
        exec .claim s = .next (answered p .managerPresent (resultBlock 0) s)))
    ∧ (byteAt b 0 = 2 → s.manager = some p.initiator →
      exec .release s = .next (answered p .good (resultBlock 0)
        { s with manager := none, lease := 0, leaseTimer := none, alert := .armed }))
    ∧ (byteAt b 0 = 2 → s.manager ≠ some p.initiator →
      exec .release s = .next (answered p .notManager (resultBlock 0) s))

/-! ## The Volume Table by its pages -/

/-- R1, R143: a READ of the VOLUME page returns the Volume Table record as it stands; an ABSENT volume too. That byte 13 is 00h is the model's choice (log entry 28), and so is it that bits 2 to 7 of the flags byte are 0 (log entry 30). -/
def Obligations.VolumeReadReturnsRecord : Prop :=
  ∀ (s : State) (p : Parent) (v : Volume), Running p s → s.manager = some p.initiator → v ≠ 0 → addressed p .read 4 v.val →
    ∃ b : Block, b.length = 512
      ∧ byteAt b 0 = (match (s.vol v).state with | .absent => 0 | .online => 1 | .switching => 2 | .retiring => 3)
      ∧ (byteAt b 1).getLsbD 0 = (s.vol v).capacity.isSome ∧ (byteAt b 1).getLsbD 1 = (s.vol v).writeProtected
      ∧ (∀ k, 2 ≤ k → (byteAt b 1).getLsbD k = false)
      ∧ word16At b 2 = (s.vol v).generation ∧ word32At b 4 = BitVec.ofNat 32 ((s.vol v).capacity.getD 0)
      ∧ word16At b 8 = BitVec.ofNat 16 (s.vol v).live.length ∧ word16At b 10 = BitVec.ofNat 16 (s.vol v).staged.length
      ∧ byteAt b 12 = (match (s.vol v).longOp with | none => 0 | some .commit => 1 | some .remove => 2) ∧ byteAt b 13 = 0
      ∧ word16At b 14 = BitVec.ofNat 16 (s.vol v).liveParents ∧ word16At b 16 = BitVec.ofNat 16 (s.vol v).splitParents
      ∧ (∀ i, 18 ≤ i → byteAt b i = 0)
      ∧ exec .volumeRead s = .next (answered p .good b s)

/-- R11 (with the data fields of R160): DEFINE by the state of the volume; every other table and every other volume stays. -/
def Obligations.DefineActsByVolumeState : Prop :=
  ∀ (s : State) (p : Parent) (v : Volume) (b : Block) (n : Nat), Running p s → s.manager = some p.initiator → v ≠ 0 →
    addressed p .write 4 v.val → p.slots = [some b] → (word32At b 4).toNat = n →
    (byteAt b 0 ≠ 1 → byteAt b 0 ≠ 2 → exec .define s = .next (answered p .badEntry (resultBlock 0) s))
    ∧ (byteAt b 0 = 1 → 1 < (byteAt b 1).toNat → exec .define s = .next (answered p .badEntry (resultBlock 0) s))
    ∧ (byteAt b 0 = 1 → (byteAt b 1).toNat ≤ 1 →
      ((s.vol v).state = .absent ∨ (s.vol v).state = .online → n = 0 →
        exec .define s = .next (answered p .badEntry (resultBlock 0) s))
      ∧ ((s.vol v).state = .absent → n ≠ 0 →
        exec .define s = .next (answered p .good (resultBlock 0) (withVol v
          { s.vol v with state := .online, capacity := some n, writeProtected := byteAt b 1 == 1, generation := 0,
                         live := [], staged := [], longOp := none } s)))
      ∧ ((s.vol v).state = .online → n ≠ 0 → (∀ x ∈ (s.vol v).live, x.first.toNat + x.length.toNat ≤ n) →
        exec .define s = .next (answered p .good (resultBlock 0) (withVol v
          { s.vol v with capacity := some n, writeProtected := byteAt b 1 == 1 } s)))
      ∧ (∀ (i : Nat) (x : Extent), (s.vol v).state = .online → n ≠ 0 → (s.vol v).live[i]? = some x →
          n < x.first.toNat + x.length.toNat → (∀ y ∈ (s.vol v).live.take i, y.first.toNat + y.length.toNat ≤ n) →
        exec .define s = .next (answered p .badEntry (resultBlock i) s))
      ∧ ((s.vol v).state = .switching ∨ (s.vol v).state = .retiring →
        exec .define s = .next (answered p .inProgress (resultBlock 0) s)))

/-- R12 (with the record layout of R159): the checks of STAGE in their order, and the records taken from the pool and appended as written. -/
def Obligations.StageAppendsRecordsFromPool : Prop :=
  ∀ (s : State) (p : Parent) (v : Volume) (b : Block) (n : Nat), Running p s → s.manager = some p.initiator → v ≠ 0 →
    addressed p .write 5 v.val → p.slots = [some b] → (byteAt b 1).toNat = n →
    (byteAt b 0 ≠ 1 → byteAt b 0 ≠ 2 → exec .stage s = .next (answered p .badEntry (resultBlock 0) s))
    ∧ (byteAt b 0 = 1 →
      ((s.vol v).state = .absent → exec .stage s = .next (answered p .badVolume (resultBlock 0) s))
      ∧ ((s.vol v).state = .switching ∨ (s.vol v).state = .retiring →
        exec .stage s = .next (answered p .inProgress (resultBlock 0) s))
      ∧ ((s.vol v).state = .online → n = 0 ∨ 16 < n → exec .stage s = .next (answered p .badEntry (resultBlock 0) s))
      ∧ ((s.vol v).state = .online → 1 ≤ n → n ≤ 16 → s.freeExtents < n →
        exec .stage s = .next (answered p .tableFull (resultBlock 0) s))
      ∧ ((s.vol v).state = .online → 1 ≤ n → n ≤ 16 → n ≤ s.freeExtents →
        ∃ xs : List Extent, xs.length = n ∧ (∀ (i : Nat) (x : Extent), xs[i]? = some x → x.StoredFrom b (8 + 28 * i))
          ∧ exec .stage s = .next (answered p .good (resultBlock 0)
              { withVol v { s.vol v with staged := (s.vol v).staged ++ xs } s with freeExtents := s.freeExtents - n })))

/-- R13: CLEAR by the state of the volume; the staged records return to the pool, and the live map is not touched. -/
def Obligations.ClearReturnsStagedRecords : Prop :=
  ∀ (s : State) (p : Parent) (v : Volume), Running p s → s.manager = some p.initiator → v ≠ 0 →
    addressed p .write 5 v.val → wroteAction p 2 →
    ((s.vol v).state = .absent → exec .clear s = .next (answered p .badVolume (resultBlock 0) s))
    ∧ ((s.vol v).state = .switching ∨ (s.vol v).state = .retiring →
      exec .clear s = .next (answered p .inProgress (resultBlock 0) s))
    ∧ ((s.vol v).state = .online →
      exec .clear s = .next (answered p .good (resultBlock 0)
        { withVol v { s.vol v with staged := [] } s with freeExtents := s.freeExtents + (s.vol v).staged.length }))

/-- R14, and R16 for the swap that a commit takes at once: COMMIT by the state of the volume and by the first bad staged record. The switch hold is empty then: it holds a parent only while the volume is SWITCHING (R70); the release of held parents by a swap is in FreeReportLowersCountsAndEndsWaits. -/
def Obligations.CommitValidatesThenSwitches : Prop :=
  ∀ (s : State) (p : Parent) (v : Volume), Running p s → s.manager = some p.initiator → v ≠ 0 → addressed p .write 6 v.val →
    ((s.vol v).state = .absent → exec .commit s = .next (answered p .badVolume (resultBlock 0) s))
    ∧ ((s.vol v).state = .switching ∨ (s.vol v).state = .retiring →
      exec .commit s = .next (answered p .inProgress (resultBlock 0) s))
    ∧ (∀ (c i : Nat) (x : Extent), (s.vol v).state = .online → (s.vol v).capacity = some c → (s.vol v).staged[i]? = some x →
        x.Bad c ((s.vol v).staged.take i) →
        (∀ (j : Nat) (y : Extent), j < i → (s.vol v).staged[j]? = some y → ¬ y.Bad c ((s.vol v).staged.take j)) →
      exec .commit s = .next (answered p .badEntry (resultBlock i) s))
    ∧ (∀ c : Nat, (s.vol v).state = .online → (s.vol v).capacity = some c →
        (∀ (j : Nat) (y : Extent), (s.vol v).staged[j]? = some y → ¬ y.Bad c ((s.vol v).staged.take j)) →
      ((s.vol v).splitParents ≠ 0 →
        exec .commit s = .next (handedOff p (withVol v
          { s.vol v with state := .switching, longOp := some .commit, longParent := some p.id } s)))
      ∧ ((s.vol v).splitParents = 0 → s.switchHolds[v] = [] →
        ∃ m, SortedFrom (s.vol v).staged m ∧
          exec .commit s = .next (answered p .good (resultBlock 0)
            { withVol v ((s.vol v).swapped m) s with freeExtents := s.freeExtents + (s.vol v).live.length })))

/-- R17: REMOVE by the state of the volume; with no live parent the removal is taken at once. That the removal leaves the volume's Active Range List empty rests on R40 and log entry 6 (DEDUCED), not on R17. -/
def Obligations.RemoveRetiresOrRemovesVolume : Prop :=
  ∀ (s : State) (p : Parent) (v : Volume), Running p s → s.manager = some p.initiator → v ≠ 0 →
    addressed p .write 4 v.val → wroteAction p 2 →
    ((s.vol v).state = .absent → exec .remove s = .next (answered p .badVolume (resultBlock 0) s))
    ∧ ((s.vol v).state = .switching ∨ (s.vol v).state = .retiring →
      exec .remove s = .next (answered p .inProgress (resultBlock 0) s))
    ∧ ((s.vol v).state = .online → (s.vol v).liveParents ≠ 0 →
      exec .remove s = .next (handedOff p (withVol v
        { s.vol v with state := .retiring, longOp := some .remove, longParent := some p.id } s)))
    ∧ ((s.vol v).state = .online → (s.vol v).liveParents = 0 →
      exec .remove s = .next (answered p .good (resultBlock 0) (removed v s)))

/-- R146: a READ of the LIVE MAP or STAGED MAP page returns the total, the generation, and up to 18 records from the first ordinal on, each with its ordinal and fields. That bits 1 to 7 of a record's flags byte are 0 is the model's choice (log entry 30). -/
def Obligations.MapReadsReturnRecords : Prop :=
  ∀ (s : State) (p : Parent) (v : Volume) (n : Nat) (c : Instr) (xs : List Extent),
    Running p s → s.manager = some p.initiator → v ≠ 0 → n < 1024 → xs.length ≤ 512 →
    (c = .liveMapRead ∧ addressed p .read 12 (v.val * 1024 + n) ∧ xs = (s.vol v).live)
      ∨ (c = .stagedMapRead ∧ addressed p .read 13 (v.val * 1024 + n) ∧ xs = (s.vol v).staged) →
    ∃ b : Block, b.length = 512 ∧ (word16At b 0).toNat = xs.length
      ∧ (byteAt b 2).toNat = (if xs.length - n < 18 then xs.length - n else 18)
      ∧ byteAt b 3 = 0 ∧ word16At b 4 = (s.vol v).generation ∧ word16At b 6 = 0
      ∧ (∀ (k : Nat) (x : Extent), k < 18 → xs[n + k]? = some x → x.ReadsAt b (8 + 28 * k) (n + k))
      ∧ (∀ i, 8 + 28 * (xs.length - n) ≤ i → byteAt b i = 0)
      ∧ exec c s = .next (answered p .good b s)

/-! ## ACCESS, INITIATOR and PORT pages -/

/-- R144: the ACCESS page returns an initiator's 63 rights, and a WRITE sets them all or none, refused with the lowest volume at fault as its detail; the INITIATOR page returns credit, barred flag and live count, and a WRITE sets credit and barred flag, refused by the first at fault. -/
def Obligations.AccessAndInitiatorPagesReadAndWrite : Prop :=
  (∀ (s : State) (p : Parent) (i : Initiator), Running p s → s.manager = some p.initiator →
      (addressed p .read 7 i.val →
        ∃ b : Block, b.length = 512 ∧ byteAt b 0 = 0 ∧ (∀ k, 64 ≤ k → byteAt b k = 0)
          ∧ (∀ v : Volume, v ≠ 0 → byteAt b v.val = (match s.access[i][v] with | .none => 0 | .read => 1 | .full => 2))
          ∧ exec .accessRead s = .next (answered p .good b s))
      ∧ (∀ b : Block, addressed p .write 7 i.val → p.slots = [some b] →
        (∀ v : Volume, v ≠ 0 → (2 < (byteAt b v.val).toNat ∨ (byteAt b v.val ≠ 0 ∧ (s.vol v).state = .absent)) →
          (∀ u : Volume, u ≠ 0 → u < v → (byteAt b u.val).toNat ≤ 2 ∧ (byteAt b u.val = 0 ∨ (s.vol u).state ≠ .absent)) →
          exec .accessWrite s = .next (answered p .badEntry (resultBlock v.val) s))
        ∧ ((∀ v : Volume, v ≠ 0 → (byteAt b v.val).toNat ≤ 2 ∧ (byteAt b v.val = 0 ∨ (s.vol v).state ≠ .absent)) →
          ∃ row : Vector Rights 64, row[(0 : Volume)] = s.access[i][(0 : Volume)]
            ∧ (∀ v : Volume, v ≠ 0 → byteAt b v.val = (match row[v] with | .none => 0 | .read => 1 | .full => 2))
            ∧ exec .accessWrite s = .next (answered p .good (resultBlock 0) { s with access := put s.access i row }))))
    ∧ (∀ (s : State) (p : Parent) (i : Initiator), Running p s → s.manager = some p.initiator →
      (addressed p .read 8 i.val →
        ∃ b : Block, b.length = 512 ∧ byteAt b 0 = BitVec.ofNat 8 s.initiators[i].credit
          ∧ byteAt b 1 = (if s.initiators[i].barred then 1 else 0) ∧ word16At b 2 = BitVec.ofNat 16 s.initiators[i].liveCount
          ∧ (∀ k, 4 ≤ k → byteAt b k = 0) ∧ exec .initiatorRead s = .next (answered p .good b s))
      ∧ (∀ b : Block, addressed p .write 8 i.val → p.slots = [some b] →
        ((byteAt b 0).toNat < 1 ∨ 32 < (byteAt b 0).toNat →
          exec .initiatorWrite s = .next (answered p .badEntry (resultBlock 0) s))
        ∧ (1 ≤ (byteAt b 0).toNat → (byteAt b 0).toNat ≤ 32 → 1 < (byteAt b 1).toNat →
          exec .initiatorWrite s = .next (answered p .badEntry (resultBlock 1) s))
        ∧ (1 ≤ (byteAt b 0).toNat → (byteAt b 0).toNat ≤ 32 → (byteAt b 1).toNat ≤ 1 →
          exec .initiatorWrite s = .next (answered p .good (resultBlock 0)
            { s with initiators := put s.initiators i ⟨(byteAt b 0).toNat, byteAt b 1 == 1, s.initiators[i].liveCount⟩ }))))

/-- R145, R133, R77: the PORT page returns the parameters, state, reason and attempts. A WRITE with a value out of range is refused by the first at fault. One that keeps the window, meets a port that is not UP, or sets the window of an UP port above its QUARANTINED tags with nothing that may then issue, only takes the three values; a raise lets a port with one queued entry issue it at once; one that brings the window of an UP port with no queued entry to its QUARANTINED tags or below halts it, with PORT_HALTED before the CPL (R110, R127; here with no parent waiting to be split). -/
def Obligations.PortPageReadsAndWritesParameters : Prop :=
  ∀ (s : State) (p : Parent) (d : Port), Running p s → s.manager = some p.initiator →
    (addressed p .read 9 d.val →
      ∃ b : Block, b.length = 512 ∧ byteAt b 0 = BitVec.ofNat 8 (s.port d).window
        ∧ byteAt b 1 = (match (s.port d).state with | .down => 0 | .resetting => 1 | .up => 2 | .halted => 3)
        ∧ byteAt b 2 = (match (s.port d).reason with | none => 0 | some .tagsExhausted => 1 | some .resetUnanswered => 2)
        ∧ byteAt b 3 = BitVec.ofNat 8 (s.port d).attempts ∧ word16At b 4 = BitVec.ofNat 16 (s.port d).responseLimit
        ∧ word16At b 6 = BitVec.ofNat 16 (s.port d).maxTransfer
        ∧ (∀ k, 8 ≤ k → byteAt b k = 0) ∧ exec .portRead s = .next (answered p .good b s))
    ∧ (∀ (b : Block) (w l m : Nat), addressed p .write 9 d.val → p.slots = [some b] →
        (byteAt b 0).toNat = w → (word16At b 4).toNat = l → (word16At b 6).toNat = m →
      (w < 1 ∨ 16 < w → exec .portWrite s = .next (answered p .badEntry (resultBlock 0) s))
      ∧ (1 ≤ w → w ≤ 16 → l < 10 ∨ 60000 < l → exec .portWrite s = .next (answered p .badEntry (resultBlock 1) s))
      ∧ (1 ≤ w → w ≤ 16 → 10 ≤ l → l ≤ 60000 → m < 8 ∨ 1024 < m →
        exec .portWrite s = .next (answered p .badEntry (resultBlock 2) s))
      ∧ (1 ≤ w → w ≤ 16 → 10 ≤ l → l ≤ 60000 → 8 ≤ m → m ≤ 1024 →
        ((s.port d).window = w ∨ (s.port d).state ≠ .up
            ∨ ((s.port d).quarantinedTags < w ∧ (w < (s.port d).window ∨ (s.port d).occupancy ≥ w ∨ ∀ c : Sys2Proof.Class, (s.port d).queues[c] = [])) →
          exec .portWrite s = .next (answered p .good (resultBlock 0)
            (withPort d { s.port d with window := w, responseLimit := l, maxTransfer := m } s)))
        ∧ (∀ (c : Sys2Proof.Class) (t : DTag) (x : SubCmd) (bs : List Block),
            (s.port d).state = .up → (s.port d).window < w → (s.port d).quarantinedTags < w → (s.port d).occupancy < w →
            (s.port d).queues[c] = [x.id] → (∀ k : Sys2Proof.Class, k ≠ c → (s.port d).queues[k] = []) →
            x ∈ s.subs → (s.subs.Pairwise fun y z => y.id ≠ z.id) → Carries s x bs →
            (s.port d).tags[t] = .free → (∀ u : DTag, u < t → (s.port d).tags[u] ≠ .free) →
          exec .portWrite s = .next (answered p .good (resultBlock 0)
            (issued d c 0 t x [] bs (withPort d { s.port d with window := w, responseLimit := l, maxTransfer := m } s))))
        ∧ ((s.port d).state = .up → (s.port d).window ≠ w → w ≤ (s.port d).quarantinedTags →
            (∀ c : Sys2Proof.Class, (s.port d).queues[c] = []) → s.splitWait = [] →
          exec .portWrite s = .next (answered p .good (resultBlock 0)
            (noticed (portNotice .portHalted d none (some 1) none)
              (withPort d { s.port d with window := w, responseLimit := l, maxTransfer := m, state := .halted,
                                          reason := some .tagsExhausted, resetTimer := none } s))))))

/-! ## Long operations on ports -/

/-- R128, R129: PORT RESET by the state of the port: TARGET_LOST, IN_PROGRESS, attached to the reset under way, or a new reset of an UP or HALTED port (here one with no ISSUED tag), after which the Split-Wait List is tried. -/
def Obligations.PortResetActsByPortState : Prop :=
  ∀ (s : State) (p : Parent) (d : Port), Running p s → s.manager = some p.initiator → addressed p .write 10 d.val →
    ((s.port d).state = .down → exec .portReset s = .next (answered p .targetLost (resultBlock 0) s))
    ∧ ((s.port d).state = .resetting → (s.port d).pendingReset ≠ none →
      exec .portReset s = .next (answered p .inProgress (resultBlock 0) s))
    ∧ ((s.port d).state = .resetting → (s.port d).pendingReset = none →
      exec .portReset s = .next (handedOff p (withPort d { s.port d with pendingReset := some p.id } s)))
    ∧ ((s.port d).state = .up ∨ (s.port d).state = .halted → (∀ t : DTag, (s.port d).tags[t].isIssued = false) →
      exec .portReset s = .next (nextControl (tryHeads { withPort d
        { s.port d with state := .resetting, reason := none, tags := Vector.replicate 16 .free, attempts := 1,
                        resetTimer := some (s.now + (s.port d).responseLimit), pendingReset := some p.id } s with
        sent := s.sent ++ [.down d .trst]
        parents := s.parents.map fun q => if q.id = p.id then { q with state := .controlLong } else q })))

/-- R129, R131, R147, R148: FLUSH ALL is refused while a flush record exists. With no live data parent it only waits for the RESETTING ports when the others are DOWN, and ends at once when every port is DOWN. It aborts a waiting data parent and begins a reset of every UP port, here with one parent in ORDER_WAIT beside the flush, none waiting to be split and no tag ISSUED. -/
def Obligations.FlushAllAbortsResetsAndWaits : Prop :=
  (∀ (s : State) (p : Parent), Running p s → s.manager = some p.initiator → addressed p .write 11 0 →
      (s.flush ≠ none → exec .flushAll s = .next (answered p .inProgress (resultBlock 0) s))
      ∧ (s.flush = none → (∀ q ∈ s.parents, q.volume = 0) → (∀ d : Port, (s.port d).state = .down) →
        exec .flushAll s = .next (answered p .good (resultBlock 0) s))
      ∧ (s.flush = none → (∀ q ∈ s.parents, q.volume = 0) →
          (∀ d : Port, (s.port d).state = .down ∨ (s.port d).state = .resetting) → (∃ d : Port, (s.port d).state = .resetting) →
        exec .flushAll s = .next (handedOff p { s with
          flush := some ⟨p.id, some p.id, (List.finRange 4).filter fun d => (s.port d).state == .resetting⟩
          ports := s.ports.map fun r =>
            if r.state = .resetting then { r with flushWaiters := r.flushWaiters ++ [p.id] } else r })))
    ∧ (∀ (s : State) (p q : Parent), Running p s → s.manager = some p.initiator → addressed p .write 11 0 → s.flush = none →
      s.splitWait = [] → q ∈ s.parents → q.volume ≠ 0 → q.state = .orderWait → (∀ r ∈ s.parents, r.volume ≠ 0 → r = q) →
      (∀ d : Port, (s.port d).state = .up ∧ ∀ t : DTag, (s.port d).tags[t].isIssued = false) →
      exec .flushAll s = .next (handedOff p { freed q s with
        holds := put s.holds q.volume (s.holds[q.volume].filter fun h => h.parent ≠ q.id)
        outbound := s.outbound ++ [.cpl (commandCpl q .aborted none q.count [])]
        flush := some ⟨p.id, some p.id, List.finRange 4⟩
        ports := s.ports.map fun r =>
          { r with state := .resetting, reason := none, tags := Vector.replicate 16 .free, attempts := 1,
                   resetTimer := some (s.now + r.responseLimit), flushWaiters := r.flushWaiters ++ [p.id] }
        sent := s.sent ++ (List.finRange 4).map fun d => .down d .trst }))

/-! ## Reports between the part's blocks -/

/-- R9, R16, R17, R70: the Map Unit takes a free report; the live parent count falls by 1, and the split parent count with it when the parent carried a generation. The report that lowers the split parent count of a SWITCHING volume to 0 takes the swap: the sorted staged map becomes live under the next generation, the switch hold is emptied, and the parents it held go to the split stage against the new map one after another, in admission order; then the long operation's parent, if there is one, gets its CPL GOOD. The report that lowers the live parent count of a RETIRING volume to 0 takes the removal, with the same CPL; the Active Range List that the removal leaves empty rests on R40 and log entry 6 (DEDUCED). -/
def Obligations.FreeReportLowersCountsAndEndsWaits : Prop :=
  (∀ (s : State) (k : Nat) (r : MapReport), s.mapReports[k]? = some r →
      ¬((s.vol r.volume).state = .switching ∧ r.split = true ∧ (s.vol r.volume).splitParents ≤ 1) →
      ¬((s.vol r.volume).state = .retiring ∧ (s.vol r.volume).liveParents ≤ 1) →
      exec (.freeReportMap k) s = .next { withVol r.volume
        { s.vol r.volume with
          liveParents := (s.vol r.volume).liveParents - 1
          splitParents := if r.split then (s.vol r.volume).splitParents - 1 else (s.vol r.volume).splitParents } s with
        mapReports := s.mapReports.eraseIdx k })
    ∧ (∀ (s : State) (k : Nat) (r : MapReport) (v : Volume), s.mapReports[k]? = some r → r.volume = v →
      ((s.vol v).state = .switching → r.split = true → (s.vol v).splitParents = 1 → s.switchHolds[v] = [] →
        ∃ m, SortedFrom (s.vol v).staged m
          ∧ ((s.vol v).longParent = none →
            exec (.freeReportMap k) s = .next { withVol v
              { (s.vol v).swapped m with liveParents := (s.vol v).liveParents - 1, splitParents := 0 } s with
              freeExtents := s.freeExtents + (s.vol v).live.length, mapReports := s.mapReports.eraseIdx k })
          ∧ (∀ p, LongParent p s → (s.vol v).longParent = some p.id →
            exec (.freeReportMap k) s = .next (longEnded p .good { withVol v
              { (s.vol v).swapped m with liveParents := (s.vol v).liveParents - 1, splitParents := 0 } s with
              freeExtents := s.freeExtents + (s.vol v).live.length, mapReports := s.mapReports.eraseIdx k })))
      ∧ (∀ (o : Option Parent) (held : List Parent), (s.vol v).state = .switching → r.split = true → (s.vol v).splitParents = 1 →
          v ≠ 0 → LiveMapLaw s → AdmissionOrder s → (∀ e ∈ s.subs, e.id < s.nextSub) →
          (s.vol v).longParent = o.map Parent.id → (∀ p, o = some p → LongParent p s) →
          s.switchHolds[v] = held.map Parent.id → (held.Pairwise fun p q => p.id < q.id) → (∀ p ∈ held, p ∈ s.parents ∧ p.volume = v) →
        ∃ m, SortedFrom (s.vol v).staged m ∧ ∀ t,
          Released held { withVol v { (s.vol v).swapped m with liveParents := (s.vol v).liveParents - 1, splitParents := 0 } s with
            freeExtents := s.freeExtents + (s.vol v).live.length
            mapReports := s.mapReports.eraseIdx k
            switchHolds := put s.switchHolds v [] } t →
          exec (.freeReportMap k) s = .next (longEndedFor o .good t))
      ∧ ((s.vol v).state = .retiring → (s.vol v).liveParents = 1 →
        ((s.vol v).longParent = none →
          exec (.freeReportMap k) s = .next { removed v s with mapReports := s.mapReports.eraseIdx k })
        ∧ (∀ p, LongParent p s → (s.vol v).longParent = some p.id →
          exec (.freeReportMap k) s = .next (longEnded p .good { removed v s with mapReports := s.mapReports.eraseIdx k }))))

/-- R44: the Order Unit takes a free report: the parent's entry leaves the list, and every hold of the volume is re-tested. One that still conflicts stays; one that no longer does is released, here of a SWITCHING volume into its switch hold. -/
def Obligations.FreeReportReTestsHolds : Prop :=
  ∀ (s : State) (k : Nat) (r : OrderReport) (v : Volume), OrderLaw s → s.orderReports[k]? = some r → r.volume = v →
    ((∀ h ∈ s.holds[v],
        (h.kind = .range ∧ ∃ x ∈ s.ranges[v], ∃ y ∈ s.ranges[v], x.parent = h.parent ∧ x.parent ≠ r.parent ∧ y.parent ≠ r.parent
          ∧ y.parent < x.parent ∧ x.start < y.start + y.count ∧ y.start < x.start + x.count ∧ (x.op = .write ∨ y.op = .write))
        ∨ (h.kind = .drain ∧ ∃ p ∈ s.parents, ∃ q ∈ s.parents, p.id = h.parent ∧ q.id < p.id ∧ q.initiator = p.initiator ∧ q.volume = p.volume)) →
      exec (.freeReportOrder k) s = .next { s with
        orderReports := s.orderReports.eraseIdx k
        ranges := put s.ranges v (s.ranges[v].filter fun x => x.parent ≠ r.parent) })
    ∧ (∀ p ∈ s.parents, p.volume = v → v ≠ 0 → p.op ≠ .drain → s.holds[v] = [⟨p.id, .range⟩] →
        (∀ y ∈ s.ranges[v], y.parent ≠ r.parent → y.parent < p.id →
          ¬(p.start < y.start + y.count ∧ y.start < p.start + p.count ∧ (p.op = .write ∨ y.op = .write))) →
        (s.vol v).state = .switching → s.switchHolds[v] = [] →
      exec (.freeReportOrder k) s = .next { s with
        orderReports := s.orderReports.eraseIdx k
        ranges := put s.ranges v (s.ranges[v].filter fun x => x.parent ≠ r.parent)
        holds := put s.holds v []
        switchHolds := put s.switchHolds v [p.id]
        parents := s.parents.map fun q => if q.id = p.id then { q with state := .switchWait } else q })

/-- R18, R130, R148: a report that a long operation's parent is gone clears the reference to it, in the volume's record, in the port's record or in the flush record; nothing else of the operation changes. -/
def Obligations.GoneReportsClearParentReferences : Prop :=
  (∀ (s : State) (k : Nat) (g : GoneMap), s.goneMap[k]? = some g → (s.vol g.volume).longParent = some g.parent →
      exec (.longParentGoneMap k) s = .next
        { withVol g.volume { s.vol g.volume with longParent := none } s with goneMap := s.goneMap.eraseIdx k })
    ∧ (∀ (s : State) (k : Nat) (g : GonePort), s.gonePort[k]? = some g → (s.port g.port).pendingReset = some g.parent →
      exec (.longParentGonePort k) s = .next
        { withPort g.port { s.port g.port with pendingReset := none } s with gonePort := s.gonePort.eraseIdx k })
    ∧ (∀ (s : State) (k : Nat) (id : ParentRef) (f : FlushRec), s.goneFlush[k]? = some id → s.flush = some f → f.parent = some id →
      exec (.longParentGoneFlush k) s = .next
        { s with flush := some { f with parent := none }, goneFlush := s.goneFlush.eraseIdx k })

/-! ## Target links and the reset exchange -/

/-- R123, R126: the link coming up, and each of the first two expiries of the reset timer, send a TRST and start the timer with the response limit in force. The third expiry halts the port RESET_UNANSWERED (here with no entry queued and no flush-all waiting), a pending management reset ends TARGET_TIMEOUT, and the Split-Wait List is tried. -/
def Obligations.ResetExchangeSendsTrstAndHalts : Prop :=
  ∀ (s : State) (d : Port),
    ((s.port d).state = .down →
      exec (.targetLinkUp d) s = .next { withPort d
        { s.port d with state := .resetting, reason := none, attempts := 1, resetTimer := some (s.now + (s.port d).responseLimit) } s with
        sent := s.sent ++ [.down d .trst] })
    ∧ (∀ t, (s.port d).state = .resetting → (s.port d).resetTimer = some t → t ≤ s.now →
      ((s.port d).attempts < 3 →
        exec (.resetTimerExpiry d) s = .next { withPort d
          { s.port d with attempts := (s.port d).attempts + 1, resetTimer := some (s.now + (s.port d).responseLimit) } s with
          sent := s.sent ++ [.down d .trst] })
      ∧ ((s.port d).attempts = 3 → (∀ c : Sys2Proof.Class, (s.port d).queues[c] = []) → (s.port d).flushWaiters = [] →
        ((s.port d).pendingReset = none →
          exec (.resetTimerExpiry d) s = .next (tryHeads (noticed (portNotice .portHalted d none (some 2) none)
            (withPort d { s.port d with state := .halted, reason := some .resetUnanswered, resetTimer := none } s))))
        ∧ (∀ p, LongParent p s → (s.port d).pendingReset = some p.id →
          exec (.resetTimerExpiry d) s = .next (tryHeads (longEnded p .targetTimeout (noticed (portNotice .portHalted d none (some 2) none)
            (withPort d { s.port d with state := .halted, reason := some .resetUnanswered, resetTimer := none, pendingReset := none } s)))))))

/-- R124, R130: the loss of a target link takes the port DOWN, posts PORT_DOWN and frees its QUARANTINED tags (here with no tag ISSUED, no entry queued and no flush-all waiting); a pending management reset ends TARGET_LOST, and the Split-Wait List is tried. -/
def Obligations.TargetLinkLossTakesPortDown : Prop :=
  ∀ (s : State) (d : Port), (s.port d).state ≠ .down → (∀ t : DTag, (s.port d).tags[t].isIssued = false) →
    (∀ c : Sys2Proof.Class, (s.port d).queues[c] = []) → (s.port d).flushWaiters = [] →
    ((s.port d).pendingReset = none →
      exec (.targetLinkLost d) s = .next (tryHeads (noticed (portNotice .portDown d none none none)
        (withPort d { s.port d with state := .down, reason := none, resetTimer := none, tags := Vector.replicate 16 .free } s))))
    ∧ (∀ p, LongParent p s → (s.port d).pendingReset = some p.id →
      exec (.targetLinkLost d) s = .next (tryHeads (longEnded p .targetLost (noticed (portNotice .portDown d none none none)
        (withPort d { s.port d with state := .down, reason := none, resetTimer := none, tags := Vector.replicate 16 .free,
                                    pendingReset := none } s)))))

/-- R125, R130, R131, R148: a TRDY ends the reset of a RESETTING port (here with no entry queued): the port is UP, PORT_UP is posted, a pending management reset ends GOOD, and a flush-all that awaited this port alone ends GOOD. On a port that is UP or HALTED it is discarded; on a DOWN port, where R125 says that no frame arrives, discarding it is the model's choice (log entry 4). -/
def Obligations.TrdyEndsReset : Prop :=
  ∀ (s : State) (d : Port),
    ((s.port d).state ≠ .resetting → exec (.trdy d) s = .next s)
    ∧ ((s.port d).state = .resetting → (∀ c : Sys2Proof.Class, (s.port d).queues[c] = []) →
      ((s.port d).pendingReset = none → (s.port d).flushWaiters = [] →
        exec (.trdy d) s = .next (noticed (portNotice .portUp d none (some (s.port d).attempts) none)
          (withPort d { s.port d with state := .up, resetTimer := none, passCount := 0 } s)))
      ∧ (∀ p, LongParent p s → (s.port d).pendingReset = some p.id → (s.port d).flushWaiters = [] →
        exec (.trdy d) s = .next (longEnded p .good (noticed (portNotice .portUp d none (some (s.port d).attempts) none)
          (withPort d { s.port d with state := .up, resetTimer := none, passCount := 0, pendingReset := none } s))))
      ∧ (∀ (p : Parent) (f : FlushRec), LongParent p s → (s.port d).pendingReset = none → (s.port d).flushWaiters = [f.op] →
          s.flush = some f → f.awaited = [d] → f.parent = some p.id →
        exec (.trdy d) s = .next (longEnded p .good { noticed (portNotice .portUp d none (some (s.port d).attempts) none)
          (withPort d { s.port d with state := .up, resetTimer := none, passCount := 0, flushWaiters := [] } s) with flush := none })))

/-! ## Answers, deadlines and the merge -/

/-- R113: a TCPL for a FREE tag of a port that is UP or HALTED is discarded, and UNKNOWN_TAG is posted; nothing else changes. -/
def Obligations.UnknownTagIsDiscardedAndPosted : Prop :=
  ∀ (s : State) (d : Port) (t : DTag) (f : TcplFrame), f.wf = true → (s.port d).state = .up ∨ (s.port d).state = .halted →
    f.tag.toNat = t.val → (s.port d).tags[t] = .free →
    exec (.tcpl d f) s = .next (noticed (portNotice .unknownTag d (some f.tag) none none) s)

/-- R111, R112, R158: a TCPL is discarded on a port that is RESETTING; on a DOWN port, where R111 says that no frame arrives, discarding it is the model's choice (log entry 4). A tag above 15 is an unknown tag; a TCPL for a QUARANTINED tag is a late completion, which frees the tag (here of a port with nothing to issue). -/
def Obligations.LateAndStrayTcplsCarryNoResult : Prop :=
  ∀ (s : State) (d : Port) (f : TcplFrame), f.wf = true →
    ((s.port d).state = .down ∨ (s.port d).state = .resetting → exec (.tcpl d f) s = .next s)
    ∧ ((s.port d).state = .up ∨ (s.port d).state = .halted → 16 ≤ f.tag.toNat →
      exec (.tcpl d f) s = .next (noticed (portNotice .unknownTag d (some f.tag) none none) s))
    ∧ (∀ t : DTag, (s.port d).state = .halted ∨ ((s.port d).state = .up ∧ ∀ c : Sys2Proof.Class, (s.port d).queues[c] = []) →
        f.tag.toNat = t.val → (s.port d).tags[t] = .quarantined →
      exec (.tcpl d f) s = .next (noticed (portNotice .lateCompletion d (some f.tag) none none)
        (withPort d { s.port d with tags := put (s.port d).tags t .free } s)))

/-- R88 to R91, R94, R101 to R104: the result of the one sub-command of an ACTIVE READ completes it: OK with all its blocks, or, for a piece already retried, MEDIUM with the blocks before the fail block. Whatever result the last READ, VERIFY or FLUSH entry of a leaving parent gets, by a TCPL or by the expiry of its deadline, an ABORTING parent completes ABORTED with residual equal to its count, and a DISCARDING one is freed without a CPL. -/
def Obligations.LastReadResultCompletesParent : Prop :=
  (∀ (s : State) (d : Port) (t : DTag) (p : Parent) (pc : Piece) (e : SubCmd) (f : TcplFrame),
    InFlight s d t p pc e → (s.port d).state = .up ∨ (s.port d).state = .halted →
    (∀ c : Sys2Proof.Class, (s.port d).queues[c] = []) → s.splitWait = [] → f.wf = true → f.tag.toNat = t.val →
    (f.result = 0 → f.flags.getLsbD 0 = false → f.payload.length = p.count →
      exec (.tcpl d f) s = .next { freed p s with
        subs := s.subs.filter (fun x => x.id ≠ e.id)
        ports := put s.ports d { s.port d with tags := put (s.port d).tags t .free }
        outbound := s.outbound ++ [.cpl (commandCpl p .good none 0 f.payload)] })
    ∧ (∀ n, f.result = 1 → f.flags.getLsbD 0 = true → f.errorBlock.toNat = e.targetStart + n → n < p.count →
        f.payload.length = n → pc.retried = true →
      exec (.tcpl d f) s = .next { freed p s with
        subs := s.subs.filter (fun x => x.id ≠ e.id)
        ports := put s.ports d { s.port d with tags := put (s.port d).tags t .free }
        outbound := s.outbound ++ [.cpl (commandCpl p .mediumError (some (p.start + n)) (p.count - n) f.payload)] }))
    ∧ ∀ (s : State) (d : Port) (t : DTag) (p : Parent) (e : SubCmd) (l : List UpFrame),
      LastOfLeaving s d t p e → s.splitWait = [] →
      (p.state = .aborting ∧ l = [.cpl (commandCpl p .aborted none p.count [])]) ∨ (p.state = .discarding ∧ l = []) →
      (∀ f : TcplFrame, (s.port d).state = .up ∨ (s.port d).state = .halted → (∀ c : Sys2Proof.Class, (s.port d).queues[c] = []) →
          f.wf = true → f.tag.toNat = t.val →
        exec (.tcpl d f) s = .next { freed p s with
          subs := s.subs.filter (fun x => x.id ≠ e.id)
          ports := put s.ports d { s.port d with tags := put (s.port d).tags t .free }
          outbound := s.outbound ++ l })
      ∧ (∀ i, e.issue = some i → i.deadline ≤ s.now →
          (s.port d).state ≠ .up ∨ (s.port d).quarantinedTags + 1 < (s.port d).window →
        exec (.deadlineExpiry d t) s = .next { freed p
            (noticed (portNotice .subExpired d (some (BitVec.ofNat 8 t.val)) none (some p.volume))
              (withPort d { s.port d with tags := put (s.port d).tags t .quarantined } s)) with
          subs := s.subs.filter (fun x => x.id ≠ e.id)
          outbound := (noticed (portNotice .subExpired d (some (BitVec.ofNat 8 t.val)) none (some p.volume)) s).outbound ++ l })

/-- R107, R108, R109, R110, R127: a deadline that expires quarantines the tag, posts SUB_EXPIRED and hands over TARGET_TIMEOUT, here of the one sub-command of a READ already retried; the parent completes after the notice. A port that is UP, with no entry queued, and whose window the QUARANTINED tags now reach, then goes HALTED, with reason TAGS_EXHAUSTED and the notice PORT_HALTED. -/
def Obligations.DeadlineExpiryQuarantinesTag : Prop :=
  ∀ (s u : State) (d : Port) (t : DTag) (p : Parent) (pc : Piece) (e : SubCmd) (i : Issue),
    InFlight s d t p pc e → pc.retried = true → e.issue = some i → i.deadline ≤ s.now → s.splitWait = [] →
    u = { freed p
        (noticed (portNotice .subExpired d (some (BitVec.ofNat 8 t.val)) none (some p.volume))
          (withPort d { s.port d with tags := put (s.port d).tags t .quarantined } s)) with
      subs := s.subs.filter (fun x => x.id ≠ e.id)
      outbound := (noticed (portNotice .subExpired d (some (BitVec.ofNat 8 t.val)) none (some p.volume)) s).outbound
        ++ [.cpl (commandCpl p .targetTimeout (some p.start) p.count [])] } →
    ((s.port d).state ≠ .up ∨ (s.port d).quarantinedTags + 1 < (s.port d).window → exec (.deadlineExpiry d t) s = .next u)
    ∧ ((s.port d).state = .up → (s.port d).window ≤ (s.port d).quarantinedTags + 1 → (∀ c : Sys2Proof.Class, (s.port d).queues[c] = []) →
      exec (.deadlineExpiry d t) s = .next (noticed (portNotice .portHalted d none (some 1) none)
        (withPort d { u.port d with state := .halted, reason := some .tagsExhausted, resetTimer := none } u)))

/-- R52, R53: the result of a FLUSH is written into its port's flush result. While another is pending nothing else follows; with the last one the DRAIN completes, GOOD when all are GOOD, and otherwise with the status of the lowest port that is not. -/
def Obligations.FlushResultsCompleteDrain : Prop :=
  ∀ (s : State) (d : Port) (t : DTag) (p : Parent) (e : SubCmd) (f : TcplFrame) (st : Status) (rs : List FlushResult),
    Flushing s d t p e → (s.port d).state = .up ∨ (s.port d).state = .halted →
    (∀ c : Sys2Proof.Class, (s.port d).queues[c] = []) → s.splitWait = [] → f.tag.toNat = t.val → f.payload = [] →
    (f.result = 0 ∧ f.flags.getLsbD 0 = false ∧ st = .good) ∨ (f.result = 1 ∧ st = .mediumError)
      ∨ (f.result = 2 ∧ f.flags.getLsbD 0 = false ∧ st = .targetFault) ∨ (f.result = 3 ∧ f.flags.getLsbD 0 = false ∧ st = .targetRefused) →
    rs = p.flushResults.map (fun r => if r.port = d then ⟨d, some st⟩ else r) →
    ((∃ r ∈ rs, r.status = none) →
      exec (.tcpl d f) s = .next { withPort d { s.port d with tags := put (s.port d).tags t .free } s with
        subs := s.subs.filter (fun x => x.id ≠ e.id)
        parents := s.parents.map fun q => if q.id = p.id then { p with flushResults := rs } else q })
    ∧ (∀ st', (∀ r ∈ rs, r.status ≠ none) →
        ((∀ r ∈ rs, r.status = some .good) ∧ st' = .good)
          ∨ (st' ≠ .good ∧ ∃ q : Port, ⟨q, some st'⟩ ∈ rs ∧ ∀ r ∈ rs, r.port < q → r.status = some .good) →
      exec (.tcpl d f) s = .next { freed p s with
        subs := s.subs.filter (fun x => x.id ≠ e.id)
        ports := put s.ports d { s.port d with tags := put (s.port d).tags t .free }
        outbound := s.outbound ++ [.cpl (commandCpl p st' none 0 [])] })

/-- R92 (with R74, R78, R79, R81, R88, R90): the one sub-command of an ACTIVE READ, not retried yet, whose result is a failure, goes to the other copy of its extent, when that is CURRENT and on another port that is RESETTING, where the entry is QUEUED, or UP with nothing queued and room, where it is issued at once. Stated for these failures: a TCPL MEDIUM, whose blocks stay in the slots, FAULT or REFUSED; the expiry of the deadline; the loss of the link and a port reset, of an ISSUED entry; the loss of the link, and a halt by the reset timer or by a lowered window, of a QUEUED entry. R101, R102: with the other copy absent, STALE or on a DOWN or HALTED port, the TCPL completes the READ with its status, fail block and blocks. -/
def Obligations.FailedReadIsRetriedOnOtherCopy : Prop :=
  ∀ (s : State) (d : Port) (p : Parent) (pc : Piece) (e : SubCmd) (x : Extent) (c : CopyNo),
    SoleRead s d p pc e → pc.retried = false → s.splitWait = [] → e.copy = some c → (s.vol p.volume).live[pc.ordinal]? = some x →
    (∀ (y : Copy) (q : Port) (o : Option DTag) (w : Parent → State → State),
        x.copy? c.other = some y → y.state = .current → y.port.toNat = q.val → q ≠ d → Ready s q o →
        (∀ r u, w r u = retriedTo r pc e c.other q (p.start - x.first.toNat + y.first.toNat) o u) →
      (∀ t : DTag, (s.port d).tags[t] = .issued e.id → (∀ k : Sys2Proof.Class, (s.port d).queues[k] = []) →
        (∀ (f : TcplFrame) (n : Nat) (st : Status), (s.port d).state = .up ∨ (s.port d).state = .halted → f.tag.toNat = t.val → Fails f e n st →
          exec (.tcpl d f) s = .next (w (keeping p f.payload) (withPort d { s.port d with tags := put (s.port d).tags t .free } s)))
        ∧ (∀ i, e.issue = some i → i.deadline ≤ s.now →
            (s.port d).state ≠ .up ∨ (s.port d).quarantinedTags + 1 < (s.port d).window →
          exec (.deadlineExpiry d t) s = .next (w p (noticed (portNotice .subExpired d (some (BitVec.ofNat 8 t.val)) none (some p.volume))
            (withPort d { s.port d with tags := put (s.port d).tags t .quarantined } s))))
        ∧ ((∀ k : DTag, k ≠ t → (s.port d).tags[k].isIssued = false) → (s.port d).state = .up ∨ (s.port d).state = .halted →
            (s.port d).pendingReset = none → (s.port d).flushWaiters = [] →
          exec (.targetLinkLost d) s = .next (w p (noticed (portNotice .portDown d none none none)
            (withPort d { s.port d with state := .down, reason := none, resetTimer := none, tags := Vector.replicate 16 .free } s))))
        ∧ (∀ (r : Parent) (v : State), (∀ k : DTag, k ≠ t → (s.port d).tags[k].isIssued = false) → p.volume ≠ 0 →
            Running r s → s.manager = some r.initiator → addressed r .write 10 d.val →
            (s.port d).state = .up ∨ (s.port d).state = .halted →
            v = w p (withPort d { s.port d with state := .resetting, reason := none, tags := Vector.replicate 16 .free, attempts := 1,
                                                resetTimer := some (s.now + (s.port d).responseLimit), pendingReset := some r.id } s) →
          exec .portReset s = .next (handedOff r { v with sent := v.sent ++ [.down d .trst] })))
      ∧ (∀ k : Sys2Proof.Class, (s.port d).queues[k] = [e.id] → (∀ j : Sys2Proof.Class, j ≠ k → (s.port d).queues[j] = []) →
          (∀ t : DTag, (s.port d).tags[t].isIssued = false) →
        ((s.port d).state = .up ∨ (s.port d).state = .resetting → (s.port d).pendingReset = none → (s.port d).flushWaiters = [] →
          exec (.targetLinkLost d) s = .next (w p (noticed (portNotice .portDown d none none none)
            (withPort d { s.port d with state := .down, reason := none, resetTimer := none, tags := Vector.replicate 16 .free,
                                        queues := Vector.replicate 4 [] } s))))
        ∧ (∀ i, (s.port d).state = .resetting → (s.port d).resetTimer = some i → i ≤ s.now → (s.port d).attempts = 3 →
            (s.port d).pendingReset = none → (s.port d).flushWaiters = [] →
          exec (.resetTimerExpiry d) s = .next (w p (noticed (portNotice .portHalted d none (some 2) none)
            (withPort d { s.port d with state := .halted, reason := some .resetUnanswered, resetTimer := none,
                                        queues := Vector.replicate 4 [] } s))))
        ∧ (∀ (r : Parent) (b : Block) (m l n : Nat), p.volume ≠ 0 → Running r s → s.manager = some r.initiator → addressed r .write 9 d.val →
            r.slots = [some b] → (byteAt b 0).toNat = m → (word16At b 4).toNat = l → (word16At b 6).toNat = n →
            1 ≤ m → m ≤ 16 → 10 ≤ l → l ≤ 60000 → 8 ≤ n → n ≤ 1024 →
            (s.port d).state = .up → (s.port d).window ≠ m → m ≤ (s.port d).quarantinedTags →
          exec .portWrite s = .next (answered r .good (resultBlock 0) (w p (noticed (portNotice .portHalted d none (some 1) none)
            (withPort d { s.port d with window := m, responseLimit := l, maxTransfer := n, state := .halted,
                                        reason := some .tagsExhausted, resetTimer := none, queues := Vector.replicate 4 [] } s)))))))
    ∧ (∀ (t : DTag) (f : TcplFrame) (n : Nat) (st : Status), (s.port d).tags[t] = .issued e.id →
        (s.port d).state = .up ∨ (s.port d).state = .halted → (∀ k : Sys2Proof.Class, (s.port d).queues[k] = []) →
        f.tag.toNat = t.val → Fails f e n st →
        (∀ y, x.copy? c.other = some y → y.state = .stale
          ∨ ∃ q : Port, y.port.toNat = q.val ∧ ((s.port q).state = .down ∨ (s.port q).state = .halted)) →
      exec (.tcpl d f) s = .next { freed p s with
        subs := s.subs.filter (fun z => z.id ≠ e.id)
        ports := put s.ports d { s.port d with tags := put (s.port d).tags t .free }
        outbound := s.outbound ++ [.cpl (commandCpl p st (some (p.start + n)) (p.count - n) f.payload)] })

/-- R82, R110, R124, R126, R127, R129: what a port's reset, halt or loss gives its sub-commands, here the one sub-command of a READ already retried, with no parent waiting to be split. ISSUED: TARGET_LOST at the loss of the link, TARGET_RESET at a port reset. QUEUED: TARGET_LOST at the loss, TARGET_HALTED at a halt, be it by the reset timer or by a lowered window. Each notice is posted before the READ's CPL. That the READ's CPL joins the outbound order before the PORT WRITE's own is the model's choice (log entry 8). -/
def Obligations.PortLossResetAndHaltGiveResults : Prop :=
  ∀ (s : State) (d : Port) (p : Parent) (pc : Piece) (e : SubCmd), pc.retried = true → p.volume ≠ 0 → s.splitWait = [] →
    (∀ t : DTag, InFlight s d t p pc e → (∀ k : DTag, k ≠ t → (s.port d).tags[k].isIssued = false) →
        (∀ c : Sys2Proof.Class, (s.port d).queues[c] = []) →
      ((s.port d).state = .up ∨ (s.port d).state = .halted → (s.port d).pendingReset = none → (s.port d).flushWaiters = [] →
        exec (.targetLinkLost d) s = .next { freed p (noticed (portNotice .portDown d none none none)
            (withPort d { s.port d with state := .down, reason := none, resetTimer := none, tags := Vector.replicate 16 .free } s)) with
          subs := s.subs.filter (fun x => x.id ≠ e.id)
          outbound := (noticed (portNotice .portDown d none none none) s).outbound
            ++ [.cpl (commandCpl p .targetLost (some p.start) p.count [])] })
      ∧ (∀ r : Parent, Running r s → s.manager = some r.initiator → addressed r .write 10 d.val →
          (s.port d).state = .up ∨ (s.port d).state = .halted →
        exec .portReset s = .next (handedOff r { freed p (withPort d
            { s.port d with state := .resetting, reason := none, tags := Vector.replicate 16 .free, attempts := 1,
                            resetTimer := some (s.now + (s.port d).responseLimit), pendingReset := some r.id } s) with
          subs := s.subs.filter (fun x => x.id ≠ e.id)
          outbound := s.outbound ++ [.cpl (commandCpl p .targetReset (some p.start) p.count [])]
          sent := s.sent ++ [.down d .trst] })))
    ∧ (∀ c : Sys2Proof.Class, InQueue s d c p pc e → (∀ k : DTag, (s.port d).tags[k].isIssued = false) →
      ((s.port d).state = .up ∨ (s.port d).state = .resetting → (s.port d).pendingReset = none → (s.port d).flushWaiters = [] →
        exec (.targetLinkLost d) s = .next { freed p (noticed (portNotice .portDown d none none none)
            (withPort d { s.port d with state := .down, reason := none, resetTimer := none, tags := Vector.replicate 16 .free,
                                        queues := Vector.replicate 4 [] } s)) with
          subs := s.subs.filter (fun x => x.id ≠ e.id)
          outbound := (noticed (portNotice .portDown d none none none) s).outbound
            ++ [.cpl (commandCpl p .targetLost (some p.start) p.count [])] })
      ∧ (∀ i, (s.port d).state = .resetting → (s.port d).resetTimer = some i → i ≤ s.now → (s.port d).attempts = 3 →
          (s.port d).pendingReset = none → (s.port d).flushWaiters = [] →
        exec (.resetTimerExpiry d) s = .next { freed p (noticed (portNotice .portHalted d none (some 2) none)
            (withPort d { s.port d with state := .halted, reason := some .resetUnanswered, resetTimer := none,
                                        queues := Vector.replicate 4 [] } s)) with
          subs := s.subs.filter (fun x => x.id ≠ e.id)
          outbound := (noticed (portNotice .portHalted d none (some 2) none) s).outbound
            ++ [.cpl (commandCpl p .targetHalted (some p.start) p.count [])] })
      ∧ (∀ (r : Parent) (b : Block) (w l m : Nat), Running r s → s.manager = some r.initiator → addressed r .write 9 d.val → r.slots = [some b] →
          (byteAt b 0).toNat = w → (word16At b 4).toNat = l → (word16At b 6).toNat = m →
          1 ≤ w → w ≤ 16 → 10 ≤ l → l ≤ 60000 → 8 ≤ m → m ≤ 1024 →
          (s.port d).state = .up → (s.port d).window ≠ w → w ≤ (s.port d).quarantinedTags →
        exec .portWrite s = .next (answered r .good (resultBlock 0) { freed p (noticed (portNotice .portHalted d none (some 1) none)
            (withPort d { s.port d with window := w, responseLimit := l, maxTransfer := m, state := .halted,
                                        reason := some .tagsExhausted, resetTimer := none, queues := Vector.replicate 4 [] } s)) with
          subs := s.subs.filter (fun x => x.id ≠ e.id)
          outbound := (noticed (portNotice .portHalted d none (some 1) none) s).outbound
            ++ [.cpl (commandCpl p .targetHalted (some p.start) p.count [])] })))

/-- R78, R79, R81: when a late completion frees the one tag that the window lacked, the port issues one entry: of the highest class that has work, or, at pass count 8, of the next class below it that has work; under the lowest FREE tag, with the pass count that the arbiter's table gives, and with the blocks of a WRITE in its SUB. -/
def Obligations.ArbiterIssuesUnderLowestTag : Prop :=
  ∀ (s : State) (d : Port) (t u : DTag) (f : TcplFrame) (h : Sys2Proof.Class) (x : SubCmd) (rest : List SubRef) (bs : List Block),
    f.wf = true → f.tag.toNat = t.val → (s.port d).state = .up → (s.port d).tags[t] = .quarantined →
    (s.port d).occupancy = (s.port d).window →
    u = t ∨ (s.port d).tags[u] = .free → (∀ k : DTag, k < u → k ≠ t ∧ (s.port d).tags[k] ≠ .free) →
    (s.port d).queues[h] ≠ [] → (∀ k : Sys2Proof.Class, k < h → (s.port d).queues[k] = []) →
    AdmissionOrder s → x ∈ s.subs → (s.subs.Pairwise fun y z => y.id ≠ z.id) → Carries s x bs →
    ((s.port d).queues[h] = x.id :: rest → (∀ k : Sys2Proof.Class, h < k → (s.port d).queues[k] = []) →
      exec (.tcpl d f) s = .next (issued d h 0 u x rest bs (noticed (portNotice .lateCompletion d (some f.tag) none none)
        (withPort d { s.port d with tags := put (s.port d).tags t .free } s))))
    ∧ (∀ l : Sys2Proof.Class, h < l → (s.port d).queues[l] ≠ [] →
        (∀ k : Sys2Proof.Class, h < k → k < l → (s.port d).queues[k] = []) →
      ((s.port d).passCount < 8 → (s.port d).queues[h] = x.id :: rest →
        exec (.tcpl d f) s = .next (issued d h ((s.port d).passCount + 1) u x rest bs
          (noticed (portNotice .lateCompletion d (some f.tag) none none)
            (withPort d { s.port d with tags := put (s.port d).tags t .free } s))))
      ∧ ((s.port d).passCount = 8 → (s.port d).queues[l] = x.id :: rest →
        exec (.tcpl d f) s = .next (issued d l 0 u x rest bs (noticed (portNotice .lateCompletion d (some f.tag) none none)
          (withPort d { s.port d with tags := put (s.port d).tags t .free } s)))))

/-- R141: the expiry of the lease clears the manager record, arms the alert and posts MANAGER_EXPIRED with the former manager; it sends no ALR. -/
def Obligations.LeaseExpiryClearsManager : Prop :=
  ∀ (s : State) (t : Nat), s.leaseTimer = some t → t ≤ s.now →
    exec .leaseExpiry s = .next (noticed
      { kind := .managerExpired, port := none, volume := none, initiator := s.manager, generation := none, ordinal := none,
        tag := none, reason := none }
      { s with manager := none, lease := 0, leaseTimer := none, alert := .armed })

/-- R96, with the last case of R99: what a two-copy WRITE piece becomes by the results of its lead and its other copy, and what becomes of the copies. -/
def Obligations.TwoCopyWriteResolvesByTable : Prop :=
  ∀ (x : Extent) (first : Nat) (pc : Piece) (l o : Option MemberResult), pc.members.length = 2 →
    pc.resultOf x.lead = l → pc.resultOf x.lead.other = o →
    (∀ a, l = some a → a.kind = .ok → (o = none ∨ (∃ b, o = some b ∧ (b.kind = .ok ∨ x.isCurrent x.lead.other = false))) →
      resolveWrite x first pc = (.good, .none))
    ∧ (∀ a b, l = some a → o = some b → a.kind = .ok → b.kind ≠ .ok → x.isCurrent x.lead.other = true →
      resolveWrite x first pc = (.good, .stale x.lead.other))
    ∧ (∀ a b, l = some a → o = some b → a.kind ≠ .ok → b.kind = .ok → x.isCurrent x.lead.other = true →
      resolveWrite x first pc = (.good, .swap x.lead.other))
    ∧ (∀ a b, l = some a → o = some b → a.kind ≠ .ok → b.kind ≠ .ok → x.isCurrent x.lead.other = true →
      resolveWrite x first pc = (.failed a.kind.status a.failBlock, .stale x.lead.other))
    ∧ (∀ a, l = some a → a.kind ≠ .ok → (o = none ∨ x.isCurrent x.lead.other = false) →
      resolveWrite x first pc = (.failed a.kind.status a.failBlock, .none))
    ∧ (∀ b, l = none → o = some b → resolveWrite x first pc
        = (.failed .aborted first, if b.issued = true ∧ x.isCurrent x.lead.other = true then .stale x.lead.other else .none))
    ∧ (∀ c : CopyNo, (x.apply (.stale c)).lead = x.lead ∧ (x.apply (.stale c)).copy? c.other = x.copy? c.other
      ∧ (x.apply (.stale c)).copy? c = (x.copy? c).map fun y => { y with state := .stale })
    ∧ (x.apply (.swap x.lead.other)).lead = x.lead.other
    ∧ (x.apply (.swap x.lead.other)).copy? x.lead.other = x.copy? x.lead.other
    ∧ (x.apply (.swap x.lead.other)).copy? x.lead = (x.copy? x.lead).map fun y => { y with state := .stale }

/-- R96 to R98, R101 (with R88 and R107): the result that settles the one piece of a WRITE, by a TCPL or by the expiry of the deadline, resolves it by the table: the copy-state effect changes the live extent, its notice, COPY_STALE or LEAD_SWAPPED, is posted, and then the WRITE ends. An ACTIVE one completes, GOOD or with the failure; an ABORTING one, with no other entry, completes ABORTED with residual equal to its count (R103); a DISCARDING one, with no other entry, is freed without a CPL (R104). Here of a result that is not MEDIUM, on a port with no entry queued that does not halt by it, with no parent waiting to be split. -/
def Obligations.WriteResultChangesCopiesAndCompletes : Prop :=
  ∀ (s : State) (d : Port) (t : DTag) (p : Parent) (pc : Piece) (e : SubCmd) (c : CopyNo) (n : Nat) (x : Extent)
    (k : ResultKind) (y : PieceState) (g : Effect),
    LastWrite s d t p pc e c n x → s.splitWait = [] →
    resolveWrite x p.start { pc with members := pc.members.map fun m => if m.copy = c then ⟨c, none, some ⟨k, p.start, true⟩⟩ else m } = (y, g) →
    (∀ f : TcplFrame, (s.port d).state = .up ∨ (s.port d).state = .halted → (∀ q : Sys2Proof.Class, (s.port d).queues[q] = []) →
        f.tag.toNat = t.val → f.flags.getLsbD 0 = false → f.payload = [] →
        (f.result = 0 ∧ k = .ok) ∨ (f.result = 2 ∧ k = .fault) ∨ (f.result = 3 ∧ k = .refused) →
      exec (.tcpl d f) s = .next { freed p (effected p n x g
          (withPort d { s.port d with tags := put (s.port d).tags t .free } s)) with
        subs := s.subs.filter (fun z => z.id ≠ e.id)
        outbound := (effected p n x g s).outbound ++ endFrames p (pieceCpl p y) })
    ∧ (∀ i, k = .timeout → e.issue = some i → i.deadline ≤ s.now →
        (s.port d).state ≠ .up ∨ (s.port d).quarantinedTags + 1 < (s.port d).window →
      exec (.deadlineExpiry d t) s = .next { freed p (effected p n x g
          (noticed (portNotice .subExpired d (some (BitVec.ofNat 8 t.val)) none (some p.volume))
            (withPort d { s.port d with tags := put (s.port d).tags t .quarantined } s))) with
        subs := s.subs.filter (fun z => z.id ≠ e.id)
        outbound := (effected p n x g (noticed (portNotice .subExpired d (some (BitVec.ofNat 8 t.val)) none (some p.volume)) s)).outbound
          ++ endFrames p (pieceCpl p y) })

/-- R43, R56, R57, R58, R60 to R65, R67 (with R59, R78, R81): a READ, WRITE or VERIFY that nothing holds back comes to the split stage of its ONLINE volume. Its range is cut at every end of a live extent and of a maximum transfer; each piece is served by the lead, by the other copy of a READ or VERIFY where only that is CURRENT and usable, and by the lead and the other copy for a WRITE whose other copy is CURRENT. More than 16 pieces complete it FRAGMENTED; it joins the tail of the Split-Wait List when that holds a parent or the free entries do not suffice; otherwise it is split, and each entry, in piece order with the lead first, joins its class queue on a RESETTING port, or is issued at once on an UP port with nothing queued and room. First on one run: a READ or VERIFY inside one live extent and no longer than a maximum transfer is split into one piece on the lead and issued under the lowest FREE tag. -/
def Obligations.RangeIsCutAndSplit : Prop :=
  (∀ (s : State) (f : CmdFrame) (i : Initiator) (v : Volume) (op : Op) (c : Sys2Proof.Class) (n : Nat) (x : Extent) (y : Copy) (d : Port) (t : DTag),
    OrderLaw s → LiveMapLaw s → (∀ e ∈ s.subs, e.id < s.nextSub) → op = .read ∨ op = .verify →
    Taken s f i v op c → firstFailure s i v op f = none → v ≠ 0 → (s.vol v).state = .online →
    (∀ e ∈ s.ranges[v], f.start.toNat < e.start + e.count → e.start < f.start.toNat + f.count.toNat → e.op ≠ .write) →
    s.splitWait = [] → s.subs.length < 256 →
    (s.vol v).live[n]? = some x → x.first.toNat ≤ f.start.toNat → f.start.toNat + f.count.toNat ≤ x.first.toNat + x.length.toNat →
    x.copy? x.lead = some y → y.port.toNat = d.val → (s.port d).state = .up → f.count.toNat ≤ (s.port d).maxTransfer →
    (∀ k : Sys2Proof.Class, (s.port d).queues[k] = []) → (s.port d).occupancy < (s.port d).window →
    (s.port d).tags[t] = .free → (∀ u : DTag, u < t → (s.port d).tags[u] ≠ .free) →
    exec (.cmd f) s = .next { withParent
      { newParent s f i v op c .active with
        generation := some (s.vol v).generation
        pieces := [⟨0, f.count.toNat, n, [⟨x.lead, some s.nextSub, none⟩], false, .pending⟩] } s with
      volumes := put s.volumes v { s.vol v with liveParents := (s.vol v).liveParents + 1, splitParents := (s.vol v).splitParents + 1 }
      ranges := put s.ranges v (s.ranges[v] ++ [⟨s.nextParent, op, f.start.toNat, f.count.toNat⟩])
      nextSub := s.nextSub + 1
      subs := s.subs ++ [⟨s.nextSub, s.nextParent, some 0, some x.lead, d, if op = .read then .read else .verify, c,
        f.start.toNat - x.first.toNat + y.first.toNat, f.count.toNat, some ⟨t, s.now + (s.port d).responseLimit⟩⟩]
      ports := put s.ports d { s.port d with tags := put (s.port d).tags t (.issued s.nextSub), passCount := 0 }
      sent := s.sent ++ [.down d (.sub ⟨t, if op = .read then .read else .verify,
        f.start.toNat - x.first.toNat + y.first.toNat, f.count.toNat, []⟩)] })
    ∧ ∀ (s t : State) (f : CmdFrame) (i : Initiator) (v : Volume) (op : Op) (c : Sys2Proof.Class),
      OrderLaw s → LiveMapLaw s → (∀ e ∈ s.subs, e.id < s.nextSub) →
      Taken s f i v op c → firstFailure s i v op f = none → v ≠ 0 → op ≠ .drain → (s.vol v).state = .online →
      (∀ e ∈ s.ranges[v], f.start.toNat < e.start + e.count → e.start < f.start.toNat + f.count.toNat → op ≠ .write ∧ e.op ≠ .write) →
      Arrives (newParent s f i v op c .orderWait) { withLiveParent v (withParent (newParent s f i v op c .orderWait) s) with
        ranges := put s.ranges v (s.ranges[v] ++ [⟨s.nextParent, op, f.start.toNat, f.count.toNat⟩]) } t →
      exec (.cmd f) s = .next t
end

