-- ==== Sys2Proof/Laws/State.lean ====
section
/-! SUPPORT. What each named update does to each field of State, true by rfl, and reading a table after a write. -/

-- The package is also compiled as one text: one proof after another keeps the number of Lean's threads small there.
set_option Elab.async false

namespace Sys2Proof.Machine

/-! ## Tables -/

/-- Changing every row of a table is the map over it. -/
@[simp] theorem mapRows_eq {α : Type} {n : Nat} (f : α → α) (v : Vector α n) : mapRows f v = v.map f := by
  ext k hk
  simp [mapRows]

theorem put_get {α : Type} {n : Nat} (v : Vector α n) (i j : Fin n) (x : α) :
    (put v i x)[j] = if j = i then x else v[j] := by
  simp only [put, Fin.getElem_fin, Vector.getElem_set, Fin.ext_iff, eq_comm]

/-- Two writes of one row are the second. -/
theorem put_put {α : Type} {n : Nat} (v : Vector α n) (i : Fin n) (x y : α) : put (put v i x) i y = put v i y := by
  apply Vector.ext; intro k hk; unfold put
  simp only [Vector.getElem_set]; split <;> rfl

/-- Two writes of different rows may be made in either order. -/
theorem put_comm {α : Type} {n : Nat} (v : Vector α n) {i j : Fin n} (h : i ≠ j) (x y : α) : put (put v i x) j y = put (put v j y) i x := by
  apply Vector.ext; intro k hk; unfold put
  have : ¬ (i.val = k ∧ j.val = k) := fun g => h (Fin.ext (g.1.trans g.2.symm))
  simp only [Vector.getElem_set]
  split <;> split <;> simp_all

/-- Writing a row with what it holds changes nothing. -/
theorem put_same {α : Type} {n : Nat} (v : Vector α n) (i : Fin n) : put v i v[i] = v := by
  apply Vector.ext; intro k hk; unfold put
  simp only [Vector.getElem_set]; split
  next h => subst h; rfl
  next => rfl

@[simp] theorem put_getElem {α : Type} {n : Nat} (v : Vector α n) (i : Fin n) (x : α) (k : Nat) (h : k < n) :
    (put v i x)[k] = if k = i.val then x else v[k] := by
  simp only [put, Vector.getElem_set, eq_comm]

theorem put_get_self {α : Type} {n : Nat} (v : Vector α n) (i : Fin n) (x : α) : (put v i x)[i] = x := by
  rw [put_get, if_pos rfl]

@[simp] theorem updPort_port (p q : Port) (f : PortRec → PortRec) (s : State) :
    (updPort p f s).port q = if q = p then f (s.port p) else s.port q := by simp only [State.port, updPort, put_get]

@[simp] theorem updVol_vol (v w : Volume) (f : VolRec → VolRec) (s : State) :
    (updVol v f s).vol w = if w = v then f (s.vol v) else s.vol w := by simp only [State.vol, updVol, put_get]

/-! ## updParent -/

@[simp] theorem updParent_linkUp (id : ParentRef) (f : Parent → Parent) (s : State) : (updParent id f s).linkUp = s.linkUp := rfl
@[simp] theorem updParent_outbound (id : ParentRef) (f : Parent → Parent) (s : State) : (updParent id f s).outbound = s.outbound := rfl
@[simp] theorem updParent_parents (id : ParentRef) (f : Parent → Parent) (s : State) : (updParent id f s).parents = s.parents.map fun p => if p.id = id then f p else p := rfl
@[simp] theorem updParent_initiators (id : ParentRef) (f : Parent → Parent) (s : State) : (updParent id f s).initiators = s.initiators := rfl
@[simp] theorem updParent_access (id : ParentRef) (f : Parent → Parent) (s : State) : (updParent id f s).access = s.access := rfl
@[simp] theorem updParent_freeSlots (id : ParentRef) (f : Parent → Parent) (s : State) : (updParent id f s).freeSlots = s.freeSlots := rfl
@[simp] theorem updParent_mapReports (id : ParentRef) (f : Parent → Parent) (s : State) : (updParent id f s).mapReports = s.mapReports := rfl
@[simp] theorem updParent_orderReports (id : ParentRef) (f : Parent → Parent) (s : State) : (updParent id f s).orderReports = s.orderReports := rfl
@[simp] theorem updParent_goneMap (id : ParentRef) (f : Parent → Parent) (s : State) : (updParent id f s).goneMap = s.goneMap := rfl
@[simp] theorem updParent_gonePort (id : ParentRef) (f : Parent → Parent) (s : State) : (updParent id f s).gonePort = s.gonePort := rfl
@[simp] theorem updParent_goneFlush (id : ParentRef) (f : Parent → Parent) (s : State) : (updParent id f s).goneFlush = s.goneFlush := rfl
@[simp] theorem updParent_ranges (id : ParentRef) (f : Parent → Parent) (s : State) : (updParent id f s).ranges = s.ranges := rfl
@[simp] theorem updParent_holds (id : ParentRef) (f : Parent → Parent) (s : State) : (updParent id f s).holds = s.holds := rfl
@[simp] theorem updParent_volumes (id : ParentRef) (f : Parent → Parent) (s : State) : (updParent id f s).volumes = s.volumes := rfl
@[simp] theorem updParent_freeExtents (id : ParentRef) (f : Parent → Parent) (s : State) : (updParent id f s).freeExtents = s.freeExtents := rfl
@[simp] theorem updParent_subs (id : ParentRef) (f : Parent → Parent) (s : State) : (updParent id f s).subs = s.subs := rfl
@[simp] theorem updParent_splitWait (id : ParentRef) (f : Parent → Parent) (s : State) : (updParent id f s).splitWait = s.splitWait := rfl
@[simp] theorem updParent_switchHolds (id : ParentRef) (f : Parent → Parent) (s : State) : (updParent id f s).switchHolds = s.switchHolds := rfl
@[simp] theorem updParent_ports (id : ParentRef) (f : Parent → Parent) (s : State) : (updParent id f s).ports = s.ports := rfl
@[simp] theorem updParent_controlQueue (id : ParentRef) (f : Parent → Parent) (s : State) : (updParent id f s).controlQueue = s.controlQueue := rfl
@[simp] theorem updParent_executing (id : ParentRef) (f : Parent → Parent) (s : State) : (updParent id f s).executing = s.executing := rfl
@[simp] theorem updParent_manager (id : ParentRef) (f : Parent → Parent) (s : State) : (updParent id f s).manager = s.manager := rfl
@[simp] theorem updParent_lease (id : ParentRef) (f : Parent → Parent) (s : State) : (updParent id f s).lease = s.lease := rfl
@[simp] theorem updParent_leaseTimer (id : ParentRef) (f : Parent → Parent) (s : State) : (updParent id f s).leaseTimer = s.leaseTimer := rfl
@[simp] theorem updParent_flush (id : ParentRef) (f : Parent → Parent) (s : State) : (updParent id f s).flush = s.flush := rfl
@[simp] theorem updParent_notices (id : ParentRef) (f : Parent → Parent) (s : State) : (updParent id f s).notices = s.notices := rfl
@[simp] theorem updParent_seq (id : ParentRef) (f : Parent → Parent) (s : State) : (updParent id f s).seq = s.seq := rfl
@[simp] theorem updParent_dropped (id : ParentRef) (f : Parent → Parent) (s : State) : (updParent id f s).dropped = s.dropped := rfl
@[simp] theorem updParent_alert (id : ParentRef) (f : Parent → Parent) (s : State) : (updParent id f s).alert = s.alert := rfl
@[simp] theorem updParent_now (id : ParentRef) (f : Parent → Parent) (s : State) : (updParent id f s).now = s.now := rfl
@[simp] theorem updParent_nextParent (id : ParentRef) (f : Parent → Parent) (s : State) : (updParent id f s).nextParent = s.nextParent := rfl
@[simp] theorem updParent_nextSub (id : ParentRef) (f : Parent → Parent) (s : State) : (updParent id f s).nextSub = s.nextSub := rfl
@[simp] theorem updParent_sent (id : ParentRef) (f : Parent → Parent) (s : State) : (updParent id f s).sent = s.sent := rfl
@[simp] theorem updParent_pending (id : ParentRef) (f : Parent → Parent) (s : State) : (updParent id f s).pending = s.pending := rfl

/-! ## setState -/

@[simp] theorem setState_linkUp (id : ParentRef) (x : ParentState) (s : State) : (setState id x s).linkUp = s.linkUp := rfl
@[simp] theorem setState_outbound (id : ParentRef) (x : ParentState) (s : State) : (setState id x s).outbound = s.outbound := rfl
@[simp] theorem setState_parents (id : ParentRef) (x : ParentState) (s : State) : (setState id x s).parents = s.parents.map fun p => if p.id = id then { p with state := x } else p := rfl
@[simp] theorem setState_initiators (id : ParentRef) (x : ParentState) (s : State) : (setState id x s).initiators = s.initiators := rfl
@[simp] theorem setState_access (id : ParentRef) (x : ParentState) (s : State) : (setState id x s).access = s.access := rfl
@[simp] theorem setState_freeSlots (id : ParentRef) (x : ParentState) (s : State) : (setState id x s).freeSlots = s.freeSlots := rfl
@[simp] theorem setState_mapReports (id : ParentRef) (x : ParentState) (s : State) : (setState id x s).mapReports = s.mapReports := rfl
@[simp] theorem setState_orderReports (id : ParentRef) (x : ParentState) (s : State) : (setState id x s).orderReports = s.orderReports := rfl
@[simp] theorem setState_goneMap (id : ParentRef) (x : ParentState) (s : State) : (setState id x s).goneMap = s.goneMap := rfl
@[simp] theorem setState_gonePort (id : ParentRef) (x : ParentState) (s : State) : (setState id x s).gonePort = s.gonePort := rfl
@[simp] theorem setState_goneFlush (id : ParentRef) (x : ParentState) (s : State) : (setState id x s).goneFlush = s.goneFlush := rfl
@[simp] theorem setState_ranges (id : ParentRef) (x : ParentState) (s : State) : (setState id x s).ranges = s.ranges := rfl
@[simp] theorem setState_holds (id : ParentRef) (x : ParentState) (s : State) : (setState id x s).holds = s.holds := rfl
@[simp] theorem setState_volumes (id : ParentRef) (x : ParentState) (s : State) : (setState id x s).volumes = s.volumes := rfl
@[simp] theorem setState_freeExtents (id : ParentRef) (x : ParentState) (s : State) : (setState id x s).freeExtents = s.freeExtents := rfl
@[simp] theorem setState_subs (id : ParentRef) (x : ParentState) (s : State) : (setState id x s).subs = s.subs := rfl
@[simp] theorem setState_splitWait (id : ParentRef) (x : ParentState) (s : State) : (setState id x s).splitWait = s.splitWait := rfl
@[simp] theorem setState_switchHolds (id : ParentRef) (x : ParentState) (s : State) : (setState id x s).switchHolds = s.switchHolds := rfl
@[simp] theorem setState_ports (id : ParentRef) (x : ParentState) (s : State) : (setState id x s).ports = s.ports := rfl
@[simp] theorem setState_controlQueue (id : ParentRef) (x : ParentState) (s : State) : (setState id x s).controlQueue = s.controlQueue := rfl
@[simp] theorem setState_executing (id : ParentRef) (x : ParentState) (s : State) : (setState id x s).executing = s.executing := rfl
@[simp] theorem setState_manager (id : ParentRef) (x : ParentState) (s : State) : (setState id x s).manager = s.manager := rfl
@[simp] theorem setState_lease (id : ParentRef) (x : ParentState) (s : State) : (setState id x s).lease = s.lease := rfl
@[simp] theorem setState_leaseTimer (id : ParentRef) (x : ParentState) (s : State) : (setState id x s).leaseTimer = s.leaseTimer := rfl
@[simp] theorem setState_flush (id : ParentRef) (x : ParentState) (s : State) : (setState id x s).flush = s.flush := rfl
@[simp] theorem setState_notices (id : ParentRef) (x : ParentState) (s : State) : (setState id x s).notices = s.notices := rfl
@[simp] theorem setState_seq (id : ParentRef) (x : ParentState) (s : State) : (setState id x s).seq = s.seq := rfl
@[simp] theorem setState_dropped (id : ParentRef) (x : ParentState) (s : State) : (setState id x s).dropped = s.dropped := rfl
@[simp] theorem setState_alert (id : ParentRef) (x : ParentState) (s : State) : (setState id x s).alert = s.alert := rfl
@[simp] theorem setState_now (id : ParentRef) (x : ParentState) (s : State) : (setState id x s).now = s.now := rfl
@[simp] theorem setState_nextParent (id : ParentRef) (x : ParentState) (s : State) : (setState id x s).nextParent = s.nextParent := rfl
@[simp] theorem setState_nextSub (id : ParentRef) (x : ParentState) (s : State) : (setState id x s).nextSub = s.nextSub := rfl
@[simp] theorem setState_sent (id : ParentRef) (x : ParentState) (s : State) : (setState id x s).sent = s.sent := rfl
@[simp] theorem setState_pending (id : ParentRef) (x : ParentState) (s : State) : (setState id x s).pending = s.pending := rfl

/-! ## updSub -/

@[simp] theorem updSub_linkUp (e : SubRef) (f : SubCmd → SubCmd) (s : State) : (updSub e f s).linkUp = s.linkUp := rfl
@[simp] theorem updSub_outbound (e : SubRef) (f : SubCmd → SubCmd) (s : State) : (updSub e f s).outbound = s.outbound := rfl
@[simp] theorem updSub_parents (e : SubRef) (f : SubCmd → SubCmd) (s : State) : (updSub e f s).parents = s.parents := rfl
@[simp] theorem updSub_initiators (e : SubRef) (f : SubCmd → SubCmd) (s : State) : (updSub e f s).initiators = s.initiators := rfl
@[simp] theorem updSub_access (e : SubRef) (f : SubCmd → SubCmd) (s : State) : (updSub e f s).access = s.access := rfl
@[simp] theorem updSub_freeSlots (e : SubRef) (f : SubCmd → SubCmd) (s : State) : (updSub e f s).freeSlots = s.freeSlots := rfl
@[simp] theorem updSub_mapReports (e : SubRef) (f : SubCmd → SubCmd) (s : State) : (updSub e f s).mapReports = s.mapReports := rfl
@[simp] theorem updSub_orderReports (e : SubRef) (f : SubCmd → SubCmd) (s : State) : (updSub e f s).orderReports = s.orderReports := rfl
@[simp] theorem updSub_goneMap (e : SubRef) (f : SubCmd → SubCmd) (s : State) : (updSub e f s).goneMap = s.goneMap := rfl
@[simp] theorem updSub_gonePort (e : SubRef) (f : SubCmd → SubCmd) (s : State) : (updSub e f s).gonePort = s.gonePort := rfl
@[simp] theorem updSub_goneFlush (e : SubRef) (f : SubCmd → SubCmd) (s : State) : (updSub e f s).goneFlush = s.goneFlush := rfl
@[simp] theorem updSub_ranges (e : SubRef) (f : SubCmd → SubCmd) (s : State) : (updSub e f s).ranges = s.ranges := rfl
@[simp] theorem updSub_holds (e : SubRef) (f : SubCmd → SubCmd) (s : State) : (updSub e f s).holds = s.holds := rfl
@[simp] theorem updSub_volumes (e : SubRef) (f : SubCmd → SubCmd) (s : State) : (updSub e f s).volumes = s.volumes := rfl
@[simp] theorem updSub_freeExtents (e : SubRef) (f : SubCmd → SubCmd) (s : State) : (updSub e f s).freeExtents = s.freeExtents := rfl
@[simp] theorem updSub_subs (e : SubRef) (f : SubCmd → SubCmd) (s : State) : (updSub e f s).subs = s.subs.map fun x => if x.id = e then f x else x := rfl
@[simp] theorem updSub_splitWait (e : SubRef) (f : SubCmd → SubCmd) (s : State) : (updSub e f s).splitWait = s.splitWait := rfl
@[simp] theorem updSub_switchHolds (e : SubRef) (f : SubCmd → SubCmd) (s : State) : (updSub e f s).switchHolds = s.switchHolds := rfl
@[simp] theorem updSub_ports (e : SubRef) (f : SubCmd → SubCmd) (s : State) : (updSub e f s).ports = s.ports := rfl
@[simp] theorem updSub_controlQueue (e : SubRef) (f : SubCmd → SubCmd) (s : State) : (updSub e f s).controlQueue = s.controlQueue := rfl
@[simp] theorem updSub_executing (e : SubRef) (f : SubCmd → SubCmd) (s : State) : (updSub e f s).executing = s.executing := rfl
@[simp] theorem updSub_manager (e : SubRef) (f : SubCmd → SubCmd) (s : State) : (updSub e f s).manager = s.manager := rfl
@[simp] theorem updSub_lease (e : SubRef) (f : SubCmd → SubCmd) (s : State) : (updSub e f s).lease = s.lease := rfl
@[simp] theorem updSub_leaseTimer (e : SubRef) (f : SubCmd → SubCmd) (s : State) : (updSub e f s).leaseTimer = s.leaseTimer := rfl
@[simp] theorem updSub_flush (e : SubRef) (f : SubCmd → SubCmd) (s : State) : (updSub e f s).flush = s.flush := rfl
@[simp] theorem updSub_notices (e : SubRef) (f : SubCmd → SubCmd) (s : State) : (updSub e f s).notices = s.notices := rfl
@[simp] theorem updSub_seq (e : SubRef) (f : SubCmd → SubCmd) (s : State) : (updSub e f s).seq = s.seq := rfl
@[simp] theorem updSub_dropped (e : SubRef) (f : SubCmd → SubCmd) (s : State) : (updSub e f s).dropped = s.dropped := rfl
@[simp] theorem updSub_alert (e : SubRef) (f : SubCmd → SubCmd) (s : State) : (updSub e f s).alert = s.alert := rfl
@[simp] theorem updSub_now (e : SubRef) (f : SubCmd → SubCmd) (s : State) : (updSub e f s).now = s.now := rfl
@[simp] theorem updSub_nextParent (e : SubRef) (f : SubCmd → SubCmd) (s : State) : (updSub e f s).nextParent = s.nextParent := rfl
@[simp] theorem updSub_nextSub (e : SubRef) (f : SubCmd → SubCmd) (s : State) : (updSub e f s).nextSub = s.nextSub := rfl
@[simp] theorem updSub_sent (e : SubRef) (f : SubCmd → SubCmd) (s : State) : (updSub e f s).sent = s.sent := rfl
@[simp] theorem updSub_pending (e : SubRef) (f : SubCmd → SubCmd) (s : State) : (updSub e f s).pending = s.pending := rfl

/-! ## updPort -/

@[simp] theorem updPort_linkUp (p : Port) (f : PortRec → PortRec) (s : State) : (updPort p f s).linkUp = s.linkUp := rfl
@[simp] theorem updPort_outbound (p : Port) (f : PortRec → PortRec) (s : State) : (updPort p f s).outbound = s.outbound := rfl
@[simp] theorem updPort_parents (p : Port) (f : PortRec → PortRec) (s : State) : (updPort p f s).parents = s.parents := rfl
@[simp] theorem updPort_initiators (p : Port) (f : PortRec → PortRec) (s : State) : (updPort p f s).initiators = s.initiators := rfl
@[simp] theorem updPort_access (p : Port) (f : PortRec → PortRec) (s : State) : (updPort p f s).access = s.access := rfl
@[simp] theorem updPort_freeSlots (p : Port) (f : PortRec → PortRec) (s : State) : (updPort p f s).freeSlots = s.freeSlots := rfl
@[simp] theorem updPort_mapReports (p : Port) (f : PortRec → PortRec) (s : State) : (updPort p f s).mapReports = s.mapReports := rfl
@[simp] theorem updPort_orderReports (p : Port) (f : PortRec → PortRec) (s : State) : (updPort p f s).orderReports = s.orderReports := rfl
@[simp] theorem updPort_goneMap (p : Port) (f : PortRec → PortRec) (s : State) : (updPort p f s).goneMap = s.goneMap := rfl
@[simp] theorem updPort_gonePort (p : Port) (f : PortRec → PortRec) (s : State) : (updPort p f s).gonePort = s.gonePort := rfl
@[simp] theorem updPort_goneFlush (p : Port) (f : PortRec → PortRec) (s : State) : (updPort p f s).goneFlush = s.goneFlush := rfl
@[simp] theorem updPort_ranges (p : Port) (f : PortRec → PortRec) (s : State) : (updPort p f s).ranges = s.ranges := rfl
@[simp] theorem updPort_holds (p : Port) (f : PortRec → PortRec) (s : State) : (updPort p f s).holds = s.holds := rfl
@[simp] theorem updPort_volumes (p : Port) (f : PortRec → PortRec) (s : State) : (updPort p f s).volumes = s.volumes := rfl
@[simp] theorem updPort_freeExtents (p : Port) (f : PortRec → PortRec) (s : State) : (updPort p f s).freeExtents = s.freeExtents := rfl
@[simp] theorem updPort_subs (p : Port) (f : PortRec → PortRec) (s : State) : (updPort p f s).subs = s.subs := rfl
@[simp] theorem updPort_splitWait (p : Port) (f : PortRec → PortRec) (s : State) : (updPort p f s).splitWait = s.splitWait := rfl
@[simp] theorem updPort_switchHolds (p : Port) (f : PortRec → PortRec) (s : State) : (updPort p f s).switchHolds = s.switchHolds := rfl
@[simp] theorem updPort_ports (p : Port) (f : PortRec → PortRec) (s : State) : (updPort p f s).ports = put s.ports p (f s.ports[p]) := rfl
@[simp] theorem updPort_controlQueue (p : Port) (f : PortRec → PortRec) (s : State) : (updPort p f s).controlQueue = s.controlQueue := rfl
@[simp] theorem updPort_executing (p : Port) (f : PortRec → PortRec) (s : State) : (updPort p f s).executing = s.executing := rfl
@[simp] theorem updPort_manager (p : Port) (f : PortRec → PortRec) (s : State) : (updPort p f s).manager = s.manager := rfl
@[simp] theorem updPort_lease (p : Port) (f : PortRec → PortRec) (s : State) : (updPort p f s).lease = s.lease := rfl
@[simp] theorem updPort_leaseTimer (p : Port) (f : PortRec → PortRec) (s : State) : (updPort p f s).leaseTimer = s.leaseTimer := rfl
@[simp] theorem updPort_flush (p : Port) (f : PortRec → PortRec) (s : State) : (updPort p f s).flush = s.flush := rfl
@[simp] theorem updPort_notices (p : Port) (f : PortRec → PortRec) (s : State) : (updPort p f s).notices = s.notices := rfl
@[simp] theorem updPort_seq (p : Port) (f : PortRec → PortRec) (s : State) : (updPort p f s).seq = s.seq := rfl
@[simp] theorem updPort_dropped (p : Port) (f : PortRec → PortRec) (s : State) : (updPort p f s).dropped = s.dropped := rfl
@[simp] theorem updPort_alert (p : Port) (f : PortRec → PortRec) (s : State) : (updPort p f s).alert = s.alert := rfl
@[simp] theorem updPort_now (p : Port) (f : PortRec → PortRec) (s : State) : (updPort p f s).now = s.now := rfl
@[simp] theorem updPort_nextParent (p : Port) (f : PortRec → PortRec) (s : State) : (updPort p f s).nextParent = s.nextParent := rfl
@[simp] theorem updPort_nextSub (p : Port) (f : PortRec → PortRec) (s : State) : (updPort p f s).nextSub = s.nextSub := rfl
@[simp] theorem updPort_sent (p : Port) (f : PortRec → PortRec) (s : State) : (updPort p f s).sent = s.sent := rfl
@[simp] theorem updPort_pending (p : Port) (f : PortRec → PortRec) (s : State) : (updPort p f s).pending = s.pending := rfl

/-! ## updVol -/

@[simp] theorem updVol_linkUp (v : Volume) (f : VolRec → VolRec) (s : State) : (updVol v f s).linkUp = s.linkUp := rfl
@[simp] theorem updVol_outbound (v : Volume) (f : VolRec → VolRec) (s : State) : (updVol v f s).outbound = s.outbound := rfl
@[simp] theorem updVol_parents (v : Volume) (f : VolRec → VolRec) (s : State) : (updVol v f s).parents = s.parents := rfl
@[simp] theorem updVol_initiators (v : Volume) (f : VolRec → VolRec) (s : State) : (updVol v f s).initiators = s.initiators := rfl
@[simp] theorem updVol_access (v : Volume) (f : VolRec → VolRec) (s : State) : (updVol v f s).access = s.access := rfl
@[simp] theorem updVol_freeSlots (v : Volume) (f : VolRec → VolRec) (s : State) : (updVol v f s).freeSlots = s.freeSlots := rfl
@[simp] theorem updVol_mapReports (v : Volume) (f : VolRec → VolRec) (s : State) : (updVol v f s).mapReports = s.mapReports := rfl
@[simp] theorem updVol_orderReports (v : Volume) (f : VolRec → VolRec) (s : State) : (updVol v f s).orderReports = s.orderReports := rfl
@[simp] theorem updVol_goneMap (v : Volume) (f : VolRec → VolRec) (s : State) : (updVol v f s).goneMap = s.goneMap := rfl
@[simp] theorem updVol_gonePort (v : Volume) (f : VolRec → VolRec) (s : State) : (updVol v f s).gonePort = s.gonePort := rfl
@[simp] theorem updVol_goneFlush (v : Volume) (f : VolRec → VolRec) (s : State) : (updVol v f s).goneFlush = s.goneFlush := rfl
@[simp] theorem updVol_ranges (v : Volume) (f : VolRec → VolRec) (s : State) : (updVol v f s).ranges = s.ranges := rfl
@[simp] theorem updVol_holds (v : Volume) (f : VolRec → VolRec) (s : State) : (updVol v f s).holds = s.holds := rfl
@[simp] theorem updVol_volumes (v : Volume) (f : VolRec → VolRec) (s : State) : (updVol v f s).volumes = put s.volumes v (f s.volumes[v]) := rfl
@[simp] theorem updVol_freeExtents (v : Volume) (f : VolRec → VolRec) (s : State) : (updVol v f s).freeExtents = s.freeExtents := rfl
@[simp] theorem updVol_subs (v : Volume) (f : VolRec → VolRec) (s : State) : (updVol v f s).subs = s.subs := rfl
@[simp] theorem updVol_splitWait (v : Volume) (f : VolRec → VolRec) (s : State) : (updVol v f s).splitWait = s.splitWait := rfl
@[simp] theorem updVol_switchHolds (v : Volume) (f : VolRec → VolRec) (s : State) : (updVol v f s).switchHolds = s.switchHolds := rfl
@[simp] theorem updVol_ports (v : Volume) (f : VolRec → VolRec) (s : State) : (updVol v f s).ports = s.ports := rfl
@[simp] theorem updVol_controlQueue (v : Volume) (f : VolRec → VolRec) (s : State) : (updVol v f s).controlQueue = s.controlQueue := rfl
@[simp] theorem updVol_executing (v : Volume) (f : VolRec → VolRec) (s : State) : (updVol v f s).executing = s.executing := rfl
@[simp] theorem updVol_manager (v : Volume) (f : VolRec → VolRec) (s : State) : (updVol v f s).manager = s.manager := rfl
@[simp] theorem updVol_lease (v : Volume) (f : VolRec → VolRec) (s : State) : (updVol v f s).lease = s.lease := rfl
@[simp] theorem updVol_leaseTimer (v : Volume) (f : VolRec → VolRec) (s : State) : (updVol v f s).leaseTimer = s.leaseTimer := rfl
@[simp] theorem updVol_flush (v : Volume) (f : VolRec → VolRec) (s : State) : (updVol v f s).flush = s.flush := rfl
@[simp] theorem updVol_notices (v : Volume) (f : VolRec → VolRec) (s : State) : (updVol v f s).notices = s.notices := rfl
@[simp] theorem updVol_seq (v : Volume) (f : VolRec → VolRec) (s : State) : (updVol v f s).seq = s.seq := rfl
@[simp] theorem updVol_dropped (v : Volume) (f : VolRec → VolRec) (s : State) : (updVol v f s).dropped = s.dropped := rfl
@[simp] theorem updVol_alert (v : Volume) (f : VolRec → VolRec) (s : State) : (updVol v f s).alert = s.alert := rfl
@[simp] theorem updVol_now (v : Volume) (f : VolRec → VolRec) (s : State) : (updVol v f s).now = s.now := rfl
@[simp] theorem updVol_nextParent (v : Volume) (f : VolRec → VolRec) (s : State) : (updVol v f s).nextParent = s.nextParent := rfl
@[simp] theorem updVol_nextSub (v : Volume) (f : VolRec → VolRec) (s : State) : (updVol v f s).nextSub = s.nextSub := rfl
@[simp] theorem updVol_sent (v : Volume) (f : VolRec → VolRec) (s : State) : (updVol v f s).sent = s.sent := rfl
@[simp] theorem updVol_pending (v : Volume) (f : VolRec → VolRec) (s : State) : (updVol v f s).pending = s.pending := rfl

/-! ## emit -/

@[simp] theorem emit_linkUp (c : Cpl) (s : State) : (emit c s).linkUp = s.linkUp := rfl
@[simp] theorem emit_outbound (c : Cpl) (s : State) : (emit c s).outbound = s.outbound ++ [.cpl c] := rfl
@[simp] theorem emit_parents (c : Cpl) (s : State) : (emit c s).parents = s.parents := rfl
@[simp] theorem emit_initiators (c : Cpl) (s : State) : (emit c s).initiators = s.initiators := rfl
@[simp] theorem emit_access (c : Cpl) (s : State) : (emit c s).access = s.access := rfl
@[simp] theorem emit_freeSlots (c : Cpl) (s : State) : (emit c s).freeSlots = s.freeSlots := rfl
@[simp] theorem emit_mapReports (c : Cpl) (s : State) : (emit c s).mapReports = s.mapReports := rfl
@[simp] theorem emit_orderReports (c : Cpl) (s : State) : (emit c s).orderReports = s.orderReports := rfl
@[simp] theorem emit_goneMap (c : Cpl) (s : State) : (emit c s).goneMap = s.goneMap := rfl
@[simp] theorem emit_gonePort (c : Cpl) (s : State) : (emit c s).gonePort = s.gonePort := rfl
@[simp] theorem emit_goneFlush (c : Cpl) (s : State) : (emit c s).goneFlush = s.goneFlush := rfl
@[simp] theorem emit_ranges (c : Cpl) (s : State) : (emit c s).ranges = s.ranges := rfl
@[simp] theorem emit_holds (c : Cpl) (s : State) : (emit c s).holds = s.holds := rfl
@[simp] theorem emit_volumes (c : Cpl) (s : State) : (emit c s).volumes = s.volumes := rfl
@[simp] theorem emit_freeExtents (c : Cpl) (s : State) : (emit c s).freeExtents = s.freeExtents := rfl
@[simp] theorem emit_subs (c : Cpl) (s : State) : (emit c s).subs = s.subs := rfl
@[simp] theorem emit_splitWait (c : Cpl) (s : State) : (emit c s).splitWait = s.splitWait := rfl
@[simp] theorem emit_switchHolds (c : Cpl) (s : State) : (emit c s).switchHolds = s.switchHolds := rfl
@[simp] theorem emit_ports (c : Cpl) (s : State) : (emit c s).ports = s.ports := rfl
@[simp] theorem emit_controlQueue (c : Cpl) (s : State) : (emit c s).controlQueue = s.controlQueue := rfl
@[simp] theorem emit_executing (c : Cpl) (s : State) : (emit c s).executing = s.executing := rfl
@[simp] theorem emit_manager (c : Cpl) (s : State) : (emit c s).manager = s.manager := rfl
@[simp] theorem emit_lease (c : Cpl) (s : State) : (emit c s).lease = s.lease := rfl
@[simp] theorem emit_leaseTimer (c : Cpl) (s : State) : (emit c s).leaseTimer = s.leaseTimer := rfl
@[simp] theorem emit_flush (c : Cpl) (s : State) : (emit c s).flush = s.flush := rfl
@[simp] theorem emit_notices (c : Cpl) (s : State) : (emit c s).notices = s.notices := rfl
@[simp] theorem emit_seq (c : Cpl) (s : State) : (emit c s).seq = s.seq := rfl
@[simp] theorem emit_dropped (c : Cpl) (s : State) : (emit c s).dropped = s.dropped := rfl
@[simp] theorem emit_alert (c : Cpl) (s : State) : (emit c s).alert = s.alert := rfl
@[simp] theorem emit_now (c : Cpl) (s : State) : (emit c s).now = s.now := rfl
@[simp] theorem emit_nextParent (c : Cpl) (s : State) : (emit c s).nextParent = s.nextParent := rfl
@[simp] theorem emit_nextSub (c : Cpl) (s : State) : (emit c s).nextSub = s.nextSub := rfl
@[simp] theorem emit_sent (c : Cpl) (s : State) : (emit c s).sent = s.sent := rfl
@[simp] theorem emit_pending (c : Cpl) (s : State) : (emit c s).pending = s.pending := rfl

/-! ## sendDown -/

@[simp] theorem sendDown_linkUp (p : Port) (f : DownFrame) (s : State) : (sendDown p f s).linkUp = s.linkUp := rfl
@[simp] theorem sendDown_outbound (p : Port) (f : DownFrame) (s : State) : (sendDown p f s).outbound = s.outbound := rfl
@[simp] theorem sendDown_parents (p : Port) (f : DownFrame) (s : State) : (sendDown p f s).parents = s.parents := rfl
@[simp] theorem sendDown_initiators (p : Port) (f : DownFrame) (s : State) : (sendDown p f s).initiators = s.initiators := rfl
@[simp] theorem sendDown_access (p : Port) (f : DownFrame) (s : State) : (sendDown p f s).access = s.access := rfl
@[simp] theorem sendDown_freeSlots (p : Port) (f : DownFrame) (s : State) : (sendDown p f s).freeSlots = s.freeSlots := rfl
@[simp] theorem sendDown_mapReports (p : Port) (f : DownFrame) (s : State) : (sendDown p f s).mapReports = s.mapReports := rfl
@[simp] theorem sendDown_orderReports (p : Port) (f : DownFrame) (s : State) : (sendDown p f s).orderReports = s.orderReports := rfl
@[simp] theorem sendDown_goneMap (p : Port) (f : DownFrame) (s : State) : (sendDown p f s).goneMap = s.goneMap := rfl
@[simp] theorem sendDown_gonePort (p : Port) (f : DownFrame) (s : State) : (sendDown p f s).gonePort = s.gonePort := rfl
@[simp] theorem sendDown_goneFlush (p : Port) (f : DownFrame) (s : State) : (sendDown p f s).goneFlush = s.goneFlush := rfl
@[simp] theorem sendDown_ranges (p : Port) (f : DownFrame) (s : State) : (sendDown p f s).ranges = s.ranges := rfl
@[simp] theorem sendDown_holds (p : Port) (f : DownFrame) (s : State) : (sendDown p f s).holds = s.holds := rfl
@[simp] theorem sendDown_volumes (p : Port) (f : DownFrame) (s : State) : (sendDown p f s).volumes = s.volumes := rfl
@[simp] theorem sendDown_freeExtents (p : Port) (f : DownFrame) (s : State) : (sendDown p f s).freeExtents = s.freeExtents := rfl
@[simp] theorem sendDown_subs (p : Port) (f : DownFrame) (s : State) : (sendDown p f s).subs = s.subs := rfl
@[simp] theorem sendDown_splitWait (p : Port) (f : DownFrame) (s : State) : (sendDown p f s).splitWait = s.splitWait := rfl
@[simp] theorem sendDown_switchHolds (p : Port) (f : DownFrame) (s : State) : (sendDown p f s).switchHolds = s.switchHolds := rfl
@[simp] theorem sendDown_ports (p : Port) (f : DownFrame) (s : State) : (sendDown p f s).ports = s.ports := rfl
@[simp] theorem sendDown_controlQueue (p : Port) (f : DownFrame) (s : State) : (sendDown p f s).controlQueue = s.controlQueue := rfl
@[simp] theorem sendDown_executing (p : Port) (f : DownFrame) (s : State) : (sendDown p f s).executing = s.executing := rfl
@[simp] theorem sendDown_manager (p : Port) (f : DownFrame) (s : State) : (sendDown p f s).manager = s.manager := rfl
@[simp] theorem sendDown_lease (p : Port) (f : DownFrame) (s : State) : (sendDown p f s).lease = s.lease := rfl
@[simp] theorem sendDown_leaseTimer (p : Port) (f : DownFrame) (s : State) : (sendDown p f s).leaseTimer = s.leaseTimer := rfl
@[simp] theorem sendDown_flush (p : Port) (f : DownFrame) (s : State) : (sendDown p f s).flush = s.flush := rfl
@[simp] theorem sendDown_notices (p : Port) (f : DownFrame) (s : State) : (sendDown p f s).notices = s.notices := rfl
@[simp] theorem sendDown_seq (p : Port) (f : DownFrame) (s : State) : (sendDown p f s).seq = s.seq := rfl
@[simp] theorem sendDown_dropped (p : Port) (f : DownFrame) (s : State) : (sendDown p f s).dropped = s.dropped := rfl
@[simp] theorem sendDown_alert (p : Port) (f : DownFrame) (s : State) : (sendDown p f s).alert = s.alert := rfl
@[simp] theorem sendDown_now (p : Port) (f : DownFrame) (s : State) : (sendDown p f s).now = s.now := rfl
@[simp] theorem sendDown_nextParent (p : Port) (f : DownFrame) (s : State) : (sendDown p f s).nextParent = s.nextParent := rfl
@[simp] theorem sendDown_nextSub (p : Port) (f : DownFrame) (s : State) : (sendDown p f s).nextSub = s.nextSub := rfl
@[simp] theorem sendDown_sent (p : Port) (f : DownFrame) (s : State) : (sendDown p f s).sent = s.sent ++ [.down p f] := rfl
@[simp] theorem sendDown_pending (p : Port) (f : DownFrame) (s : State) : (sendDown p f s).pending = s.pending := rfl

/-! ## setLive -/

@[simp] theorem setLive_linkUp (i : Initiator) (f : Nat → Nat) (s : State) : (setLive i f s).linkUp = s.linkUp := rfl
@[simp] theorem setLive_outbound (i : Initiator) (f : Nat → Nat) (s : State) : (setLive i f s).outbound = s.outbound := rfl
@[simp] theorem setLive_parents (i : Initiator) (f : Nat → Nat) (s : State) : (setLive i f s).parents = s.parents := rfl
@[simp] theorem setLive_initiators (i : Initiator) (f : Nat → Nat) (s : State) : (setLive i f s).initiators = put s.initiators i { s.initiators[i] with liveCount := f s.initiators[i].liveCount } := rfl
@[simp] theorem setLive_access (i : Initiator) (f : Nat → Nat) (s : State) : (setLive i f s).access = s.access := rfl
@[simp] theorem setLive_freeSlots (i : Initiator) (f : Nat → Nat) (s : State) : (setLive i f s).freeSlots = s.freeSlots := rfl
@[simp] theorem setLive_mapReports (i : Initiator) (f : Nat → Nat) (s : State) : (setLive i f s).mapReports = s.mapReports := rfl
@[simp] theorem setLive_orderReports (i : Initiator) (f : Nat → Nat) (s : State) : (setLive i f s).orderReports = s.orderReports := rfl
@[simp] theorem setLive_goneMap (i : Initiator) (f : Nat → Nat) (s : State) : (setLive i f s).goneMap = s.goneMap := rfl
@[simp] theorem setLive_gonePort (i : Initiator) (f : Nat → Nat) (s : State) : (setLive i f s).gonePort = s.gonePort := rfl
@[simp] theorem setLive_goneFlush (i : Initiator) (f : Nat → Nat) (s : State) : (setLive i f s).goneFlush = s.goneFlush := rfl
@[simp] theorem setLive_ranges (i : Initiator) (f : Nat → Nat) (s : State) : (setLive i f s).ranges = s.ranges := rfl
@[simp] theorem setLive_holds (i : Initiator) (f : Nat → Nat) (s : State) : (setLive i f s).holds = s.holds := rfl
@[simp] theorem setLive_volumes (i : Initiator) (f : Nat → Nat) (s : State) : (setLive i f s).volumes = s.volumes := rfl
@[simp] theorem setLive_freeExtents (i : Initiator) (f : Nat → Nat) (s : State) : (setLive i f s).freeExtents = s.freeExtents := rfl
@[simp] theorem setLive_subs (i : Initiator) (f : Nat → Nat) (s : State) : (setLive i f s).subs = s.subs := rfl
@[simp] theorem setLive_splitWait (i : Initiator) (f : Nat → Nat) (s : State) : (setLive i f s).splitWait = s.splitWait := rfl
@[simp] theorem setLive_switchHolds (i : Initiator) (f : Nat → Nat) (s : State) : (setLive i f s).switchHolds = s.switchHolds := rfl
@[simp] theorem setLive_ports (i : Initiator) (f : Nat → Nat) (s : State) : (setLive i f s).ports = s.ports := rfl
@[simp] theorem setLive_controlQueue (i : Initiator) (f : Nat → Nat) (s : State) : (setLive i f s).controlQueue = s.controlQueue := rfl
@[simp] theorem setLive_executing (i : Initiator) (f : Nat → Nat) (s : State) : (setLive i f s).executing = s.executing := rfl
@[simp] theorem setLive_manager (i : Initiator) (f : Nat → Nat) (s : State) : (setLive i f s).manager = s.manager := rfl
@[simp] theorem setLive_lease (i : Initiator) (f : Nat → Nat) (s : State) : (setLive i f s).lease = s.lease := rfl
@[simp] theorem setLive_leaseTimer (i : Initiator) (f : Nat → Nat) (s : State) : (setLive i f s).leaseTimer = s.leaseTimer := rfl
@[simp] theorem setLive_flush (i : Initiator) (f : Nat → Nat) (s : State) : (setLive i f s).flush = s.flush := rfl
@[simp] theorem setLive_notices (i : Initiator) (f : Nat → Nat) (s : State) : (setLive i f s).notices = s.notices := rfl
@[simp] theorem setLive_seq (i : Initiator) (f : Nat → Nat) (s : State) : (setLive i f s).seq = s.seq := rfl
@[simp] theorem setLive_dropped (i : Initiator) (f : Nat → Nat) (s : State) : (setLive i f s).dropped = s.dropped := rfl
@[simp] theorem setLive_alert (i : Initiator) (f : Nat → Nat) (s : State) : (setLive i f s).alert = s.alert := rfl
@[simp] theorem setLive_now (i : Initiator) (f : Nat → Nat) (s : State) : (setLive i f s).now = s.now := rfl
@[simp] theorem setLive_nextParent (i : Initiator) (f : Nat → Nat) (s : State) : (setLive i f s).nextParent = s.nextParent := rfl
@[simp] theorem setLive_nextSub (i : Initiator) (f : Nat → Nat) (s : State) : (setLive i f s).nextSub = s.nextSub := rfl
@[simp] theorem setLive_sent (i : Initiator) (f : Nat → Nat) (s : State) : (setLive i f s).sent = s.sent := rfl
@[simp] theorem setLive_pending (i : Initiator) (f : Nat → Nat) (s : State) : (setLive i f s).pending = s.pending := rfl

/-! ## freeSub -/

@[simp] theorem freeSub_linkUp (e : SubRef) (s : State) : (freeSub e s).linkUp = s.linkUp := rfl
@[simp] theorem freeSub_outbound (e : SubRef) (s : State) : (freeSub e s).outbound = s.outbound := rfl
@[simp] theorem freeSub_parents (e : SubRef) (s : State) : (freeSub e s).parents = s.parents := rfl
@[simp] theorem freeSub_initiators (e : SubRef) (s : State) : (freeSub e s).initiators = s.initiators := rfl
@[simp] theorem freeSub_access (e : SubRef) (s : State) : (freeSub e s).access = s.access := rfl
@[simp] theorem freeSub_freeSlots (e : SubRef) (s : State) : (freeSub e s).freeSlots = s.freeSlots := rfl
@[simp] theorem freeSub_mapReports (e : SubRef) (s : State) : (freeSub e s).mapReports = s.mapReports := rfl
@[simp] theorem freeSub_orderReports (e : SubRef) (s : State) : (freeSub e s).orderReports = s.orderReports := rfl
@[simp] theorem freeSub_goneMap (e : SubRef) (s : State) : (freeSub e s).goneMap = s.goneMap := rfl
@[simp] theorem freeSub_gonePort (e : SubRef) (s : State) : (freeSub e s).gonePort = s.gonePort := rfl
@[simp] theorem freeSub_goneFlush (e : SubRef) (s : State) : (freeSub e s).goneFlush = s.goneFlush := rfl
@[simp] theorem freeSub_ranges (e : SubRef) (s : State) : (freeSub e s).ranges = s.ranges := rfl
@[simp] theorem freeSub_holds (e : SubRef) (s : State) : (freeSub e s).holds = s.holds := rfl
@[simp] theorem freeSub_volumes (e : SubRef) (s : State) : (freeSub e s).volumes = s.volumes := rfl
@[simp] theorem freeSub_freeExtents (e : SubRef) (s : State) : (freeSub e s).freeExtents = s.freeExtents := rfl
@[simp] theorem freeSub_subs (e : SubRef) (s : State) : (freeSub e s).subs = s.subs.eraseP fun x => x.id == e := rfl
@[simp] theorem freeSub_splitWait (e : SubRef) (s : State) : (freeSub e s).splitWait = s.splitWait := rfl
@[simp] theorem freeSub_switchHolds (e : SubRef) (s : State) : (freeSub e s).switchHolds = s.switchHolds := rfl
@[simp] theorem freeSub_ports (e : SubRef) (s : State) : (freeSub e s).ports = s.ports := rfl
@[simp] theorem freeSub_controlQueue (e : SubRef) (s : State) : (freeSub e s).controlQueue = s.controlQueue := rfl
@[simp] theorem freeSub_executing (e : SubRef) (s : State) : (freeSub e s).executing = s.executing := rfl
@[simp] theorem freeSub_manager (e : SubRef) (s : State) : (freeSub e s).manager = s.manager := rfl
@[simp] theorem freeSub_lease (e : SubRef) (s : State) : (freeSub e s).lease = s.lease := rfl
@[simp] theorem freeSub_leaseTimer (e : SubRef) (s : State) : (freeSub e s).leaseTimer = s.leaseTimer := rfl
@[simp] theorem freeSub_flush (e : SubRef) (s : State) : (freeSub e s).flush = s.flush := rfl
@[simp] theorem freeSub_notices (e : SubRef) (s : State) : (freeSub e s).notices = s.notices := rfl
@[simp] theorem freeSub_seq (e : SubRef) (s : State) : (freeSub e s).seq = s.seq := rfl
@[simp] theorem freeSub_dropped (e : SubRef) (s : State) : (freeSub e s).dropped = s.dropped := rfl
@[simp] theorem freeSub_alert (e : SubRef) (s : State) : (freeSub e s).alert = s.alert := rfl
@[simp] theorem freeSub_now (e : SubRef) (s : State) : (freeSub e s).now = s.now := rfl
@[simp] theorem freeSub_nextParent (e : SubRef) (s : State) : (freeSub e s).nextParent = s.nextParent := rfl
@[simp] theorem freeSub_nextSub (e : SubRef) (s : State) : (freeSub e s).nextSub = s.nextSub := rfl
@[simp] theorem freeSub_sent (e : SubRef) (s : State) : (freeSub e s).sent = s.sent := rfl
@[simp] theorem freeSub_pending (e : SubRef) (s : State) : (freeSub e s).pending = s.pending := rfl

end Sys2Proof.Machine
end

