-- ==== Sys2Proof/Laws/Control.lean ====
section
/-! SUPPORT. The execution event of a running control command, once for all pages: what `active?` finds, what the answer to it does as a whole, and how a page's contents read. -/

-- The package is also compiled as one text: one proof after another keeps the number of Lean's threads small there.
set_option Elab.async false

namespace Sys2Proof.Machine

/-! ## References under admission order -/

theorem find?_of_order {s : State} {p : Parent} (h : AdmissionOrder s) (hp : p ∈ s.parents) : s.parent? p.id = some p := by
  unfold State.parent?
  cases hf : s.parents.find? (fun q => q.id == p.id) with
  | none => simp only [List.find?_eq_none, beq_iff_eq] at hf; exact absurd rfl (hf p hp)
  | some q =>
    have hq := List.mem_of_find?_eq_some hf
    have he : q.id = p.id := by simpa using List.find?_some hf
    by_contra hne
    obtain ⟨i, hi, rfl⟩ := List.getElem_of_mem hp
    obtain ⟨j, hj, rfl⟩ := List.getElem_of_mem hq
    have := List.pairwise_iff_getElem.1 h.1
    rcases Nat.lt_trichotomy i j with hij | hij | hij
    · exact absurd he (Nat.ne_of_gt (this i j hi hj hij))
    · subst hij; exact hne rfl
    · exact absurd he (Nat.ne_of_lt (this j i hj hi hij))

theorem eq_of_id {s : State} {p q : Parent} (h : AdmissionOrder s) (hp : p ∈ s.parents) (hq : q ∈ s.parents) (he : q.id = p.id) :
    q = p := by
  have h1 := find?_of_order h hp
  have h2 := find?_of_order h hq
  rw [he] at h2
  exact Option.some.inj (h2.symm.trans h1)

/-- Taking one parent out of the Command Table, by its reference (02 R37). -/
theorem eraseP_id {l : List Parent} {id : ParentRef} (h : l.Pairwise fun p q => p.id < q.id) :
    l.eraseP (fun q => q.id == id) = l.filter fun q => q.id ≠ id := by
  induction l with
  | nil => rfl
  | cons a l ih =>
    obtain ⟨h1, h2⟩ := List.pairwise_cons.1 h
    by_cases ha : a.id = id
    · rw [List.eraseP_cons_of_pos (by simpa using ha), List.filter_cons_of_neg (by simpa using ha), List.filter_eq_self.2]
      intro q hq
      have : q.id ≠ id := fun h => Nat.ne_of_gt (h1 q hq) (h.trans ha.symm)
      simpa using this
    · rw [List.eraseP_cons_of_neg (by simpa using ha), List.filter_cons_of_pos (by simpa using ha), ih h2]

theorem filter_map_id {l : List Parent} {id : ParentRef} {f : Parent → Parent} (hf : ∀ p, (f p).id = p.id) :
    (l.map fun p => if p.id = id then f p else p).filter (fun q => q.id ≠ id) = l.filter fun q => q.id ≠ id := by
  induction l with
  | nil => rfl
  | cons a l ih =>
    simp only [List.map_cons, List.filter_cons]
    by_cases ha : a.id = id
    · simp only [ha, if_true, hf]; simpa using ih
    · simp only [ha, if_false]; simpa [ha] using ih

theorem pairwise_updParent {s : State} {id : ParentRef} {f : Parent → Parent} (hf : ∀ p, (f p).id = p.id) (h : AdmissionOrder s) :
    (updParent id f s).parents.Pairwise fun p q => p.id < q.id := by
  rw [updParent_parents, List.pairwise_map]
  refine h.1.imp fun {a b} hab => ?_
  split <;> split <;> simpa only [hf] using hab

/-! ## The answer to a control command (09 R136, R137) -/

theorem endExecution_eq (s : State) : endExecution s = nextControl s := by
  unfold endExecution takeHead nextControl
  cases hq : s.controlQueue with
  | nil => simp only
  | cons id rest => simp only; rfl

theorem readSlots_writeSlots_one (slots : List (Option Block)) (b : Block) (h : slots.length = 1) :
    readSlots (writeSlots slots 0 [b]) 0 1 = [b] := by
  obtain ⟨a, rfl⟩ := List.length_eq_one_iff.1 h
  simp [readSlots, writeSlots]

/-- The answer to a control command, as a whole: the parent is gone from the Command Table, and its CPL carries the block (02 R37, 09 R137). -/
theorem answer_eq {s : State} {p : Parent} (st : Status) (b : Block) (ho : AdmissionOrder s) (hp : p ∈ s.parents)
    (hv : p.volume = 0) (hl : p.slots.length = 1) :
    answer p.id st b s = { withoutControl p s with outbound := s.outbound ++ [.cpl (controlCpl p st b)] } := by
  have h1 : (fillSlot p.id b s).parent? p.id = some { p with slots := writeSlots p.slots 0 [b] } := by
    refine find?_of_order (p := { p with slots := writeSlots p.slots 0 [b] }) ⟨pairwise_updParent (fun _ => rfl) ho, ?_⟩ ?_
    · intro q hq
      simp only [fillSlot, updParent_parents, List.mem_map] at hq
      obtain ⟨r, hr, rfl⟩ := hq
      have := ho.2 r hr
      split <;> simpa [fillSlot] using this
    · simp only [fillSlot, updParent_parents, List.mem_map]
      exact ⟨p, hp, by simp⟩
  have h2 : (fillSlot p.id b s).parents.eraseP (fun q => q.id == p.id) = s.parents.filter fun q => q.id ≠ p.id := by
    have hw : (fillSlot p.id b s).parents.Pairwise fun p q => p.id < q.id := pairwise_updParent (fun _ => rfl) ho
    rw [eraseP_id hw, fillSlot, updParent_parents]
    exact filter_map_id (fun _ => rfl)
  unfold answer answerFromSlot
  rw [h1]
  simp only [complete]
  rw [h1]
  simp only [freeParent]
  rw [show (emit _ (fillSlot p.id b s)).parent? p.id = some { p with slots := writeSlots p.slots 0 [b] } from h1]
  simp only [reportFree, hv, if_true]
  simp only [readSlots_writeSlots_one _ _ hl]
  have h3 : (writeSlots p.slots 0 [b]).length = 1 := by simp [writeSlots, hl]
  simp only [setLive, h3, emit, h2]
  rfl

/-- The whole of an execution event that answers at once (09 R137). -/
theorem endExecution_answer {s : State} {p : Parent} (st : Status) (b : Block) (ho : AdmissionOrder s) (hp : p ∈ s.parents)
    (hv : p.volume = 0) (hl : p.slots.length = 1) : endExecution (answer p.id st b s) = answered p st b s := by
  rw [endExecution_eq, answer_eq st b ho hp hv hl]; rfl

theorem Running.active {p : Parent} {s : State} (h : Running p s) : s.active? = some p := by
  unfold State.active?
  rw [h.now]
  exact find?_of_order h.order h.live

/-- An execution event of a running command that its row picks up (09 R137). -/
theorem execute_eq {p : Parent} {s : State} {pick : Parent → Option (State → State)} {f : State → State} (h : Running p s)
    (hf : pick p = some f) : execute pick s = endExecution (f s) := by
  unfold execute; rw [h.active]; simp only [hf]

/-- An execution event whose row answers a running command with a block, after a move that leaves the Command Table as it is (09 R137). -/
theorem execute_answer {p : Parent} {s t : State} {pick : Parent → Option (State → State)} {f : State → State} (st : Status) (b : Block)
    (h : Running p s) (hf : pick p = some f) (ht : f s = answer p.id st b t) (h1 : t.parents = s.parents := by rfl)
    (h2 : t.nextParent = s.nextParent := by rfl) : execute pick s = answered p st b t := by
  rw [execute_eq h hf, ht]
  exact endExecution_answer st b (by unfold AdmissionOrder; rw [h1, h2]; exact h.order) (by rw [h1]; exact h.live) h.volume h.slot

theorem managed_of {p : Parent} {s : State} (f : State → State) (h : s.manager = some p.initiator) : managed p f s = f s := if_pos h

/-- The page and selector of an addressed parent (09 R135). -/
theorem addressed_page {p : Parent} {op : Op} {pg sel : Nat} (h : addressed p op pg sel) : p.start / 65536 = pg ∧ p.start % 65536 = sel := by
  obtain ⟨_, h2, h3⟩ := h; omega

theorem pageOp_read {p : Parent} {pg sel : Nat} (h : addressed p .read pg sel) : pageOp p = readPage pg sel := by
  unfold pageOp; rw [h.1, (addressed_page h).1, (addressed_page h).2]

theorem pageOp_write {p : Parent} {pg sel : Nat} (h : addressed p .write pg sel) : pageOp p = writePage pg sel := by
  unfold pageOp; rw [h.1, (addressed_page h).1, (addressed_page h).2]

theorem selVolume_of {v : Volume} (h : v ≠ 0) : selVolume v.val = some v := by
  unfold selVolume
  have h1 : 1 ≤ v.val := Nat.one_le_iff_ne_zero.2 fun h0 => h (Fin.ext h0)
  rw [dif_pos ⟨h1, v.isLt⟩]

theorem selInitiator_of (i : Initiator) : selInitiator i.val = some i := by unfold selInitiator; rw [dif_pos i.isLt]

theorem selPort_of (d : Port) : selPort d.val = some d := by unfold selPort; rw [dif_pos d.isLt]

theorem writeData_of {p : Parent} {b : Block} (h : p.slots = [some b]) : writeData p = b := by simp [writeData, h]

end Sys2Proof.Machine
end

