-- ==== Sys2Proof/Laws/Free.lean ====
section
/-! SUPPORT. The free of an entry and the end of a parent, once for all the events that make one. -/

-- The package is also compiled as one text: one proof after another keeps the number of Lean's threads small there.
set_option Elab.async false

namespace Sys2Proof.Machine

/-- The free of a live parent, as a whole (02 R37). -/
theorem freeParent_eq {s : State} {p : Parent} (ho : AdmissionOrder s) (hp : p ∈ s.parents) : freeParent p.id s = freed p s := by
  unfold freeParent
  rw [find?_of_order ho hp]
  unfold reportFree freed
  rw [← eraseP_id (id := p.id) ho.1]
  by_cases hv : p.volume = 0 <;> simp only [hv, if_true, if_false] <;> rfl

/-- The end of a live parent with its CPL, as a whole (02 R37). -/
theorem complete_eq {s : State} {p : Parent} (ho : AdmissionOrder s) (hp : p ∈ s.parents) (st : Status) (fail : Option Nat) (res : Nat)
    (pay : List Block) : complete p.id st fail res pay s
      = { freed p s with outbound := s.outbound ++ [.cpl (commandCpl p st fail res pay)] } := by
  unfold complete
  rw [find?_of_order ho hp]
  exact freeParent_eq (s := emit _ s) ho hp

/-- The CPL ABORTED of a live parent, as a whole (07 R116, 06 R103). -/
theorem completeAborted_eq {s : State} {p : Parent} (ho : AdmissionOrder s) (hp : p ∈ s.parents) :
    completeAborted p.id s = { freed p s with outbound := s.outbound ++ [.cpl (commandCpl p .aborted none p.count [])] } := by
  unfold completeAborted
  rw [find?_of_order ho hp]
  exact complete_eq ho hp ..

/-- The posting of a notice, as a whole (09 R150, R152). -/
theorem post_eq (b : NoticeBody) (s : State) : post b s = noticed b s := by
  unfold post noticed
  by_cases h : s.notices.length < 32
  · rw [if_pos h, if_neg (show ¬ 32 ≤ s.notices.length from Nat.not_le_of_lt h)]
    unfold alertStored
    cases s.manager <;> cases s.alert <;> simp only [sendAlr]
    cases hn : s.notices <;> simp [State.oldest]
  · rw [if_neg h, if_pos (show 32 ≤ s.notices.length from Nat.le_of_not_lt h)]

end Sys2Proof.Machine
end

