-- ==== Sys2Proof/Laws/Keeps.lean ====
section
/-! SUPPORT. `Keeps s t`: a move from `s` to `t` that keeps each law of Safety.lean, one by one; the moves that change no table, and the primitive moves of Ops, Flags and Issue. -/

-- The package is also compiled as one text: one proof after another keeps the number of Lean's threads small there.
set_option Elab.async false

namespace Sys2Proof.Machine

/-- A move that keeps every law that holds before it, each by itself. -/
structure Keeps (s t : State) : Prop where
  table : CommandTableLaw s → CommandTableLaw t
  pool : ExtentPoolLaw s → ExtentPoolLaw t
  maps : LiveMapLaw s → LiveMapLaw t
  notices : NoticeLaw s → NoticeLaw t
  manager : ManagerLaw s → ManagerLaw t
  ports : PortLaw s → PortLaw t
  bounds : BoundLaw s → BoundLaw t
  counts : VolumeCountLaw s → VolumeCountLaw t

theorem Keeps.refl (s : State) : Keeps s s := ⟨id, id, id, id, id, id, id, id⟩

theorem Keeps.trans {s t u : State} (a : Keeps s t) (b : Keeps t u) : Keeps s u :=
  ⟨b.table ∘ a.table, b.pool ∘ a.pool, b.maps ∘ a.maps, b.notices ∘ a.notices, b.manager ∘ a.manager,
    b.ports ∘ a.ports, b.bounds ∘ a.bounds, b.counts ∘ a.counts⟩

/-- A fold of moves that keep the laws keeps them. -/
theorem Keeps.foldl {α : Type} {f : State → α → State} (h : ∀ s a, Keeps s (f s a)) :
    ∀ (l : List α) (s : State), Keeps s (l.foldl f s)
  | [], s => .refl s
  | a :: l, s => (h s a).trans (Keeps.foldl h l (f s a))

/-! ## Laws that depend on some fields only -/

theorem CommandTableLaw.of_eq {s t : State} (h1 : t.parents = s.parents) (h2 : t.initiators = s.initiators)
    (h3 : t.freeSlots = s.freeSlots) (h4 : t.nextParent = s.nextParent) :
    CommandTableLaw s → CommandTableLaw t := by
  simp only [CommandTableLaw, AdmissionOrder, KeyLaw, SlotLaw, LiveCountLaw, h1, h2, h3, h4]; exact id

theorem ExtentPoolLaw.of_eq {s t : State} (h1 : t.volumes = s.volumes) (h2 : t.freeExtents = s.freeExtents) :
    ExtentPoolLaw s → ExtentPoolLaw t := by
  simp only [ExtentPoolLaw, State.vol, h1, h2]; exact id

theorem LiveMapLaw.of_eq {s t : State} (h1 : t.volumes = s.volumes) : LiveMapLaw s → LiveMapLaw t := by
  simp only [LiveMapLaw, State.vol, h1]; exact id

theorem NoticeLaw.of_eq {s t : State} (h1 : t.notices = s.notices) (h2 : t.seq = s.seq) (h3 : t.dropped = s.dropped) :
    NoticeLaw s → NoticeLaw t := by
  simp only [NoticeLaw, h1, h2, h3]; exact id

theorem ManagerLaw.of_eq {s t : State} (h1 : t.lease = s.lease) (h2 : t.manager = s.manager) (h3 : t.alert = s.alert)
    (h4 : t.leaseTimer = s.leaseTimer) : ManagerLaw s → ManagerLaw t := by
  simp only [ManagerLaw, h1, h2, h3, h4]; exact id

theorem PortLaw.of_eq {s t : State} (h1 : t.ports = s.ports) : PortLaw s → PortLaw t := by
  simp only [PortLaw, State.port, h1]; exact id

theorem BoundLaw.of_le {s t : State} (h1 : t.subs.length ≤ s.subs.length) (h2 : t.controlQueue.length ≤ s.controlQueue.length) :
    BoundLaw s → BoundLaw t := fun h => ⟨h1.trans h.1, h2.trans h.2⟩

/-- A move that keeps each volume's live parents and reports in number, its count, and its list where it is ABSENT. -/
theorem VolumeCountLaw.of_eq {s t : State} (h1 : ∀ v : Volume, t.parents.countP (fun p => p.volume == v) = s.parents.countP fun p => p.volume == v)
    (h2 : t.mapReports = s.mapReports) (h3 : ∀ v : Volume, (t.vol v).liveParents = (s.vol v).liveParents)
    (h4 : ∀ v : Volume, (t.vol v).state = .absent → (s.vol v).state = .absent) (h5 : t.ranges = s.ranges) :
    VolumeCountLaw s → VolumeCountLaw t := fun h =>
  ⟨fun v hv => by rw [h1, h2, h3]; exact h.1 v hv, fun v hv => by rw [h5]; exact h.2 v (h4 v hv)⟩

/-- A move that leaves every field of the laws as it is, or shortens the Sub-command Table or the Control Queue. -/
structure Same (s t : State) : Prop where
  parents : t.parents = s.parents := by rfl
  initiators : t.initiators = s.initiators := by rfl
  freeSlots : t.freeSlots = s.freeSlots := by rfl
  nextParent : t.nextParent = s.nextParent := by rfl
  mapReports : t.mapReports = s.mapReports := by rfl
  ranges : t.ranges = s.ranges := by rfl
  volumes : t.volumes = s.volumes := by rfl
  freeExtents : t.freeExtents = s.freeExtents := by rfl
  notices : t.notices = s.notices := by rfl
  seq : t.seq = s.seq := by rfl
  dropped : t.dropped = s.dropped := by rfl
  manager : t.manager = s.manager := by rfl
  lease : t.lease = s.lease := by rfl
  leaseTimer : t.leaseTimer = s.leaseTimer := by rfl
  alert : t.alert = s.alert := by rfl
  ports : t.ports = s.ports := by rfl
  subs : t.subs.length ≤ s.subs.length := by exact Nat.le_refl _
  queue : t.controlQueue.length ≤ s.controlQueue.length := by exact Nat.le_refl _

theorem Same.keeps {s t : State} (h : Same s t) : Keeps s t :=
  ⟨.of_eq h.parents h.initiators h.freeSlots h.nextParent, .of_eq h.volumes h.freeExtents, .of_eq h.volumes,
    .of_eq h.notices h.seq h.dropped, .of_eq h.lease h.manager h.alert h.leaseTimer, .of_eq h.ports, .of_le h.subs h.queue,
    .of_eq (fun _ => by rw [h.parents]) h.mapReports (fun _ => by rw [State.vol, h.volumes]; rfl)
      (fun _ => by rw [State.vol, h.volumes]; exact id) h.ranges⟩

/-! ## Parents -/

/-- Two forms of one parent that the laws of the Command Table cannot tell apart. -/
structure SameKeys (p q : Parent) : Prop where
  id : q.id = p.id := by rfl
  initiator : q.initiator = p.initiator := by rfl
  tag : q.tag = p.tag := by rfl
  volume : q.volume = p.volume := by rfl
  op : q.op = p.op := by rfl
  count : q.count = p.count := by rfl
  slots : q.slots.length = p.slots.length := by rfl

theorem CommandTableLaw.map {s t : State} {g : Parent → Parent} (hg : ∀ p, SameKeys p (g p))
    (h1 : t.parents = s.parents.map g) (h2 : t.initiators = s.initiators)
    (h3 : t.freeSlots = s.freeSlots) (h4 : t.nextParent = s.nextParent) :
    CommandTableLaw s → CommandTableLaw t := by
  rintro ⟨hl, ⟨ho, hn⟩, hk, ⟨hs, hf⟩, hc⟩
  refine ⟨by simpa [h1] using hl, ⟨?_, ?_⟩, ?_, ⟨?_, ?_⟩, ?_⟩
  · rw [h1, List.pairwise_map]; simpa only [(hg _).id] using ho
  · rw [h1, h4]; simpa only [List.forall_mem_map, (hg _).id] using hn
  · unfold KeyLaw at hk ⊢; rw [h1, List.pairwise_map]; simpa only [(hg _).initiator, (hg _).tag] using hk
  · rw [h1]; simpa only [List.forall_mem_map, (hg _).slots, (hg _).volume, (hg _).op, (hg _).count] using hs
  · rw [h1, h3, List.map_map]; simpa only [Function.comp_def, (hg _).slots] using hf
  · intro i
    have := hc i
    rw [h1, h2, List.countP_map]
    simpa only [Function.comp_def, (hg _).initiator] using this

theorem SameKeys.ite (c : Prop) [Decidable c] (p : Parent) {q : Parent} (h : SameKeys p q) :
    SameKeys p (if c then q else p) := by split; exacts [h, {}]

/-- An update of a parent that keeps its keys keeps the laws. -/
theorem keeps_updParent (id : ParentRef) {f : Parent → Parent} (hf : ∀ p, SameKeys p (f p)) (s : State) :
    Keeps s (updParent id f s) :=
  { (Same.keeps (t := { updParent id f s with parents := s.parents }) {} : Keeps s _) with
    table := CommandTableLaw.map (g := fun p => if p.id = id then f p else p) (fun p => .ite _ p (hf p)) rfl rfl rfl rfl
    counts := VolumeCountLaw.of_eq (fun v => by
      rw [updParent_parents, List.countP_map]
      exact List.countP_congr fun p _ => by simp only [Function.comp]; split <;> simp [(hf p).volume]) rfl (fun _ => rfl) (fun _ h => h) rfl }

theorem keeps_setState (id : ParentRef) (x : ParentState) (s : State) : Keeps s (setState id x s) :=
  keeps_updParent id (fun _ => {}) s

/-! ## Small moves -/

theorem keeps_emit (c : Cpl) (s : State) : Keeps s (emit c s) := Same.keeps {}
theorem keeps_sendDown (p : Port) (f : DownFrame) (s : State) : Keeps s (sendDown p f s) := Same.keeps {}

theorem keeps_updSub (e : SubRef) (f : SubCmd → SubCmd) (s : State) : Keeps s (updSub e f s) :=
  Same.keeps { subs := by simp }

theorem keeps_freeSub (e : SubRef) (s : State) : Keeps s (freeSub e s) :=
  Same.keeps { subs := List.length_eraseP_le }

/-- A change of one port's record keeps the laws when it keeps the record sound. -/
theorem keeps_updPort (p : Port) (f : PortRec → PortRec) (s : State) (h : (s.port p).Sound → (f (s.port p)).Sound) :
    Keeps s (updPort p f s) :=
  { (Same.keeps (t := { updPort p f s with ports := s.ports }) {} : Keeps s _) with
    ports := fun hp q => by
      rw [updPort_port]
      split
      · exact h (hp p)
      · exact hp q }

/-- Two forms of a port record that PortLaw cannot tell apart. -/
theorem PortRec.Sound.same {r q : PortRec} (h : r.Sound) (h1 : q.reason = r.reason := by rfl)
    (h2 : q.state = r.state := by rfl) (h3 : q.resetTimer = r.resetTimer := by rfl)
    (h4 : q.attempts = r.attempts := by rfl) (h5 : q.passCount = r.passCount := by rfl)
    (h6 : q.window = r.window := by rfl) (h7 : q.responseLimit = r.responseLimit := by rfl)
    (h8 : q.maxTransfer = r.maxTransfer := by rfl) : q.Sound := by
  obtain ⟨a, b, c, d, e, f, g⟩ := h
  constructor <;> simp only [h1, h2, h3, h4, h5, h6, h7, h8] <;> assumption

/-! ## Volumes -/

theorem sum_map_set {α : Type} (f : α → Nat) :
    ∀ (l : List α) (i : Nat) (x : α) (h : i < l.length), ((l.set i x).map f).sum + f l[i] = (l.map f).sum + f x
  | a :: l, 0, x, _ => by simp; omega
  | a :: l, i + 1, x, h => by
    have := sum_map_set f l i x (by simpa using h)
    simp only [List.set_cons_succ, List.map_cons, List.sum_cons, List.getElem_cons_succ]; omega

/-- What a write of one volume's record does to the records held. -/
theorem recordsHeld_put (vs : Vector VolRec 64) (v : Volume) (r : VolRec) :
    recordsHeld (put vs v r) + (vs[v].live.length + vs[v].staged.length)
      = recordsHeld vs + (r.live.length + r.staged.length) := by
  have := sum_map_set (fun r : VolRec => r.live.length + r.staged.length) vs.toList v.val r (by simp)
  simpa only [recordsHeld, put, Vector.toList_set, Vector.getElem_toList, Fin.getElem_fin] using this

theorem ExtentPoolLaw.put {s t : State} (v : Volume) (f : VolRec → VolRec) (hv : t.volumes = Machine.put s.volumes v (f s.volumes[v]))
    (hp : (s.vol v).Present → (f (s.vol v)).Present
      ∧ (t.freeExtents + ((f (s.vol v)).live.length + (f (s.vol v)).staged.length)
          = s.freeExtents + ((s.vol v).live.length + (s.vol v).staged.length))) : ExtentPoolLaw s → ExtentPoolLaw t := by
  rintro ⟨ha, hb⟩
  refine ⟨fun w => ?_, ?_⟩
  · rw [State.vol, hv, put_get]
    split
    · exact (hp (ha v)).1
    · exact ha w
  · have h1 := (hp (ha v)).2
    have h2 := recordsHeld_put s.volumes v (f s.volumes[v])
    simp only [State.vol] at h1
    rw [hv]; omega

theorem LiveMapLaw.put {s t : State} (v : Volume) (f : VolRec → VolRec) (hv : t.volumes = Machine.put s.volumes v (f s.volumes[v]))
    (hm : (s.vol v).MapSound → (f (s.vol v)).MapSound) : LiveMapLaw s → LiveMapLaw t := fun hl w => by
  rw [State.vol, hv, put_get]
  split
  · exact hm (hl v)
  · exact hl w

/-- A change of one volume's record, and of the free records, keeps the laws when it keeps the record's own laws and the law of counts, and moves no record in or out of the pool unaccounted. -/
theorem keeps_record {s t : State} (v : Volume) (f : VolRec → VolRec)
    (hs : Same s { t with volumes := s.volumes, freeExtents := s.freeExtents, mapReports := s.mapReports, ranges := s.ranges })
    (hv : t.volumes = put s.volumes v (f s.volumes[v]))
    (hp : (s.vol v).Present → (f (s.vol v)).Present
      ∧ (t.freeExtents + ((f (s.vol v)).live.length + (f (s.vol v)).staged.length)
          = s.freeExtents + ((s.vol v).live.length + (s.vol v).staged.length)))
    (hm : (s.vol v).MapSound → (f (s.vol v)).MapSound) (hc : VolumeCountLaw s → VolumeCountLaw t) : Keeps s t :=
  ⟨CommandTableLaw.of_eq hs.parents hs.initiators hs.freeSlots hs.nextParent, .put v f hv hp, .put v f hv hm,
    NoticeLaw.of_eq hs.notices hs.seq hs.dropped, ManagerLaw.of_eq hs.lease hs.manager hs.alert hs.leaseTimer,
    PortLaw.of_eq hs.ports, BoundLaw.of_le hs.subs hs.queue, hc⟩

/-- The same, of a change that leaves the volume's live parent count and does not make it ABSENT. -/
theorem keeps_volume {s t : State} (v : Volume) (f : VolRec → VolRec)
    (hs : Same s { t with volumes := s.volumes, freeExtents := s.freeExtents })
    (hv : t.volumes = put s.volumes v (f s.volumes[v]))
    (hp : (s.vol v).Present → (f (s.vol v)).Present
      ∧ (t.freeExtents + ((f (s.vol v)).live.length + (f (s.vol v)).staged.length)
          = s.freeExtents + ((s.vol v).live.length + (s.vol v).staged.length)))
    (hm : (s.vol v).MapSound → (f (s.vol v)).MapSound)
    (hc : (f (s.vol v)).liveParents = (s.vol v).liveParents := by rfl)
    (ha : (f (s.vol v)).state = .absent → (s.vol v).state = .absent := by first | exact id | (intro h; simp_all; done)) : Keeps s t := by
  refine keeps_record v f { hs with mapReports := rfl, ranges := rfl } hv hp hm
    (VolumeCountLaw.of_eq (fun _ => by rw [show t.parents = s.parents from hs.parents]) hs.mapReports (fun w => ?_) (fun w => ?_) hs.ranges)
  · rw [State.vol, hv, put_get]; split
    · rename_i e; subst e; exact hc
    · rfl
  · rw [State.vol, hv, put_get]; split
    · rename_i e; subst e; exact ha
    · exact id

/-- A change of a volume that the map laws cannot see keeps the laws. -/
theorem keeps_updVol (v : Volume) (f : VolRec → VolRec) (s : State)
    (h1 : (f (s.vol v)).state = (s.vol v).state := by rfl) (h2 : (f (s.vol v)).capacity = (s.vol v).capacity := by rfl)
    (h3 : (f (s.vol v)).live = (s.vol v).live := by rfl) (h4 : (f (s.vol v)).staged = (s.vol v).staged := by rfl)
    (h5 : (f (s.vol v)).liveParents = (s.vol v).liveParents := by first | rfl | (split <;> rfl)) :
    Keeps s (updVol v f s) := by
  refine keeps_volume v f {} rfl (fun hp => ⟨?_, ?_⟩) (fun hm => ?_) h5 (fun h => h1 ▸ h)
  · simp only [VolRec.Present, h1, h2, h3, h4] at hp ⊢; exact hp
  · rw [h3, h4]; rfl
  · obtain ⟨a, b, c, d, e⟩ := hm
    constructor <;> simp only [h1, h2, h3, h4] <;> assumption

/-! ## The free of an entry -/

theorem eraseP_of_find? {α : Type} {P : α → Bool} {l : List α} {a : α} (h : l.find? P = some a) :
    ∃ l₁ l₂, l = l₁ ++ a :: l₂ ∧ l.eraseP P = l₁ ++ l₂ ∧ P a = true := by
  obtain ⟨ha, l₁, l₂, rfl, hn⟩ := List.find?_eq_some_iff_append.1 h
  refine ⟨l₁, l₂, rfl, ?_, ha⟩
  rw [List.eraseP_append_right _ (fun b hb => by simpa using hn b hb), List.eraseP_cons_of_pos ha]

/-- The free of a live parent keeps the laws of the Command Table. -/
theorem CommandTableLaw.free {s t : State} {p : Parent} {l₁ l₂ : List Parent} (h1 : s.parents = l₁ ++ p :: l₂)
    (h2 : t.parents = l₁ ++ l₂) (h3 : t.freeSlots = s.freeSlots + p.slots.length) (h4 : t.nextParent = s.nextParent)
    (h5 : t.initiators = (setLive p.initiator (fun n => n - 1) s).initiators) : CommandTableLaw s → CommandTableLaw t := by
  rintro ⟨hl, ⟨ho, hn⟩, hk, ⟨hs, hf⟩, hc⟩
  have hsub : (l₁ ++ l₂).Sublist (l₁ ++ p :: l₂) := by simp
  have hmem : ∀ q ∈ l₁ ++ l₂, q ∈ s.parents := fun q hq => h1 ▸ hsub.subset hq
  refine ⟨?_, ⟨?_, ?_⟩, ?_, ⟨?_, ?_⟩, ?_⟩
  · rw [h2]; exact hsub.length_le.trans (h1 ▸ hl)
  · rw [h2]; exact (h1 ▸ ho).sublist hsub
  · rw [h2, h4]; exact fun q hq => hn q (hmem q hq)
  · unfold KeyLaw at hk ⊢; rw [h2]; exact (h1 ▸ hk).sublist hsub
  · rw [h2]; exact fun q hq => hs q (hmem q hq)
  · rw [h1] at hf
    rw [h2, h3]
    simp only [List.map_append, List.map_cons, List.sum_append, List.sum_cons] at hf ⊢
    omega
  · intro i
    have h6 := hc i
    rw [h1] at h6
    rw [h2, h5, setLive_initiators, put_get]
    simp only [List.countP_append, List.countP_cons] at h6 ⊢
    by_cases hi : i = p.initiator
    · rw [if_pos hi]; rw [if_pos (beq_iff_eq.2 hi.symm)] at h6; subst hi; show _ - 1 = _; omega
    · rw [if_neg hi]; rw [if_neg (fun h => hi (beq_iff_eq.1 h).symm)] at h6; omega

/-- The free of a live parent of a data volume, with its report, keeps its volume's count (01 R9). -/
theorem VolumeCountLaw.free {s t : State} {p : Parent} {l₁ l₂ : List Parent} (h1 : s.parents = l₁ ++ p :: l₂)
    (h2 : t.parents = l₁ ++ l₂) (h3 : t.volumes = s.volumes) (h4 : t.ranges = s.ranges)
    (h5 : t.mapReports = if p.volume = 0 then s.mapReports else s.mapReports ++ [{ volume := p.volume, split := p.generation.isSome }]) :
    VolumeCountLaw s → VolumeCountLaw t := by
  intro h
  refine ⟨fun v hv => ?_, fun v hv => ?_⟩
  · have h6 := h.1 v hv
    rw [h1] at h6
    rw [State.vol, h3, h2, h5]
    simp only [State.vol, List.countP_append, List.countP_cons] at h6 ⊢
    by_cases he : p.volume = v
    · subst he
      rw [if_neg hv]; simp only [List.countP_append, List.countP_singleton, beq_self_eq_true, if_true] at h6 ⊢; omega
    · rw [if_neg (by simpa using he)] at h6
      split
      · omega
      · simp only [List.countP_append, List.countP_singleton]; rw [if_neg (by simpa using he)]; omega
  · rw [h4]; exact h.2 v (by rw [State.vol, h3] at hv; exact hv)

theorem keeps_freeParent (id : ParentRef) (s : State) : Keeps s (freeParent id s) := by
  unfold freeParent
  split
  · exact .refl s
  · rename_i p hp
    obtain ⟨l₁, l₂, h1, h2, _⟩ := eraseP_of_find? hp
    have ht : CommandTableLaw s → CommandTableLaw (setLive p.initiator (fun n => n - 1)
        { s with parents := s.parents.eraseP (fun q => q.id == id), freeSlots := s.freeSlots + p.slots.length }) :=
      CommandTableLaw.free h1 h2 rfl rfl rfl
    have hc := VolumeCountLaw.free (s := s) (t := reportFree p (setLive p.initiator (fun n => n - 1)
        { s with parents := s.parents.eraseP (fun q => q.id == id), freeSlots := s.freeSlots + p.slots.length })) h1
        (by unfold reportFree; split <;> exact h2) (by unfold reportFree; split <;> rfl) (by unfold reportFree; split <;> rfl)
        (by unfold reportFree; split <;> rfl)
    refine { (Same.keeps (t := { s with linkUp := s.linkUp }) {} : Keeps s s) with table := ?_, counts := hc, pool := ?_, maps := ?_, notices := ?_, manager := ?_, ports := ?_, bounds := ?_ }
    all_goals unfold reportFree; split
    all_goals first | exact ht | exact fun h => h

theorem keeps_complete (id : ParentRef) (st : Status) (fail : Option Nat) (residual : Nat) (payload : List Block) (s : State) :
    Keeps s (complete id st fail residual payload s) := by
  unfold complete; split
  · exact .refl s
  · exact (keeps_emit _ _).trans (keeps_freeParent _ _)

theorem keeps_completeAborted (id : ParentRef) (s : State) : Keeps s (completeAborted id s) := by
  unfold completeAborted; split
  · exact .refl s
  · exact keeps_complete _ _ _ _ _ _

@[simp] theorem writeSlots_length (slots : List (Option Block)) (off : Nat) (bs : List Block) :
    (writeSlots slots off bs).length = slots.length := by simp [writeSlots]

theorem keeps_fillSlot (id : ParentRef) (b : Block) (s : State) : Keeps s (fillSlot id b s) :=
  keeps_updParent id (fun _ => { slots := writeSlots_length _ _ _ }) s

theorem keeps_answerFromSlot (id : ParentRef) (st : Status) (s : State) : Keeps s (answerFromSlot id st s) := by
  unfold answerFromSlot; split
  · exact .refl s
  · exact keeps_complete _ _ _ _ _ _

theorem keeps_answer (id : ParentRef) (st : Status) (b : Block) (s : State) : Keeps s (answer id st b s) :=
  (keeps_fillSlot _ _ _).trans (keeps_answerFromSlot _ _ _)

theorem keeps_answerResult (id : ParentRef) (st : Status) (detail : Nat) (s : State) : Keeps s (answerResult id st detail s) :=
  keeps_answer _ _ _ _

theorem keeps_leaveWait (p : Parent) (s : State) : Keeps s (leaveWait p s) := by
  unfold leaveWait; split <;> first
    | exact .refl s
    | exact Same.keeps { queue := (List.erase_sublist ..).length_le }
    | exact Same.keeps {}

theorem keeps_removeQueued (id : ParentRef) (s : State) : Keeps s (removeQueued id s) := by
  unfold removeQueued
  refine Keeps.trans (t := { s with ports := mapRows (PortRec.without (queuedSubs id s)) s.ports, subs := s.subs.filter fun e => !(e.parent == id && e.issue.isNone) }) ?_
    (keeps_updParent id (fun _ => {}) _)
  exact { (Same.keeps (t := { s with subs := s.subs.filter fun e => !(e.parent == id && e.issue.isNone) })
      { subs := List.length_filter_le .. } : Keeps s _) with
    ports := fun hp q => by
      have : ∀ r : PortRec, r.Sound → (r.without (queuedSubs id s)).Sound := fun r hr => hr.same
      simpa [State.port] using this _ (hp q) }

theorem keeps_abortParent (p : Parent) (s : State) : Keeps s (abortParent p s) := by
  unfold abortParent
  split <;> first
    | exact (keeps_leaveWait _ _).trans (keeps_completeAborted _ _)
    | exact .refl s
    | (split
       · exact (keeps_removeQueued _ _).trans (keeps_setState _ _ _)
       · exact (keeps_removeQueued _ _).trans (keeps_completeAborted _ _))

end Sys2Proof.Machine
end

