-- ==== Sys2Proof/Laws/KeepsFlow.lean ====
section
/-! SUPPORT. Notices, issue, merge, split and the Split-Wait List keep the laws of Safety.lean. -/

-- The package is also compiled as one text: one proof after another keeps the number of Lean's threads small there.
set_option Elab.async false

namespace Sys2Proof.Machine

/-! ## Notices -/

theorem NoticeLaw.store {s : State} (b : NoticeBody) (hl : s.notices.length < 32) :
    NoticeLaw s → NoticeLaw { s with notices := s.notices ++ [{ seq := s.seq, body := b }], seq := s.seq + 1 } := by
  rintro ⟨_, hd, hs⟩
  refine ⟨by simpa using hl, hd, ?_⟩
  simp only [List.map_append, hs, List.length_append, List.map_cons, List.map_nil, List.length_singleton, List.range_succ]
  congr 1
  · refine List.map_congr_left fun i hi => ?_
    have hi := List.mem_range.1 hi
    rw [show s.notices.length + 1 - i = (s.notices.length - i) + 1 by omega, BitVec.ofNat_add]
    exact (add_sub_add_right_eq_sub _ _ _).symm
  · simp

theorem keeps_sendAlr (m : Initiator) (s : State) (h : s.manager ≠ none) : Keeps s (sendAlr m s) :=
  { (Same.keeps (t := { sendAlr m s with alert := s.alert }) {} : Keeps s _) with
    manager := fun hm => ⟨hm.1, fun hn => absurd hn h, hm.2.2⟩ }

theorem keeps_alertStored (s : State) : Keeps s (alertStored s) := by
  unfold alertStored
  split
  · rename_i m _ hm; exact keeps_sendAlr m s (by simp [hm])
  · exact .refl s
  · exact .refl s

theorem keeps_post (b : NoticeBody) (s : State) : Keeps s (post b s) := by
  unfold post
  split
  · rename_i hl
    refine Keeps.trans ?_ (keeps_alertStored _)
    exact { (Same.keeps (t := { s with linkUp := s.linkUp }) {} : Keeps s s) with notices := NoticeLaw.store b hl }
  · exact { (Same.keeps (t := { s with linkUp := s.linkUp }) {} : Keeps s s) with
      notices := fun h => ⟨h.1, by have := h.2.1; simp only; split <;> omega, h.2.2⟩ }

theorem keeps_postPort (k : NoticeKind) (p : Port) (r : Option Nat) (s : State) : Keeps s (postPort k p r s) := keeps_post _ _
theorem keeps_postTag (k : NoticeKind) (p : Port) (t : Byte) (s : State) : Keeps s (postTag k p t s) := keeps_post _ _

/-! ## Issue -/

theorem keeps_sendSub (p : Port) (t : DTag) (e : SubRef) (s : State) : Keeps s (sendSub p t e s) := by
  unfold sendSub; split; exacts [.refl s, keeps_sendDown _ _ _]

/-- The pass count after an issue is at most 8 (05 R79). -/
theorem arbiter_passes {r : PortRec} {c : Class} {n : Nat} (h : r.arbiter = some (c, n)) : n ≤ 8 := by
  unfold PortRec.arbiter at h
  split at h
  · simp at h
  · simp at h; omega
  · split at h <;> simp at h <;> omega

theorem keeps_issueEntry (p : Port) (c : Class) (n : Nat) (t : DTag) (e : SubRef) (rest : List SubRef) (s : State)
    (hn : n ≤ 8) : Keeps s (issueEntry p c n t e rest s) := by
  unfold issueEntry
  refine Keeps.trans (Keeps.trans (keeps_updPort p _ s fun h => ?_) (keeps_updSub _ _ _)) (keeps_sendSub _ _ _ _)
  obtain ⟨a, b, c, d, e, f, g⟩ := h
  exact ⟨a, b, c, hn, e, f, g⟩

theorem keeps_issueOne {p : Port} {s t : State} (h : issueOne p s = some t) : Keeps s t := by
  unfold issueOne at h
  split at h
  · split at h
    · rename_i ha _
      split at h
      · simp at h
      · obtain rfl := Option.some.inj h
        exact keeps_issueEntry _ _ _ _ _ _ _ (arbiter_passes ha)
    · simp at h
  · simp at h

theorem keeps_issueUpTo : ∀ (n : Nat) (p : Port) (s : State), Keeps s (issueUpTo n p s)
  | 0, _, s => .refl s
  | n + 1, p, s => by
    rw [issueUpTo]; split
    · exact .refl s
    · rename_i t h; exact (keeps_issueOne h).trans (keeps_issueUpTo n p t)

theorem keeps_issueTest (p : Port) (s : State) : Keeps s (issueTest p s) := keeps_issueUpTo _ _ _

theorem keeps_joinQueue (e : SubCmd) (s : State) : Keeps s (joinQueue e s) :=
  (keeps_updPort _ _ _ fun h => h.same).trans (keeps_issueTest _ _)

theorem keeps_freeTag (p : Port) (t : DTag) (s : State) : Keeps s (freeTag p t s) := keeps_updPort _ _ _ fun h => h.same
theorem keeps_quarantineTag (p : Port) (t : DTag) (s : State) : Keeps s (quarantineTag p t s) := keeps_updPort _ _ _ fun h => h.same
theorem keeps_freeQuarantined (p : Port) (s : State) : Keeps s (freeQuarantined p s) := keeps_updPort _ _ _ fun h => h.same

/-! ## Copy-state effects (06 R96, R97) -/

/-- An effect that the resolution table can give for an extent: a copy marked STALE is not the lead, and a new lead is CURRENT (06 R96). -/
def Effect.Fits (x : Extent) : Effect → Prop
  | .none => True
  | .stale c => c = x.lead.other
  | .swap c => c = x.lead.other ∧ x.isCurrent c = true

theorem resolveTwo_fits (x : Extent) (first : Nat) (l o : Option MemberResult) :
    (resolveTwo x.lead (x.isCurrent x.lead.other) first l o).2.Fits x := by
  unfold resolveTwo
  split
  · trivial
  · split
    · simp only; split <;> simp [Effect.Fits]
    · split
      · rename_i h; exact ⟨rfl, h.2⟩
      · simp only; split <;> simp [Effect.Fits]
  · simp only; split <;> simp [Effect.Fits]
  · trivial

theorem resolveWrite_fits (x : Extent) (first : Nat) (pc : Piece) : (resolveWrite x first pc).2.Fits x := by
  unfold resolveWrite
  split
  · split <;> trivial
  · exact resolveTwo_fits _ _ _ _

@[simp] theorem CopyNo.other_other (c : CopyNo) : c.other.other = c := by cases c <;> rfl
theorem CopyNo.ne_other (c : CopyNo) : c ≠ c.other := by cases c <;> simp [CopyNo.other]

theorem setCopy_copy?_ne {x : Extent} {c d : CopyNo} {st : CopyState} (h : d ≠ c) : (x.setCopy c st).copy? d = x.copy? d := by
  cases c <;> cases d <;> simp_all [Extent.setCopy, Extent.copy?]

/-- Two forms of a record that differ in lead and copy states only. -/
structure SameRun (x y : Extent) : Prop where
  first : y.first = x.first
  length : y.length = x.length
  port1 : y.copy1.port = x.copy1.port
  first1 : y.copy1.first = x.copy1.first
  copy2 : ∀ c, y.copy2 = some c → ∃ d, x.copy2 = some d ∧ c.port = d.port ∧ c.first = d.first

theorem setCopy_sameRun (x : Extent) (c : CopyNo) (st : CopyState) : SameRun x (x.setCopy c st) := by
  cases c
  · exact ⟨rfl, rfl, rfl, rfl, fun c h => ⟨c, h, rfl, rfl⟩⟩
  · refine ⟨rfl, rfl, rfl, rfl, fun c h => ?_⟩
    simp only [Extent.setCopy, Option.map_eq_some_iff] at h
    obtain ⟨d, hd, rfl⟩ := h
    exact ⟨d, hd, rfl, rfl⟩

theorem apply_sameRun (x : Extent) (f : Effect) : SameRun x (x.apply f) := by
  cases f with
  | none => exact ⟨rfl, rfl, rfl, rfl, fun c h => ⟨c, h, rfl, rfl⟩⟩
  | stale c => exact setCopy_sameRun x c _
  | swap c => obtain ⟨a, b, d, e, f⟩ := setCopy_sameRun x c.other .stale; exact ⟨a, b, d, e, f⟩

theorem Extent.Sound.apply {cap : Nat} {x : Extent} {f : Effect} (h : x.Sound cap) (hf : f.Fits x) : (x.apply f).Sound cap := by
  obtain ⟨h1, h2, h3, h4, h5⟩ := apply_sameRun x f
  refine ⟨h2 ▸ h.length, by rw [h1, h2]; exact h.within, h3 ▸ h.port1, fun c hc => ?_, by rw [h2, h4]; exact h.range1,
    fun c hc => ?_, ?_⟩
  · obtain ⟨d, hd, e1, _⟩ := h5 c hc
    rw [h3, e1]; exact h.port2 d hd
  · obtain ⟨d, hd, _, e2⟩ := h5 c hc
    rw [h2, e2]; exact h.range2 d hd
  · cases f with
    | none => exact h.lead
    | stale c =>
      obtain rfl : c = x.lead.other := hf
      have : (x.setCopy x.lead.other .stale).copy? x.lead = x.copy? x.lead := setCopy_copy?_ne (CopyNo.ne_other _)
      have hl : ∀ c, (x.setCopy c .stale).lead = x.lead := fun c => by cases c <;> rfl
      rw [Extent.apply, hl, this]; exact h.lead
    | swap c =>
      obtain ⟨rfl, hc⟩ : c = x.lead.other ∧ x.isCurrent c = true := hf
      have : (x.setCopy x.lead.other.other .stale).copy? x.lead.other = x.copy? x.lead.other :=
        setCopy_copy?_ne (by simpa using (CopyNo.ne_other x.lead).symm)
      obtain ⟨c, hc, hs⟩ : ∃ c, x.copy? x.lead.other = some c ∧ c.state = .current := by
        simpa [Extent.isCurrent, Option.any_eq_true] using hc
      refine ⟨c, ?_, hs⟩
      rw [← this] at hc
      rw [← hc]; rfl

theorem map_modify_of_eq {α β : Type} (g : α → β) (f : α → α) (hf : ∀ x, g (f x) = g x) (l : List α) (i : Nat) :
    (l.modify i f).map g = l.map g := by
  apply List.ext_getElem
  · simp
  · intro j h1 h2
    simp only [List.getElem_map, List.getElem_modify]
    split <;> simp [hf]

theorem pairwise_modify {α β : Type} (g : α → β) (R : β → β → Prop) (f : α → α) (hf : ∀ x, g (f x) = g x) (l : List α) (i : Nat) :
    (l.modify i f).Pairwise (fun x y => R (g x) (g y)) ↔ l.Pairwise (fun x y => R (g x) (g y)) := by
  rw [← List.pairwise_map (f := g) (R := R), map_modify_of_eq g f hf, List.pairwise_map]

theorem mem_modify {α : Type} {l : List α} {i : Nat} {f : α → α} {y : α} (h : y ∈ l.modify i f) :
    y ∈ l ∨ ∃ x, l[i]? = some x ∧ y = f x := by
  obtain ⟨j, hj, rfl⟩ := List.getElem_of_mem h
  rw [List.getElem_modify]
  have hj' : j < l.length := by simpa using hj
  split
  · rename_i e; subst e
    exact .inr ⟨l[i], List.getElem?_eq_getElem hj', rfl⟩
  · exact .inl (List.getElem_mem hj')

theorem keeps_changeCopies {v : Volume} {ordinal : Nat} {x : Extent} {f : Effect} {s : State}
    (hx : (s.vol v).live[ordinal]? = some x) (hf : f.Fits x) : Keeps s (changeCopies v ordinal f s) := by
  refine keeps_volume v (fun r => { r with live := r.live.modify ordinal fun x => x.apply f }) {} rfl
    (fun hp => ⟨?_, by simp [changeCopies]⟩) (fun hm => ?_)
  · simp only [VolRec.Present] at hp ⊢
    split
    · rename_i ha; rw [if_pos ha] at hp; simpa using hp
    · rename_i ha; rw [if_neg ha] at hp; exact hp
  · obtain ⟨ha, hs, hd, hk, hv⟩ := hm
    refine ⟨fun h => by simpa using ha h, ?_, ?_, ?_, hv⟩
    · exact (pairwise_modify (fun x : Extent => x.first) (fun a b => a.toNat ≤ b.toNat) _ (fun x => (apply_sameRun x f).first) _ _).2 hs
    · refine (pairwise_modify (fun x : Extent => (x.first, x.length)) (fun a b => a.1.toNat + a.2.toNat ≤ b.1.toNat ∨ b.1.toNat + b.2.toNat ≤ a.1.toNat)
        _ (fun x => ?_) _ _).2 hd
      rw [(apply_sameRun x f).first, (apply_sameRun x f).length]
    · intro y hy
      rcases mem_modify hy with h | ⟨z, hz, rfl⟩
      · exact hk y h
      · obtain rfl := Option.some.inj (hx.symm.trans hz)
        exact (hk x (List.mem_of_getElem? hx)).apply hf

theorem keeps_applyEffect {p : Parent} {pc : Piece} {x : Extent} {f : Effect} {s : State}
    (hx : (s.vol p.volume).live[pc.ordinal]? = some x) (hf : f.Fits x) : Keeps s (applyEffect p pc x f s) := by
  unfold applyEffect
  split
  · exact .refl s
  · exact (keeps_changeCopies hx hf).trans (keeps_post _ _)
  · exact (keeps_changeCopies hx hf).trans (keeps_post _ _)

/-! ## Merge (06 R89) -/

theorem keeps_updPiece (id : ParentRef) (i : Nat) (f : Piece → Piece) (s : State) : Keeps s (updPiece id i f s) :=
  keeps_updParent id (fun _ => {}) s

theorem keeps_setPieceState (id : ParentRef) (i : Nat) (x : PieceState) (s : State) : Keeps s (setPieceState id i x s) :=
  keeps_updPiece _ _ _ _

theorem keeps_completePieces (p : Parent) (s : State) : Keeps s (completePieces p s) := by
  unfold completePieces; split <;> exact keeps_complete _ _ _ _ _ _

theorem keeps_completeDrain (p : Parent) (s : State) : Keeps s (completeDrain p s) := keeps_complete _ _ _ _ _ _

theorem keeps_endTest (id : ParentRef) (s : State) : Keeps s (endTest id s) := by
  unfold endTest
  split
  · exact .refl s
  · split <;> (repeat' split) <;> first
      | exact .refl s
      | exact keeps_completeDrain _ _
      | exact keeps_completePieces _ _
      | exact keeps_completeAborted _ _
      | exact keeps_freeParent _ _

theorem keeps_retarget (e : SubCmd) (i : Nat) (c : CopyNo) (d : CopyNo × Port × Nat) (s : State) : Keeps s (retarget e i c d s) :=
  ((keeps_updPiece _ _ _ _).trans (keeps_updSub _ _ _)).trans (keeps_joinQueue _ _)

theorem keeps_storeRead (p : Parent) (pc : Piece) (r : Result) (s : State) : Keeps s (storeRead p pc r s) := by
  unfold storeRead; split
  · exact keeps_updParent _ (fun _ => { slots := writeSlots_length _ _ _ }) _
  · exact .refl s

theorem keeps_mergeRead (e : SubCmd) (p : Parent) (i : Nat) (pc : Piece) (c : CopyNo) (r : Result) (s : State) :
    Keeps s (mergeRead e p i pc c r s) := by
  have h := keeps_storeRead p pc r s
  unfold mergeRead
  split
  · exact h.trans (keeps_retarget _ _ _ _ _)
  · exact ((h.trans (keeps_updPiece _ _ _ _)).trans (keeps_freeSub _ _)).trans (keeps_endTest _ _)

theorem keeps_resolvePiece (id : ParentRef) (i : Nat) (s : State) : Keeps s (resolvePiece id i s) := by
  unfold resolvePiece
  split
  · exact .refl s
  · split
    · exact .refl s
    · split
      · split
        · exact .refl s
        · rename_i x hx
          exact (keeps_setPieceState _ _ _ _).trans (keeps_applyEffect (by exact hx) (resolveWrite_fits _ _ _))
      · exact .refl s

theorem keeps_mergeWrite (e : SubCmd) (p : Parent) (i : Nat) (pc : Piece) (c : CopyNo) (r : Result) (s : State) :
    Keeps s (mergeWrite e p i pc c r s) :=
  (((keeps_updPiece _ _ _ _).trans (keeps_resolvePiece _ _ _)).trans (keeps_freeSub _ _)).trans (keeps_endTest _ _)

theorem keeps_mergeFlush (e : SubCmd) (r : Result) (s : State) : Keeps s (mergeFlush e r s) :=
  ((keeps_updParent _ (fun _ => {}) _).trans (keeps_freeSub _ _)).trans (keeps_endTest _ _)

theorem keeps_mergeInto (e : SubCmd) (p : Parent) (r : Result) (s : State) : Keeps s (mergeInto e p r s) := by
  unfold mergeInto
  repeat' split
  all_goals first
    | exact keeps_mergeFlush _ _ _
    | exact keeps_mergeWrite _ _ _ _ _ _ _
    | exact keeps_mergeRead _ _ _ _ _ _ _
    | exact keeps_freeSub _ _

theorem keeps_mergeResult (e : SubRef) (r : Result) (s : State) : Keeps s (mergeResult e r s) := by
  unfold mergeResult
  split
  · exact .refl s
  · split
    · exact keeps_freeSub _ _
    · exact keeps_mergeInto _ _ _ _

theorem keeps_mergeAll (k : ResultKind) (issued : Bool) (es : List SubRef) (s : State) : Keeps s (mergeAll k issued es s) :=
  Keeps.foldl (fun _ _ => keeps_mergeResult _ _ _) es s

theorem keeps_emptyQueues (p : Port) (k : ResultKind) (s : State) : Keeps s (emptyQueues p k s) :=
  (keeps_updPort _ _ _ fun h => h.same).trans (keeps_mergeAll _ _ _ _)

theorem keeps_endIssued (p : Port) (k : ResultKind) (s : State) (t : DTag) : Keeps s (endIssued p k s t) := by
  unfold endIssued
  split
  · exact (keeps_freeTag _ _ _).trans (keeps_mergeResult _ _ _)
  · exact .refl s
  · exact .refl s

theorem keeps_endAllIssued (p : Port) (k : ResultKind) (s : State) : Keeps s (endAllIssued p k s) :=
  Keeps.foldl (fun _ _ => keeps_endIssued _ _ _ _) _ s

end Sys2Proof.Machine
end

