-- ==== Sys2Proof/Laws/KeepsUnits.lean ====
section
/-! SUPPORT. The Split Unit, the Map Unit and the Target Port Units keep the laws of Safety.lean. -/

-- The package is also compiled as one text: one proof after another keeps the number of Lean's threads small there.
set_option Elab.async false

namespace Sys2Proof.Machine

/-! ## Split (04 R56, R65) -/

theorem entriesOf_length (p : Parent) (i : Nat) (q : PlannedPiece) (e : SubRef) : (entriesOf p i q e).length = q.members.length := by
  simp [entriesOf]

theorem pieceEntries_length (p : Parent) : ∀ (i : Nat) (e : SubRef) (ps : List PlannedPiece),
    (pieceEntries p i e ps).length = (Verdict.pieces ps).need
  | _, _, [] => rfl
  | i, e, q :: qs => by
    simp only [pieceEntries, List.length_append, entriesOf_length, pieceEntries_length p _ _ qs, Verdict.need, List.map_cons,
      List.sum_cons]

theorem flushEntries_length (p : Parent) (e : SubRef) (ports : List Port) : (flushEntries p e ports).length = ports.length := by
  simp [flushEntries]

theorem keeps_allocate {p : Parent} {es : List SubCmd} (ps : List Piece) (fs : List FlushResult) {s : State}
    (h : es.length ≤ s.freeSubs) : Keeps s (allocate p es ps fs s) := by
  unfold allocate
  refine Keeps.trans (Keeps.trans ?_ (keeps_updParent _ (fun _ => {}) _)) (keeps_updVol _ _ _)
  exact { (Same.keeps (t := { s with nextSub := s.nextSub + es.length }) {} : Keeps s _) with
    bounds := fun hb => ⟨by have := hb.1; simp only [State.freeSubs] at h; simp only [List.length_append]; omega, hb.2⟩ }

theorem keeps_queueNew (s : State) (e : SubCmd) : Keeps s (queueNew s e) := by
  unfold queueNew; split; exacts [keeps_joinQueue _ _, .refl s]

theorem keeps_failNew (s : State) (e : SubCmd) : Keeps s (failNew s e) := by
  unfold failNew; split <;> first | exact keeps_mergeResult _ _ _ | exact .refl s

theorem keeps_handOver (es : List SubCmd) (s : State) : Keeps s (handOver es s) :=
  (Keeps.foldl keeps_queueNew es s).trans (Keeps.foldl keeps_failNew es _)

theorem keeps_split {p : Parent} {v : Verdict} {s : State} (h : v.need ≤ s.freeSubs) : Keeps s (split p v s) := by
  unfold split
  split
  · exact (keeps_allocate _ _ (by rw [pieceEntries_length]; exact h)).trans (keeps_handOver _ _)
  · exact (keeps_allocate _ _ (by rw [flushEntries_length]; exact h)).trans (keeps_handOver _ _)
  · exact .refl s
  · exact .refl s

theorem keeps_holdSwitch (p : Parent) (s : State) : Keeps s (holdSwitch p s) :=
  (Same.keeps {}).trans (keeps_setState _ _ _)

theorem keeps_waitSplit (p : Parent) (s : State) : Keeps s (waitSplit p s) :=
  (Same.keeps {}).trans (keeps_setState _ _ _)

theorem keeps_arrive (id : ParentRef) (s : State) : Keeps s (arrive id s) := by
  unfold arrive
  split
  · exact .refl s
  · split
    · exact keeps_holdSwitch _ _
    · exact keeps_complete _ _ _ _ _ _
    · split
      · rename_i h; exact keeps_split h.2
      · exact keeps_waitSplit _ _
    · split
      · rename_i h; exact keeps_split h.2
      · exact keeps_waitSplit _ _

theorem keeps_arriveAll (ids : List ParentRef) (s : State) : Keeps s (arriveAll ids s) :=
  Keeps.foldl (fun _ _ => keeps_arrive _ _) ids s

theorem keeps_popSplitWait (s : State) : Keeps s (popSplitWait s) := Same.keeps {}

theorem keeps_tryOnce {s t : State} (h : tryOnce s = some t) : Keeps s t := by
  have hp := keeps_popSplitWait s
  unfold tryOnce at h
  split at h
  · simp at h
  · split at h
    · obtain rfl := Option.some.inj h; exact hp
    · split at h
      · obtain rfl := Option.some.inj h; exact hp.trans (keeps_holdSwitch _ _)
      · obtain rfl := Option.some.inj h; exact hp.trans (keeps_complete _ _ _ _ _ _)
      · split at h
        · rename_i hn; obtain rfl := Option.some.inj h; exact hp.trans (keeps_split hn)
        · simp at h
      · split at h
        · rename_i hn; obtain rfl := Option.some.inj h; exact hp.trans (keeps_split hn)
        · simp at h

theorem keeps_tryUpTo : ∀ (n : Nat) (s : State), Keeps s (tryUpTo n s)
  | 0, s => .refl s
  | n + 1, s => by
    rw [tryUpTo]; split
    · exact .refl s
    · rename_i t h; exact (keeps_tryOnce h).trans (keeps_tryUpTo n t)

theorem keeps_tryHeads (s : State) : Keeps s (tryHeads s) := keeps_tryUpTo _ _

theorem keeps_tryIfFreed (before s : State) : Keeps s (tryIfFreed before s) := by
  unfold tryIfFreed; split; exacts [keeps_tryHeads s, .refl s]

/-! ## Validation and the swap (01 R14, R16) -/

theorem Extent.isCurrent_iff {x : Extent} {c : CopyNo} : x.isCurrent c = true ↔ ∃ y, x.copy? c = some y ∧ y.state = .current := by
  simp [Extent.isCurrent, Option.any_eq_true]

/-- A staged record that passes validation is one that a live map may hold (01 R14). -/
theorem Extent.sound_of_valid {cap : Nat} {x : Extent} (h : x.valid cap = true) : x.Sound cap := by
  simp only [Extent.valid, Copy.valid, Bool.and_eq_true, decide_eq_true_eq, Option.all_eq_true] at h
  obtain ⟨⟨⟨⟨⟨⟨h1, h2⟩, h3⟩, h4⟩, h5⟩, h6⟩, h7⟩ := h
  exact ⟨⟨h1, h2⟩, h3, h4.1, fun c hc => ⟨(h5 c hc).1, by simpa using h7 c hc⟩, h4.2, fun c hc => (h5 c hc).2,
    Extent.isCurrent_iff.1 h6⟩

theorem Extent.apart_of_not_overlaps {x y : Extent} (h : x.overlaps y = false) : x.Apart y := by
  simp only [Extent.overlaps, overlap, Bool.and_eq_false_iff, decide_eq_false_iff_not] at h
  unfold Extent.Apart; omega

theorem Extent.Apart.symm {x y : Extent} (h : x.Apart y) : y.Apart x := Or.symm h

/-- Validation that finds no bad record finds every record sound and no two overlapping (01 R14). -/
theorem firstBad_none {cap : Nat} : ∀ {i : Nat} {before xs : List Extent}, firstBad cap i before xs = none →
    (∀ x ∈ xs, x.Sound cap) ∧ (∀ x ∈ xs, ∀ y ∈ before, x.overlaps y = false) ∧ xs.Pairwise Extent.Apart
  | _, _, [], _ => by simp
  | i, before, x :: xs, h => by
    unfold firstBad at h
    split at h
    · rename_i hx
      obtain ⟨h1, h2, h3⟩ := firstBad_none h
      have hs := Extent.sound_of_valid hx.1
      refine ⟨by simpa using ⟨hs, h1⟩, ?_, List.pairwise_cons.2 ⟨fun y hy => ?_, h3⟩⟩
      · intro y hy z hz
        rcases List.mem_cons.1 hy with rfl | hy
        · have := hx.2; simp only [List.any_eq_true, not_exists, not_and, Bool.not_eq_true] at this; exact this z hz
        · exact h2 y hy z (by simp [hz])
      · exact (Extent.apart_of_not_overlaps (h2 y hy x (by simp))).symm
    · simp at h

theorem insertExtent_perm (x : Extent) : ∀ l : List Extent, (insertExtent x l).Perm (x :: l)
  | [] => .refl _
  | y :: ys => by
    unfold insertExtent; split
    · exact .refl _
    · exact ((insertExtent_perm x ys).cons y).trans (.swap ..)

theorem sortExtents_perm : ∀ l : List Extent, (sortExtents l).Perm l
  | [] => .refl _
  | x :: xs => (insertExtent_perm x _).trans ((sortExtents_perm xs).cons x)

theorem insertExtent_sorted (x : Extent) : ∀ {l : List Extent}, l.Pairwise (fun a b => a.first.toNat ≤ b.first.toNat) →
    (insertExtent x l).Pairwise (fun a b => a.first.toNat ≤ b.first.toNat)
  | [], _ => by simp [insertExtent]
  | y :: ys, h => by
    obtain ⟨h1, h2⟩ := List.pairwise_cons.1 h
    unfold insertExtent; split
    · rename_i hxy
      refine List.pairwise_cons.2 ⟨fun z hz => ?_, h⟩
      rcases List.mem_cons.1 hz with rfl | hz
      · exact hxy
      · exact hxy.trans (h1 z hz)
    · rename_i hxy
      refine List.pairwise_cons.2 ⟨fun z hz => ?_, insertExtent_sorted x h2⟩
      rcases List.mem_cons.1 ((insertExtent_perm x ys).mem_iff.1 hz) with rfl | hz
      · omega
      · exact h1 z hz

theorem sortExtents_sorted : ∀ l : List Extent, (sortExtents l).Pairwise (fun a b => a.first.toNat ≤ b.first.toNat)
  | [] => .nil
  | x :: xs => insertExtent_sorted x (sortExtents_sorted xs)

/-- The swap of a SWITCHING volume keeps the laws (01 R16). -/
theorem keeps_swapMaps {v : Volume} {s : State} (h : (s.vol v).state = .switching) : Keeps s (swapMaps v s) := by
  refine keeps_volume v (fun r =>
    { r with live := sortExtents r.staged, staged := [], generation := r.generation + 1, state := .online, longOp := none, longParent := none }) {} rfl (fun hp => ⟨?_, ?_⟩) (fun hm => ?_)
  · simp only [VolRec.Present, h] at hp ⊢; simpa using hp
  · simp only [swapMaps, updVol_freeExtents, (sortExtents_perm _).length_eq, List.length_nil]; omega
  · obtain ⟨hd, hk⟩ := hm.validated h
    refine ⟨by simp, sortExtents_sorted _, ?_, fun x hx => hk x ((sortExtents_perm _).mem_iff.1 hx), by simp⟩
    exact ((sortExtents_perm _).pairwise_iff Extent.Apart.symm).2 hd

theorem keeps_releaseSwitch (v : Volume) (s : State) : Keeps s (releaseSwitch v s) :=
  (Same.keeps {}).trans (keeps_arriveAll _ _)

theorem keeps_finishLong (parent : Option ParentRef) (st : Status) (s : State) : Keeps s (finishLong parent st s) := by
  unfold finishLong; split; exacts [keeps_answerResult _ _ _ _, .refl s]

theorem keeps_commitSwap {v : Volume} {s : State} (h : (s.vol v).state = .switching) : Keeps s (commitSwap v s) :=
  ((keeps_swapMaps h).trans (keeps_releaseSwitch _ _)).trans (keeps_finishLong _ _ _)

theorem VolRec.MapSound.reset : VolRec.reset.MapSound :=
  ⟨fun _ => rfl, .nil, .nil, by simp [VolRec.reset], by simp [VolRec.reset]⟩

theorem VolRec.Present.reset : VolRec.reset.Present := by simp [VolRec.Present, VolRec.reset]

/-- The removal of a volume without live parents keeps the laws (01 R17, 03 R40). -/
theorem keeps_removal {v : Volume} {s : State} (h : (s.vol v).liveParents = 0) : Keeps s (removal v s) := by
  unfold removal clearColumn
  rw [mapRows_eq]
  refine Keeps.trans ?_ (keeps_finishLong _ _ _)
  refine keeps_record v (fun _ => VolRec.reset) {} rfl (fun _ => ⟨.reset, ?_⟩) (fun _ => .reset) fun hc => ⟨fun w hw => ?_, fun w hw => ?_⟩
  · show s.freeExtents + (s.vol v).live.length + (s.vol v).staged.length + (0 + 0) = s.freeExtents + ((s.vol v).live.length + (s.vol v).staged.length)
    omega
  · have := hc.1 w hw
    show ((put s.volumes v VolRec.reset)[w]).liveParents = _
    rw [put_get]; split
    · rename_i e; subst e; exact h.symm.trans this
    · exact this
  · have h1 : ((put s.volumes v VolRec.reset)[w]).state = .absent := hw
    rw [put_get] at h1
    show (put s.ranges v [])[w] = []
    rw [put_get]; split
    · rfl
    · rename_i e; rw [if_neg e] at h1
      exact hc.2 w h1

/-! ## DEFINE, STAGE, CLEAR, COMMIT, REMOVE and reports -/

theorem firstBeyond_none {cap : Nat} : ∀ {i : Nat} {xs : List Extent}, firstBeyond cap i xs = none →
    ∀ x ∈ xs, x.first.toNat + x.length.toNat ≤ cap
  | _, [], _ => by simp
  | i, x :: xs, h => by
    unfold firstBeyond at h
    split at h
    · simp at h
    · rename_i hx
      simpa [Extent.stop] using ⟨by simpa [Extent.stop] using hx, firstBeyond_none h⟩

theorem keeps_takeDefine (id : ParentRef) (v : Volume) (capacity : Nat) (wp : Bool) (s : State) (hc : capacity ≤ 4294967295) :
    Keeps s (takeDefine id v capacity wp s) := by
  unfold takeDefine
  split
  · rename_i h
    split
    · exact keeps_answerResult _ _ _ _
    · rename_i h0
      refine Keeps.trans ?_ (keeps_answerResult _ _ _ _)
      refine keeps_volume v (fun r =>
        { r with state := .online, capacity := some capacity, writeProtected := wp, generation := 0, live := [], staged := [], longOp := none }) {} rfl (fun hp => ⟨?_, ?_⟩) (fun hm => ?_)
      · simp [VolRec.Present]; omega
      · simp only [VolRec.Present, h, if_true] at hp
        simp [hp.2.1, hp.2.2]
      · exact ⟨by simp, .nil, .nil, by simp, by simp⟩
  · rename_i h
    split
    · exact keeps_answerResult _ _ _ _
    · rename_i h0
      split
      · exact keeps_answerResult _ _ _ _
      · rename_i hb
        refine Keeps.trans ?_ (keeps_answerResult _ _ _ _)
        refine keeps_volume v (fun r => { r with capacity := some capacity, writeProtected := wp }) {} rfl
          (fun hp => ⟨?_, rfl⟩) (fun hm => ?_)
        · simp only [VolRec.Present, h] at hp ⊢; simp; omega
        · refine ⟨hm.absent, hm.sorted, hm.apart, fun x hx => ?_, by simp [h]⟩
          exact { hm.sound x hx with within := firstBeyond_none hb x hx }
  · exact keeps_answerResult _ _ _ _
  · exact keeps_answerResult _ _ _ _

theorem keeps_takeStage (id : ParentRef) (v : Volume) (n : Nat) (b : Block) (s : State) : Keeps s (takeStage id v n b s) := by
  unfold takeStage
  split
  · exact keeps_answerResult _ _ _ _
  · exact keeps_answerResult _ _ _ _
  · exact keeps_answerResult _ _ _ _
  · rename_i h
    split
    · exact keeps_answerResult _ _ _ _
    · split
      · exact keeps_answerResult _ _ _ _
      · rename_i hf
        refine Keeps.trans ?_ (keeps_answerResult _ _ _ _)
        refine keeps_volume v (fun r => { r with staged := r.staged ++ extentsOf b n }) {} rfl (fun hp => ⟨?_, ?_⟩) (fun hm => ?_)
        · simp only [VolRec.Present, h] at hp ⊢; simpa using hp
        · simp only [updVol_freeExtents, List.length_append, extentsOf, List.length_map, List.length_range]; omega
        · exact ⟨hm.absent, hm.sorted, hm.apart, hm.sound, by simp [h]⟩

theorem keeps_takeClear (id : ParentRef) (v : Volume) (s : State) : Keeps s (takeClear id v s) := by
  unfold takeClear
  split
  · exact keeps_answerResult _ _ _ _
  · exact keeps_answerResult _ _ _ _
  · exact keeps_answerResult _ _ _ _
  · rename_i h
    refine Keeps.trans ?_ (keeps_answerResult _ _ _ _)
    refine keeps_volume v (fun r => { r with staged := [] }) {} rfl (fun hp => ⟨?_, ?_⟩) (fun hm => ?_)
    · simp only [VolRec.Present, h] at hp ⊢; simpa using hp
    · simp only [updVol_freeExtents, List.length_nil]; omega
    · exact ⟨hm.absent, hm.sorted, hm.apart, hm.sound, by simp⟩

theorem keeps_startCommit {id : ParentRef} {v : Volume} {s : State} (h : (s.vol v).state = .online)
    (hb : firstBad ((s.vol v).capacity.getD 0) 0 [] (s.vol v).staged = none) : Keeps s (startCommit id v s) := by
  have h1 : Keeps s (setState id .controlLong (updVol v (fun r =>
      { r with state := .switching, longOp := some .commit, longParent := some id }) s)) := by
    refine Keeps.trans ?_ (keeps_setState _ _ _)
    refine keeps_volume v (fun r => { r with state := .switching, longOp := some .commit, longParent := some id }) {} rfl
      (fun hp => ⟨?_, rfl⟩) (fun hm => ?_)
    · simp only [VolRec.Present, h] at hp ⊢; simpa using hp
    · obtain ⟨h2, _, h3⟩ := firstBad_none hb
      exact ⟨by simp, hm.sorted, hm.apart, hm.sound, fun _ => ⟨h3, h2⟩⟩
  unfold startCommit
  split
  · exact h1.trans (keeps_commitSwap (by simp [State.vol, setState, updParent, updVol]))
  · exact h1

theorem keeps_takeCommit (id : ParentRef) (v : Volume) (s : State) : Keeps s (takeCommit id v s) := by
  unfold takeCommit
  split
  · exact keeps_answerResult _ _ _ _
  · exact keeps_answerResult _ _ _ _
  · exact keeps_answerResult _ _ _ _
  · rename_i h
    split
    · exact keeps_answerResult _ _ _ _
    · rename_i hb; exact keeps_startCommit h hb

theorem keeps_startRemove {id : ParentRef} {v : Volume} {s : State} (h : (s.vol v).state = .online) : Keeps s (startRemove id v s) := by
  have h1 : Keeps s (setState id .controlLong (updVol v (fun r =>
      { r with state := .retiring, longOp := some .remove, longParent := some id }) s)) := by
    refine Keeps.trans ?_ (keeps_setState _ _ _)
    refine keeps_volume v (fun r => { r with state := .retiring, longOp := some .remove, longParent := some id }) {} rfl
      (fun hp => ⟨?_, rfl⟩) (fun hm => ?_)
    · simp only [VolRec.Present, h] at hp ⊢; simpa using hp
    · exact ⟨by simp, hm.sorted, hm.apart, hm.sound, by simp⟩
  unfold startRemove
  split
  · rename_i h0
    refine h1.trans (keeps_removal ?_)
    show ((put s.volumes v _)[v]).liveParents = 0
    rw [put_get_self]; exact h0
  · exact h1

theorem keeps_takeRemove (id : ParentRef) (v : Volume) (s : State) : Keeps s (takeRemove id v s) := by
  unfold takeRemove
  split
  · exact keeps_answerResult _ _ _ _
  · exact keeps_answerResult _ _ _ _
  · exact keeps_answerResult _ _ _ _
  · rename_i h; exact keeps_startRemove h

/-- The lowered counts of a report taken from those on their way keep the laws (01 R9). -/
theorem keeps_lowerCounts {k : Nat} {r : MapReport} {s : State} (h : s.mapReports[k]? = some r) :
    Keeps s (lowerCounts r { s with mapReports := s.mapReports.eraseIdx k }) := by
  refine keeps_record r.volume (fun x => { x with liveParents := x.liveParents - 1
                                                  splitParents := if r.split then x.splitParents - 1 else x.splitParents }) {} rfl
    (fun hp => ⟨hp, rfl⟩) (fun hm => ⟨hm.absent, hm.sorted, hm.apart, hm.sound, hm.validated⟩) fun hc => ⟨fun w hw => ?_, fun w hw => hc.2 w ?_⟩
  · have hp : s.mapReports.Perm (r :: s.mapReports.eraseIdx k) := by
      obtain ⟨hk, rfl⟩ := List.getElem?_eq_some_iff.1 h
      exact (List.getElem_cons_eraseIdx_perm hk).symm
    have h1 := hc.1 w hw
    rw [hp.countP_eq, List.countP_cons] at h1
    show ((put s.volumes r.volume _)[w]).liveParents = _ + (s.mapReports.eraseIdx k).countP _
    rw [put_get]; split
    · rename_i e; subst e
      simp only [State.vol, beq_self_eq_true, if_true] at h1 ⊢
      rw [show (lowerCounts r { s with mapReports := s.mapReports.eraseIdx k }).parents = s.parents from rfl]; omega
    · rename_i e
      rw [if_neg (by simpa using fun h => e h.symm)] at h1
      exact h1
  · have h1 : ((put s.volumes r.volume _)[w]).state = .absent := hw
    rw [put_get] at h1
    split at h1
    · rename_i e; subst e; exact h1
    · exact h1

/-- The Map Unit's taking of a report keeps the laws (01 R9). -/
theorem keeps_takeMapReportAt (k : Nat) (s : State) : Keeps s (takeMapReportAt k s) := by
  unfold takeMapReportAt
  split
  · exact .refl s
  · rename_i r hr
    refine (keeps_lowerCounts hr).trans ?_
    show Keeps (lowerCounts r { s with mapReports := s.mapReports.eraseIdx k }) (endWaits r (lowerCounts r { s with mapReports := s.mapReports.eraseIdx k }))
    generalize lowerCounts r { s with mapReports := s.mapReports.eraseIdx k } = t
    unfold endWaits
    split
    · rename_i h; split; exacts [keeps_commitSwap h, .refl t]
    · split
      · rename_i h; exact keeps_removal h
      · exact .refl t
    · exact .refl t
    · exact .refl t

theorem keeps_takeGoneMap (g : GoneMap) (s : State) : Keeps s (takeGoneMap g s) := by
  unfold takeGoneMap
  exact keeps_updVol _ _ _ (by split <;> rfl) (by split <;> rfl) (by split <;> rfl) (by split <;> rfl)

/-! ## Target Ports (chapter 8) -/

theorem keeps_flushEndTest (s : State) : Keeps s (flushEndTest s) := by
  unfold flushEndTest
  split
  · exact .refl s
  · split
    · exact (Same.keeps {}).trans (keeps_finishLong _ _ _)
    · exact .refl s

theorem keeps_tellFlush (p : Port) (s : State) (op : ParentRef) : Keeps s (tellFlush p s op) := by
  unfold tellFlush
  split
  · exact .refl s
  · split
    · exact (Same.keeps {}).trans (keeps_flushEndTest _)
    · exact .refl s

theorem keeps_endFlushWaiters (p : Port) (s : State) : Keeps s (endFlushWaiters p s) :=
  (keeps_updPort _ _ _ fun h => h.same).trans (Keeps.foldl (keeps_tellFlush p) _ _)

theorem keeps_endManagementReset (p : Port) (st : Status) (s : State) : Keeps s (endManagementReset p st s) :=
  (keeps_updPort _ _ _ fun h => h.same).trans (keeps_finishLong _ _ _)

theorem keeps_sendTrst {p : Port} {n : Nat} {s : State} (h : (s.port p).state = .resetting) (hn : n ≤ 3) :
    Keeps s (sendTrst p n s) :=
  (keeps_updPort _ _ _ fun hs => ⟨hs.reason, fun _ => h, hn, hs.passes, hs.window, hs.limit, hs.transfer⟩).trans (keeps_sendDown _ _ _)

end Sys2Proof.Machine
end

