-- ==== Sys2Proof/Laws/Inert.lean ====
section
/-! SUPPORT. `Inert s t`: a move from `s` to `t` that touches no port and no sub-command; the moves of every unit that are so. -/

-- The package is also compiled as one text: one proof after another keeps the number of Lean's threads small there.
set_option Elab.async false

namespace Sys2Proof.Machine

/-- A move that leaves the ports, the Sub-command Table and the next entry's name as they are. -/
structure Inert (s t : State) : Prop where
  subs : t.subs = s.subs := by rfl
  ports : t.ports = s.ports := by rfl
  nextSub : t.nextSub = s.nextSub := by rfl

theorem Inert.refl (s : State) : Inert s s := {}

theorem Inert.trans {s t u : State} (a : Inert s t) (b : Inert t u) : Inert s u :=
  ⟨b.subs.trans a.subs, b.ports.trans a.ports, b.nextSub.trans a.nextSub⟩

theorem Inert.foldl {α : Type} {f : State → α → State} (h : ∀ s a, Inert s (f s a)) : ∀ (l : List α) (s : State), Inert s (l.foldl f s)
  | [], s => .refl s
  | a :: l, s => (h s a).trans (Inert.foldl h l (f s a))

theorem Inert.port {s t : State} (h : Inert s t) (p : Port) : t.port p = s.port p := by rw [State.port, h.ports]; rfl

/-! ## Parents -/

theorem inert_setState (id : ParentRef) (x : ParentState) (s : State) : Inert s (setState id x s) := {}

theorem inert_freeParent (id : ParentRef) (s : State) : Inert s (freeParent id s) := by
  unfold freeParent reportFree
  repeat' split
  all_goals exact {}

theorem inert_complete (id : ParentRef) (st : Status) (fail : Option Nat) (residual : Nat) (payload : List Block) (s : State) :
    Inert s (complete id st fail residual payload s) := by
  unfold complete; split
  · exact .refl s
  · exact Inert.trans {} (inert_freeParent _ _)

theorem inert_completeAborted (id : ParentRef) (s : State) : Inert s (completeAborted id s) := by
  unfold completeAborted; split; exacts [.refl s, inert_complete _ _ _ _ _ _]

theorem inert_answer (id : ParentRef) (st : Status) (b : Block) (s : State) : Inert s (answer id st b s) := by
  unfold answer answerFromSlot; split
  · exact {}
  · exact Inert.trans {} (inert_complete _ _ _ _ _ _)

theorem inert_answerResult (id : ParentRef) (st : Status) (d : Nat) (s : State) : Inert s (answerResult id st d s) := inert_answer _ _ _ _

theorem inert_leaveWait (p : Parent) (s : State) : Inert s (leaveWait p s) := by
  unfold leaveWait; split <;> exact {}

theorem inert_post (b : NoticeBody) (s : State) : Inert s (post b s) := by
  unfold post alertStored
  repeat' split
  all_goals exact {}

theorem inert_sendSub (p : Port) (t : DTag) (e : SubRef) (s : State) : Inert s (sendSub p t e s) := by
  unfold sendSub; split <;> exact {}

/-! ## Merge -/

theorem inert_endTest (id : ParentRef) (s : State) : Inert s (endTest id s) := by
  unfold endTest
  split
  · exact .refl s
  · split <;> (repeat' split) <;> first
      | exact .refl s
      | exact inert_complete _ _ _ _ _ _
      | (unfold completePieces; split <;> exact inert_complete _ _ _ _ _ _)
      | exact inert_completeAborted _ _
      | exact inert_freeParent _ _

theorem inert_storeRead (p : Parent) (pc : Piece) (r : Result) (s : State) : Inert s (storeRead p pc r s) := by
  unfold storeRead; split <;> exact {}

theorem inert_applyEffect (p : Parent) (pc : Piece) (x : Extent) (f : Effect) (s : State) : Inert s (applyEffect p pc x f s) := by
  unfold applyEffect
  split
  · exact .refl s
  · exact Inert.trans {} (inert_post _ _)
  · exact Inert.trans {} (inert_post _ _)

theorem inert_resolvePiece (id : ParentRef) (i : Nat) (s : State) : Inert s (resolvePiece id i s) := by
  unfold resolvePiece
  repeat' split
  all_goals first
    | exact .refl s
    | exact Inert.trans {} (inert_applyEffect _ _ _ _ _)

/-! ## The Split Unit's lists, the Map Unit -/

theorem inert_holdSwitch (p : Parent) (s : State) : Inert s (holdSwitch p s) := {}
theorem inert_waitSplit (p : Parent) (s : State) : Inert s (waitSplit p s) := {}

theorem inert_finishLong (parent : Option ParentRef) (st : Status) (s : State) : Inert s (finishLong parent st s) := by
  unfold finishLong; split; exacts [inert_answerResult _ _ _ _, .refl s]

theorem inert_removal (v : Volume) (s : State) : Inert s (removal v s) := by
  unfold removal clearColumn
  rw [mapRows_eq]
  exact Inert.trans {} (inert_finishLong _ _ _)

theorem inert_takeDefine (id : ParentRef) (v : Volume) (capacity : Nat) (wp : Bool) (s : State) : Inert s (takeDefine id v capacity wp s) := by
  unfold takeDefine
  repeat' split
  all_goals first | exact inert_answerResult _ _ _ _ | exact Inert.trans {} (inert_answerResult _ _ _ _)

theorem inert_takeRemove (id : ParentRef) (v : Volume) (s : State) : Inert s (takeRemove id v s) := by
  unfold takeRemove startRemove
  repeat' split
  all_goals first
    | exact inert_answerResult _ _ _ _
    | exact Inert.trans {} (inert_removal _ _)
    | exact {}

theorem inert_volumeWrite (p : Parent) (v : Volume) (s : State) : Inert s (volumeWrite p v s) := by
  unfold volumeWrite
  repeat' split
  all_goals first | exact inert_takeDefine _ _ _ _ _ | exact inert_takeRemove _ _ _ | exact inert_answerResult _ _ _ _

theorem inert_stageWrite (p : Parent) (v : Volume) (s : State) : Inert s (stageWrite p v s) := by
  unfold stageWrite takeStage takeClear
  repeat' split
  all_goals first | exact inert_answerResult _ _ _ _ | exact Inert.trans {} (inert_answerResult _ _ _ _)

theorem inert_takeGoneMap (g : GoneMap) (s : State) : Inert s (takeGoneMap g s) := {}

/-! ## The end of a flush (09 R148) -/

theorem inert_flushEndTest (s : State) : Inert s (flushEndTest s) := by
  unfold flushEndTest
  repeat' split
  all_goals first | exact .refl s | exact Inert.trans {} (inert_finishLong _ _ _)

theorem inert_tellFlush (p : Port) (s : State) (op : ParentRef) : Inert s (tellFlush p s op) := by
  unfold tellFlush
  repeat' split
  all_goals first | exact .refl s | exact Inert.trans {} (inert_flushEndTest _)

/-! ## Admission and control commands -/

theorem inert_takeHead (s : State) : Inert s (takeHead s) := by unfold takeHead; split <;> exact {}

theorem inert_managed {p : Parent} {f : State → State} {s : State} (h : Inert s (f s)) : Inert s (managed p f s) := by
  unfold managed; split; exacts [h, inert_answerResult _ _ _ _]

theorem inert_claimWrite (p : Parent) (s : State) : Inert s (claimWrite p s) := by
  have ha : ∀ (m : Initiator) (t : State), Inert t (alertNew m t) := fun m t => by unfold alertNew; split <;> exact {}
  unfold claimWrite doClaim doRelease claimNew
  repeat' split
  all_goals first
    | exact inert_answerResult _ _ _ _
    | exact Inert.trans {} (inert_answerResult _ _ _ _)
    | exact (Inert.trans {} (inert_answerResult _ _ _ _)).trans (ha _ _)

theorem inert_writeAccess (p : Parent) (i : Initiator) (s : State) : Inert s (writeAccess p i s) := by
  unfold writeAccess; split
  · exact inert_answerResult _ _ _ _
  · exact Inert.trans {} (inert_answerResult _ _ _ _)

theorem inert_writeInitiator (p : Parent) (i : Initiator) (s : State) : Inert s (writeInitiator p i s) := by
  unfold writeInitiator
  repeat' split
  all_goals first | exact inert_answerResult _ _ _ _ | exact Inert.trans {} (inert_answerResult _ _ _ _)

end Sys2Proof.Machine
end

