-- ==== Sys2Proof/Laws/Stays.lean ====
section
/-! SUPPORT. What a move of the other units leaves of a port: `PortStays p s t`, and the moves of Issue, Merge, Split and Ports that leave it. -/

-- The package is also compiled as one text: one proof after another keeps the number of Lean's threads small there.
set_option Elab.async false

namespace Sys2Proof.Machine

/-- What a move leaves of a port: its state and what goes with it; empty class queues where nothing may join them (05 R73), and tags that only become FREE where none is issued (05 R76). -/
structure PortStays (p : Port) (s t : State) : Prop where
  state : (t.port p).state = (s.port p).state
  attempts : (t.port p).attempts = (s.port p).attempts
  timer : (t.port p).resetTimer = (s.port p).resetTimer
  pending : (t.port p).pendingReset = (s.port p).pendingReset
  waiters : (t.port p).flushWaiters = (s.port p).flushWaiters
  queues : (s.port p).state = .down ∨ (s.port p).state = .halted → (∀ c : Sys2Proof.Class, (s.port p).queues[c] = []) →
    ∀ c : Sys2Proof.Class, (t.port p).queues[c] = []
  tags : (s.port p).state ≠ .up → ∀ k : DTag, (t.port p).tags[k] = (s.port p).tags[k] ∨ (t.port p).tags[k] = .free

theorem PortStays.same {p : Port} {s t : State} (h : t.port p = s.port p) : PortStays p s t := by
  constructor <;> rw [h]
  · exact fun _ h => h
  · exact fun _ _ => .inl rfl

theorem PortStays.refl (p : Port) (s : State) : PortStays p s s := .same rfl

theorem PortStays.trans {p : Port} {s t u : State} (a : PortStays p s t) (b : PortStays p t u) : PortStays p s u where
  state := b.state.trans a.state
  attempts := b.attempts.trans a.attempts
  timer := b.timer.trans a.timer
  pending := b.pending.trans a.pending
  waiters := b.waiters.trans a.waiters
  queues h he := b.queues (by rw [a.state]; exact h) (a.queues h he)
  tags h k := by
    rcases b.tags (by rw [a.state]; exact h) k with e | e
    · rw [e]; exact a.tags h k
    · exact .inr e

theorem PortStays.foldl {α : Type} {p : Port} {f : State → α → State} (h : ∀ s a, PortStays p s (f s a)) :
    ∀ (l : List α) (s : State), PortStays p s (l.foldl f s)
  | [], s => .refl p s
  | a :: l, s => (h s a).trans (PortStays.foldl h l (f s a))

theorem Inert.stays {s t : State} (h : Inert s t) (p : Port) : PortStays p s t := .same (h.port p)

/-- A move, and then one that touches no port. -/
theorem PortStays.into {p : Port} {s t u : State} (a : PortStays p s t) (h : u.ports = t.ports := by rfl) : PortStays p s u :=
  a.trans (.same (by rw [State.port, h]; rfl))

/-- A move that touches no port, and then one that leaves it. -/
theorem PortStays.after {p : Port} {s t u : State} (b : PortStays p t u) (h : t.ports = s.ports := by rfl) : PortStays p s u :=
  PortStays.trans (.same (by rw [State.port, h]; rfl)) b

/-- Another port's record is not touched. -/
theorem PortStays.ne {p q : Port} (h : p ≠ q) (f : PortRec → PortRec) (s : State) : PortStays p s (updPort q f s) := .same (by simp [h])

/-- A change of one port's record that leaves what goes with its state. -/
theorem PortStays.upd (p q : Port) (f : PortRec → PortRec) {s : State}
    (hq : (s.port q).state = .down ∨ (s.port q).state = .halted → (∀ c : Sys2Proof.Class, (s.port q).queues[c] = []) →
      ∀ c : Sys2Proof.Class, (f (s.port q)).queues[c] = [])
    (ht : (s.port q).state ≠ .up → ∀ k : DTag, (f (s.port q)).tags[k] = (s.port q).tags[k] ∨ (f (s.port q)).tags[k] = .free)
    (h1 : (f (s.port q)).state = (s.port q).state := by rfl) (h2 : (f (s.port q)).attempts = (s.port q).attempts := by rfl)
    (h3 : (f (s.port q)).resetTimer = (s.port q).resetTimer := by rfl) (h4 : (f (s.port q)).pendingReset = (s.port q).pendingReset := by rfl)
    (h5 : (f (s.port q)).flushWaiters = (s.port q).flushWaiters := by rfl) : PortStays p s (updPort q f s) := by
  by_cases h : p = q
  · subst h
    constructor <;> simp only [updPort_port, if_pos]
    exacts [h1, h2, h3, h4, h5, hq, ht]
  · exact .ne h f s

/-! ## Issue (chapter 5) -/

theorem stays_issueEntry {q : Port} (c : Sys2Proof.Class) (n : Nat) (t : DTag) (e : SubRef) (rest : List SubRef) {s : State}
    (h : (s.port q).state = .up) (p : Port) : PortStays p s (issueEntry q c n t e rest s) := by
  have h1 : PortStays p s (updPort q (fun r => { r with queues := put r.queues c rest, passCount := n, tags := put r.tags t (.issued e) }) s) :=
    .upd p q _ (by rw [h]; rintro (h | h) <;> cases h) fun hn => absurd h hn
  unfold issueEntry
  refine PortStays.trans ?_ ((inert_sendSub _ _ _ _).stays p)
  exact h1.into

/-- An issue is made on an UP port only (05 R78). -/
theorem stays_issueOne (p : Port) {q : Port} {s t : State} (h : issueOne q s = some t) : PortStays p s t := by
  unfold issueOne at h
  split at h
  · rename_i hu
    split at h
    · split at h
      · simp at h
      · obtain rfl := Option.some.inj h
        exact stays_issueEntry _ _ _ _ _ hu.1 p
    · simp at h
  · simp at h

theorem stays_issueUpTo (p : Port) : ∀ (n : Nat) (q : Port) (s : State), PortStays p s (issueUpTo n q s)
  | 0, _, s => .refl p s
  | n + 1, q, s => by
    rw [issueUpTo]; split
    · exact .refl p s
    · rename_i t h; exact (stays_issueOne p h).trans (stays_issueUpTo p n q t)

theorem stays_issueTest (q : Port) (s : State) (p : Port) : PortStays p s (issueTest q s) := stays_issueUpTo _ _ _ _

/-- An entry joins a queue of a usable port only (04 R66, 06 R92). -/
theorem stays_joinQueue {e : SubCmd} {s : State} (h : usable s e.port = true) (p : Port) : PortStays p s (joinQueue e s) := by
  refine PortStays.trans (PortStays.upd p e.port _ ?_ fun _ _ => .inl rfl) (stays_issueTest _ _ _)
  intro hd
  simp only [usable, Bool.or_eq_true, beq_iff_eq] at h
  rcases hd with hd | hd <;> rw [hd] at h <;> simp at h

theorem stays_freeTag (q : Port) (t : DTag) (s : State) (p : Port) : PortStays p s (freeTag q t s) :=
  PortStays.upd p q _ (fun _ h => h) fun _ k => by
    show (put _ t _)[k] = _ ∨ (put _ t _)[k] = _
    rw [put_get]; split
    · exact .inr rfl
    · exact .inl rfl

theorem stays_freeQuarantined (q : Port) (s : State) (p : Port) : PortStays p s (freeQuarantined q s) :=
  PortStays.upd p q _ (fun _ h => h) fun _ k => by
    simp only [mapRows_eq, Fin.getElem_fin, Vector.getElem_map]
    split
    · exact .inr rfl
    · exact .inl rfl

/-! ## Merge (chapter 6) -/

theorem retryTarget_usable {p : Parent} {pc : Piece} {c : CopyNo} {s : State} {d : CopyNo × Port × Nat} (h : retryTarget p pc c s = some d) :
    usable s d.2.1 = true := by
  unfold retryTarget at h
  split at h
  · simp at h
  · split at h
    · simp at h
    · split at h
      · rename_i hu
        obtain rfl := Option.some.inj h
        exact hu.2
      · simp at h

theorem stays_mergeRead (e : SubCmd) (x : Parent) (i : Nat) (pc : Piece) (c : CopyNo) (r : Result) (s : State) (p : Port) :
    PortStays p s (mergeRead e x i pc c r s) := by
  have h := (inert_storeRead x pc r s)
  unfold mergeRead
  split
  · rename_i d hd
    have hu : usable s d.2.1 = true := by
      split at hd
      · simp at hd
      · exact retryTarget_usable hd
    refine (h.stays p).trans ?_
    unfold retarget
    refine PortStays.after (stays_joinQueue ?_ p)
    show usable (storeRead x pc r s) d.2.1 = true
    unfold usable; rw [h.port]; exact hu
  · exact (h.stays p).trans (PortStays.after ((inert_endTest _ _).stays p))

theorem stays_mergeResult (e : SubRef) (r : Result) (s : State) (p : Port) : PortStays p s (mergeResult e r s) := by
  unfold mergeResult
  split
  · exact .refl p s
  · split
    · exact .same rfl
    · unfold mergeInto
      repeat' split
      all_goals first
        | exact stays_mergeRead _ _ _ _ _ _ _ _
        | exact .same rfl
        | exact PortStays.after ((inert_endTest _ _).stays p)
        | (unfold mergeWrite
           refine PortStays.trans ?_ ((inert_endTest _ _).stays p)
           refine PortStays.trans (t := resolvePiece _ _ _) ?_ (.same rfl)
           exact PortStays.after ((inert_resolvePiece _ _ _).stays p))

theorem stays_endIssued (q : Port) (k : ResultKind) (s : State) (t : DTag) (p : Port) : PortStays p s (endIssued q k s t) := by
  unfold endIssued
  split
  · exact (stays_freeTag _ _ _ _).trans (stays_mergeResult _ _ _ _)
  · exact .refl p s
  · exact .refl p s

theorem stays_endAllIssued (q : Port) (k : ResultKind) (s : State) (p : Port) : PortStays p s (endAllIssued q k s) :=
  PortStays.foldl (fun _ _ => stays_endIssued _ _ _ _ _) _ s

theorem stays_emptyQueues (q : Port) (k : ResultKind) (s : State) (p : Port) : PortStays p s (emptyQueues q k s) :=
  PortStays.trans (PortStays.upd p q _ (fun _ _ c => by
      show (Vector.replicate 4 ([] : List SubRef))[c] = []
      simp) fun _ _ => .inl rfl)
    (PortStays.foldl (fun _ _ => stays_mergeResult _ _ _ _) _ _)

/-! ## Split (chapter 4) -/

theorem stays_queueNew (s : State) (e : SubCmd) (p : Port) : PortStays p s (queueNew s e) := by
  unfold queueNew; split
  · rename_i h; exact stays_joinQueue h p
  · exact .refl p s

theorem stays_failNew (s : State) (e : SubCmd) (p : Port) : PortStays p s (failNew s e) := by
  unfold failNew; split <;> first | exact stays_mergeResult _ _ _ _ | exact .refl p s

theorem stays_split (x : Parent) (v : Verdict) (s : State) (p : Port) : PortStays p s (split x v s) := by
  have h : ∀ (es : List SubCmd) (t : State), PortStays p t (handOver es t) := fun es t =>
    (PortStays.foldl (fun _ _ => stays_queueNew _ _ _) es t).trans (PortStays.foldl (fun _ _ => stays_failNew _ _ _) es _)
  unfold split
  split
  · exact PortStays.after (h _ _)
  · exact PortStays.after (h _ _)
  · exact .refl p s
  · exact .refl p s

end Sys2Proof.Machine
end

