-- ==== Sys2Proof/Laws/KeepsEvents.lean ====
section
/-! SUPPORT. The events of the target links, admission and aborts keep the laws of Safety.lean. -/

-- The package is also compiled as one text: one proof after another keeps the number of Lean's threads small there.
set_option Elab.async false

namespace Sys2Proof.Machine

/-! ## Resets, halting, link events (chapter 8) -/

theorem keeps_beginReset (p : Port) (s : State) : Keeps s (beginReset p s) := by
  unfold beginReset
  have h1 : Keeps s (updPort p (fun r => { r with state := .resetting, reason := none }) s) :=
    keeps_updPort _ _ _ fun h => ⟨by simp, fun _ => rfl, h.attempts, h.passes, h.window, h.limit, h.transfer⟩
  refine Keeps.trans ((h1.trans (keeps_endAllIssued _ _ _)).trans (keeps_freeQuarantined _ _)) (keeps_sendTrst ?_ (by omega))
  have h2 := (stays_endAllIssued p .reset (updPort p (fun r => { r with state := .resetting, reason := none }) s) p).state
  rw [freeQuarantined, updPort_port, if_pos rfl, h2, updPort_port, if_pos rfl]

theorem keeps_awaitPort (op : ParentRef) (p : Port) (s : State) : Keeps s (awaitPort op p s) :=
  Keeps.trans (t := updPort p (fun r => { r with flushWaiters := r.flushWaiters ++ [op] }) s)
    (keeps_updPort _ _ _ fun h => h.same) (Same.keeps {})

theorem keeps_takeFlushRequest (op : ParentRef) (s : State) (p : Port) : Keeps s (takeFlushRequest op s p) := by
  unfold takeFlushRequest
  split
  · exact .refl s
  · exact keeps_awaitPort _ _ _
  all_goals exact ((keeps_beginReset _ _).trans (keeps_awaitPort _ _ _)).trans (keeps_tryHeads _)

theorem keeps_attachReset (id : ParentRef) (p : Port) (s : State) : Keeps s (attachReset id p s) :=
  (keeps_updPort _ _ _ fun h => h.same).trans (keeps_setState _ _ _)

theorem keeps_takePortReset (id : ParentRef) (p : Port) (s : State) : Keeps s (takePortReset id p s) := by
  unfold takePortReset
  split
  · exact ((keeps_beginReset _ _).trans (keeps_attachReset _ _ _)).trans (keeps_tryHeads _)
  · exact ((keeps_beginReset _ _).trans (keeps_attachReset _ _ _)).trans (keeps_tryHeads _)
  · split; exacts [keeps_attachReset _ _ _, keeps_answerResult _ _ _ _]
  · exact keeps_answerResult _ _ _ _

theorem keeps_haltPort (p : Port) (why : HaltReason) (s : State) : Keeps s (haltPort p why s) :=
  ((keeps_updPort _ _ _ fun h => ⟨by simp, by simp, h.attempts, h.passes, h.window, h.limit, h.transfer⟩).trans
    (keeps_postPort _ _ _ _)).trans (keeps_emptyQueues _ _ _)

theorem keeps_haltingTest (p : Port) (b s : State) : Keeps s (haltingTest p b s) := by
  unfold haltingTest; split; exacts [(keeps_haltPort _ _ _).trans (keeps_tryHeads _), keeps_tryIfFreed _ _]

theorem keeps_takeLinkUp (p : Port) (s : State) : Keeps s (takeLinkUp p s) := by
  unfold takeLinkUp
  split
  · refine Keeps.trans (keeps_updPort p _ s fun h => ?_) (keeps_sendTrst (by simp) (by omega))
    exact ⟨by simp, fun _ => rfl, h.attempts, h.passes, h.window, h.limit, h.transfer⟩
  · exact .refl s

theorem keeps_losePort (p : Port) (s : State) : Keeps s (losePort p s) :=
  ((((((keeps_updPort _ _ _ fun h => ⟨by simp, by simp, h.attempts, h.passes, h.window, h.limit, h.transfer⟩).trans
    (keeps_postPort _ _ _ _)).trans (keeps_endAllIssued _ _ _)).trans (keeps_freeQuarantined _ _)).trans
    (keeps_emptyQueues _ _ _)).trans (keeps_endManagementReset _ _ _)).trans (keeps_endFlushWaiters _ _)

theorem keeps_takeLinkLost (p : Port) (s : State) : Keeps s (takeLinkLost p s) := by
  unfold takeLinkLost; split; exacts [.refl s, (keeps_losePort _ _).trans (keeps_tryHeads _)]

theorem keeps_endReset {p : Port} {s : State} (h : (s.port p).state = .resetting) : Keeps s (endReset p s) := by
  refine ((((Keeps.trans (keeps_updPort p _ s fun hs => ?_) (keeps_postPort _ _ _ _)).trans (keeps_endManagementReset _ _ _)).trans
    (keeps_endFlushWaiters _ _)).trans (keeps_updPort _ _ _ fun hs => ?_)).trans (keeps_issueTest _ _)
  · have := hs.reason
    exact ⟨by simpa [h] using this, by simp, hs.attempts, hs.passes, hs.window, hs.limit, hs.transfer⟩
  · exact ⟨hs.reason, hs.timer, hs.attempts, by simp, hs.window, hs.limit, hs.transfer⟩

theorem keeps_takeTrdy (p : Port) (s : State) : Keeps s (takeTrdy p s) := by
  unfold takeTrdy
  split
  · rename_i h; exact keeps_endReset h
  all_goals exact .refl s

theorem keeps_resetFailed (p : Port) (s : State) : Keeps s (resetFailed p s) :=
  (((keeps_haltPort _ _ _).trans (keeps_endManagementReset _ _ _)).trans (keeps_endFlushWaiters _ _)).trans (keeps_tryHeads _)

theorem keeps_takeResetTimer (p : Port) (s : State) : Keeps s (takeResetTimer p s) := by
  unfold takeResetTimer
  split
  · rename_i h
    split
    · exact keeps_sendTrst (by simp only [resetTimerDue, Bool.and_eq_true, beq_iff_eq] at h; exact h.1) (by omega)
    · exact keeps_resetFailed _ _
  · exact .refl s

/-! ## Deadlines and TCPLs (chapter 7) -/

theorem keeps_expire (p : Port) (t : DTag) (e : SubCmd) (s : State) : Keeps s (expire p t e s) :=
  (((keeps_quarantineTag _ _ _).trans (keeps_post _ _)).trans (keeps_mergeResult _ _ _)).trans (keeps_haltingTest _ _ _)

theorem keeps_takeDeadline (p : Port) (t : DTag) (s : State) : Keeps s (takeDeadline p t s) := by
  unfold takeDeadline
  split
  · exact .refl s
  · split; exacts [keeps_expire _ _ _ _, .refl s]

theorem keeps_takeTcpl (p : Port) (f : TcplFrame) (s : State) : Keeps s (takeTcpl p f s) := by
  have ht : Keeps s (takeTagged p f s) := by
    unfold takeTagged
    split
    · exact keeps_postTag _ _ _ _
    · split
      · exact keeps_postTag _ _ _ _
      · exact ((keeps_freeTag _ _ _).trans (keeps_postTag _ _ _ _)).trans (keeps_issueTest _ _)
      · split
        · exact keeps_freeTag _ _ _
        · exact (((keeps_freeTag _ _ _).trans (keeps_mergeResult _ _ _)).trans (keeps_issueTest _ _)).trans (keeps_tryIfFreed _ _)
  unfold takeTcpl
  split <;> first | exact ht | exact .refl s

/-- Parameters in their ranges keep the laws (05 R85, 08 R133). -/
theorem keeps_setParameters {p : Port} {w l m : Nat} (hw : 1 ≤ w ∧ w ≤ 16) (hl : 10 ≤ l ∧ l ≤ 60000) (hm : 8 ≤ m ∧ m ≤ 1024) (s : State) :
    Keeps s (setParameters p w l m s) := by
  have h : Keeps s (writeParameters p w l m s) :=
    keeps_updPort _ _ _ fun hs => ⟨hs.reason, hs.timer, hs.attempts, hs.passes, hw, hl, hm⟩
  unfold setParameters
  repeat' split
  · exact h
  · exact (h.trans (keeps_haltingTest _ _ _)).trans (keeps_issueTest _ _)
  · exact h.trans (keeps_haltingTest _ _ _)

end Sys2Proof.Machine
end

