-- ==== Sys2Proof/Laws/KeepsCommands.lean ====
section
/-! SUPPORT. Admission, ordering, aborts, the execution of control commands, link loss and the reports keep the laws of Safety.lean. -/

-- The package is also compiled as one text: one proof after another keeps the number of Lean's threads small there.
set_option Elab.async false

namespace Sys2Proof.Machine

/-! ## Admission (02 R30 to R36) -/

/-- What checks 2 to 12 have found when none fails (02 R30). -/
structure Passed (f : CmdFields) (s : State) : Prop where
  notBarred : s.initiators[f.initiator].barred = false
  newKey : keyHeld f.initiator f.tag s = false
  operation : operationOk f = true
  count : countOk f = true
  volume : volumeChecks f s = none
  entry : s.parents.length < 128
  credit : s.initiators[f.initiator].liveCount < s.initiators[f.initiator].credit
  queue : f.volume = 0 → s.controlQueue.length < 8
  slots : slotsNeeded f ≤ s.freeSlots

theorem passed_of_laterChecks {f : CmdFields} {s : State} (h : laterChecks f s = none) : Passed f s := by
  unfold laterChecks at h
  split at h; · simp at h
  rename_i h1
  split at h; · simp at h
  rename_i h2
  split at h; · simp at h
  rename_i h3
  split at h; · simp at h
  rename_i h4
  split at h; · simp at h
  rename_i h5
  unfold resourceChecks at h
  split at h; · simp at h
  rename_i h6
  split at h; · simp at h
  rename_i h7
  split at h; · simp at h
  rename_i h8
  split at h; · simp at h
  rename_i h9
  exact ⟨by simpa using h1, by simpa using h2, by simpa using h3, by simpa using h4, h5, by omega, by omega,
    fun hv => by by_contra hc; exact h8 ⟨hv, by omega⟩, by omega⟩

/-- An admitted parent's slots are those of R28 (02 R28, R29, R32). -/
theorem admittedSlots_length {f : CmdFields} (hs : shapeOk f = true) : (admittedSlots f).length = slotsNeeded f := by
  unfold admittedSlots
  split
  · rename_i h
    simp only [shapeOk, h, if_true] at hs
    simp only [slotsNeeded, h, List.length_map]
    split at hs <;> simp_all
  · simp

theorem slotsNeeded_eq (f : CmdFields) : slotsNeeded f = slotHolding f.volume f.op f.count := by
  unfold slotsNeeded slotHolding; cases h : f.op <;> simp

theorem CommandTableLaw.admitted {f : CmdFields} {s : State} (hs : shapeOk f = true) (h : Passed f s) :
    CommandTableLaw s → CommandTableLaw (admitEntry f s) := by
  rintro ⟨hl, ⟨ho, hn⟩, hk, ⟨hh, hf⟩, hc⟩
  have hlen : (admittedParent f s.nextParent).slots.length = slotsNeeded f := admittedSlots_length hs
  refine ⟨?_, ⟨?_, ?_⟩, ?_, ⟨?_, ?_⟩, ?_⟩
  · have := h.entry; simp only [admitEntry, setLive_parents, List.length_append, List.length_singleton]; omega
  · simp only [admitEntry, setLive_parents, List.pairwise_append, ho, List.pairwise_singleton, List.mem_singleton, true_and, forall_eq]
    exact hn
  · simp only [admitEntry, setLive_parents, setLive_nextParent, List.mem_append, List.mem_singleton]
    rintro p (hp | rfl)
    · exact (hn p hp).trans (Nat.lt_succ_self _)
    · exact Nat.lt_succ_self _
  · simp only [KeyLaw, admitEntry, setLive_parents, List.pairwise_append, List.pairwise_singleton, List.mem_singleton, true_and,
      forall_eq]
    refine ⟨hk, fun p hp he => ?_⟩
    have := h.newKey
    simp only [keyHeld, List.any_eq_false, Bool.and_eq_true, beq_iff_eq] at this
    exact this p hp he
  · simp only [admitEntry, setLive_parents, List.mem_append, List.mem_singleton]
    rintro p (hp | rfl)
    · exact hh p hp
    · rw [hlen, slotsNeeded_eq]; rfl
  · have := h.slots
    simp only [admitEntry, setLive_parents, setLive_freeSlots, List.map_append, List.map_cons, List.map_nil, List.sum_append,
      List.sum_cons, List.sum_nil, hlen]
    omega
  · intro i
    have h6 := hc i
    simp only [admitEntry, setLive_parents, setLive_initiators, put_get, List.countP_append, List.countP_singleton]
    by_cases hi : i = f.initiator
    · subst hi; rw [if_pos rfl, if_pos (by simp [admittedParent])]; simp only; omega
    · rw [if_neg hi, if_neg (show ¬ ((admittedParent f s.nextParent).initiator == i) = true from fun h => hi (beq_iff_eq.1 h).symm)]
      exact h6

/-- Check 6: a data volume that admits is ONLINE or SWITCHING (02 R33). -/
theorem Passed.exists {f : CmdFields} {s : State} (h : Passed f s) (hv : f.volume ≠ 0) : (s.vol f.volume).state ≠ .absent := by
  intro ha
  have := h.volume
  unfold volumeChecks at this
  rw [if_neg hv, if_pos (by simp [volumeOk, ha])] at this
  simp at this

/-- The entry of a control parent keeps the laws (02 R35). -/
theorem keeps_admitControl {f : CmdFields} {s : State} (hs : shapeOk f = true) (h : Passed f s) (hv : f.volume = 0) : Keeps s (admitEntry f s) :=
  { (Same.keeps (t := { s with linkUp := s.linkUp }) {} : Keeps s s) with
    table := CommandTableLaw.admitted hs h
    counts := fun hc => ⟨fun v h0 => by
      have := hc.1 v h0
      simp only [admitEntry, setLive_parents, setLive_mapReports, List.countP_append, List.countP_singleton]
      rw [if_neg (by simpa [admittedParent, hv] using fun h => h0 h.symm)]
      exact this, hc.2⟩ }

/-- The entry of a data parent, with its admission report, keeps the laws (01 R9, 02 R35). -/
theorem keeps_admitData {f : CmdFields} {s : State} (hs : shapeOk f = true) (h : Passed f s) :
    Keeps s (updVol f.volume (fun r => { r with liveParents := r.liveParents + 1 }) (admitEntry f s)) :=
  { (Same.keeps (t := { s with linkUp := s.linkUp }) {} : Keeps s s) with
    table := CommandTableLaw.admitted hs h
    pool := .put f.volume (fun r => { r with liveParents := r.liveParents + 1 }) rfl fun hp => ⟨hp, rfl⟩
    maps := .put f.volume (fun r => { r with liveParents := r.liveParents + 1 }) rfl fun hm => ⟨hm.absent, hm.sorted, hm.apart, hm.sound, hm.validated⟩
    counts := fun hc => ⟨fun v h0 => by
      have := hc.1 v h0
      show ((put s.volumes f.volume _)[v]).liveParents = (s.parents ++ [_]).countP _ + _
      rw [put_get, List.countP_append, List.countP_singleton]
      split
      · rename_i e; subst e
        rw [if_pos (by simp [admittedParent])]
        simp only [State.vol, updVol_mapReports, admitEntry, setLive_mapReports, setLive_volumes] at this ⊢
        omega
      · rename_i e
        rw [if_neg (by simpa [admittedParent] using fun h => e h.symm)]
        exact this, fun v hv => hc.2 v (by
      have h1 : ((put s.volumes f.volume { s.volumes[f.volume] with liveParents := s.volumes[f.volume].liveParents + 1 })[v]).state = .absent := hv
      rw [put_get] at h1
      split at h1
      · rename_i e; subst e; exact h1
      · exact h1)⟩ }

theorem keeps_startLease (s : State) : Keeps s (startLease s) :=
  { (Same.keeps (t := { startLease s with leaseTimer := s.leaseTimer }) {} : Keeps s _) with
    manager := fun h => ⟨h.1, h.2.1, fun h0 => by simp [startLease, show s.lease = 0 from h0]⟩ }

theorem keeps_takeHead (s : State) : Keeps s (takeHead s) := by
  unfold takeHead
  split
  · rename_i id rest _ hq
    exact (Same.keeps (t := { s with controlQueue := rest, executing := some id }) { queue := by simp [hq] }).trans (keeps_setState _ _ _)
  · exact .refl s
  · exact .refl s

/-- A control parent joins a queue with room (02 R34, 09 R136). -/
theorem keeps_handControl {id : ParentRef} {s : State} (h : s.controlQueue.length < 8) : Keeps s (handControl id s) := by
  refine Keeps.trans (t := { s with controlQueue := s.controlQueue ++ [id] }) ?_ (keeps_takeHead _)
  exact { (Same.keeps (t := { s with linkUp := s.linkUp }) {} : Keeps s s) with
    bounds := fun hb => ⟨hb.1, by simpa using h⟩ }

theorem keeps_holdParent (p : Parent) (k : HoldKind) (s : State) : Keeps s (holdParent p k s) :=
  (Same.keeps {}).trans (keeps_setState _ _ _)

theorem keeps_enterPhase2 (id : ParentRef) (s : State) : Keeps s (enterPhase2 id s) :=
  keeps_updParent _ (fun p => by split <;> exact {}) _

theorem keeps_release (id : ParentRef) (s : State) : Keeps s (release id s) :=
  (keeps_enterPhase2 _ _).trans (keeps_arrive _ _)

/-- An entry joins the list of a volume that is not ABSENT (03 R40). -/
theorem keeps_appendRange {p : Parent} {s : State} (hv : (s.vol p.volume).state ≠ .absent) : Keeps s (appendRange p s) :=
  { (Same.keeps (t := { s with linkUp := s.linkUp }) {} : Keeps s s) with
    counts := fun h => ⟨h.1, fun w hw => by
      show (put s.ranges p.volume _)[w] = []
      rw [put_get, if_neg fun e => hv (by subst e; exact hw)]
      exact h.2 w hw⟩ }

theorem keeps_handRange {p : Parent} {s : State} (hv : (s.vol p.volume).state ≠ .absent) : Keeps s (handRange p s) := by
  unfold handRange
  have h := keeps_appendRange hv
  split
  · exact h.trans (keeps_holdParent _ _ _)
  · exact h.trans (keeps_release _ _)

theorem keeps_handDrain (p : Parent) (s : State) : Keeps s (handDrain p s) := by
  unfold handDrain; split; exacts [keeps_holdParent _ _ _, keeps_release _ _]

/-- Admission, with the hand-off, keeps the laws (02 R35, R36). -/
theorem keeps_admitCmd {f : CmdFields} {s : State} (hs : shapeOk f = true) (h : Passed f s) : Keeps s (admitCmd f s) := by
  unfold admitCmd handOn
  split
  · rename_i hv
    refine (keeps_admitControl hs h hv).trans ?_
    split
    · exact (keeps_startLease _).trans (keeps_handControl (h.queue hv))
    · exact keeps_handControl (h.queue hv)
  · rename_i hv
    split
    · exact (keeps_admitData hs h).trans (keeps_handDrain _ _)
    · refine (keeps_admitData hs h).trans (keeps_handRange ?_)
      show ((put s.volumes f.volume _)[f.volume]).state ≠ .absent
      rw [put_get_self]; exact h.exists hv

theorem keeps_takeCmd (i : Initiator) (f : CmdFrame) (s : State) : Keeps s (takeCmd i f s) := by
  unfold takeCmd
  split
  · exact keeps_emit _ _
  · split
    · exact keeps_emit _ _
    · rename_i hs
      split
      · exact keeps_emit _ _
      · rename_i hp
        exact keeps_admitCmd (by simpa using hs) (passed_of_laterChecks hp)

theorem keeps_takeOrderReport (r : OrderReport) (s : State) : Keeps s (takeOrderReport r s) := by
  unfold takeOrderReport
  refine Keeps.trans ?_ (Keeps.foldl (fun _ _ => keeps_release _ _) _ _)
  exact { (Same.keeps (t := { s with linkUp := s.linkUp }) {} : Keeps s s) with
    counts := fun h => ⟨h.1, fun w hw => by
      show (put s.ranges r.volume _)[w] = []
      rw [put_get]; split
      · rename_i e; subst e; rw [h.2 _ hw]; rfl
      · exact h.2 w hw⟩ }

theorem keeps_takeAbt (i : Initiator) (t : Byte) (s : State) : Keeps s (takeAbt i t s) := by
  unfold takeAbt
  split
  · exact keeps_emit _ _
  · rename_i p _
    have h : Keeps s (abortReply i t (abortStatus p.state) (abortParent p s)) := (keeps_abortParent _ _).trans (keeps_emit _ _)
    unfold tryAfterAbort; split; exacts [h.trans (keeps_tryHeads _), h]

/-! ## Control commands (chapter 9) -/

theorem keeps_managed {p : Parent} {f : State → State} (h : ∀ s, Keeps s (f s)) (s : State) : Keeps s (managed p f s) := by
  unfold managed; split; exacts [h s, keeps_answerResult _ _ _ _]

/-- An execution event keeps the laws when what its row picks keeps them. -/
theorem keeps_execute {pick : Parent → Option (State → State)} (h : ∀ p f, pick p = some f → ∀ s, Keeps s (f s)) (s : State) :
    Keeps s (execute pick s) := by
  unfold execute
  split
  · exact .refl s
  · split
    · exact .refl s
    · rename_i f hf
      exact (h _ f hf s).trans ((Same.keeps {} : Keeps _ _).trans (keeps_takeHead _))

theorem freeParent_manager (id : ParentRef) (s : State) : (freeParent id s).manager = s.manager := by
  unfold freeParent reportFree; repeat' split
  all_goals rfl

theorem answerResult_manager (id : ParentRef) (st : Status) (d : Nat) (s : State) : (answerResult id st d s).manager = s.manager := by
  unfold answerResult answer answerFromSlot; split
  · rfl
  · unfold complete; split
    · rfl
    · exact freeParent_manager _ _

theorem keeps_claimWrite (p : Parent) (s : State) : Keeps s (claimWrite p s) := by
  unfold claimWrite
  split
  · split
    · exact keeps_answerResult _ _ _ _
    · rename_i hl
      unfold doClaim
      split
      · unfold claimNew alertNew
        have h1 : Keeps s (startLease { s with manager := some p.initiator, lease := (word16At (writeData p) 2).toNat, alert := .armed }) :=
          { (Same.keeps (t := { startLease s with leaseTimer := s.leaseTimer }) {} : Keeps s _) with
            manager := fun _ => ⟨by simp only [startLease]; omega, fun hn => by simp [startLease] at hn,
              fun h0 => by simp only [startLease] at h0 ⊢; simp [h0]⟩ }
        have h2 := h1.trans (keeps_answerResult p.id .good 0 _)
        split
        · exact h2
        · exact h2.trans (keeps_sendAlr _ _ (by rw [answerResult_manager]; simp [startLease]))
      · split
        · refine Keeps.trans ?_ (keeps_answerResult _ _ _ _)
          exact { (Same.keeps (t := { startLease s with leaseTimer := s.leaseTimer }) {} : Keeps s _) with
            manager := fun hm => ⟨by simp only [startLease]; omega, fun hn => by simp_all [startLease],
              fun h0 => by simp only [startLease] at h0 ⊢; simp [h0]⟩ }
        · exact keeps_answerResult _ _ _ _
  · split
    · unfold doRelease
      split
      · refine Keeps.trans ?_ (keeps_answerResult _ _ _ _)
        exact { (Same.keeps (t := { s with linkUp := s.linkUp }) {} : Keeps s s) with
          manager := fun _ => ⟨by simp, fun _ => ⟨rfl, rfl⟩, fun _ => rfl⟩ }
      · exact keeps_answerResult _ _ _ _
    · exact keeps_answerResult _ _ _ _

theorem keeps_volumeWrite (p : Parent) (v : Volume) (s : State) : Keeps s (volumeWrite p v s) := by
  have h : (word32At (writeData p) 4).toNat ≤ 4294967295 := by
    have := (word32At (writeData p) 4).isLt; omega
  unfold volumeWrite
  repeat' split
  all_goals first
    | exact keeps_takeDefine _ _ _ _ _ h
    | exact keeps_takeRemove _ _ _
    | exact keeps_answerResult _ _ _ _

theorem keeps_stageWrite (p : Parent) (v : Volume) (s : State) : Keeps s (stageWrite p v s) := by
  unfold stageWrite
  repeat' split
  all_goals first
    | exact keeps_takeStage _ _ _ _ _
    | exact keeps_takeClear _ _ _
    | exact keeps_answerResult _ _ _ _

theorem keeps_takeNotices (s : State) : Keeps s (takeNotices s) := by
  refine { (Same.keeps (t := { s with linkUp := s.linkUp }) {} : Keeps s s) with notices := ?_, manager := ?_ }
  · rintro ⟨hl, _, hs⟩
    refine ⟨by simp only [takeNotices, List.length_drop]; omega, by simp [takeNotices], ?_⟩
    simp only [takeNotices, List.map_drop, List.length_drop, hs]
    refine List.ext_getElem (by simp) fun j h1 h2 => ?_
    simp only [List.getElem_drop, List.getElem_map, List.getElem_range]
    congr 2
    simp only [List.length_map, List.length_range] at h2
    omega
  · rintro ⟨h1, h2, h3⟩
    refine ⟨h1, fun hn => ⟨(h2 hn).1, ?_⟩, h3⟩
    simp only [takeNotices]; split; exacts [rfl, (h2 hn).2]

theorem keeps_writeAccess (p : Parent) (i : Initiator) (s : State) : Keeps s (writeAccess p i s) := by
  unfold writeAccess
  split
  · exact keeps_answerResult _ _ _ _
  · exact (Same.keeps {}).trans (keeps_answerResult _ _ _ _)

theorem keeps_writeInitiator (p : Parent) (i : Initiator) (s : State) : Keeps s (writeInitiator p i s) := by
  unfold writeInitiator
  split
  · exact keeps_answerResult _ _ _ _
  · split
    · exact keeps_answerResult _ _ _ _
    · refine Keeps.trans ?_ (keeps_answerResult _ _ _ _)
      refine { (Same.keeps (t := { s with linkUp := s.linkUp }) {} : Keeps s s) with table := ?_ }
      rintro ⟨hl, ho, hk, hs, hc⟩
      refine ⟨hl, ho, hk, hs, fun j => ?_⟩
      have := hc j
      simp only [put_get]
      split
      · subst j; exact this
      · exact this

theorem keeps_writePort (p : Parent) (d : Port) (s : State) : Keeps s (writePort p d s) := by
  unfold writePort
  split
  · exact keeps_answerResult _ _ _ _
  · rename_i h
    refine Keeps.trans (keeps_setParameters ?_ ?_ ?_ s) (keeps_answerResult _ _ _ _) <;>
      (unfold parameterFault at h; repeat' split at h) <;> simp_all <;> omega

theorem keeps_doFlushAll (id : ParentRef) (s : State) : Keeps s (doFlushAll id s) := by
  unfold doFlushAll
  split
  · exact keeps_answerResult _ _ _ _
  · refine Keeps.trans ?_ (keeps_tryIfFreed _ _)
    refine Keeps.trans (t := { s with flush := some { op := id, parent := some id, awaited := [] } }) (Same.keeps {}) ?_
    unfold flushSteps
    refine Keeps.trans (Keeps.trans (Keeps.trans (Keeps.foldl (f := flushParent) (fun t p => ?_) _ _) (Keeps.foldl (keeps_takeFlushRequest id) _ _))
      (keeps_setState _ _ _)) (keeps_flushEndTest _)
    unfold flushParent; split; exacts [.refl t, keeps_abortParent _ _]

/-! ## Link loss, reports and timers -/

theorem keeps_discard (s : State) (p : Parent) : Keeps s (discard s p) := by
  unfold discard
  split <;> first
    | exact (keeps_leaveWait _ _).trans (keeps_freeParent _ _)
    | exact .refl s
    | exact Keeps.trans (t := { s with executing := none }) (Same.keeps {}) (keeps_freeParent _ _)
    | (unfold reportGone; split <;> exact (keeps_freeParent _ _).trans (Same.keeps {}))
    | (unfold discardRunning; split
       · exact (keeps_removeQueued _ _).trans (keeps_setState _ _ _)
       · exact (keeps_removeQueued _ _).trans (keeps_freeParent _ _))

theorem keeps_clearManager (s : State) : Keeps s (clearManager s) :=
  { (Same.keeps (t := { s with linkUp := s.linkUp }) {} : Keeps s s) with
    manager := fun _ => ⟨by simp [clearManager], fun _ => ⟨rfl, rfl⟩, fun _ => rfl⟩ }

theorem keeps_takeUpstreamLoss (s : State) : Keeps s (takeUpstreamLoss s) := by
  unfold takeUpstreamLoss
  split
  · have h : Keeps s (clearManager (s.parents.foldl discard { s with linkUp := false })) :=
      (Keeps.trans (t := { s with linkUp := false }) (Same.keeps {}) (Keeps.foldl keeps_discard _ _)).trans (keeps_clearManager _)
    unfold postDiscarded; split; exacts [h, h.trans (keeps_post _ _)]
  · exact .refl s

theorem keeps_sendOutbound (s : State) : Keeps s (sendOutbound s) := by
  unfold sendOutbound; split
  · exact .refl s
  · split; exacts [Same.keeps {}, .refl s]

theorem keeps_takeLeaseExpiry (s : State) : Keeps s (takeLeaseExpiry s) := by
  unfold takeLeaseExpiry; split; exacts [(keeps_clearManager s).trans (keeps_post _ _), .refl s]

theorem keeps_takeGonePort (g : GonePort) (s : State) : Keeps s (takeGonePort g s) :=
  keeps_updPort _ _ _ fun h => by split; exacts [h.same, h]

end Sys2Proof.Machine
end

