-- ==== Sys2Proof/Laws/Admission.lean ====
section
/-! SUPPORT. The admission of a CMD as a whole: its fields, its checks, its entry and its hand-off. -/

-- The package is also compiled as one text: one proof after another keeps the number of Lean's threads small there.
set_option Elab.async false

namespace Sys2Proof.Machine

theorem payloadBlocks_none {l : List Byte} (h : l.length % 512 ≠ 0) : payloadBlocks l = none := by
  unfold payloadBlocks; rw [if_neg h]

theorem payloadBlocks_length {l : List Byte} {bs} (h : payloadBlocks l = some bs) : bs.length = l.length / 512 := by
  unfold payloadBlocks at h; split at h
  · cases h; simp
  · simp at h

theorem initiatorOf_eq {b : Byte} {i : Initiator} (h : b.toNat = i.val) : initiatorOf b = some i := by
  unfold initiatorOf; rw [dif_pos (by omega)]; simp [h]

theorem initiatorOf_none {b : Byte} (h : 16 ≤ b.toNat) : initiatorOf b = none := by
  unfold initiatorOf; rw [dif_neg (by omega)]

theorem min_1024 (n : Nat) : min n 1024 = if 1024 < n then 1024 else n := by rw [Nat.min_def]; split <;> split <;> omega

/-- The fields of a CMD that the part takes (10 R157). -/
theorem cmdFields_taken {s f i v op c} (h : Taken s f i v op c) : cmdFields i f = some
    { initiator := i, tag := f.tag, volume := v, op := op, cls := c, start := f.start.toNat, count := f.count.toNat, payload := f.payload } := by
  unfold cmdFields
  rw [show volumeOf f.volume = some v by unfold volumeOf; rw [dif_pos (by have := h.volume; omega)]; simp [h.volume],
    h.operation, show classOf f.cls = some c by unfold classOf; rw [dif_pos (by have := h.cls; omega)]; simp [h.cls]]
  simp [h.count]

/-- A CMD that the part takes goes through the admission checks (02 R30). -/
theorem exec_cmd_taken {s f i v op c} (h : Taken s f i v op c) : exec (.cmd f) s = .next (takeCmd i f s) := by
  simp only [exec, execCmd, receiveCmd, initiatorOf_eq h.initiator, h.link, h.fits, and_self, if_true]

/-- The fields of a CMD that the part takes. -/
abbrev takenFields (f : CmdFrame) (i : Initiator) (v : Volume) (op : Op) (c : Sys2Proof.Class) : CmdFields :=
  { initiator := i, tag := f.tag, volume := v, op := op, cls := c, start := f.start.toNat, count := f.count.toNat, payload := f.payload }

theorem first_check (b : Bool) (st : Status) (l : List (Bool × Status)) :
    Option.map Prod.snd (List.find? Prod.fst ((b, st) :: l)) = if b then some st else Option.map Prod.snd (List.find? Prod.fst l) := by
  cases b <;> simp

theorem ite_iff {α : Type} {P : Prop} [Decidable P] {b : Bool} {x x' y y' : α} (h : (b = true) ↔ P) (hx : x = x') (hy : y = y') :
    (if P then x else y) = (if b = true then x' else y') := by subst hx hy; by_cases hp : P <;> simp [hp, h]

/-- The admission checks as the part makes them give the first failure of the list of checks (02 R30). -/
theorem checks_eq {s f i v op c} (h : Taken s f i v op c) :
    (if ¬ shapeOk (takenFields f i v op c) then some Status.malformed else laterChecks (takenFields f i v op c) s) = firstFailure s i v op f := by
  unfold firstFailure admissionChecks
  simp only [first_check]
  refine ite_iff ?_ rfl ?_
  · unfold shapeOk; simp only
    cases op <;> by_cases hv : v = 0 <;> simp [hv]
  unfold laterChecks
  refine ite_iff Iff.rfl rfl (ite_iff Iff.rfl rfl (ite_iff ?_ rfl (ite_iff ?_ rfl ?_)))
  · unfold operationOk; simp only; cases (v == 0 && (op == .verify || op == .drain)) <;> simp
  · unfold countOk; simp only
    by_cases hv : v = 0 <;> by_cases hd : op = .drain <;> simp [hv, hd] <;> (constructor <;> intro h1 <;> by_contra h2 <;> omega)
  have hres : resourceChecks (takenFields f i v op c) s =
    if decide (128 ≤ s.parents.length) = true then some Status.tableBusy
    else if decide (s.initiators[i].credit ≤ s.initiators[i].liveCount) = true then some Status.creditExceeded
    else if (v == 0 && decide (8 ≤ s.controlQueue.length)) = true then some Status.controlBusy
    else if decide (s.freeSlots < slotHolding v op f.count.toNat) = true then some Status.noBuffer
    else Option.map Prod.snd (List.find? Prod.fst ([] : List (Bool × Status))) := by
    unfold resourceChecks
    rw [slotsNeeded_eq]
    exact ite_iff (by simp) rfl (ite_iff (by simp) rfl (ite_iff (by simp) rfl (ite_iff (by simp) rfl rfl)))
  rw [← hres]
  generalize resourceChecks (takenFields f i v op c) s = R
  unfold volumeChecks volumeOk rightsCheck rangeOk noRights
  by_cases hv : v = 0
  · simp [hv]
  · have hb : (v != 0) = true := by simpa using hv
    simp only [hv, if_false, hb, Bool.true_and]
    by_cases h0 : (s.vol v).capacity.getD 0 < f.start.toNat + f.count.toNat <;>
      cases (s.vol v).state <;> cases s.access[i][v] <;> cases op <;> cases (s.vol v).writeProtected <;>
        simp [h0, Nat.not_le.2, Nat.not_lt.1]

/-- A CMD that passes every check is admitted (02 R35). -/
theorem exec_cmd_admitted {s f i v op c} (h : Taken s f i v op c) (hf : firstFailure s i v op f = none) :
    exec (.cmd f) s = .next (admitCmd (takenFields f i v op c) s) ∧ shapeOk (takenFields f i v op c) = true := by
  rw [exec_cmd_taken h]
  have hc := checks_eq h
  rw [hf] at hc
  simp only [takeCmd, cmdFields_taken h]
  split at hc
  · cases hc
  · rename_i hs; rw [if_neg hs, hc]; exact ⟨rfl, by simpa using hs⟩

/-- Steps 1 to 4 of admission, as a whole (02 R35). -/
theorem admitEntry_eq {s : State} {f i v op c} (hs : shapeOk (takenFields f i v op c) = true) :
    admittedParent (takenFields f i v op c) s.nextParent = newParent s f i v op c (if v = 0 then .controlWait else .orderWait)
    ∧ admitEntry (takenFields f i v op c) s = withParent (newParent s f i v op c (if v = 0 then .controlWait else .orderWait)) s := by
  have h1 : admittedSlots (takenFields f i v op c) = (newParent s f i v op c (if v = 0 then .controlWait else .orderWait)).slots := by
    unfold admittedSlots newParent; rw [slotsNeeded_eq]
  have h2 : admittedParent (takenFields f i v op c) s.nextParent = newParent s f i v op c (if v = 0 then .controlWait else .orderWait) := by
    unfold admittedParent newParent admittedSlots; rw [slotsNeeded_eq]
  refine ⟨h2, ?_⟩
  unfold admitEntry withParent setLive
  rw [h2, ← h1, admittedSlots_length hs]
  rfl

theorem map_other {l : List Parent} {id : ParentRef} {g : Parent → Parent} (h : ∀ p ∈ l, p.id ≠ id) : (l.map fun p => if p.id = id then g p else p) = l := by
  conv_rhs => rw [← List.map_id l]
  apply List.map_congr_left
  intro p hp; simp [h p hp]

theorem nextParent_fresh {s : State} (h : AdmissionOrder s) : ∀ p ∈ s.parents, p.id ≠ s.nextParent := fun p hp => Nat.ne_of_lt (h.2 p hp)

theorem find_appended {l : List RangeEntry} {x : RangeEntry} (h : ∀ e ∈ l, e.parent ≠ x.parent) : (l ++ [x]).find? (fun e => e.parent == x.parent) = some x := by
  rw [List.find?_append, List.find?_eq_none.2 (by simpa using h)]; simp

theorem earlier_appended {l : List RangeEntry} {x : RangeEntry} (h : ∀ e ∈ l, e.parent ≠ x.parent) : earlier x.parent (l ++ [x]) = l := by
  unfold earlier; rw [List.takeWhile_append_of_pos (by simpa using h)]; simp

theorem rangeHeld_appended {l : List RangeEntry} {x : RangeEntry} (h : ∀ e ∈ l, e.parent ≠ x.parent) :
    rangeHeld (l ++ [x]) x.parent = l.any (conflicts x.op x.start x.count) := by
  unfold rangeHeld; rw [find_appended h, earlier_appended h]

theorem conflicts_iff {op : Op} {a b : Nat} {e : RangeEntry} : conflicts op a b e = true ↔ a < e.start + e.count ∧ e.start < a + b ∧ (op = .write ∨ e.op = .write) := by
  simp [conflicts, overlap, and_assoc]

/-- The admission of a READ, WRITE or VERIFY up to its hand-off (02 R35, 03 R43). -/
theorem admit_range {s : State} {f i v op c} (hv : v ≠ 0) (hd : op ≠ .drain) (hs : shapeOk (takenFields f i v op c) = true) :
    admitCmd (takenFields f i v op c) s = handRange (newParent s f i v op c .orderWait) (withLiveParent v (withParent (newParent s f i v op c .orderWait) s)) := by
  obtain ⟨h2, h3⟩ := admitEntry_eq (s := s) hs
  rw [if_neg hv] at h2 h3
  unfold admitCmd
  rw [h2, h3]
  unfold handOn
  rw [if_neg (show (newParent s f i v op c .orderWait).volume ≠ 0 from hv), if_neg (show (newParent s f i v op c .orderWait).op ≠ .drain from hd)]
  rfl

/-- An admitted command is held exactly when an entry of the list conflicts with it (03 R42, R43). -/
theorem rangeHeld_new {s : State} {f i v op c} (ho : OrderLaw s) :
    rangeHeld (appendRange (newParent s f i v op c .orderWait) (withLiveParent v (withParent (newParent s f i v op c .orderWait) s))).ranges[v] s.nextParent
      = s.ranges[v].any (conflicts op f.start.toNat f.count.toNat) := by
  have := rangeHeld_appended (l := s.ranges[v]) (x := { parent := s.nextParent, op := op, start := f.start.toNat, count := f.count.toNat })
    (fun e he => Nat.ne_of_lt (ho.known v e he))
  rw [← this]
  congr 1
  simp [appendRange, newParent, withLiveParent, withParent, put]

/-- The walk stops at or before a block that no extent maps (04 R57, R59). -/
theorem walkRuns_hole : ∀ (l : List Extent) (k pos stop b : Nat), pos ≤ b → b < stop → (∀ x ∈ l, b < x.first.toNat ∨ x.first.toNat + x.length.toNat ≤ b) →
    (walkRuns k l pos stop).2 ≤ b
  | [], _, _, _, _, h, _, _ => h
  | x :: l, k, pos, stop, b, h, hb, hx => by
    have hl := fun y hy => hx y (List.mem_cons_of_mem _ hy)
    have hx0 := hx x (List.mem_cons_self ..)
    unfold walkRuns
    split
    · rename_i hc
      simp only
      have : pos ≥ x.first.toNat := by have := hc.2; simp [Extent.contains] at this; exact this.1
      refine walkRuns_hole l _ _ _ _ ?_ hb hl
      unfold Extent.stop; omega
    · exact walkRuns_hole l _ _ _ _ h hb hl

theorem parent_new {s : State} {f i v op c} (ho : OrderLaw s) :
    (appendRange (newParent s f i v op c .orderWait) (withLiveParent v (withParent (newParent s f i v op c .orderWait) s))).parent? s.nextParent
      = some (newParent s f i v op c .orderWait) := by
    unfold State.parent?
    simp only [appendRange, withLiveParent, withParent]
    rw [List.find?_append, List.find?_eq_none.2 (by simpa using nextParent_fresh ho.admission)]; simp [newParent]

theorem enterPhase2_new {s : State} {f i v op c} (ho : OrderLaw s) (hd : op ≠ .drain) :
    enterPhase2 s.nextParent (appendRange (newParent s f i v op c .orderWait) (withLiveParent v (withParent (newParent s f i v op c .orderWait) s)))
      = appendRange (newParent s f i v op c .orderWait) (withLiveParent v (withParent (newParent s f i v op c .orderWait) s)) := by
    unfold enterPhase2 updParent
    simp only [appendRange, withLiveParent, withParent]
    simp [map_other (nextParent_fresh ho.admission), newParent, hd]

theorem admissionOrder_new {s : State} {f i v op c} (ho : OrderLaw s) : AdmissionOrder (appendRange (newParent s f i v op c .orderWait) (withLiveParent v (withParent (newParent s f i v op c .orderWait) s))) := by
    simp only [appendRange, withLiveParent, withParent]
    refine ⟨?_, ?_⟩
    · rw [List.pairwise_append]; refine ⟨ho.admission.1, by simp, ?_⟩
      intro a ha b hb; simp at hb; subst hb; exact ho.admission.2 a ha
    · intro p hp; simp only [List.mem_append, List.mem_singleton] at hp
      rcases hp with hp | hp
      · exact Nat.lt_succ_of_lt (ho.admission.2 p hp)
      · subst hp; exact Nat.lt_succ_self _

/-- A READ, WRITE or VERIFY that nothing holds back comes to the split stage (03 R43). -/
theorem exec_cmd_released {s : State} {f i v op c} (ho : OrderLaw s) (h : Taken s f i v op c) (hf : firstFailure s i v op f = none) (hv : v ≠ 0) (hd : op ≠ .drain)
    (hc : ∀ e ∈ s.ranges[v], f.start.toNat < e.start + e.count → e.start < f.start.toNat + f.count.toNat → op ≠ .write ∧ e.op ≠ .write) :
    exec (.cmd f) s = .next (arrive s.nextParent (appendRange (newParent s f i v op c .orderWait) (withLiveParent v (withParent (newParent s f i v op c .orderWait) s))))
    ∧ (newParent s f i v op c .orderWait).slots.length ≤ s.freeSlots := by
  obtain ⟨h0, hs⟩ := exec_cmd_admitted h hf
  rw [h0, admit_range hv hd hs]
  unfold handRange
  have hr : rangeHeld (appendRange (newParent s f i v op c .orderWait) (withLiveParent v (withParent (newParent s f i v op c .orderWait) s))).ranges[(newParent s f i v op c .orderWait).volume] (newParent s f i v op c .orderWait).id = false := by
    refine (rangeHeld_new ho).trans ?_
    rw [List.any_eq_false]; intro e he hk
    rw [conflicts_iff] at hk
    have := hc e he hk.1 hk.2.1
    rcases hk.2.2 with h | h
    · exact this.1 h
    · exact this.2 h
  rw [if_neg (by rw [hr]; simp)]
  unfold release
  rw [show (newParent s f i v op c .orderWait).id = s.nextParent from rfl, enterPhase2_new ho hd]
  refine ⟨rfl, ?_⟩
  obtain ⟨h2, _⟩ := admitEntry_eq (s := s) hs
  have hl := admittedSlots_length hs
  have hc := checks_eq h
  rw [hf] at hc
  simp only [hs, not_true, if_false] at hc
  have hp := (passed_of_laterChecks hc).slots
  rw [if_neg hv] at h2
  rw [← h2]; simp only [admittedParent]; rw [hl]; exact hp

end Sys2Proof.Machine
end

