-- ==== Sys2Proof/Laws/Aborts.lean ====
section
/-! SUPPORT. The victim of an ABT, and the parents at the loss of the upstream link. -/

-- The package is also compiled as one text: one proof after another keeps the number of Lean's threads small there.
set_option Elab.async false

namespace Sys2Proof.Machine

/-- A live parent is found by its key (02 R22). -/
theorem find_key {l : List Parent} (hk : l.Pairwise fun p q => ¬(p.initiator = q.initiator ∧ p.tag = q.tag)) {p : Parent} (hp : p ∈ l) :
    l.find? (fun q => q.initiator == p.initiator && q.tag == p.tag) = some p := by
  induction l with
  | nil => simp at hp
  | cons a l ih =>
    obtain ⟨h1, h2⟩ := List.pairwise_cons.1 hk
    rcases List.mem_cons.1 hp with e | e
    · subst e; simp
    · rw [List.find?_cons_of_neg, ih h2 e]
      have := h1 p e; simpa using this

/-- An ABT that the part takes (07 R115). -/
theorem exec_abt {s : State} {f : AbtFrame} {i : Initiator} (h : s.linkUp = true) (hi : f.initiator.toNat = i.val) :
    exec (.abt f) s = .next (takeAbt i f.tag s) := by
  simp only [exec, execAbt, receiveAbt, initiatorOf_eq hi, h, if_true]

/-- An ABT with a victim (07 R116). -/
theorem exec_abt_live {s : State} {f : AbtFrame} {p : Parent} (h : s.linkUp = true) (hi : f.initiator.toNat = p.initiator.val) (ht : f.tag = p.tag)
    (hk : KeyLaw s) (hp : p ∈ s.parents) :
    exec (.abt f) s = .next (tryAfterAbort s (abortReply p.initiator p.tag (abortStatus p.state) (abortParent p s))) := by
  rw [exec_abt h hi, ht]; unfold takeAbt; rw [find_key hk hp]

theorem holdsIssued_removeQueued_self (id : ParentRef) (s : State) : holdsIssued id (removeQueued id s) = holdsIssued id s := by
  unfold holdsIssued removeQueued updParent
  simp only
  induction s.subs with
  | nil => rfl
  | cons a l ih =>
    simp only [List.filter_cons, List.any_cons]
    split
    · simp only [List.any_cons, ih]
    · rename_i h
      rw [ih]
      have : (a.parent == id && a.issue.isNone) = true := by simpa using h
      have : a.issue.isSome = false := by
        have := (Bool.and_eq_true _ _ |>.mp this).2
        cases hh : a.issue with | none => rfl | some x => rw [hh] at this; simp at this
      rw [this]; simp

/-- What the loss of the upstream link keeps while it goes through the parents (02 R39). -/
structure LossFrame (s t : State) : Prop where
  link : t.linkUp = false
  out : t.outbound = s.outbound
  vols : t.volumes = s.volumes
  ext : t.freeExtents = s.freeExtents
  acc : t.access = s.access
  ini : ∀ i : Initiator, t.initiators[i].credit = s.initiators[i].credit ∧ t.initiators[i].barred = s.initiators[i].barred
  port : ∀ p : Port, { t.port p with queues := (s.port p).queues } = s.port p
  pend : t.pending = s.pending
  now : t.now = s.now
  sent : t.sent = s.sent
  nots : t.notices = s.notices
  seq : t.seq = s.seq
  next : t.nextParent = s.nextParent

/-- A parent that is DISCARDING after the loss (02 R38). -/
def SurvivesLoss (s : State) (p : Parent) : Prop := p.state = .discarding ∨ ((p.state = .active ∨ p.state = .aborting) ∧ holdsIssued p.id s = true)

/-- The part after the loss has been taken by the parents of a list, with the others still to come (02 R38). -/
structure LossInv (s : State) (done rest : List Parent) (u : State) : Prop where
  ex : ∃ L, u.parents = L ++ rest ∧ (∀ q ∈ L, q.state = .discarding) ∧ (L.map Parent.id).Sublist (done.map Parent.id) ∧ (∀ p ∈ done, (∃ q ∈ L, q.id = p.id) ↔ SurvivesLoss s p)
  ord : AdmissionOrder u
  iss : ∀ id, holdsIssued id u = holdsIssued id s
  fr : LossFrame s u
  all : done ++ rest = s.parents
  sord : AdmissionOrder s

theorem lossFrame_freed {s u : State} (p : Parent) (h : LossFrame s u) : LossFrame s (freed p u) := by
  refine { h with ini := ?_, port := h.port }
  intro i
  show (put u.initiators _ _)[i].credit = _ ∧ (put u.initiators _ _)[i].barred = _
  rw [put_get]
  split
  · rename_i hi; subst hi; exact h.ini _
  · exact h.ini i

theorem lossFrame_removeQueued {s u : State} (id : ParentRef) (h : LossFrame s u) : LossFrame s (removeQueued id u) := by
  refine { h with ini := h.ini, port := ?_ }
  intro d
  have : (removeQueued id u).port d = PortRec.without (queuedSubs id u) (u.port d) := by
    show (mapRows _ u.ports)[d] = _
    simp [Fin.getElem_fin, State.port]
  rw [this]; exact h.port d

theorem filter_middle {L rest : List Parent} {p : Parent} (h : (L ++ p :: rest).Pairwise fun p q => p.id < q.id) : (L ++ p :: rest).filter (fun q => q.id ≠ p.id) = L ++ rest := by
  rw [List.pairwise_append] at h
  obtain ⟨_, h2, h3⟩ := h
  obtain ⟨h4, _⟩ := List.pairwise_cons.1 h2
  rw [List.filter_append, List.filter_cons_of_neg (by simp), List.filter_eq_self.2, List.filter_eq_self.2]
  · intro q hq; have := h4 q hq; simpa using Nat.ne_of_gt this
  · intro q hq; have := h3 q hq p (by simp); simpa using Nat.ne_of_lt this

theorem admissionOrder_freed {u : State} {p : Parent} (h : AdmissionOrder u) : AdmissionOrder (freed p u) :=
  ⟨h.1.filter _, fun q hq => h.2 q (List.mem_filter.1 hq).1⟩

theorem leaveWait_parents (p : Parent) (u : State) : (leaveWait p u).parents = u.parents ∧ (leaveWait p u).nextParent = u.nextParent ∧ (leaveWait p u).subs = u.subs := by
  unfold leaveWait; split <;> exact ⟨rfl, rfl, rfl⟩

theorem lossFrame_leaveWait {s u : State} (p : Parent) (h : LossFrame s u) : LossFrame s (leaveWait p u) := by
  unfold leaveWait; split <;> exact { h with ini := h.ini, port := h.port }

theorem lossInv_free {s u v : State} {done rest : List Parent} {p : Parent} (h : LossInv s done (p :: rest) u) (hc : ¬ SurvivesLoss s p) (hv : v.parents = u.parents) (hn : v.nextParent = u.nextParent) (hs : ∀ id, holdsIssued id v = holdsIssued id u) (hf : LossFrame s v) : LossInv s (done ++ [p]) rest (freeParent p.id v) := by
  obtain ⟨L, h1, h2, h3, h4⟩ := h.ex
  have ho : AdmissionOrder v := by unfold AdmissionOrder; rw [hv, hn]; exact h.ord
  have hp : p ∈ v.parents := by rw [hv, h1]; simp
  rw [freeParent_eq ho hp]
  refine ⟨⟨L, ?_, h2, ?_, ?_⟩, admissionOrder_freed ho, fun id => (hs id).trans (h.iss id), lossFrame_freed p hf, by rw [← h.all]; simp, h.sord⟩
  · show v.parents.filter _ = _
    rw [hv, h1]; exact filter_middle (h1 ▸ h.ord.1)
  · rw [List.map_append]; exact h3.trans (List.sublist_append_left _ _)
  · intro q hq
    rcases List.mem_append.1 hq with hq | hq
    · exact h4 q hq
    · simp at hq; subst hq
      constructor
      · rintro ⟨q', hq', he⟩
        have := h.ord.1; rw [h1, List.pairwise_append] at this
        have := this.2.2 q' hq' q (by simp)
        rw [he] at this; exact absurd this (Nat.lt_irrefl _)
      · intro hh; exact absurd hh hc

theorem map_middle {L rest : List Parent} {p : Parent} {f : Parent → Parent} (h : (L ++ p :: rest).Pairwise fun p q => p.id < q.id) : (L ++ p :: rest).map (fun q => if q.id = p.id then f q else q) = L ++ f p :: rest := by
  rw [List.pairwise_append] at h
  obtain ⟨_, h2, h3⟩ := h
  obtain ⟨h4, _⟩ := List.pairwise_cons.1 h2
  rw [List.map_append, List.map_cons, if_pos rfl]
  congr 1
  · conv_rhs => rw [← List.map_id L]
    apply List.map_congr_left; intro q hq
    rw [if_neg (Nat.ne_of_lt (h3 q hq p (by simp)))]; rfl
  · congr 1
    conv_rhs => rw [← List.map_id rest]
    apply List.map_congr_left; intro q hq
    rw [if_neg (Nat.ne_of_gt (h4 q hq))]; rfl

/-- The pieces of a parent without its QUEUED entries, as the claims speak of them (05 R83, 06 R95). -/
theorem withoutQueued_eq (p : Parent) (s : State) : { p with pieces := p.pieces.map (Piece.without (queuedSubs p.id s)) } = withoutQueued s p := by
  unfold withoutQueued
  congr 1
  apply List.map_congr_left
  intro pc _
  unfold Piece.without
  congr 1
  apply List.map_congr_left
  intro m _
  cases h : m.sub with
  | none => cases m; simp_all
  | some r =>
    have : (queuedSubs p.id s).contains r = s.subs.any fun e => e.id == r && e.parent == p.id && e.issue.isNone := by
      rw [Bool.eq_iff_iff]
      simp only [queuedSubs, List.contains_iff_mem, List.mem_map, List.mem_filter, List.any_eq_true, Bool.and_eq_true, beq_iff_eq]
      constructor
      · rintro ⟨e, ⟨h1, h2, h3⟩, h4⟩; exact ⟨e, h1, ⟨h4, h2⟩, h3⟩
      · rintro ⟨e, h1, ⟨h4, h2⟩, h3⟩; exact ⟨e, ⟨h1, h2, h3⟩, h4⟩
    simp only [Option.bind_some, Option.any_some, this]
    split
    · rfl
    · cases m; simp_all

/-- Removing QUEUED entries takes no ISSUED one away (05 R83). -/
theorem holdsIssued_removeQueued (id id' : ParentRef) (s : State) : holdsIssued id' (removeQueued id s) = holdsIssued id' s := by
  unfold holdsIssued removeQueued updParent
  simp only
  induction s.subs with
  | nil => rfl
  | cons a l ih =>
    simp only [List.filter_cons, List.any_cons]
    split
    · simp only [List.any_cons, ih]
    · rename_i h
      rw [ih]
      have : (a.parent == id && a.issue.isNone) = true := by simpa using h
      have : a.issue.isSome = false := by
        have := (Bool.and_eq_true _ _ |>.mp this).2
        cases hh : a.issue with | none => rfl | some x => rw [hh] at this; simp at this
      rw [this]; simp

theorem lossInv_keep {s u v : State} {done rest : List Parent} {p p' : Parent} {L : List Parent} (h : LossInv s done (p :: rest) u) (hc : SurvivesLoss s p) (hL : u.parents = L ++ p :: rest)
    (hv : v.parents = L ++ p' :: rest) (hpi : p'.id = p.id) (hps : p'.state = .discarding) (hn : v.nextParent = u.nextParent) (hs : ∀ id, holdsIssued id v = holdsIssued id u) (hf : LossFrame s v) : LossInv s (done ++ [p]) rest v := by
  obtain ⟨L', h1, h2, h3, h4⟩ := h.ex
  have : L' = L := by rw [hL] at h1; exact (List.append_cancel_right h1).symm
  subst this
  refine ⟨⟨L' ++ [p'], by rw [hv]; simp, ?_, ?_, ?_⟩, ?_, fun id => (hs id).trans (h.iss id), hf, by rw [← h.all]; simp, h.sord⟩
  · intro q hq; rcases List.mem_append.1 hq with hq | hq
    · exact h2 q hq
    · simp at hq; subst hq; exact hps
  · rw [List.map_append, List.map_append]
    exact h3.append (by simp [hpi])
  · intro q hq
    have ho := h.ord.1
    rw [hL, List.pairwise_append] at ho
    rcases List.mem_append.1 hq with hq | hq
    · rw [← h4 q hq]
      constructor
      · rintro ⟨q', hq', he⟩
        rcases List.mem_append.1 hq' with hq' | hq'
        · exact ⟨q', hq', he⟩
        · simp at hq'; subst hq'
          have hh := h.sord.1
          rw [← h.all, List.pairwise_append] at hh
          have := hh.2.2 q hq p (by simp)
          rw [← hpi, he] at this
          exact absurd this (Nat.lt_irrefl _)
      · rintro ⟨q', hq', he⟩; exact ⟨q', by simp [hq'], he⟩
    · simp at hq; subst hq
      exact ⟨fun _ => hc, fun _ => ⟨p', by simp, hpi⟩⟩
  · have ho := h.ord
    unfold AdmissionOrder at ho ⊢
    rw [hL] at ho
    rw [hv, hn]
    have : (L' ++ p' :: rest) = (L' ++ p :: rest).map (fun q => if q.id = p.id then p' else q) := (map_middle (f := fun _ => p') ho.1).symm
    rw [this]
    constructor
    · rw [List.pairwise_map]
      refine ho.1.imp fun {a b} hab => ?_
      split <;> split <;> simp_all
    · intro q hq
      obtain ⟨q', hq', rfl⟩ := List.mem_map.1 hq
      have := ho.2 q' hq'
      split <;> simp_all

/-- One more parent takes the loss (02 R38). -/
theorem lossInv_discard {s u : State} {done rest : List Parent} {p : Parent} (h : LossInv s done (p :: rest) u) : LossInv s (done ++ [p]) rest (discard u p) := by
  obtain ⟨L, h1, h2, h3, h4⟩ := h.ex
  have hp : p ∈ u.parents := by rw [h1]; simp
  obtain ⟨l1, l2, l3⟩ := leaveWait_parents p u
  have hli : ∀ id, holdsIssued id (leaveWait p u) = holdsIssued id u := fun id => by unfold holdsIssued; rw [l3]
  unfold Sys2Proof.Machine.discard
  have wait : ¬ SurvivesLoss s p → LossInv s (done ++ [p]) rest (freeParent p.id (leaveWait p u)) := fun hc => lossInv_free h hc l1 l2 hli (lossFrame_leaveWait p h.fr)
  have run : (p.state = .active ∨ p.state = .aborting) → LossInv s (done ++ [p]) rest (discardRunning p u) := by
    intro hst
    unfold discardRunning
    rw [holdsIssued_removeQueued, h.iss]
    have hrp : (removeQueued p.id u).parents = L ++ { p with pieces := p.pieces.map (Piece.without (queuedSubs p.id u)) } :: rest := by
      show u.parents.map _ = _
      rw [h1]; exact map_middle (h1 ▸ h.ord.1)
    split
    · rename_i hi
      refine lossInv_keep (p' := { p with pieces := p.pieces.map (Piece.without (queuedSubs p.id u)), state := .discarding }) h (Or.inr ⟨hst, hi⟩) h1 ?_ rfl rfl rfl (fun id => holdsIssued_removeQueued _ _ _) ?_
      · show (removeQueued p.id u).parents.map _ = _
        rw [hrp]
        have ho := h.ord.1
        rw [h1] at ho
        exact map_middle (p := { p with pieces := p.pieces.map (Piece.without (queuedSubs p.id u)) }) (f := fun q => { q with state := .discarding }) (by
          have := ho
          rw [List.pairwise_append] at this ⊢
          obtain ⟨a, b, c⟩ := this
          obtain ⟨b1, b2⟩ := List.pairwise_cons.1 b
          refine ⟨a, List.pairwise_cons.2 ⟨b1, b2⟩, fun x hx y hy => ?_⟩
          rcases List.mem_cons.1 hy with rfl | hy
          · exact c x hx p (by simp)
          · exact c x hx y (by simp [hy]))
      · have := lossFrame_removeQueued p.id h.fr
        exact { this with ini := this.ini, port := this.port }
    · rename_i hi
      have hc : ¬ SurvivesLoss s p := by
        rintro (hd | ⟨_, hd⟩)
        · rcases hst with hst | hst <;> rw [hst] at hd <;> cases hd
        · exact hi hd
      have hro : AdmissionOrder (removeQueued p.id u) := by
        refine ⟨pairwise_updParent (fun _ => rfl) h.ord, ?_⟩
        intro q hq
        have : q ∈ u.parents.map fun q => if q.id = p.id then { q with pieces := q.pieces.map (Piece.without (queuedSubs p.id u)) } else q := hq
        obtain ⟨q', hq', rfl⟩ := List.mem_map.1 this
        have := h.ord.2 q' hq'
        show _ < u.nextParent
        split <;> exact this
      have hrl : { p with pieces := p.pieces.map (Piece.without (queuedSubs p.id u)) } ∈ (removeQueued p.id u).parents := by rw [hrp]; simp
      have hfe := freeParent_eq hro hrl
      have hfe : freeParent p.id (removeQueued p.id u) = _ := hfe
      rw [hfe]
      refine ⟨⟨L, ?_, h2, ?_, ?_⟩, admissionOrder_freed hro, fun id => (holdsIssued_removeQueued _ _ _).trans (h.iss id), lossFrame_freed _ (lossFrame_removeQueued p.id h.fr), by rw [← h.all]; simp, h.sord⟩
      · show (removeQueued p.id u).parents.filter _ = _
        rw [hrp]; exact filter_middle (p := { p with pieces := p.pieces.map (Piece.without (queuedSubs p.id u)) }) (by rw [← hrp]; exact hro.1)
      · rw [List.map_append]; exact h3.trans (List.sublist_append_left _ _)
      · intro q hq
        rcases List.mem_append.1 hq with hq | hq
        · exact h4 q hq
        · simp at hq; subst hq
          constructor
          · rintro ⟨q', hq', he⟩
            have := h.ord.1; rw [h1, List.pairwise_append] at this
            have := this.2.2 q' hq' q (by simp)
            rw [he] at this; exact absurd this (Nat.lt_irrefl _)
          · intro hh; exact absurd hh hc
  have nc : p.state ≠ .discarding → p.state ≠ .active → p.state ≠ .aborting → ¬ SurvivesLoss s p := by
    rintro a b c (d | ⟨d | d, _⟩)
    · exact a d
    · exact b d
    · exact c d
  cases hst : p.state <;> simp only
  · exact wait (nc (by rw [hst]; simp) (by rw [hst]; simp) (by rw [hst]; simp))
  · exact lossInv_free (v := { u with executing := none }) h (nc (by rw [hst]; simp) (by rw [hst]; simp) (by rw [hst]; simp)) rfl rfl (fun _ => rfl) { h.fr with ini := h.fr.ini, port := h.fr.port }
  · have := lossInv_free (v := u) h (nc (by rw [hst]; simp) (by rw [hst]; simp) (by rw [hst]; simp)) rfl rfl (fun _ => rfl) h.fr
    unfold reportGone
    split <;> exact ⟨this.ex, this.ord, this.iss, { this.fr with ini := this.fr.ini, port := this.fr.port }, this.all, this.sord⟩
  · exact wait (nc (by rw [hst]; simp) (by rw [hst]; simp) (by rw [hst]; simp))
  · exact wait (nc (by rw [hst]; simp) (by rw [hst]; simp) (by rw [hst]; simp))
  · exact wait (nc (by rw [hst]; simp) (by rw [hst]; simp) (by rw [hst]; simp))
  · exact run (Or.inl hst)
  · exact run (Or.inr hst)
  · exact lossInv_keep (p' := p) h (Or.inl hst) h1 h1 rfl hst rfl (fun _ => rfl) h.fr

/-- Every parent takes the loss (02 R38). -/
theorem lossInv_all {s : State} : ∀ (rest done : List Parent) (u : State), LossInv s done rest u → LossInv s s.parents [] (rest.foldl discard u)
  | [], done, u, h => by
    have := h.all; simp at this; subst this; exact h
  | p :: rest, done, u, h => lossInv_all rest (done ++ [p]) _ (lossInv_discard h)

end Sys2Proof.Machine
end

