-- ==== Sys2Proof/Laws/SubCommands.lean ====
section
/-! SUPPORT. The law of sub-commands and tags within an event: `SubsFit L s`, the law of `s` but for the loose entries `L`, which stand in no queue and under no tag; the moves of Issue, Merge and Split. -/

-- The package is also compiled as one text: one proof after another keeps the number of Lean's threads small there.
set_option Elab.async false

namespace Sys2Proof.Machine

/-- The law of sub-commands and tags, but for entries that are loose: allocated, and for the moment in no class queue and under no tag. -/
structure SubsFit (L : List SubCmd) (s : State) : Prop where
  names : s.subs.Pairwise fun x y => x.id ≠ y.id
  fresh : ∀ x ∈ s.subs, x.id < s.nextSub
  loose : ∀ x ∈ L, x ∈ s.subs
  apart : L.Nodup
  tagged : ∀ (p : Port) (t : DTag) (e : SubRef), (s.port p).tags[t] = .issued e →
    ∃ x ∈ s.subs, x ∉ L ∧ x.id = e ∧ x.port = p ∧ ∃ i, x.issue = some i ∧ i.tag = t
  issued : ∀ x ∈ s.subs, x ∉ L → ∀ i, x.issue = some i → (s.port x.port).tags[i.tag] = .issued x.id
  queued : ∀ (p : Port) (c : Sys2Proof.Class), ∀ e ∈ (s.port p).queues[c],
    ∃ x ∈ s.subs, x ∉ L ∧ x.id = e ∧ x.port = p ∧ x.cls = c ∧ x.issue = none
  waiting : ∀ x ∈ s.subs, x ∉ L → x.issue = none → x.id ∈ (s.port x.port).queues[x.cls]
  once : ∀ (p : Port) (c : Sys2Proof.Class), ((s.port p).queues[c]).Nodup

theorem SubCommandLaw.fit {s : State} (h : SubCommandLaw s) : SubsFit [] s :=
  { h with
    loose := by simp
    apart := .nil
    tagged := fun p t e he => by simpa using h.tagged p t e he
    issued := fun x hx _ => h.issued x hx
    queued := fun p c e he => by simpa using h.queued p c e he
    waiting := fun x hx _ => h.waiting x hx }

theorem SubsFit.law {s : State} (h : SubsFit [] s) : SubCommandLaw s :=
  { h with
    tagged := fun p t e he => by simpa using h.tagged p t e he
    issued := fun x hx => h.issued x hx (by simp)
    queued := fun p c e he => by simpa using h.queued p c e he
    waiting := fun x hx => h.waiting x hx (by simp) }

theorem SubsFit.inert {L : List SubCmd} {s t : State} (hi : Inert s t) (h : SubsFit L s) : SubsFit L t := by
  obtain ⟨h1, h2, h3⟩ := hi
  have hp : ∀ p, t.port p = s.port p := fun p => by rw [State.port, h2]; rfl
  obtain ⟨a, b, c, d, e, f, g, k, l⟩ := h
  constructor <;> first | assumption | (simp only [h1, h3, hp]; assumption)

theorem SubsFit.perm {L M : List SubCmd} {s : State} (hp : L.Perm M) (h : SubsFit L s) : SubsFit M s := by
  obtain ⟨a, b, c, d, e, f, g, k, l⟩ := h
  have hm : ∀ x, x ∈ M ↔ x ∈ L := fun x => hp.mem_iff.symm
  constructor <;> first | assumption | exact (hp.nodup_iff).1 d | (simp only [hm]; assumption)

theorem eq_of_names {l : List SubCmd} (h : l.Pairwise fun x y => x.id ≠ y.id) {x y : SubCmd} (hx : x ∈ l) (hy : y ∈ l) (he : x.id = y.id) : x = y := by
  by_contra hn
  have : (l.map SubCmd.id).Nodup := by rw [List.nodup_iff_pairwise_ne, List.pairwise_map]; exact h
  exact hn (List.inj_on_of_nodup_map this hx hy he)

theorem SubsFit.eq {L : List SubCmd} {s : State} (h : SubsFit L s) {x y : SubCmd} (hx : x ∈ s.subs) (hy : y ∈ s.subs) (he : x.id = y.id) : x = y :=
  eq_of_names h.names hx hy he

theorem SubsFit.find {L : List SubCmd} {s : State} (h : SubsFit L s) {x : SubCmd} (hx : x ∈ s.subs) : s.sub? x.id = some x := by
  unfold State.sub?
  obtain ⟨y, hy⟩ : ∃ y, s.subs.find? (fun y => y.id == x.id) = some y :=
    Option.isSome_iff_exists.1 (by rw [List.find?_isSome]; exact ⟨x, hx, by simp⟩)
  rw [hy, h.eq (List.mem_of_find?_eq_some hy) hx (by simpa using List.find?_some hy)]

/-! ## A record of the Sub-command Table changes -/

/-- The entry that a change of a loose entry gives is loose in its place. -/
theorem SubsFit.replace {e : SubCmd} {L : List SubCmd} {s : State} (f : SubCmd → SubCmd) (hf : (f e).id = e.id) (h : SubsFit (e :: L) s) :
    SubsFit (f e :: L) (updSub e.id f s) := by
  have he := h.loose e (by simp)
  have hap := List.nodup_cons.1 h.apart
  have hL : ∀ x ∈ L, x.id ≠ e.id := fun x hx hid => hap.1 (h.eq (h.loose x (by simp [hx])) he hid ▸ hx)
  have hmem : ∀ y, y ∈ (updSub e.id f s).subs ↔ y = f e ∨ (y ∈ s.subs ∧ y.id ≠ e.id) := by
    intro y
    simp only [updSub, List.mem_map]
    constructor
    · rintro ⟨x, hx, rfl⟩
      by_cases hid : x.id = e.id
      · rw [if_pos hid, h.eq hx he hid]; exact .inl rfl
      · rw [if_neg hid]; exact .inr ⟨hx, hid⟩
    · rintro (rfl | ⟨hy, hid⟩)
      · exact ⟨e, he, if_pos rfl⟩
      · exact ⟨y, hy, if_neg hid⟩
  have hout : ∀ y, y.id ≠ e.id → (y ∉ f e :: L ↔ y ∉ e :: L) := by
    intro y hy
    have h1 : y ≠ f e := fun h => hy (by rw [h, hf])
    have h2 : y ≠ e := fun h => hy (by rw [h])
    simp [h1, h2]
  have hne : ∀ x, x ∈ s.subs → x ∉ e :: L → x.id ≠ e.id := fun x hx hl hid => hl (by rw [h.eq hx he hid]; simp)
  refine ⟨?_, ?_, ?_, ?_, ?_, ?_, ?_, ?_, h.once⟩
  · have := h.names
    rw [← List.pairwise_map (f := SubCmd.id) (R := fun a b => a ≠ b)] at this ⊢
    refine (show List.map SubCmd.id _ = List.map SubCmd.id _ from ?_) ▸ this
    simp only [updSub, List.map_map]
    refine List.map_congr_left fun x hx => ?_
    simp only [Function.comp]
    split
    · rename_i hid; rw [h.eq hx he hid, hf]
    · rfl
  · intro x hx
    rcases (hmem x).1 hx with rfl | ⟨hx, _⟩
    · rw [hf]; exact h.fresh e he
    · exact h.fresh x hx
  · intro x hx
    rcases List.mem_cons.1 hx with rfl | hx
    · exact (hmem _).2 (.inl rfl)
    · exact (hmem _).2 (.inr ⟨h.loose x (by simp [hx]), hL x hx⟩)
  · exact List.nodup_cons.2 ⟨fun hm => hL _ hm hf, hap.2⟩
  · intro p t r hr
    obtain ⟨x, hx, hl, hi, rest⟩ := h.tagged p t r hr
    have := hne x hx hl
    exact ⟨x, (hmem x).2 (.inr ⟨hx, this⟩), (hout x this).2 hl, hi, rest⟩
  · intro x hx hl i hi
    rcases (hmem x).1 hx with rfl | ⟨hx, hid⟩
    · simp at hl
    · exact h.issued x hx ((hout x hid).1 hl) i hi
  · intro p c r hr
    obtain ⟨x, hx, hl, hi, rest⟩ := h.queued p c r hr
    have := hne x hx hl
    exact ⟨x, (hmem x).2 (.inr ⟨hx, this⟩), (hout x this).2 hl, hi, rest⟩
  · intro x hx hl hi
    rcases (hmem x).1 hx with rfl | ⟨hx, hid⟩
    · simp at hl
    · exact h.waiting x hx ((hout x hid).1 hl) hi

/-- A loose entry is freed. -/
theorem SubsFit.free {e : SubCmd} {L : List SubCmd} {s : State} (h : SubsFit (e :: L) s) : SubsFit L (freeSub e.id s) := by
  have he := h.loose e (by simp)
  have hap := List.nodup_cons.1 h.apart
  have hmem : ∀ y, y ∈ (freeSub e.id s).subs ↔ y ∈ s.subs ∧ y ≠ e := by
    intro y
    obtain ⟨l₁, l₂, h1, h2, _⟩ := eraseP_of_find? (h.find he)
    have hn := h.names
    show y ∈ s.subs.eraseP _ ↔ _
    rw [h2, h1]; rw [h1] at hn
    have hx : ∀ z ∈ l₁ ++ l₂, z ≠ e := by
      rw [List.pairwise_append, List.pairwise_cons] at hn
      intro z hz hze
      rcases List.mem_append.1 hz with hz | hz
      · exact hn.2.2 z hz e (by simp) (by rw [hze])
      · exact hn.2.1.1 z hz (by rw [hze])
    constructor
    · intro hy; exact ⟨by rcases List.mem_append.1 hy with hy | hy <;> simp [hy], hx y hy⟩
    · rintro ⟨hy, hne⟩; simpa [hne] using hy
  have hout : ∀ y, y ≠ e → (y ∉ e :: L ↔ y ∉ L) := fun y hy => by simp [hy]
  refine ⟨h.names.sublist (List.eraseP_sublist ..), fun x hx => h.fresh x ((hmem x).1 hx).1, fun x hx => (hmem x).2 ⟨h.loose x (by simp [hx]), ?_⟩, hap.2,
    fun p t r hr => ?_, fun x hx hl => h.issued x ((hmem x).1 hx).1 ((hout x ((hmem x).1 hx).2).2 hl), fun p c r hr => ?_,
    fun x hx hl => h.waiting x ((hmem x).1 hx).1 ((hout x ((hmem x).1 hx).2).2 hl), h.once⟩
  · rintro rfl; exact hap.1 hx
  · obtain ⟨x, hx, hl, rest⟩ := h.tagged p t r hr
    have : x ≠ e := fun hh => hl (by simp [hh])
    exact ⟨x, (hmem x).2 ⟨hx, this⟩, (hout x this).1 hl, rest⟩
  · obtain ⟨x, hx, hl, rest⟩ := h.queued p c r hr
    have : x ≠ e := fun hh => hl (by simp [hh])
    exact ⟨x, (hmem x).2 ⟨hx, this⟩, (hout x this).1 hl, rest⟩

/-! ## Issue (05 R74, R81) -/

/-- The entry at the head of a class queue is issued under a FREE tag (05 R81). -/
theorem fit_issueEntry {L : List SubCmd} {p : Port} {c : Sys2Proof.Class} {n : Nat} {t : DTag} {e : SubRef} {rest : List SubRef} {s : State}
    (hq : (s.port p).queues[c] = e :: rest) (ht : (s.port p).tags[t] = .free) (h : SubsFit L s) : SubsFit L (issueEntry p c n t e rest s) := by
  obtain ⟨x, hx, hxl, hxe, hxp, hxc, hxi⟩ := h.queued p c e (by rw [hq]; simp)
  have hnd := h.once p c
  rw [hq, List.nodup_cons] at hnd
  refine SubsFit.inert (inert_sendSub _ _ _ _) ?_
  generalize hf : (fun y : SubCmd => { y with issue := some { tag := t, deadline := s.now + (s.port p).responseLimit } }) = f
  have hfid : ∀ y, (f y).id = y.id ∧ (f y).port = y.port ∧ (f y).cls = y.cls ∧ ∃ i, (f y).issue = some i ∧ i.tag = t := by
    intro y; subst hf; exact ⟨rfl, rfl, rfl, _, rfl, rfl⟩
  generalize hu : updSub e f (updPort p (fun r => { r with queues := put r.queues c rest, passCount := n, tags := put r.tags t (.issued e) }) s) = u
  have hsubs : u.subs = s.subs.map fun y => if y.id = e then f y else y := by subst hu; rfl
  have hnext : u.nextSub = s.nextSub := by subst hu; rfl
  have hport : ∀ q, u.port q = if q = p then { s.port p with queues := put (s.port p).queues c rest, passCount := n, tags := put (s.port p).tags t (.issued e) } else s.port q := by
    intro q; subst hu
    exact updPort_port p q (fun r => { r with queues := put r.queues c rest, passCount := n, tags := put r.tags t (.issued e) }) s
  have htags : ∀ (q : Port) (k : DTag), (u.port q).tags[k] = if q = p ∧ k = t then .issued e else (s.port q).tags[k] := by
    intro q k; rw [hport]
    by_cases h1 : q = p
    · subst h1
      simp only [if_pos, true_and]
      exact put_get _ _ _ _
    · simp [h1]
  have hqueues : ∀ (q : Port) (d : Sys2Proof.Class), (u.port q).queues[d] = if q = p ∧ d = c then rest else (s.port q).queues[d] := by
    intro q d; rw [hport]
    by_cases h1 : q = p
    · subst h1
      simp only [if_pos, true_and]
      exact put_get _ _ _ _
    · simp [h1]
  have hL : ∀ y ∈ L, y.id ≠ e := fun y hy hid => hxl (h.eq (h.loose y hy) hx (hid.trans hxe.symm) ▸ hy)
  have hmem : ∀ y, y ∈ u.subs ↔ y = f x ∨ (y ∈ s.subs ∧ y.id ≠ e) := by
    intro y
    rw [hsubs, List.mem_map]
    constructor
    · rintro ⟨z, hz, rfl⟩
      by_cases hid : z.id = e
      · rw [if_pos hid, h.eq hz hx (hid.trans hxe.symm)]; exact .inl rfl
      · rw [if_neg hid]; exact .inr ⟨hz, hid⟩
    · rintro (rfl | ⟨hy, hid⟩)
      · exact ⟨x, hx, if_pos hxe⟩
      · exact ⟨y, hy, if_neg hid⟩
  have hfx : f x ∉ L := fun hm => hL _ hm ((hfid x).1.trans hxe)
  obtain ⟨f1, f2, f3, i0, f4, f5⟩ := hfid x
  refine ⟨?_, ?_, fun y hy => (hmem y).2 (.inr ⟨h.loose y hy, hL y hy⟩), h.apart, ?_, ?_, ?_, ?_, ?_⟩
  · have := h.names
    rw [← List.pairwise_map (f := SubCmd.id) (R := fun a b => a ≠ b)] at this ⊢
    refine (show List.map SubCmd.id _ = List.map SubCmd.id _ from ?_) ▸ this
    rw [hsubs, List.map_map]
    refine List.map_congr_left fun z _ => ?_
    simp only [Function.comp]
    split
    · exact (hfid z).1.symm
    · rfl
  · intro y hy; rw [hnext]
    rcases (hmem y).1 hy with rfl | ⟨hy, _⟩
    · rw [f1]; exact h.fresh x hx
    · exact h.fresh y hy
  · intro q k r hr
    rw [htags] at hr
    split at hr
    · rename_i hqk
      obtain rfl : e = r := by simpa using hr
      exact ⟨f x, (hmem _).2 (.inl rfl), hfx, f1.trans hxe, (f2.trans hxp).trans hqk.1.symm, i0, f4, f5.trans hqk.2.symm⟩
    · obtain ⟨y, hy, hl, hid, hp, i, hi, hk⟩ := h.tagged q k r hr
      refine ⟨y, (hmem y).2 (.inr ⟨hy, fun he => ?_⟩), hl, hid, hp, i, hi, hk⟩
      rw [h.eq hy hx (he.trans hxe.symm), hxi] at hi; simp at hi
  · intro y hy hl i hi
    rw [htags]
    rcases (hmem y).1 hy with rfl | ⟨hy, hid⟩
    · rw [f4] at hi; obtain rfl := Option.some.inj hi
      rw [f1, f2, if_pos ⟨hxp, f5⟩, hxe]
    · have := h.issued y hy hl i hi
      split
      · rename_i hh
        obtain ⟨hh1, hh2⟩ := hh
        subst hh2; rw [hh1, ht] at this; simp at this
      · exact this
  · intro q d r hr
    rw [hqueues] at hr
    split at hr
    · rename_i hh
      obtain ⟨y, hy, hl, hid, h1, h2, h3⟩ := h.queued p c r (by rw [hq]; simp [hr])
      refine ⟨y, (hmem y).2 (.inr ⟨hy, fun he => hnd.1 ?_⟩), hl, hid, h1.trans hh.1.symm, h2.trans hh.2.symm, h3⟩
      rw [← he, hid]; exact hr
    · rename_i hh
      obtain ⟨y, hy, hl, hid, h1, h2, h3⟩ := h.queued q d r hr
      refine ⟨y, (hmem y).2 (.inr ⟨hy, fun he => hh ?_⟩), hl, hid, h1, h2, h3⟩
      have := h.eq hy hx (he.trans hxe.symm)
      subst this
      exact ⟨h1.symm.trans hxp, h2.symm.trans hxc⟩
  · intro y hy hl hi
    rw [hqueues]
    rcases (hmem y).1 hy with rfl | ⟨hy, hid⟩
    · rw [f4] at hi; simp at hi
    · have := h.waiting y hy hl hi
      split
      · rename_i hh
        obtain ⟨hh1, hh2⟩ := hh
        subst hh2; rw [hh1, hq] at this
        rcases List.mem_cons.1 this with he | hr
        · exact absurd he hid
        · exact hr
      · exact this
  · intro q d
    rw [hqueues]; split
    · exact hnd.2
    · exact h.once q d

theorem lowestFree_free {r : PortRec} {t : DTag} (h : r.lowestFree = some t) : r.tags[t] = .free := by
  simpa using List.find?_some h

theorem fit_issueOne {L : List SubCmd} {p : Port} {s t : State} (hs : issueOne p s = some t) (h : SubsFit L s) : SubsFit L t := by
  unfold issueOne at hs
  split at hs
  · split at hs
    · rename_i hl
      split at hs
      · simp at hs
      · rename_i hq
        obtain rfl := Option.some.inj hs
        exact fit_issueEntry hq (lowestFree_free hl) h
    · simp at hs
  · simp at hs

theorem fit_issueTest {L : List SubCmd} {p : Port} {s : State} (h : SubsFit L s) : SubsFit L (issueTest p s) := by
  unfold issueTest
  generalize 16 = n
  induction n generalizing s with
  | zero => exact h
  | succ n ih =>
    rw [issueUpTo]; split
    · exact h
    · rename_i t ht; exact ih (fit_issueOne ht h)

/-- A loose entry that is QUEUED joins its class queue (05 R74). -/
theorem fit_joinQueue {e : SubCmd} {L : List SubCmd} {s : State} (hi : e.issue = none) (h : SubsFit (e :: L) s) : SubsFit L (joinQueue e s) := by
  refine fit_issueTest ?_
  have he := h.loose e (by simp)
  have hap := List.nodup_cons.1 h.apart
  generalize hu : updPort e.port (fun r => { r with queues := put r.queues e.cls (r.queues[e.cls] ++ [e.id]) }) s = u
  have hsubs : u.subs = s.subs := by subst hu; rfl
  have hnext : u.nextSub = s.nextSub := by subst hu; rfl
  have hport : ∀ q, u.port q = if q = e.port then { s.port e.port with queues := put (s.port e.port).queues e.cls ((s.port e.port).queues[e.cls] ++ [e.id]) } else s.port q := by
    intro q; subst hu; exact updPort_port _ _ _ _
  have htags : ∀ (q : Port), (u.port q).tags = (s.port q).tags := by
    intro q; rw [hport]; split
    · rename_i h1; subst h1; rfl
    · rfl
  have hqueues : ∀ (q : Port) (d : Sys2Proof.Class), (u.port q).queues[d] = if q = e.port ∧ d = e.cls then (s.port q).queues[d] ++ [e.id] else (s.port q).queues[d] := by
    intro q d; rw [hport]
    by_cases h1 : q = e.port
    · subst h1
      simp only [if_pos, true_and]
      rw [put_get]; split
      · rename_i h2; subst h2; rfl
      · rfl
    · simp [h1]
  refine ⟨hsubs ▸ h.names, fun x hx => by rw [hnext]; exact h.fresh x (hsubs ▸ hx), fun x hx => by rw [hsubs]; exact h.loose x (by simp [hx]), hap.2, ?_, ?_, ?_, ?_, ?_⟩
  · intro q k r hr
    rw [htags] at hr
    obtain ⟨x, hx, hl, rest⟩ := h.tagged q k r hr
    exact ⟨x, hsubs ▸ hx, fun hm => hl (by simp [hm]), rest⟩
  · intro x hx hl i hxi
    rw [htags]
    refine h.issued x (hsubs ▸ hx) (fun hm => ?_) i hxi
    rcases List.mem_cons.1 hm with rfl | hm
    · rw [hi] at hxi; simp at hxi
    · exact hl hm
  · intro q d r hr
    rw [hqueues] at hr
    have old : r ∈ (s.port q).queues[d] → ∃ x ∈ u.subs, x ∉ L ∧ x.id = r ∧ x.port = q ∧ x.cls = d ∧ x.issue = none := by
      intro hr
      obtain ⟨x, hx, hl, rest⟩ := h.queued q d r hr
      exact ⟨x, hsubs ▸ hx, fun hm => hl (by simp [hm]), rest⟩
    split at hr
    · rename_i hh
      rcases List.mem_append.1 hr with hr | hr
      · exact old hr
      · obtain rfl : r = e.id := by simpa using hr
        exact ⟨e, hsubs ▸ he, hap.1, rfl, hh.1.symm, hh.2.symm, hi⟩
    · exact old hr
  · intro x hx hl hxi
    rw [hqueues]
    by_cases hxe : x = e
    · subst hxe; rw [if_pos ⟨rfl, rfl⟩]; simp
    · have := h.waiting x (hsubs ▸ hx) (by simp [hxe, hl]) hxi
      split
      · exact List.mem_append_left _ this
      · exact this
  · intro q d
    rw [hqueues]; split
    · rename_i hh
      rw [List.nodup_append]
      refine ⟨h.once q d, by simp, ?_⟩
      intro r hr r' hr' hrr
      obtain rfl : r' = e.id := by simpa using hr'
      subst hrr
      obtain ⟨x, hx, hl, hid, _⟩ := h.queued q d _ hr
      exact hl (by rw [h.eq hx he hid]; simp)
    · exact h.once q d

/-! ## Merge (06 R89, R92) -/

theorem fit_retarget {e : SubCmd} {L : List SubCmd} {i : Nat} {c : CopyNo} {d : CopyNo × Port × Nat} {s : State} (h : SubsFit (e :: L) s) :
    SubsFit L (retarget e i c d s) := by
  unfold retarget
  refine fit_joinQueue rfl ?_
  refine SubsFit.replace (fun x => { x with copy := some d.1, port := d.2.1, targetStart := d.2.2, issue := none }) rfl ?_
  exact h.inert {}

/-- The Merge Unit takes the result of a loose entry: the entry is freed, or stands in the class queue it is re-targeted to (06 R89, R92). -/
theorem fit_mergeResult {e : SubCmd} {L : List SubCmd} {r : Result} {s : State} (h : SubsFit (e :: L) s) : SubsFit L (mergeResult e.id r s) := by
  unfold mergeResult
  rw [h.find (h.loose e (by simp))]
  simp only
  split
  · exact h.free
  · rename_i p _
    have he : ∀ {t : State} {id : ParentRef}, Inert s t → SubsFit L (endTest id (freeSub e.id t)) := fun hi => (h.inert hi).free.inert (inert_endTest _ _)
    have hr : ∀ i pc c, SubsFit L (mergeRead e p i pc c r s) := by
      intro i pc c
      have h1 := inert_storeRead p pc r s
      unfold mergeRead
      split
      · exact fit_retarget (h.inert h1)
      · exact he (h1.trans {})
    unfold mergeInto
    repeat' split
    all_goals first
      | exact hr _ _ _
      | exact h.free
      | exact he {}
      | (unfold mergeWrite; exact he (Inert.trans {} (inert_resolvePiece _ _ _)))

theorem fit_mergeAll (k : ResultKind) (issued : Bool) : ∀ {L : List SubCmd} {s : State}, SubsFit L s → SubsFit [] (mergeAll k issued (L.map SubCmd.id) s)
  | [], _, h => h
  | e :: L, s, h => by
    show SubsFit [] (mergeAll k issued (L.map SubCmd.id) (mergeResult e.id (bareResult k issued) s))
    exact fit_mergeAll k issued (fit_mergeResult h)

end Sys2Proof.Machine
end

