-- ==== Sys2Proof/Laws/Flows.lean ====
section
/-! SUPPORT. Tags, emptied queues, splits and removals under the law of sub-commands; `Flows s t`: a move that leaves every port and keeps that law. -/

-- The package is also compiled as one text: one proof after another keeps the number of Lean's threads small there.
set_option Elab.async false

namespace Sys2Proof.Machine

/-! ## Tags and queues of a port -/

/-- A tag leaves its entry, which is then loose (05 R76, 07 R107 step 1). -/
theorem fit_untag {p : Port} {t : DTag} {x : TagState} {e : SubCmd} {s : State} (hx : ∀ r, x ≠ .issued r) (he : e ∈ s.subs)
    (ht : (s.port p).tags[t] = .issued e.id) (h : SubsFit [] s) :
    SubsFit [e] (updPort p (fun r => { r with tags := put r.tags t x }) s) := by
  have hl : ∀ q k, ((updPort p (fun r => { r with tags := put r.tags t x }) s).port q).tags[k]
      = if q = p ∧ k = t then x else (s.port q).tags[k] := by
    intro q k
    rw [updPort_port]
    by_cases h1 : q = p
    · subst h1; simp only [if_pos, true_and]; exact put_get _ _ _ _
    · simp [h1]
  have hq : ∀ q, ((updPort p (fun r => { r with tags := put r.tags t x }) s).port q).queues = (s.port q).queues := by
    intro q; rw [updPort_port]; split
    · rename_i h1; subst h1; rfl
    · rfl
  obtain ⟨y, hy, _, hid, hp, i, hi, hk⟩ := h.tagged p t e.id ht
  obtain rfl := h.eq hy he hid
  refine ⟨h.names, h.fresh, by simpa using he, by simp, ?_, ?_, ?_, ?_, ?_⟩
  · intro q k r hr
    rw [hl] at hr
    split at hr
    · exact absurd hr (hx r)
    · rename_i hn
      obtain ⟨z, hz, _, hzid, hzp, j, hj, hjk⟩ := h.tagged q k r hr
      refine ⟨z, hz, fun hm => hn ?_, hzid, hzp, j, hj, hjk⟩
      obtain rfl : z = y := by simpa using hm
      rw [hi] at hj; obtain rfl := Option.some.inj hj
      exact ⟨hzp.symm.trans hp, hjk.symm.trans hk⟩
  · intro z hz hn j hj
    rw [hl]
    have := h.issued z hz (by simp) j hj
    split
    · rename_i hh
      obtain ⟨h1, h2⟩ := hh
      subst h2
      rw [h1, ht] at this
      exact absurd (h.eq he hz (by simpa using this)) fun h => hn (by simp [h])
    · exact this
  · intro q c r hr
    rw [hq] at hr
    obtain ⟨z, hz, _, hzid, hzp, hzc, hzi⟩ := h.queued q c r hr
    refine ⟨z, hz, fun hm => ?_, hzid, hzp, hzc, hzi⟩
    obtain rfl : z = y := by simpa using hm
    rw [hi] at hzi; simp at hzi
  · intro z hz hn hzi
    rw [hq]; exact h.waiting z hz (by simp) hzi
  · intro q c; rw [hq]; exact h.once q c

/-- A change of a port's tags that names no entry and drops none. -/
theorem fit_tags {p : Port} {f : PortRec → PortRec} {L : List SubCmd} {s : State}
    (h1 : ∀ (t : DTag) (e : SubRef), (f (s.port p)).tags[t] = .issued e ↔ (s.port p).tags[t] = .issued e)
    (h2 : (f (s.port p)).queues = (s.port p).queues := by rfl) (h : SubsFit L s) : SubsFit L (updPort p f s) := by
  have ht : ∀ (q : Port) (k : DTag) (e : SubRef), ((updPort p f s).port q).tags[k] = .issued e ↔ (s.port q).tags[k] = .issued e := by
    intro q k e; rw [updPort_port]; split
    · rename_i h3; subst h3; exact h1 k e
    · rfl
  have hq : ∀ q, ((updPort p f s).port q).queues = (s.port q).queues := by
    intro q; rw [updPort_port]; split
    · rename_i h3; subst h3; exact h2
    · rfl
  obtain ⟨a, b, c, d, e, f, g, k, l⟩ := h
  refine ⟨a, b, c, d, fun q t r hr => e q t r ((ht q t r).1 hr), fun x hx hn i hi => (ht _ _ _).2 (f x hx hn i hi), ?_, ?_, ?_⟩
  · intro q; rw [hq]; exact g q
  · intro x; rw [hq]; exact k x
  · intro q; rw [hq]; exact l q

/-- A change of a port's record that touches neither its tags nor its queues. -/
theorem fit_updPort {p : Port} {f : PortRec → PortRec} {L : List SubCmd} {s : State} (h1 : (f (s.port p)).tags = (s.port p).tags := by rfl)
    (h2 : (f (s.port p)).queues = (s.port p).queues := by rfl) (h : SubsFit L s) : SubsFit L (updPort p f s) :=
  fit_tags (fun t e => by rw [h1]) h2 h

theorem fit_freeQuarantined {p : Port} {L : List SubCmd} {s : State} (h : SubsFit L s) : SubsFit L (freeQuarantined p s) := by
  refine fit_tags (fun t e => ?_) rfl h
  simp only [mapRows_eq, Fin.getElem_fin, Vector.getElem_map]
  split
  · rename_i he; rw [he]; simp
  · rfl

/-- A tag of a port that holds no entry becomes FREE (05 R76). -/
theorem fit_freeTag {p : Port} {t : DTag} {L : List SubCmd} {s : State} (ht : ∀ e, (s.port p).tags[t] ≠ .issued e) (h : SubsFit L s) :
    SubsFit L (freeTag p t s) := by
  refine fit_tags (fun k e => ?_) rfl h
  show (put _ t _)[k] = _ ↔ _
  rw [put_get]; split
  · rename_i hk; subst hk
    exact ⟨fun h => by simp at h, fun h => absurd h (ht e)⟩
  · rfl

theorem fit_endIssued {p : Port} {k : ResultKind} {s : State} (t : DTag) (h : SubsFit [] s) : SubsFit [] (endIssued p k s t) := by
  unfold endIssued
  split
  · rename_i r hr
    obtain ⟨x, hx, _, rfl, _⟩ := h.tagged p t r hr
    exact fit_mergeResult (fit_untag (x := .free) (by simp) hx hr h)
  · exact h
  · exact h

theorem fit_endAllIssued {p : Port} {k : ResultKind} {s : State} (h : SubsFit [] s) : SubsFit [] (endAllIssued p k s) := by
  unfold endAllIssued
  generalize List.finRange 16 = l
  induction l generalizing s with
  | nil => exact h
  | cons t l ih => exact ih (fit_endIssued t h)

/-- The QUEUED entries of a port, each with its record. -/
theorem queued_entries {p : Port} {s : State} (h : SubsFit [] s) :
    ∃ L : List SubCmd, L.map SubCmd.id = (s.port p).queued ∧ (∀ x ∈ L, x ∈ s.subs ∧ x.port = p ∧ x.issue = none) ∧ L.Nodup := by
  have hmem : ∀ e ∈ (s.port p).queued, ∃ x ∈ s.subs, x.id = e ∧ x.port = p ∧ x.issue = none := by
    intro e he
    simp only [PortRec.queued, List.mem_append] at he
    rcases he with ((he | he) | he) | he <;> (obtain ⟨x, hx, _, h1, h2, _, h3⟩ := h.queued p _ e he; exact ⟨x, hx, h1, h2, h3⟩)
  have hlist : ∀ l : List SubRef, (∀ e ∈ l, ∃ x ∈ s.subs, x.id = e ∧ x.port = p ∧ x.issue = none) →
      ∃ L : List SubCmd, L.map SubCmd.id = l ∧ ∀ x ∈ L, x ∈ s.subs ∧ x.port = p ∧ x.issue = none := by
    intro l
    induction l with
    | nil => exact fun _ => ⟨[], rfl, by simp⟩
    | cons e l ih =>
      intro hl
      obtain ⟨L, h1, h2⟩ := ih fun e he => hl e (by simp [he])
      obtain ⟨x, hx, hid, h3⟩ := hl e (by simp)
      refine ⟨x :: L, by simp [h1, hid], fun y hy => ?_⟩
      rcases List.mem_cons.1 hy with rfl | hy
      · exact ⟨hx, h3⟩
      · exact h2 y hy
  obtain ⟨L, h1, h2⟩ := hlist _ hmem
  refine ⟨L, h1, h2, ?_⟩
  have hdis : ∀ {c d : Sys2Proof.Class}, c ≠ d → ∀ e ∈ (s.port p).queues[c], ∀ e' ∈ (s.port p).queues[d], e ≠ e' := by
    intro c d hcd e he e' he' hee
    subst hee
    obtain ⟨x, hx, _, hxi, _, hxc, _⟩ := h.queued p c e he
    obtain ⟨y, hy, _, hyi, _, hyc, _⟩ := h.queued p d e he'
    have := h.eq hx hy (hxi.trans hyi.symm)
    subst this
    exact hcd (hxc.symm.trans hyc)
  have hn : (s.port p).queued.Nodup := by
    simp only [PortRec.queued, List.nodup_append, List.mem_append]
    refine ⟨⟨⟨h.once p 0, h.once p 1, hdis (by decide)⟩, h.once p 2, ?_⟩, h.once p 3, ?_⟩
    · rintro e (he | he) e' he'
      · exact hdis (by decide) e he e' he'
      · exact hdis (by decide) e he e' he'
    · rintro e ((he | he) | he) e' he'
      · exact hdis (by decide) e he e' he'
      · exact hdis (by decide) e he e' he'
      · exact hdis (by decide) e he e' he'
  rw [← h1] at hn
  exact List.Nodup.of_map _ hn

theorem mem_queued {r : PortRec} {c : Sys2Proof.Class} {e : SubRef} (h : e ∈ r.queues[c]) : e ∈ r.queued := by
  simp only [PortRec.queued, List.mem_append]
  match c with
  | 0 => exact .inl (.inl (.inl h))
  | 1 => exact .inl (.inl (.inr h))
  | 2 => exact .inl (.inr h)
  | 3 => exact .inr h

/-- A port's class queues are emptied, and each entry yields its result (05 R82). -/
theorem fit_emptyQueues {p : Port} {k : ResultKind} {s : State} (h : SubsFit [] s) : SubsFit [] (emptyQueues p k s) := by
  obtain ⟨L, h1, h2, h3⟩ := queued_entries (p := p) h
  unfold emptyQueues
  rw [← h1]
  refine fit_mergeAll _ _ ?_
  generalize hu : updPort p (fun r => { r with queues := Vector.replicate 4 [] }) s = u
  have hsubs : u.subs = s.subs := by subst hu; rfl
  have hnext : u.nextSub = s.nextSub := by subst hu; rfl
  have htags : ∀ q, (u.port q).tags = (s.port q).tags := by
    intro q; subst hu; rw [updPort_port]; split
    · rename_i h1; subst h1; rfl
    · rfl
  have hqueues : ∀ (q : Port) (d : Sys2Proof.Class), (u.port q).queues[d] = if q = p then [] else (s.port q).queues[d] := by
    intro q d; subst hu; rw [updPort_port]; split
    · simp
    · rfl
  refine ⟨hsubs ▸ h.names, fun x hx => by rw [hnext]; exact h.fresh x (hsubs ▸ hx), fun x hx => hsubs ▸ (h2 x hx).1, h3, ?_, ?_, ?_, ?_, ?_⟩
  · intro q t r hr
    rw [htags] at hr
    obtain ⟨x, hx, _, hid, hp, i, hi, hk⟩ := h.tagged q t r hr
    exact ⟨x, hsubs ▸ hx, fun hm => by rw [(h2 x hm).2.2] at hi; simp at hi, hid, hp, i, hi, hk⟩
  · intro x hx _ i hi
    rw [htags]; exact h.issued x (hsubs ▸ hx) (by simp) i hi
  · intro q c r hr
    rw [hqueues] at hr
    split at hr
    · simp at hr
    · rename_i hqp
      obtain ⟨x, hx, _, hid, hp, rest⟩ := h.queued q c r hr
      exact ⟨x, hsubs ▸ hx, fun hm => hqp (hp.symm.trans (h2 x hm).2.1), hid, hp, rest⟩
  · intro x hx hl hi
    have := h.waiting x (hsubs ▸ hx) (by simp) hi
    rw [hqueues]; split
    · rename_i hp
      refine absurd ?_ hl
      rw [hp] at this
      have hm : x.id ∈ L.map SubCmd.id := h1 ▸ mem_queued this
      obtain ⟨y, hy, hid⟩ := List.mem_map.1 hm
      exact h.eq (h2 y hy).1 (hsubs ▸ hx) hid ▸ hy
    · exact this
  · intro q d
    rw [hqueues]; split
    · simp
    · exact h.once q d

/-! ## Split (04 R65 to R67) -/

/-- Fresh entries are allocated, and loose (04 R65). -/
theorem fit_allocate {p : Parent} {es : List SubCmd} {ps : List Piece} {fs : List FlushResult} {s : State}
    (hid : es.map SubCmd.id = List.range' s.nextSub es.length) (h : SubsFit [] s) : SubsFit es (allocate p es ps fs s) := by
  have hes : ∀ x ∈ es, s.nextSub ≤ x.id ∧ x.id < s.nextSub + es.length := by
    intro x hx
    have : x.id ∈ List.range' s.nextSub es.length := hid ▸ List.mem_map_of_mem hx
    simpa using this
  have hn : (es.map SubCmd.id).Nodup := hid ▸ List.nodup_range'
  have hnew : ∀ x ∈ s.subs, x ∉ es := fun x hx hm => absurd (h.fresh x hx) (Nat.not_lt.2 (hes x hm).1)
  refine ⟨?_, ?_, ?_, List.Nodup.of_map _ hn, ?_, ?_, ?_, ?_, h.once⟩
  · show (s.subs ++ es).Pairwise _
    rw [List.pairwise_append]
    refine ⟨h.names, by rw [List.nodup_iff_pairwise_ne, List.pairwise_map] at hn; exact hn, fun x hx y hy hxy => ?_⟩
    exact absurd (h.fresh x hx) (Nat.not_lt.2 (hxy ▸ (hes y hy).1))
  · intro x hx
    show x.id < s.nextSub + es.length
    rcases List.mem_append.1 (show x ∈ s.subs ++ es from hx) with hx | hx
    · exact Nat.lt_add_right _ (h.fresh x hx)
    · exact (hes x hx).2
  · exact fun x hx => List.mem_append_right _ hx
  · intro q t r hr
    obtain ⟨x, hx, _, rest⟩ := h.tagged q t r hr
    exact ⟨x, List.mem_append_left _ hx, hnew x hx, rest⟩
  · intro x hx hl i hi
    rcases List.mem_append.1 (show x ∈ s.subs ++ es from hx) with hx | hx
    · exact h.issued x hx (by simp) i hi
    · exact absurd hx hl
  · intro q c r hr
    obtain ⟨x, hx, _, rest⟩ := h.queued q c r hr
    exact ⟨x, List.mem_append_left _ hx, hnew x hx, rest⟩
  · intro x hx hl hi
    rcases List.mem_append.1 (show x ∈ s.subs ++ es from hx) with hx | hx
    · exact h.waiting x hx (by simp) hi
    · exact absurd hx hl

/-- Whether a port is usable stays in a move that leaves its state. -/
theorem usable_stays {s t : State} {q : Port} (h : PortStays q s t) : usable t q = usable s q := by
  unfold usable; rw [h.state]

theorem fit_queueAll : ∀ (es K : List SubCmd) (s : State), (∀ e ∈ es, e.issue = none) → SubsFit (es ++ K) s →
    SubsFit (es.filter (fun e => !usable s e.port) ++ K) (es.foldl queueNew s)
  | [], _, _, _, h => h
  | e :: es, K, s, hi, h => by
    rw [List.foldl_cons]
    have hu : ∀ q, usable (queueNew s e) q = usable s q := fun q => usable_stays (stays_queueNew s e q)
    by_cases hq : usable s e.port = true
    · rw [List.filter_cons_of_neg (by simp [hq])]
      have h1 : SubsFit (es ++ K) (queueNew s e) := by
        unfold queueNew; rw [if_pos hq]; exact fit_joinQueue (hi e (by simp)) h
      have := fit_queueAll es K _ (fun x hx => hi x (by simp [hx])) h1
      simpa only [hu] using this
    · rw [List.filter_cons_of_pos (by simp [hq])]
      have h1 : SubsFit (es ++ (e :: K)) (queueNew s e) := by
        unfold queueNew; rw [if_neg hq]; exact h.perm List.perm_middle.symm
      have := fit_queueAll es (e :: K) _ (fun x hx => hi x (by simp [hx])) h1
      simp only [hu] at this
      exact this.perm List.perm_middle

theorem fit_failAll : ∀ (es : List SubCmd) (s : State), SubsFit (es.filter fun e => !usable s e.port) s → SubsFit [] (es.foldl failNew s)
  | [], _, h => h
  | e :: es, s, h => by
    rw [List.foldl_cons]
    have hu : ∀ q, usable (failNew s e) q = usable s q := fun q => usable_stays (stays_failNew s e q)
    refine fit_failAll es _ ?_
    simp only [hu]
    by_cases hq : usable s e.port = true
    · rw [List.filter_cons_of_neg (by simp [hq])] at h
      have : failNew s e = s := by
        unfold failNew
        simp only [usable, Bool.or_eq_true, beq_iff_eq] at hq
        rcases hq with hq | hq <;> rw [hq]
      rw [this]; exact h
    · rw [List.filter_cons_of_pos (by simp [hq])] at h
      unfold failNew
      split
      · exact fit_mergeResult h
      · exact fit_mergeResult h
      · rename_i hs; simp [usable, hs] at hq
      · rename_i hs; simp [usable, hs] at hq

theorem entriesOf_ids (p : Parent) (i : Nat) (q : PlannedPiece) (e : SubRef) :
    (entriesOf p i q e).map SubCmd.id = List.range' e q.members.length := by
  unfold entriesOf
  apply List.ext_getElem
  · simp
  · intro k h1 h2; simp

theorem pieceEntries_ids (p : Parent) : ∀ (i : Nat) (e : SubRef) (ps : List PlannedPiece),
    (pieceEntries p i e ps).map SubCmd.id = List.range' e (pieceEntries p i e ps).length
  | _, _, [] => rfl
  | i, e, q :: qs => by
    simp only [pieceEntries, List.map_append, entriesOf_ids, pieceEntries_ids p (i + 1) (e + q.members.length) qs, List.length_append]
    rw [show (entriesOf p i q e).length = q.members.length by simp [entriesOf]]
    rw [← List.range'_append_1]

theorem flushEntries_ids (p : Parent) (e : SubRef) (ports : List Port) :
    (flushEntries p e ports).map SubCmd.id = List.range' e (flushEntries p e ports).length := by
  unfold flushEntries
  apply List.ext_getElem
  · simp
  · intro k h1 h2; simp

theorem pieceEntries_queued (p : Parent) : ∀ (i : Nat) (e : SubRef) (ps : List PlannedPiece), ∀ x ∈ pieceEntries p i e ps, x.issue = none
  | _, _, [], x, hx => by simp [pieceEntries] at hx
  | i, e, q :: qs, x, hx => by
    rcases List.mem_append.1 (show x ∈ entriesOf p i q e ++ _ from hx) with hx | hx
    · simp only [entriesOf, List.mem_map] at hx; obtain ⟨_, _, rfl⟩ := hx; rfl
    · exact pieceEntries_queued p _ _ _ x hx

theorem flushEntries_queued (p : Parent) (e : SubRef) (ports : List Port) : ∀ x ∈ flushEntries p e ports, x.issue = none := by
  intro x hx
  simp only [flushEntries, List.mem_map] at hx; obtain ⟨_, _, rfl⟩ := hx; rfl

theorem fit_handOver {es : List SubCmd} {s : State} (hi : ∀ e ∈ es, e.issue = none) (h : SubsFit es s) : SubsFit [] (handOver es s) := by
  unfold handOver
  refine fit_failAll es _ ?_
  have h1 := fit_queueAll es [] s hi (by simpa using h)
  have hu : ∀ q, usable (es.foldl queueNew s) q = usable s q := fun q => usable_stays (PortStays.foldl (fun _ _ => stays_queueNew _ _ _) es s)
  simp only [hu]
  simpa using h1

theorem fit_split {p : Parent} {v : Verdict} {s : State} (h : SubsFit [] s) : SubsFit [] (split p v s) := by
  unfold split
  split
  · exact fit_handOver (pieceEntries_queued _ _ _ _) (fit_allocate (pieceEntries_ids _ _ _ _) h)
  · exact fit_handOver (flushEntries_queued _ _ _) (fit_allocate (flushEntries_ids _ _ _) h)
  · exact h
  · exact h

/-! ## Removal (05 R83) -/

theorem removeQueued_port (id : ParentRef) (s : State) (q : Port) : (removeQueued id s).port q = (s.port q).without (queuedSubs id s) := by
  show (mapRows (PortRec.without (queuedSubs id s)) s.ports)[q] = _
  rw [mapRows_eq]
  simp only [Fin.getElem_fin, Vector.getElem_map]; rfl

theorem removeQueued_queues (id : ParentRef) (s : State) (q : Port) (c : Sys2Proof.Class) :
    ((removeQueued id s).port q).queues[c] = (s.port q).queues[c].filter fun e => !(queuedSubs id s).contains e := by
  rw [removeQueued_port]
  simp only [PortRec.without, mapRows_eq, Fin.getElem_fin, Vector.getElem_map]

theorem stays_removeQueued (id : ParentRef) (s : State) (p : Port) : PortStays p s (removeQueued id s) := by
  refine ⟨?_, ?_, ?_, ?_, ?_, fun _ he c => ?_, fun _ k => .inl ?_⟩
  any_goals (rw [removeQueued_port]; rfl)
  rw [removeQueued_queues, he c]; rfl

theorem fit_removeQueued {id : ParentRef} {s : State} (h : SubsFit [] s) : SubsFit [] (removeQueued id s) := by
  have hsubs : ∀ x, x ∈ (removeQueued id s).subs ↔ x ∈ s.subs ∧ ¬(x.parent = id ∧ x.issue = none) := by
    intro x
    show x ∈ s.subs.filter _ ↔ _
    rw [List.mem_filter]; cases x.issue <;> simp
  have hgone : ∀ x ∈ s.subs, (x.id ∈ queuedSubs id s ↔ x.parent = id ∧ x.issue = none) := by
    intro x hx
    unfold queuedSubs
    rw [List.mem_map]
    constructor
    · rintro ⟨y, hy, hid⟩
      rw [List.mem_filter] at hy
      rw [← h.eq hy.1 hx hid]; simpa using hy.2
    · intro hp
      exact ⟨x, List.mem_filter.2 ⟨hx, by simpa using hp⟩, rfl⟩
  have htags : ∀ (q : Port), ((removeQueued id s).port q).tags = (s.port q).tags := fun q => by rw [removeQueued_port]; rfl
  refine ⟨?_, fun x hx => h.fresh x ((hsubs x).1 hx).1, by simp, .nil, ?_, ?_, ?_, ?_, ?_⟩
  · show (s.subs.filter _).Pairwise _
    exact h.names.sublist List.filter_sublist
  · intro q t r hr
    rw [htags] at hr
    obtain ⟨x, hx, hl, hid, hp, i, hi, hk⟩ := h.tagged q t r hr
    exact ⟨x, (hsubs x).2 ⟨hx, fun hh => by rw [hh.2] at hi; simp at hi⟩, hl, hid, hp, i, hi, hk⟩
  · intro x hx hl i hi
    rw [htags]; exact h.issued x ((hsubs x).1 hx).1 hl i hi
  · intro q c r hr
    rw [removeQueued_queues, List.mem_filter] at hr
    obtain ⟨x, hx, hl, hid, hp, hc, hi⟩ := h.queued q c r hr.1
    refine ⟨x, (hsubs x).2 ⟨hx, fun hh => ?_⟩, hl, hid, hp, hc, hi⟩
    have : r ∈ queuedSubs id s := hid ▸ (hgone x hx).2 hh
    simp [this] at hr
  · intro x hx hl hi
    obtain ⟨hx, hn⟩ := (hsubs x).1 hx
    rw [removeQueued_queues, List.mem_filter]
    refine ⟨h.waiting x hx hl hi, ?_⟩
    have : x.id ∉ queuedSubs id s := fun hm => hn ((hgone x hx).1 hm)
    simpa using this
  · intro q c
    rw [removeQueued_queues]; exact (h.once q c).sublist List.filter_sublist

/-! ## Moves that leave every port -/

/-- A move that leaves every port, and keeps the law of sub-commands and tags. -/
structure Flows (s t : State) : Prop where
  stays : ∀ p : Port, PortStays p s t
  subs : SubCommandLaw s → SubCommandLaw t

theorem Flows.refl (s : State) : Flows s s := ⟨fun p => .refl p s, id⟩

theorem Flows.trans {s t u : State} (a : Flows s t) (b : Flows t u) : Flows s u :=
  ⟨fun p => (a.stays p).trans (b.stays p), b.subs ∘ a.subs⟩

theorem Flows.foldl {α : Type} {f : State → α → State} (h : ∀ s a, Flows s (f s a)) : ∀ (l : List α) (s : State), Flows s (l.foldl f s)
  | [], s => .refl s
  | a :: l, s => (h s a).trans (Flows.foldl h l (f s a))

theorem Inert.flows {s t : State} (h : Inert s t) : Flows s t := ⟨h.stays, fun hs => (hs.fit.inert h).law⟩

theorem flows_split (p : Parent) (v : Verdict) (s : State) : Flows s (split p v s) := ⟨stays_split p v s, fun h => (fit_split h.fit).law⟩

theorem flows_removeQueued (id : ParentRef) (s : State) : Flows s (removeQueued id s) :=
  ⟨stays_removeQueued id s, fun h => (fit_removeQueued h.fit).law⟩

theorem flows_issueTest (p : Port) (s : State) : Flows s (issueTest p s) := ⟨stays_issueTest p s, fun h => (fit_issueTest h.fit).law⟩

theorem flows_complete (id : ParentRef) (st : Status) (fail : Option Nat) (residual : Nat) (payload : List Block) (s : State) :
    Flows s (complete id st fail residual payload s) := (inert_complete _ _ _ _ _ _).flows

theorem flows_finishLong (parent : Option ParentRef) (st : Status) (s : State) : Flows s (finishLong parent st s) := (inert_finishLong _ _ _).flows

/-! ### Split and Map -/

theorem flows_arrive (id : ParentRef) (s : State) : Flows s (arrive id s) := by
  unfold arrive
  repeat' split
  all_goals first
    | exact .refl s
    | exact flows_split _ _ _
    | exact flows_complete _ _ _ _ _ _
    | exact (Inert.flows {})

theorem flows_tryOnce {s t : State} (h : tryOnce s = some t) : Flows s t := by
  have hp : Flows s (popSplitWait s) := Inert.flows {}
  unfold tryOnce at h
  repeat' split at h
  all_goals first
    | (simp at h; done)
    | (obtain rfl := Option.some.inj h
       first
         | exact hp
         | exact hp.trans (flows_split _ _ _)
         | exact hp.trans (flows_complete _ _ _ _ _ _)
         | exact hp.trans (Inert.flows {}))

theorem flows_tryUpTo : ∀ (n : Nat) (s : State), Flows s (tryUpTo n s)
  | 0, s => .refl s
  | n + 1, s => by
    rw [tryUpTo]; split
    · exact .refl s
    · rename_i t h; exact (flows_tryOnce h).trans (flows_tryUpTo n t)

theorem flows_tryHeads (s : State) : Flows s (tryHeads s) := flows_tryUpTo _ _

theorem flows_tryIfFreed (before s : State) : Flows s (tryIfFreed before s) := by
  unfold tryIfFreed; split; exacts [flows_tryHeads _, .refl s]

theorem flows_commitSwap (v : Volume) (s : State) : Flows s (commitSwap v s) := by
  have h : Flows s (swapMaps v s) := Inert.flows {}
  refine Flows.trans ?_ (flows_finishLong _ _ _)
  refine h.trans (Flows.trans (Inert.flows {}) (Flows.foldl (fun _ _ => flows_arrive _ _) _ _))

theorem flows_takeCommit (id : ParentRef) (v : Volume) (s : State) : Flows s (takeCommit id v s) := by
  unfold takeCommit startCommit
  repeat' split
  all_goals first
    | exact (inert_answerResult _ _ _ _).flows
    | exact Flows.trans (Inert.flows {}) (flows_commitSwap _ _)
    | exact (Inert.flows {})

theorem flows_takeMapReport (r : MapReport) (s : State) : Flows s (takeMapReport r s) := by
  refine Flows.trans (t := lowerCounts r s) (Inert.flows {}) ?_
  unfold takeMapReport endWaits
  repeat' split
  all_goals first | exact .refl _ | exact flows_commitSwap _ _ | exact (inert_removal _ _).flows

/-! ### Aborts and the loss of the upstream link -/

theorem flows_abortParent (p : Parent) (s : State) : Flows s (abortParent p s) := by
  have hw := (inert_leaveWait p s).trans (inert_completeAborted p.id _)
  unfold abortParent
  split <;> (repeat' split) <;> first
    | exact hw.flows
    | exact (flows_removeQueued _ _).trans (inert_setState _ _ _).flows
    | exact (flows_removeQueued _ _).trans (inert_completeAborted _ _).flows
    | exact .refl s

theorem inert_reportGone (p : Parent) (s : State) : Inert s (reportGone p s) := by
  unfold reportGone
  repeat' split
  all_goals exact {}

theorem flows_discard (s : State) (p : Parent) : Flows s (discard s p) := by
  have hw := (inert_leaveWait p s).trans (inert_freeParent p.id _)
  unfold discard discardRunning
  split <;> (repeat' split) <;> first
    | exact hw.flows
    | exact ((inert_freeParent p.id s).trans (inert_reportGone p _)).flows
    | exact (flows_removeQueued _ _).trans (inert_setState _ _ _).flows
    | exact (flows_removeQueued _ _).trans (inert_freeParent _ _).flows
    | exact (Inert.trans (t := { s with executing := none }) {} (inert_freeParent p.id _)).flows
    | exact .refl s

theorem flows_takeUpstreamLoss (s : State) : Flows s (takeUpstreamLoss s) := by
  unfold takeUpstreamLoss
  split
  · have h : Flows s (s.parents.foldl discard { s with linkUp := false }) :=
      Flows.trans (t := { s with linkUp := false }) (Inert.flows {}) (Flows.foldl flows_discard _ _)
    refine Flows.trans (t := clearManager _) (h.trans (Inert.flows {})) ?_
    unfold postDiscarded; split
    · exact .refl _
    · exact (inert_post _ _).flows
  · exact .refl s

/-! ### Admission and the Order Unit -/

theorem flows_release (id : ParentRef) (s : State) : Flows s (release id s) :=
  Flows.trans (t := enterPhase2 id s) (Inert.flows {}) (flows_arrive _ _)

theorem flows_admitCmd (f : CmdFields) (s : State) : Flows s (admitCmd f s) := by
  have h1 : Flows s (admitEntry f s) := Inert.flows {}
  refine h1.trans ?_
  unfold admitCmd
  generalize admitEntry f s = t
  generalize admittedParent f s.nextParent = p
  unfold handOn
  split
  · have : Inert t (if t.manager = some p.initiator then startLease t else t) := by split <;> exact {}
    exact (this.trans (Inert.trans {} (inert_takeHead _))).flows
  · split
    · unfold handDrain; split
      · exact (Inert.flows {})
      · exact Flows.trans (Inert.flows {}) (flows_release _ _)
    · unfold handRange; split
      · exact (Inert.flows {})
      · exact Flows.trans (Inert.flows {}) (flows_release _ _)

theorem flows_takeCmd (i : Initiator) (f : CmdFrame) (s : State) : Flows s (takeCmd i f s) := by
  unfold takeCmd
  repeat' split
  all_goals first | exact flows_admitCmd _ _ | exact (Inert.flows {})

theorem flows_takeOrderReport (r : OrderReport) (s : State) : Flows s (takeOrderReport r s) :=
  Flows.trans (Inert.flows {}) (Flows.foldl (fun _ _ => flows_release _ _) _ _)

theorem flows_takeAbt (i : Initiator) (t : Byte) (s : State) : Flows s (takeAbt i t s) := by
  unfold takeAbt
  split
  · exact (Inert.flows {})
  · rename_i p _
    have h : Flows s (abortReply i t (abortStatus p.state) (abortParent p s)) := (flows_abortParent p s).trans (Inert.flows {})
    unfold tryAfterAbort; split; exacts [h.trans (flows_tryHeads _), h]

end Sys2Proof.Machine
end

