-- ==== Sys2Proof/Laws/Volumes.lean ====
section
/-! SUPPORT. Control commands of the Map Unit as a whole: DEFINE, validation, the swap, and the CPL of a long operation. -/

-- The package is also compiled as one text: one proof after another keeps the number of Lean's threads small there.
set_option Elab.async false

namespace Sys2Proof.Machine

/-- A page without a selector accepts selector 0 (09 R135). -/
theorem selZero_zero (x) : selZero 0 x = some x := rfl

/-- A managed page operation that answers the manager at once, as a whole (09 R137). -/
theorem execute_managed {s t : State} {p : Parent} {pick : Parent → Option (State → State)} {g : State → State} (st : Status) (b : Block)
    (h : Running p s) (hm : s.manager = some p.initiator) (hp : pick p = some (managed p g))
    (hg : g s = answer p.id st b t) (h1 : t.parents = s.parents := by rfl) (h2 : t.nextParent = s.nextParent := by rfl) :
    execute pick s = answered p st b t :=
  execute_answer st b h hp (by rw [managed_of g hm]; exact hg) h1 h2

/-- DEFINE finds no extent beyond a capacity that all end within (01 R11). -/
theorem firstBeyond_eq_none {c : Nat} {i : Nat} {l : List Extent} (h : ∀ x ∈ l, x.first.toNat + x.length.toNat ≤ c) : firstBeyond c i l = none := by
  induction l generalizing i with
  | nil => rfl
  | cons a l ih =>
    have := h a (by simp)
    unfold firstBeyond
    rw [if_neg (by unfold Extent.stop; omega)]
    exact ih fun x hx => h x (by simp [hx])

/-- DEFINE names the first live extent beyond a capacity (01 R11). -/
theorem firstBeyond_some {c : Nat} {j i : Nat} {l : List Extent} {x : Extent} (hx : l[i]? = some x) (hc : c < x.first.toNat + x.length.toNat)
    (h : ∀ x ∈ l.take i, x.first.toNat + x.length.toNat ≤ c) : firstBeyond c j l = some (j + i) := by
  induction l generalizing i j with
  | nil => simp at hx
  | cons a l ih =>
    unfold firstBeyond
    cases i with
    | zero =>
      simp at hx; subst hx
      rw [if_pos (by unfold Extent.stop; omega)]; rfl
    | succ i =>
      have := h a (by simp)
      rw [if_neg (by unfold Extent.stop; omega)]
      rw [ih (by simpa using hx) fun y hy => h y (by simp [hy])]
      congr 1; omega

/-- The rights that an ACCESS write leaves on each volume (09 R144). -/
theorem writtenRights_get (b : Block) (row : Vector Rights 64) (v : Volume) :
    (writtenRights b row)[v] = if v = 0 then row[v] else (rightsOf (byteAt b v.val)).getD .none := by
  show (writtenRights b row)[v.val] = _
  unfold writtenRights; rw [Vector.getElem_ofFn]

/-- The sort of the swap gives the staged records in live order (01 R5, R16). -/
theorem sortExtents_sortedFrom (xs : List Extent) : SortedFrom xs (sortExtents xs) := by
  have ins : ∀ (x : Extent) (l : List Extent), (insertExtent x l).Perm (x :: l) := by
    intro x l
    induction l with
    | nil => exact .refl _
    | cons y l ih =>
      unfold insertExtent; split
      · exact .refl _
      · exact (ih.cons y).trans (.swap _ _ _)
  have srt : ∀ (x : Extent) (l : List Extent), l.Pairwise (fun x y => x.first.toNat ≤ y.first.toNat) → (insertExtent x l).Pairwise (fun x y => x.first.toNat ≤ y.first.toNat) := by
    intro x l hl
    induction l with
    | nil => simp [insertExtent]
    | cons y l ih =>
      obtain ⟨h1, h2⟩ := List.pairwise_cons.1 hl
      unfold insertExtent; split
      next h =>
        exact List.pairwise_cons.2 ⟨fun z hz => by rcases List.mem_cons.1 hz with rfl | hz; exact h; exact h.trans (h1 z hz), hl⟩
      next h =>
        refine List.pairwise_cons.2 ⟨fun z hz => ?_, ih h2⟩
        rcases List.mem_cons.1 ((ins x l).mem_iff.1 hz) with rfl | hz
        · omega
        · exact h1 z hz
  unfold sortExtents SortedFrom
  induction xs with
  | nil => simp
  | cons a xs ih => exact ⟨(ins _ _).trans (ih.1.cons a), srt _ _ ih.2⟩

/-- A staged record is bad exactly when validation does not pass it (01 R14). -/
theorem bad_iff_invalid (c : Nat) (lower : List Extent) (x : Extent) : x.Bad c lower ↔ ¬ (x.valid c = true ∧ ¬ lower.any x.overlaps = true) := by
  unfold Extent.Bad Extent.valid Extent.overlaps overlap Copy.valid Extent.stop Extent.isCurrent
  cases h2 : x.copy2 with
  | none =>
    cases hl : x.lead <;> simp only [Extent.copy?, h2, hl]
    · cases hs : x.copy1.state <;> simp [hs] <;> grind
    · simp
  | some c2 =>
    cases hl : x.lead <;> simp only [Extent.copy?, h2, hl]
    · cases hs : x.copy1.state <;> simp [hs] <;> grind
    · cases hs : c2.state <;> simp [hs] <;> grind

/-- Validation passes a staged map with no bad record (01 R14). -/
theorem firstBad_eq_none {c i : Nat} {pre l : List Extent} (h : ∀ (j : Nat) (y : Extent), l[j]? = some y → ¬ y.Bad c (pre ++ l.take j)) : firstBad c i pre l = none := by
  induction l generalizing i pre with
  | nil => rfl
  | cons a l ih =>
    unfold firstBad
    have h0 := h 0 a (by simp)
    rw [bad_iff_invalid, not_not] at h0
    simp only [List.take_zero, List.append_nil] at h0
    rw [if_pos h0]
    exact ih fun j y hj => by simpa using h (j + 1) y (by simpa using hj)

/-- Validation names the first bad record (01 R14). -/
theorem firstBad_some {c i k : Nat} {x : Extent} {pre l : List Extent} (hk : l[k]? = some x) (hb : x.Bad c (pre ++ l.take k))
    (h : ∀ (j : Nat) (y : Extent), j < k → l[j]? = some y → ¬ y.Bad c (pre ++ l.take j)) : firstBad c i pre l = some (i + k) := by
  induction l generalizing i k pre with
  | nil => simp at hk
  | cons a l ih =>
    unfold firstBad
    cases k with
    | zero =>
      simp at hk; subst hk
      rw [bad_iff_invalid] at hb
      simp only [List.take_zero, List.append_nil] at hb
      rw [if_neg hb]; rfl
    | succ k =>
      have h0 := h 0 a (by omega) (by simp)
      rw [bad_iff_invalid, not_not] at h0
      simp only [List.take_zero, List.append_nil] at h0
      rw [if_pos h0, ih (by simpa using hk) (by simpa using hb) fun j y hj hy => by simpa using h (j + 1) y (by omega) (by simpa using hy)]
      congr 1; omega

theorem filter_setLong {l : List Parent} {id : ParentRef} : (l.map fun q => if q.id = id then { q with state := .controlLong } else q).filter (fun q => q.id ≠ id) = l.filter fun q => q.id ≠ id :=
  filter_map_id (f := fun q => { q with state := .controlLong }) fun _ => rfl

/-- The CPL of a long operation that ends in its own execution event, as a whole (09 R137). -/
theorem answer_long {s u : State} {p : Parent} (st : Status) (h : Running p s) (h1 : u.parents = s.parents.map fun q => if q.id = p.id then { q with state := .controlLong } else q)
   (h2 : u.nextParent = s.nextParent) :
   answer p.id st (resultBlock 0) u = { withoutControl p u with outbound := u.outbound ++ [.cpl (controlCpl p st (resultBlock 0))], parents := s.parents.filter fun q => q.id ≠ p.id } := by
  have ho : AdmissionOrder u := by
    constructor
    · rw [h1, List.pairwise_map]
      refine h.order.1.imp fun {a b} hab => ?_
      split <;> split <;> simpa using hab
    · intro q hq
      rw [h1] at hq
      obtain ⟨r, hr, rfl⟩ := List.mem_map.1 hq
      rw [h2]; have := h.order.2 r hr
      split <;> simpa using this
  have hl : { p with state := .controlLong } ∈ u.parents := by
    rw [h1, List.mem_map]; exact ⟨p, h.live, by simp⟩
  have := answer_eq (p := { p with state := .controlLong }) st (resultBlock 0) ho hl h.volume h.slot
  refine this.trans ?_
  apply State.ext
  case parents => show u.parents.filter _ = _; rw [h1]; exact filter_setLong
  all_goals rfl

/-- A row written from what was just written to it. -/
theorem put_put_get {α : Type} {n : Nat} (w : Vector α n) (i : Fin n) (x : α) (g : α → α) : put (put w i x) i (g (put w i x)[i]) = put w i (g x) := by
  rw [put_put, put_get_self]

/-- The CPL of a long operation whose parent is live, as a whole (09 R137). -/
theorem finishLong_eq {s u : State} {p : Parent} (st : Status) (h : LongParent p s) (h1 : u.parents = s.parents) (h2 : u.nextParent = s.nextParent) :
   finishLong (some p.id) st u = longEnded p st u := by
  unfold finishLong answerResult
  exact answer_eq st _ (by unfold AdmissionOrder; rw [h1, h2]; exact h.order) (by rw [h1]; exact h.live) h.volume h.slot

/-- A hold with an earlier conflict fails its re-test (03 R44, R50). -/
theorem holdPasses_false {s : State} {v : Volume} {r : ParentRef} {h : Hold} (ho : OrderLaw s)
   (hh : (h.kind = .range ∧ ∃ x ∈ s.ranges[v], ∃ y ∈ s.ranges[v], x.parent = h.parent ∧ x.parent ≠ r ∧ y.parent ≠ r
          ∧ y.parent < x.parent ∧ x.start < y.start + y.count ∧ y.start < x.start + x.count ∧ (x.op = .write ∨ y.op = .write))
        ∨ (h.kind = .drain ∧ ∃ p ∈ s.parents, ∃ q ∈ s.parents, p.id = h.parent ∧ q.id < p.id ∧ q.initiator = p.initiator ∧ q.volume = p.volume)) :
   holdPasses s (s.ranges[v].filter fun e => e.parent != r) h = false := by
  unfold holdPasses
  rcases hh with ⟨hk, x, hx, y, hy, e1, e2, e3, e4, e5, e6, e7⟩ | ⟨hk, p, hp, q, hq, e1, e2, e3, e4⟩
  · rw [hk]; simp only
    have hs : (s.ranges[v].filter fun e => e.parent != r).Pairwise fun x y => x.parent < y.parent := (ho.sorted v).filter _
    have mx : x ∈ s.ranges[v].filter fun e => e.parent != r := List.mem_filter.2 ⟨hx, by simpa using e2⟩
    have my : y ∈ s.ranges[v].filter fun e => e.parent != r := List.mem_filter.2 ⟨hy, by simpa using e3⟩
    generalize (s.ranges[v].filter fun e => e.parent != r) = l at *
    have hf : l.find? (fun e => e.parent == h.parent) = some x := by
      clear my
      induction l with
      | nil => simp at mx
      | cons a l ih =>
        obtain ⟨s1, s2⟩ := List.pairwise_cons.1 hs
        rcases List.mem_cons.1 mx with rfl | mx
        · rw [List.find?_cons_of_pos (by simpa using e1)]
        · rw [List.find?_cons_of_neg (by have := s1 x mx; rw [e1] at this; simp only [beq_iff_eq]; exact Nat.ne_of_lt this)]
          exact ih s2 mx
    unfold rangeHeld; rw [hf]; simp only [Bool.not_eq_false']
    rw [List.any_eq_true]
    refine ⟨y, ?_, ?_⟩
    · unfold earlier
      clear mx hf
      induction l with
      | nil => simp at my
      | cons a l ih =>
        obtain ⟨s1, s2⟩ := List.pairwise_cons.1 hs
        have hlt : y.parent < h.parent := e1 ▸ e4
        rcases List.mem_cons.1 my with rfl | my
        · rw [List.takeWhile_cons_of_pos (by simpa using Nat.ne_of_lt hlt)]; simp
        · have := s1 y my
          rw [List.takeWhile_cons_of_pos (by simpa using Nat.ne_of_lt (Nat.lt_trans this hlt))]
          exact List.mem_cons_of_mem _ (ih s2 my)
    · unfold conflicts overlap
      simp only [Bool.and_eq_true, decide_eq_true_eq, Bool.or_eq_true, beq_iff_eq]
      exact ⟨⟨e5, e6⟩, e7⟩
  · rw [hk]; simp only
    rw [show s.parent? h.parent = some p from e1 ▸ find?_of_order ho.admission hp]
    simp only [Bool.not_eq_false']
    unfold drainHeld
    rw [List.any_eq_true]
    exact ⟨q, hq, by simp [e2, e3, e4]⟩

theorem filter_entries (l : List RangeEntry) (id : ParentRef) : (l.filter fun h => h.parent != id) = l.filter fun h => h.parent ≠ id := by
  apply List.filter_congr; intro x _; by_cases e : x.parent = id <;> simp [e]

theorem filter_holds (l : List Hold) (id : ParentRef) : (l.filter fun h => h.parent != id) = l.filter fun h => h.parent ≠ id := by
  apply List.filter_congr; intro x _; by_cases e : x.parent = id <;> simp [e]

/-- The removal as a whole (01 R17). -/
theorem removal_eq (v : Volume) (s : State) : removal v s = finishLong (s.vol v).longParent .good (removed v s) := by
  unfold removal removed clearColumn
  rw [mapRows_eq]
  rfl

/-- What the removal leaves does not depend on the counts of the volume's record. -/
theorem removed_withVol {v : Volume} {r : VolRec} {s : State} (h1 : r.live = (s.vol v).live) (h2 : r.staged = (s.vol v).staged) :
    removed v (withVol v r s) = removed v s := by
  have h : (withVol v r s).vol v = r := put_get_self _ _ _
  unfold removed
  rw [h, h1, h2]
  unfold withVol
  simp only [put_put]

end Sys2Proof.Machine
end

