-- ==== Sys2Proof/Laws/Ports.lean ====
section
/-! SUPPORT. Port operations as a whole on a port that has nothing to issue: halts, resets, the requests of a flush-all, and notices beside them. -/

-- The package is also compiled as one text: one proof after another keeps the number of Lean's threads small there.
set_option Elab.async false

namespace Sys2Proof.Machine

theorem issueOne_notUp {p : Port} {s : State} (h : (s.port p).state ≠ .up) : issueOne p s = none := by
  unfold issueOne; rw [if_neg (fun h' => h h'.1)]

/-- A port that is not UP issues nothing (05 R78). -/
theorem issueTest_notUp {p : Port} {s : State} (h : (s.port p).state ≠ .up) : issueTest p s = s := by
  unfold issueTest issueUpTo; rw [issueOne_notUp h]

theorem busyClasses_nil {r : PortRec} (h : ∀ c : Sys2Proof.Class, r.queues[c] = []) : r.busyClasses = [] := by
  unfold PortRec.busyClasses
  rw [List.filter_eq_nil_iff]; intro c _; rw [h c]; simp

/-- A port with empty class queues issues nothing (05 R78). -/
theorem issueTest_idle {p : Port} {s : State} (h : ∀ c : Sys2Proof.Class, (s.port p).queues[c] = []) : issueTest p s = s := by
  unfold issueTest issueUpTo
  have : issueOne p s = none := by
    unfold issueOne
    split
    · have : (s.port p).arbiter = none := by unfold PortRec.arbiter; rw [busyClasses_nil h]
      rw [this]
    · rfl
  rw [this]

/-- A try at an empty Split-Wait List finds no head (04 R68). -/
theorem tryHeads_nil {s : State} (h : s.splitWait = []) : tryHeads s = s := by unfold tryHeads; rw [h]; rfl

/-- No try at the Split-Wait List where no entry was freed (04 R68). -/
theorem tryIfFreed_same {s t : State} (h : t.subs = s.subs) : tryIfFreed s t = t := by
  unfold tryIfFreed; rw [h, if_neg (Nat.lt_irrefl _)]

theorem withPort_port (s : State) (d : Port) (r : PortRec) : (withPort d r s).port d = r := put_get_self _ _ _

theorem queues_nil {r : PortRec} (h : ∀ c : Sys2Proof.Class, r.queues[c] = []) : r.queues = Vector.replicate 4 [] := by
  apply Vector.ext; intro i hi; rw [Vector.getElem_replicate]; exact h ⟨i, hi⟩

theorem queued_nil {r : PortRec} (h : ∀ c : Sys2Proof.Class, r.queues[c] = []) : r.queued = [] := by
  unfold PortRec.queued; simp only [h, List.append_nil]

theorem updPort_withPort (d : Port) (r : PortRec) (f : PortRec → PortRec) (s : State) : updPort d f (withPort d r s) = withPort d (f r) s := by
  unfold updPort withPort
  simp only [put_get_self, put_put]

theorem noticed_ports (b : NoticeBody) (s : State) : (noticed b s).ports = s.ports := by
  unfold noticed; split
  · rfl
  · split <;> rfl

theorem noticed_parents (b : NoticeBody) (s : State) : (noticed b s).parents = s.parents := by
  unfold noticed; split
  · rfl
  · split <;> rfl

theorem noticed_next (b : NoticeBody) (s : State) : (noticed b s).nextParent = s.nextParent := by
  unfold noticed; split
  · rfl
  · split <;> rfl

theorem noticed_subs (b : NoticeBody) (s : State) : (noticed b s).subs = s.subs := by
  unfold noticed; split
  · rfl
  · split <;> rfl

theorem updPort_id {p : Port} {f : PortRec → PortRec} {s : State} (h : f s.ports[p] = s.ports[p]) : updPort p f s = s := by
  unfold updPort; rw [h, put_same]

theorem withPort_upd (d : Port) (r : PortRec) (f : PortRec → PortRec) (s : State) : withPort d r (updPort d f s) = withPort d r s := by
  unfold withPort updPort; simp only [put_put]

/-- Emptying empty class queues changes nothing (05 R82). -/
theorem emptyQueues_idle {p : Port} {s : State} {k : ResultKind} (h : ∀ c : Sys2Proof.Class, (s.port p).queues[c] = []) : emptyQueues p k s = s := by
  unfold emptyQueues
  rw [queued_nil h]
  simp only [mergeAll, List.foldl_nil]
  exact updPort_id (by rw [← queues_nil h]; rfl)

theorem postPort_eq (k : NoticeKind) (p : Port) (v : Option Nat) (s : State) : postPort k p v s = noticed (portNotice k p none v none) s := by
  unfold postPort; rw [post_eq]; rfl

/-- A halt of a port with empty class queues, as a whole (08 R127). -/
theorem haltPort_idle {p : Port} {s : State} {w : HaltReason} (h : ∀ c : Sys2Proof.Class, (s.port p).queues[c] = []) :
    haltPort p w s = noticed (portNotice .portHalted p none (some w.code) none) (withPort p { s.port p with state := .halted, reason := some w, resetTimer := none } s) := by
  unfold haltPort
  rw [postPort_eq]
  apply emptyQueues_idle
  intro c
  show ((noticed _ _).ports[p]).queues[c] = []
  rw [noticed_ports]
  show ((put s.ports p _)[p]).queues[c] = []
  rw [put_get_self]; exact h c

theorem parameterFault_none {w l m : Nat} (h1 : 1 ≤ w) (h2 : w ≤ 16) (h3 : 10 ≤ l) (h4 : l ≤ 60000) (h5 : 8 ≤ m) (h6 : m ≤ 1024) : parameterFault w l m = none := by
  unfold parameterFault; rw [if_neg (by omega), if_neg (by omega), if_neg (by omega)]

/-- A port that is not UP is not tested (07 R110). -/
theorem haltingTest_notUp {p : Port} {b s : State} (h : (s.port p).state ≠ .up) : haltingTest p b s = tryIfFreed b s := by
  unfold haltingTest; rw [if_neg fun h' => h h'.1]

theorem attachReset_eq (id : ParentRef) (p : Port) (s : State) : attachReset id p s = setState id .controlLong (withPort p { s.port p with pendingReset := some id } s) := rfl

theorem freeQuarantined_tags {r : PortRec} (h : ∀ t : DTag, r.tags[t].isIssued = false) : mapRows (fun t => if t = .quarantined then .free else t) r.tags = Vector.replicate 16 .free := by
  rw [mapRows_eq]
  apply Vector.ext; intro i hi
  rw [Vector.getElem_map, Vector.getElem_replicate]
  have := h ⟨i, hi⟩
  simp only [Fin.getElem_fin] at this
  cases e : r.tags[i] <;> simp [e, TagState.isIssued] at this ⊢

theorem endAllIssued_none {p : Port} {k : ResultKind} {s : State} (h : ∀ t : DTag, (s.port p).tags[t].isIssued = false) : endAllIssued p k s = s := by
  unfold endAllIssued
  have : ∀ l : List DTag, l.foldl (endIssued p k) s = s := by
    intro l
    induction l with
    | nil => rfl
    | cons a l ih =>
      rw [List.foldl_cons]
      have e : endIssued p k s a = s := by
        unfold endIssued
        have := h a
        cases e : (s.port p).tags[a] <;> simp [e, TagState.isIssued] at this ⊢
      rw [e, ih]
  exact this _

/-- A reset begun with no tag ISSUED, as a whole (08 R129). -/
theorem beginReset_idle {p : Port} {s : State} (h : ∀ t : DTag, (s.port p).tags[t].isIssued = false) :
    beginReset p s = { withPort p { s.port p with state := .resetting, reason := none, tags := Vector.replicate 16 .free, attempts := 1, resetTimer := some (s.now + (s.port p).responseLimit) } s with sent := s.sent ++ [.down p .trst] } := by
  unfold beginReset
  have e : ∀ t : DTag, ((updPort p (fun r => { r with state := .resetting, reason := none }) s).port p).tags[t].isIssued = false := by
    intro t
    show ((put s.ports p _)[p]).tags[t].isIssued = false
    rw [put_get_self]; exact h t
  rw [endAllIssued_none e]
  unfold sendTrst freeQuarantined
  show sendDown p .trst (updPort p _ (updPort p _ (withPort p { s.port p with state := .resetting, reason := none } s))) = _
  rw [updPort_withPort, updPort_withPort]
  simp only [freeQuarantined_tags h]
  rfl

/-- The ports after a flush-all has joined the flush waiters of those of a list that are RESETTING (08 R131). -/
def waitedPorts (l : List Port) (op : ParentRef) (s : State) : Vector PortRec 4 :=
  Vector.ofFn fun d : Port => if d ∈ l ∧ s.ports[d].state = .resetting then { s.ports[d] with flushWaiters := s.ports[d].flushWaiters ++ [op] } else s.ports[d]

theorem ofFn_port (f : Port → PortRec) (d : Port) : (Vector.ofFn f)[d] = f d := by
  show (Vector.ofFn f)[d.val] = _
  rw [Vector.getElem_ofFn]

theorem vector_ext {α : Type} {n : Nat} {v w : Vector α n} (h : ∀ d : Fin n, v[d] = w[d]) : v = w := Vector.ext fun i hi => h ⟨i, hi⟩

/-- The requests of a flush-all to ports that are DOWN or RESETTING, as a whole (08 R131). -/
theorem takeFlushRequest_waits {op : ParentRef} (l : List Port) : ∀ (s : State), l.Nodup → (∀ d ∈ l, (s.port d).state = .down ∨ (s.port d).state = .resetting) →
    l.foldl (takeFlushRequest op) s = { s with ports := waitedPorts l op s, flush := s.flush.map fun f => { f with awaited := f.awaited ++ l.filter fun d => (s.port d).state == .resetting } } := by
  induction l with
  | nil =>
    intro s _ _
    apply State.ext
    case ports => apply vector_ext; intro d; show s.ports[d] = (waitedPorts [] op s)[d]; unfold waitedPorts; rw [ofFn_port]; simp
    case flush =>
      show s.flush = _
      cases s.flush <;> simp
    all_goals rfl
  | cons a l ih =>
    intro s hn hs
    obtain ⟨ha, hn⟩ := List.nodup_cons.1 hn
    rw [List.foldl_cons]
    rcases hs a (by simp) with hd | hd
    · have e : takeFlushRequest op s a = s := by unfold takeFlushRequest; rw [hd]
      rw [e, ih s hn fun d h => hs d (by simp [h])]
      apply State.ext
      case ports =>
        apply vector_ext; intro d
        show (waitedPorts l op s)[d] = (waitedPorts (a :: l) op s)[d]
        unfold waitedPorts; rw [ofFn_port, ofFn_port]
        by_cases h : d = a
        · subst h
          have : s.ports[d].state = .down := hd
          rw [if_neg fun hh => absurd (hh.2.symm.trans this) (by simp), if_neg fun hh => absurd (hh.2.symm.trans this) (by simp)]
        · simp [h]
      case flush =>
        show s.flush.map _ = s.flush.map _
        simp [hd]
      all_goals rfl
    · have e : takeFlushRequest op s a = awaitPort op a s := by unfold takeFlushRequest; rw [hd]
      have pd : ∀ d, d ≠ a → (awaitPort op a s).port d = s.port d := by
        intro d h
        show (put s.ports a _)[d] = _
        rw [put_get, if_neg h]; rfl
      rw [e, ih _ hn]
      · apply State.ext
        case ports =>
          apply vector_ext; intro d
          show (waitedPorts l op (awaitPort op a s))[d] = (waitedPorts (a :: l) op s)[d]
          unfold waitedPorts; rw [ofFn_port, ofFn_port]
          by_cases h : d = a
          · subst h
            have hh : s.ports[d].state = .resetting := hd
            rw [if_neg (fun h => ha h.1), if_pos ⟨by simp, hh⟩]
            show (put s.ports d _)[d] = _
            rw [put_get_self]
          · have := pd d h
            unfold State.port at this
            rw [this]; simp [h]
        case flush =>
          show (s.flush.map _).map _ = s.flush.map _
          rw [Option.map_map]
          congr 1
          funext f
          have : (l.filter fun d => ((awaitPort op a s).port d).state == .resetting) = l.filter fun d => (s.port d).state == .resetting := by
            apply List.filter_congr; intro d h
            rw [pd d (fun h' => ha (h' ▸ h))]
          simp [this, hd]
        all_goals rfl
      · intro d h
        rw [pd d (fun h' => ha (h' ▸ h))]
        exact hs d (by simp [h])

theorem flushParent_control {s : State} {l : List Parent} (h : ∀ q ∈ l, q.volume = 0) : l.foldl flushParent s = s := by
  induction l with
  | nil => rfl
  | cons a l ih => rw [List.foldl_cons, show flushParent s a = s from if_pos (h a (by simp))]; exact ih fun q hq => h q (by simp [hq])

/-- A port in whose reset a flush-all waits (08 R131). -/
def resetPort (now : Nat) (op : ParentRef) (r : PortRec) : PortRec :=
  { r with state := .resetting, reason := none, tags := Vector.replicate 16 .free, attempts := 1, resetTimer := some (now + r.responseLimit), flushWaiters := r.flushWaiters ++ [op] }

/-- The ports after resets of those of a list (08 R131). -/
def resetPorts (l : List Port) (op : ParentRef) (s : State) : Vector PortRec 4 :=
  Vector.ofFn fun d : Port => if d ∈ l then resetPort s.now op s.ports[d] else s.ports[d]

/-- The requests of a flush-all to UP ports with no tag ISSUED, as a whole (08 R131). -/
theorem takeFlushRequest_resets {op : ParentRef} (l : List Port) : ∀ (s : State), l.Nodup → (∀ d ∈ l, (s.port d).state = .up ∧ ∀ t : DTag, (s.port d).tags[t].isIssued = false) →
    s.splitWait = [] → l.foldl (takeFlushRequest op) s = { s with ports := resetPorts l op s, flush := s.flush.map fun f => { f with awaited := f.awaited ++ l }, sent := s.sent ++ l.map fun d => .down d .trst } := by
  induction l with
  | nil =>
    intro s _ _ _
    apply State.ext
    case ports => apply vector_ext; intro d; show s.ports[d] = (resetPorts [] op s)[d]; unfold resetPorts; rw [ofFn_port]; simp
    case flush =>
      show s.flush = _
      cases s.flush <;> simp
    case sent => simp
    all_goals rfl
  | cons a l ih =>
    intro s hn hs hw
    obtain ⟨ha, hn⟩ := List.nodup_cons.1 hn
    rw [List.foldl_cons]
    obtain ⟨hu, ht⟩ := hs a (by simp)
    have e : takeFlushRequest op s a = awaitPort op a (beginReset a s) := by
      unfold takeFlushRequest; rw [hu]; simp only
      rw [tryHeads_nil (by rw [beginReset_idle ht]; exact hw)]
    have pd : ∀ d, d ≠ a → (takeFlushRequest op s a).port d = s.port d := by
      intro d h
      rw [e, beginReset_idle ht]
      show (put (put s.ports a _) a _)[d] = _
      rw [put_get, if_neg h, put_get, if_neg h]; rfl
    have pa : (takeFlushRequest op s a).port a = resetPort s.now op (s.port a) := by
      rw [e, beginReset_idle ht]
      show (put (put s.ports a _) a _)[a] = _
      rw [put_get_self]
      simp only [withPort, put_get_self]
      rfl
    have en : (takeFlushRequest op s a).now = s.now := by rw [e, beginReset_idle ht]; rfl
    have ew : (takeFlushRequest op s a).splitWait = [] := by rw [e, beginReset_idle ht]; exact hw
    rw [ih _ hn ?_ ew]
    · have e2 := beginReset_idle ht
      apply State.ext
      case ports =>
        apply vector_ext; intro d
        show (resetPorts l op (takeFlushRequest op s a))[d] = (resetPorts (a :: l) op s)[d]
        unfold resetPorts; rw [ofFn_port, ofFn_port, en]
        by_cases h : d = a
        · subst h
          rw [if_neg ha, if_pos (by simp)]
          exact pa
        · have := pd d h
          unfold State.port at this
          rw [this]; simp [h]
      case flush =>
        show (takeFlushRequest op s a).flush.map _ = s.flush.map _
        rw [e, e2]
        show (s.flush.map _).map _ = s.flush.map _
        rw [Option.map_map]
        congr 1
        funext f
        simp
      case sent =>
        show (takeFlushRequest op s a).sent ++ _ = _
        rw [e, e2]
        show (s.sent ++ [_]) ++ _ = _
        simp
      all_goals (rw [e, e2]; rfl)
    · intro d h
      rw [pd d (fun h' => ha (h' ▸ h))]
      exact hs d (by simp [h])

theorem flushParent_one {s : State} {q : Parent} {l : List Parent} (hn : l.Nodup) (hq : q ∈ l) (hv : q.volume ≠ 0) (h : ∀ r ∈ l, r.volume ≠ 0 → r = q) :
    l.foldl flushParent s = abortParent q s := by
  induction l with
  | nil => simp at hq
  | cons a l ih =>
    obtain ⟨ha, hn⟩ := List.nodup_cons.1 hn
    rw [List.foldl_cons]
    by_cases e : a = q
    · subst e
      rw [show flushParent s a = abortParent a s from if_neg hv]
      exact flushParent_control fun r hr => by
        by_contra hc
        exact ha (h r (by simp [hr]) hc ▸ hr)
    · rw [show flushParent s a = s from if_pos (by by_contra hc; exact e (h a (by simp) hc))]
      exact ih hn ((List.mem_cons.1 hq).resolve_left fun h => e h.symm) fun r hr => h r (by simp [hr])

/-- The end of a pending management reset after a port notice, as a whole (08 R130). -/
theorem endManagementReset_some {s : State} {d : Port} {p : Parent} {st : Status} {r : PortRec} {b : NoticeBody} (h : LongParent p s) (hp : r.pendingReset = some p.id) :
    endManagementReset d st (noticed b (withPort d r s)) = longEnded p st (noticed b (withPort d { r with pendingReset := none } s)) := by
  unfold endManagementReset
  have e : (noticed b (withPort d r s)).port d = r := by
    show (noticed _ _).ports[d] = _; rw [noticed_ports]; exact put_get_self _ _ _
  rw [e, hp]
  have e2 : updPort d (fun r => { r with pendingReset := none }) (noticed b (withPort d r s)) = noticed b (withPort d { r with pendingReset := none } s) := by
    unfold updPort
    have : (noticed b (withPort d r s)).ports = put s.ports d r := noticed_ports _ _
    rw [this, put_get_self, put_put]
    unfold noticed withPort
    split
    · rfl
    · cases s.manager <;> cases s.alert <;> rfl
  rw [e2]
  exact finishLong_eq st h (noticed_parents _ _) (noticed_next _ _)

/-- No management reset pending: nothing ends (08 R130). -/
theorem endManagementReset_none {s : State} {d : Port} {st : Status} {u : State} (hp : (u.port d).pendingReset = none) :
    endManagementReset d st u = u := by
  unfold endManagementReset
  rw [hp]
  simp only [finishLong]
  exact updPort_id (by show PortRec.mk _ _ _ _ _ _ _ _ _ _ _ _ = _; rw [← show (u.ports[d]).pendingReset = none from hp])

/-- No flush waiter: none is told (08 R131). -/
theorem endFlushWaiters_nil {d : Port} {u : State} (hp : (u.port d).flushWaiters = []) : endFlushWaiters d u = u := by
  unfold endFlushWaiters
  rw [hp]
  show updPort d _ u = u
  exact updPort_id (by rw [← show (u.ports[d]).flushWaiters = [] from hp])

theorem noticed_port (b : NoticeBody) (s : State) (d : Port) : (noticed b s).port d = s.port d := by
  show (noticed _ _).ports[d] = _; rw [noticed_ports]; rfl

theorem longEnded_port (p st) (s : State) (d : Port) : (longEnded p st s).port d = s.port d := rfl

theorem emptyQueues_noticed {b : NoticeBody} {s : State} {d : Port} {r : PortRec} {k : ResultKind} (h : ∀ c : Sys2Proof.Class, r.queues[c] = []) : emptyQueues d k (noticed b (withPort d r s)) = noticed b (withPort d r s) := by
  apply emptyQueues_idle; intro c; rw [noticed_port, withPort_port]; exact h c

theorem updPort_noticed (b : NoticeBody) (s : State) (d : Port) (r : PortRec) (f : PortRec → PortRec) : updPort d f (noticed b (withPort d r s)) = noticed b (withPort d (f r) s) := by
    unfold updPort
    have : (noticed b (withPort d r s)).ports = put s.ports d r := noticed_ports _ _
    rw [this, put_get_self, put_put]
    unfold noticed withPort
    split
    · rfl
    · cases s.manager <;> cases s.alert <;> rfl

theorem noticed_flush (b : NoticeBody) (s : State) : (noticed b s).flush = s.flush := by
  unfold noticed; split
  · rfl
  · split <;> rfl

theorem dtagOf_eq {b : Byte} {t : DTag} (h : b.toNat = t.val) : dtagOf b = some t := by
  unfold dtagOf; rw [dif_pos (by omega)]; congr 1; exact Fin.ext h

theorem postTag_eq (k : NoticeKind) (p : Port) (v : Byte) (s : State) : postTag k p v s = noticed (portNotice k p (some v) none none) s := by
  unfold postTag; rw [post_eq]; rfl

theorem noticed_splitWait (b : NoticeBody) (s : State) : (noticed b s).splitWait = s.splitWait := by
  unfold noticed; split
  · rfl
  · split <;> rfl

end Sys2Proof.Machine
end

