-- ==== Sys2Proof/Laws/Merging.lean ====
section
/-! SUPPORT. A READ with one sub-command as a whole: its split, its issue and its result. -/

-- The package is also compiled as one text: one proof after another keeps the number of Lean's threads small there.
set_option Elab.async false

namespace Sys2Proof.Machine

/-- An allocated entry is found by its reference (04 R64). -/
theorem sub_of_mem {s : State} {e : SubCmd} (h : s.subs.Pairwise fun x y => x.id ≠ y.id) (he : e ∈ s.subs) : s.sub? e.id = some e := by
  unfold State.sub?
  generalize s.subs = l at *
  induction l with
  | nil => simp at he
  | cons a l ih =>
    obtain ⟨h1, h2⟩ := List.pairwise_cons.1 h
    rcases List.mem_cons.1 he with rfl | he
    · rw [List.find?_cons_of_pos (by simp)]
    · rw [List.find?_cons_of_neg (by simpa using h1 e he)]; exact ih h2 he

theorem eraseP_sub {l : List SubCmd} {id : SubRef} (h : l.Pairwise fun x y => x.id ≠ y.id) : l.eraseP (fun x => x.id == id) = l.filter fun x => x.id ≠ id := by
  induction l with
  | nil => rfl
  | cons a l ih =>
    obtain ⟨h1, h2⟩ := List.pairwise_cons.1 h
    by_cases ha : a.id = id
    · rw [List.eraseP_cons_of_pos (by simpa using ha), List.filter_cons_of_neg (by simpa using ha), List.filter_eq_self.2]
      intro q hq
      have := h1 q hq
      simpa [← ha] using this.symm
    · rw [List.eraseP_cons_of_neg (by simpa using ha), List.filter_cons_of_pos (by simpa using ha), ih h2]

theorem updParent_comp (id : ParentRef) (f g : Parent → Parent) (hf : ∀ p, (f p).id = p.id) (s : State) : updParent id g (updParent id f s) = updParent id (fun p => g (f p)) s := by
  unfold updParent
  simp only [List.map_map]
  congr 1
  apply List.map_congr_left
  intro q _
  simp only [Function.comp]
  by_cases h : q.id = id
  · rw [if_pos h, if_pos (by rw [hf]; exact h), if_pos h]
  · rw [if_neg h, if_neg h, if_neg h]

/-- A piece already retried is not retried again (06 R92). -/
theorem retryTarget_retried {p : Parent} {pc : Piece} (h : pc.retried = true) (c : CopyNo) (s : State) : retryTarget p pc c s = none := by
  unfold retryTarget; rw [if_pos (Or.inl h)]

/-- The one result of a READ with one sub-command: the entry is freed and the parent completed, as a whole (06 R89, R101). -/
theorem mergeResult_read {s : State} {d : Port} {p : Parent} {pc : Piece} {e : SubCmd} (h : SoleRead s d p pc e) (u : State)
    (hp : u.parents = s.parents) (hs : u.subs = s.subs) (hn : u.nextParent = s.nextParent) (r : Result)
    (hr : r.kind = .ok ∨ ∀ c, e.copy = some c → retryTarget p pc c u = none)
    (st : Status) (fail : Option Nat) (res : Nat) (pay : List Block)
    (hc : ∀ q : Parent, q.id = p.id → q.start = p.start → q.count = p.count → q.op = .read →
       q.slots = (if r.kind = .ok ∨ r.kind = .medium then writeSlots p.slots 0 r.payload else p.slots) →
       (∃ ms, q.pieces = [{ pc with members := ms, state := pieceStateOf r.kind (failBlock p pc e r) }]) →
       ∀ w, completePieces q w = complete p.id st fail res pay w) :
    mergeResult e.id r u = { freed p u with subs := s.subs.filter (fun x => x.id ≠ e.id), outbound := u.outbound ++ [.cpl (commandCpl p st fail res pay)] } := by
  obtain ⟨c, hm, hcp⟩ := h.member
  obtain ⟨e1, e2, e3, e4, e5⟩ := h.entry
  unfold mergeResult
  rw [show u.sub? e.id = some e by unfold State.sub?; rw [hs]; exact sub_of_mem h.names h.known]
  simp only
  have ho : AdmissionOrder u := by unfold AdmissionOrder; rw [hp, hn]; exact h.order
  rw [show u.parent? e.parent = some p by rw [e1]; exact find?_of_order ho (hp ▸ h.live)]
  simp only
  unfold mergeInto
  simp only [e3, e2, hcp, h.pieces, List.getElem?_cons_zero]
  unfold mergeRead
  rw [show (if r.kind = .ok then none else retryTarget p pc c u) = none by
    rcases hr with hr | hr
    · rw [if_pos hr]
    · rw [hr c hcp]; split <;> rfl]
  simp only
  set F : Parent → Parent := fun q => { q with
     slots := if r.kind = .ok ∨ r.kind = .medium then writeSlots q.slots 0 r.payload else q.slots,
     pieces := q.pieces.modify 0 fun q => { q.record c { kind := r.kind, failBlock := failBlock p pc e r, issued := r.issued } with
        state := readPieceState p r.kind (failBlock p pc e r) } } with hF
  have eq1 : updPiece p.id 0 (fun q => { q.record c { kind := r.kind, failBlock := failBlock p pc e r, issued := r.issued } with
        state := readPieceState p r.kind (failBlock p pc e r) }) (storeRead p pc r u) = updParent p.id F u := by
    unfold updPiece storeRead
    by_cases hk : r.kind = .ok ∨ r.kind = .medium
    · rw [if_pos ⟨h.op, h.state, hk⟩]
      refine (updParent_comp _ _ _ ?_ _).trans ?_
      · intro _; rfl
      simp only [hF, hk, if_true, h.whole.1]
    · rw [if_neg fun hh => hk hh.2.2]
      simp only [hF, hk, if_false]
  rw [eq1]
  set w := freeSub e.id (updParent p.id F u) with hw
  have hwp : w.parents = u.parents.map fun q => if q.id = p.id then F q else q := rfl
  have how : AdmissionOrder w := by
    refine ⟨pairwise_updParent (fun _ => rfl) ho, ?_⟩
    intro q hq
    rw [hwp] at hq
    obtain ⟨q', hq', rfl⟩ := List.mem_map.1 hq
    have := ho.2 q' hq'
    show _ < u.nextParent
    split <;> exact this
  have hlw : F p ∈ w.parents := by
    rw [hwp, List.mem_map]; exact ⟨p, hp ▸ h.live, by rw [if_pos rfl]⟩
  have hfw : w.parent? p.id = some (F p) := find?_of_order (p := F p) how hlw
  unfold endTest
  rw [hfw]
  simp only
  have hst : (F p).state = .active := h.state
  have hop : (F p).op = .read := h.op
  have hpcs : (F p).pieces = [{ pc with members := (pc.record c { kind := r.kind, failBlock := failBlock p pc e r, issued := r.issued }).members, state := pieceStateOf r.kind (failBlock p pc e r) }] := by
    simp only [hF, h.pieces, List.modify_cons, if_true, readPieceState, h.state]; rfl
  rw [hst]
  simp only [hop, reduceCtorEq, if_false]
  have hres : allResolved (F p).pieces = true := by
    rw [hpcs]; unfold allResolved pieceStateOf; simp only [List.all_cons, List.all_nil]
    split <;> rfl
  rw [if_pos hres]
  rw [hc (F p) rfl rfl rfl h.op rfl ⟨_, hpcs⟩ w, show p.id = (F p).id from rfl, complete_eq how hlw]
  apply State.ext
  case parents =>
    show w.parents.filter _ = u.parents.filter _
    rw [hwp]; exact filter_map_id (fun _ => rfl)
  case freeSlots =>
    show u.freeSlots + (F p).slots.length = u.freeSlots + p.slots.length
    congr 1
    simp only [hF]; split
    · simp [writeSlots]
    · rfl
  case subs =>
    show u.subs.eraseP _ = _
    rw [hs]; exact eraseP_sub h.names
  all_goals rfl

/-- What a notice adds to the outbound order comes of the notices, the manager and the alert alone (09 R152). -/
theorem noticed_outbound {b : NoticeBody} {s u : State} (h1 : u.notices = s.notices) (h2 : u.outbound = s.outbound) (h3 : u.manager = s.manager) (h4 : u.alert = s.alert) (h5 : u.seq = s.seq) : (noticed b u).outbound = (noticed b s).outbound := by
  unfold noticed
  rw [h1, h2, h3, h4, h5]
  split
  · rfl
  · cases s.manager <;> cases s.alert <;> rfl

/-- A failure that is not MEDIUM, of the one sub-command of a READ that may not be retried, completes the READ with its status (06 R89, R94, R101). -/
theorem mergeResult_readFails {s : State} {d : Port} {p : Parent} {pc : Piece} {e : SubCmd} (h : SoleRead s d p pc e) (u : State)
    (hp : u.parents = s.parents) (hs : u.subs = s.subs) (hn : u.nextParent = s.nextParent) (k : ResultKind) (i : Bool)
    (hr : ∀ c, e.copy = some c → retryTarget p pc c u = none) (hk : k ≠ .ok) (hk' : k ≠ .medium) :
    mergeResult e.id (bareResult k i) u = { freed p u with subs := s.subs.filter (fun x => x.id ≠ e.id), outbound := u.outbound ++ [.cpl (commandCpl p k.status (some p.start) p.count [])] } := by
  refine mergeResult_read h u hp hs hn (bareResult k i) (Or.inr hr) k.status (some p.start) p.count [] ?_
  intro q a1 a2 a3 a4 a5 ⟨ms, a6⟩ w
  have ef : failBlock p pc e (bareResult k i) = p.start := by
    unfold failBlock bareResult pieceFirst
    rw [h.whole.1]
    cases k <;> simp_all
  unfold completePieces
  rw [a6, ef]
  simp only [lowestFailure, pieceStateOf, bareResult, hk, if_false, a1]
  unfold readPayload
  rw [if_pos a4, a2, a3]
  rw [show p.start - p.start = 0 by omega, show p.start + p.count - p.start = p.count by omega]
  congr 1

/-- Slots just written read back (06 R90). -/
theorem readSlots_writeSlots {sl : List (Option Block)} {bs : List Block} {n : Nat} (h1 : n ≤ sl.length) (h2 : bs.length = n) : readSlots (writeSlots sl 0 bs) 0 n = bs := by
  unfold readSlots writeSlots
  apply List.ext_getElem
  · simp; omega
  · intro i h3 h4
    simp [h4]

/-- A try at an empty Split-Wait List changes nothing (04 R68). -/
theorem tryIfFreed_nil {s t : State} (h : t.splitWait = []) : tryIfFreed s t = t := by
  unfold tryIfFreed
  split
  · unfold tryHeads; rw [h]; rfl
  · rfl

/-- An ISSUED tag that is quarantined raises the count of QUARANTINED tags by 1 (05 R75). -/
theorem quarantinedTags_put {r : PortRec} {t : DTag} {e : SubRef} (h : r.tags[t] = .issued e) : ({ r with tags := put r.tags t .quarantined } : PortRec).quarantinedTags = r.quarantinedTags + 1 := by
  unfold PortRec.quarantinedTags PortRec.countTags
  simp only
  unfold put
  rw [Vector.toList_set, List.countP_set]
  · simp only [Fin.getElem_fin] at h
    simp [h]
  · simpa using t.isLt

theorem walkRuns_done : ∀ (l : List Extent) (k stop : Nat), walkRuns k l stop stop = ([], stop)
  | [], _, _ => rfl
  | x :: l, k, stop => by unfold walkRuns; rw [if_neg (by simp)]; exact walkRuns_done l _ _

/-- The walk of a range inside one extent has one run (04 R57). -/
theorem walkRuns_one : ∀ (l : List Extent) (k n start stop : Nat) (x : Extent), l.Pairwise Extent.Apart → (∀ y ∈ l, 1 ≤ y.length.toNat) → l[n]? = some x → x.first.toNat ≤ start → start < stop → stop ≤ x.first.toNat + x.length.toNat →
    walkRuns k l start stop = ([⟨k + n, x, start, stop - start⟩], stop)
  | [], _, _, _, _, _, _, _, h, _, _, _ => by simp at h
  | a :: l, k, 0, start, stop, x, hp, hs, h, h1, h2, h3 => by
    simp at h; subst h
    unfold walkRuns
    rw [if_pos ⟨h2, by unfold Extent.contains Extent.stop; simp; omega⟩]
    have : min stop a.stop = stop := by unfold Extent.stop; omega
    rw [this, walkRuns_done]; rfl
  | a :: l, k, n + 1, start, stop, x, hp, hs, h, h1, h2, h3 => by
    obtain ⟨p1, p2⟩ := List.pairwise_cons.1 hp
    have hx : x ∈ l := List.mem_of_getElem? (by simpa using h)
    have := p1 x hx
    unfold walkRuns
    rw [if_neg (by unfold Extent.contains Extent.stop; unfold Extent.Apart at this; simp; intro _ _; omega)]
    rw [walkRuns_one l (k + 1) n start stop x p2 (fun y hy => hs y (List.mem_cons_of_mem _ hy)) (by simpa using h) h1 h2 h3]
    rw [show k + 1 + n = k + (n + 1) by omega]

/-- A run no longer than the maximum transfer is one piece (04 R58). -/
theorem cutLengths_one {c m : Nat} (h1 : 1 ≤ c) (h2 : c ≤ m) : cutLengths c m = [c] := by
  unfold cutLengths
  rcases Nat.lt_or_ge c m with h | h
  · rw [Nat.div_eq_of_lt h, Nat.mod_eq_of_lt h, if_neg (by omega)]; rfl
  · have : c = m := by omega
    subst this
    rw [Nat.div_self (by omega), Nat.mod_self]; rfl

/-- One queued entry makes one class busy (05 R79). -/
theorem busyClasses_one {r : PortRec} (h : ∀ k : Sys2Proof.Class, r.queues[k] = []) (c : Sys2Proof.Class) (e : SubRef) (l : List SubRef) :
    ({ r with queues := put r.queues c (e :: l) } : PortRec).busyClasses = [c] := by
  unfold PortRec.busyClasses
  have : ∀ k : Sys2Proof.Class, (!(put r.queues c (e :: l))[k].isEmpty) = decide (k = c) := by
    intro k; rw [put_get]; split
    · rename_i hk; simp [hk]
    · rename_i hk; rw [h k]; simp [hk]
  simp only [this]
  clear this
  revert c; decide

/-- The lowest FREE tag (05 R81). -/
theorem lowestFree_eq {r : PortRec} {t : DTag} (h1 : r.tags[t] = .free) (h2 : ∀ u : DTag, u < t → r.tags[u] ≠ .free) : r.lowestFree = some t := by
  unfold PortRec.lowestFree
  rw [List.find?_eq_some_iff_append]
  refine ⟨by simp [h1], (List.finRange 16).take t.val, (List.finRange 16).drop (t.val + 1), ?_, ?_⟩
  · conv_lhs => rw [← List.take_append_drop t.val (List.finRange 16)]
    congr 1
    rw [List.drop_eq_getElem_cons (by simp)]
    simp
  · intro a ha
    rw [List.mem_take_iff_getElem] at ha
    obtain ⟨k, hk, rfl⟩ := ha
    have := h2 ((List.finRange 16)[k]'(by omega)) (by simp [Fin.lt_def]; omega)
    simpa using this

end Sys2Proof.Machine
end

