-- ==== Sys2Proof/Laws/Issuing.lean ====
section
/-! SUPPORT. The issue of one entry as a whole: what the arbiter picks, what the SUB carries, and when an issue test makes one issue and no more. -/

-- The package is also compiled as one text: one proof after another keeps the number of Lean's threads small there.
set_option Elab.async false

namespace Sys2Proof.Machine

/-- Slots that hold blocks read back as those blocks (05 R81). -/
theorem readSlots_some {sl : List (Option Block)} {bs : List Block} {o n : Nat} (h : (sl.drop o).take n = bs.map some) : readSlots sl o n = bs := by
  unfold readSlots
  rw [h]
  apply List.ext_getElem
  · simp
  · intro i h1 h2; simp

/-- The SUB of an entry carries what the law of issues says (05 R81). -/
theorem subPayload_carries {s : State} {x : SubCmd} {bs : List Block} (ho : AdmissionOrder s) (h : Carries s x bs) : subPayload x s = bs := by
  rcases h with ⟨h, rfl⟩ | ⟨h, p, hp, i, pc, h1, h2, h3, h4⟩
  · unfold subPayload
    split
    · rename_i e _ _; exact absurd e h
    · rfl
  · unfold subPayload
    rw [h, ← h1, find?_of_order ho hp, h2]
    simp only [h3, Option.map_some, Option.getD_some]
    exact readSlots_some h4

/-- An entry that changes is found as it then is. -/
theorem sub_updSub {s : State} {id : SubRef} (f : SubCmd → SubCmd) (hf : ∀ y, (f y).id = y.id) : (updSub id f s).sub? id = (s.sub? id).map f := by
  unfold State.sub?
  show (s.subs.map _).find? _ = _
  rw [List.find?_map]
  have : ((fun x : SubCmd => x.id == id) ∘ fun x => if x.id = id then f x else x) = fun x => x.id == id := by
    funext x; simp only [Function.comp]; split
    · rw [hf]
    · rfl
  rw [this]
  cases h : s.subs.find? fun x => x.id == id with
  | none => rfl
  | some y => simp only [Option.map_some]; rw [if_pos (by simpa using List.find?_some h)]

/-- The issue of an allocated entry (05 R81). -/
theorem issueEntry_eq {d : Port} {c : Sys2Proof.Class} {n : Nat} {t : DTag} {x : SubCmd} {rest : List SubRef} {bs : List Block} {s : State}
    (ho : AdmissionOrder s) (hx : s.sub? x.id = some x) (hb : Carries s x bs) :
    issueEntry d c n t x.id rest s = issued d c n t x rest bs s := by
  unfold issueEntry sendSub
  rw [sub_updSub (s := updPort d (fun r => { r with queues := put r.queues c rest, passCount := n, tags := put r.tags t (.issued x.id) }) s)
    (fun x => { x with issue := some ⟨t, s.now + (s.port d).responseLimit⟩ }) (fun _ => rfl),
    show State.sub? (updPort d (fun r => { r with queues := put r.queues c rest, passCount := n, tags := put r.tags t (.issued x.id) }) s) x.id = some x from hx, Option.map_some]
  simp only
  have : subPayload { x with issue := some ⟨t, s.now + (s.port d).responseLimit⟩ } s = bs := subPayload_carries ho hb
  have e : subPayload { x with issue := some ⟨t, s.now + (s.port d).responseLimit⟩ }
      (updSub x.id (fun x => { x with issue := some ⟨t, s.now + (s.port d).responseLimit⟩ })
        (updPort d (fun r => { r with queues := put r.queues c rest, passCount := n, tags := put r.tags t (.issued x.id) }) s)) = bs := this
  unfold subFrame
  rw [e]
  rfl

/-- One issue, where the issue condition holds (05 R78, R79, R81). -/
theorem issueOne_eq {d : Port} {c : Sys2Proof.Class} {n : Nat} {t : DTag} {x : SubCmd} {rest : List SubRef} {bs : List Block} {s : State}
    (hu : (s.port d).state = .up) (hw : (s.port d).occupancy < (s.port d).window) (ha : (s.port d).arbiter = some (c, n))
    (ht : (s.port d).lowestFree = some t) (hq : (s.port d).queues[c] = x.id :: rest)
    (ho : AdmissionOrder s) (hx : s.sub? x.id = some x) (hb : Carries s x bs) :
    issueOne d s = some (issued d c n t x rest bs s) := by
  unfold issueOne
  rw [if_pos ⟨hu, hw⟩, ha, ht]
  simp only [hq]
  rw [issueEntry_eq ho hx hb]

/-- A tag that is put in another state moves the counts of its port by one (05 R75). -/
theorem occupancy_put {r : PortRec} {t : DTag} {x : TagState} : ({ r with tags := put r.tags t x } : PortRec).occupancy + (if r.tags[t] = .free then 0 else 1)
    = r.occupancy + if x = .free then 0 else 1 := by
  have key : ∀ (f : TagState → Bool), ({ r with tags := put r.tags t x } : PortRec).countTags f + (if f r.tags[t] then 1 else 0) = r.countTags f + if f x then 1 else 0 := by
    intro f
    unfold PortRec.countTags put
    simp only
    have hl : t.val < r.tags.toList.length := by simpa using t.isLt
    rw [Vector.toList_set, List.countP_set (h := hl)]
    have he : r.tags.toList[t.val]'hl = r.tags[t] := by simp
    rw [he]
    have : (if f r.tags[t] = true then 1 else 0) ≤ List.countP f r.tags.toList := by
      split
      · rename_i h
        exact List.countP_pos_iff.2 ⟨r.tags[t], by rw [← he]; exact List.getElem_mem _, h⟩
      · omega
    omega
  unfold PortRec.occupancy PortRec.issuedTags PortRec.quarantinedTags
  have k1 := key TagState.isIssued
  have k2 := key (fun t => t == .quarantined)
  generalize ({ r with tags := put r.tags t x } : PortRec).countTags TagState.isIssued = a at *
  generalize ({ r with tags := put r.tags t x } : PortRec).countTags (fun t => t == .quarantined) = b at *
  cases h1 : r.tags[t] <;> cases x <;> simp [h1, TagState.isIssued] at k1 k2 ⊢ <;> omega

/-- A port whose occupancy has reached its window issues nothing (05 R78). -/
theorem issueOne_full {d : Port} {s : State} (h : (s.port d).window ≤ (s.port d).occupancy) : issueOne d s = none := by
  unfold issueOne; rw [if_neg fun h' => absurd h'.2 (by omega)]

theorem issueTest_full {d : Port} {s : State} (h : (s.port d).window ≤ (s.port d).occupancy) : issueTest d s = s := by
  unfold issueTest issueUpTo; rw [issueOne_full h]

/-- The port that issued. -/
theorem issued_port (d : Port) (c : Sys2Proof.Class) (n : Nat) (t : DTag) (x : SubCmd) (rest : List SubRef) (bs : List Block) (s : State) :
    (issued d c n t x rest bs s).port d = { s.port d with queues := put (s.port d).queues c rest, passCount := n, tags := put (s.port d).tags t (.issued x.id) } :=
  put_get_self _ _ _

/-- An issue test makes one issue and no more, where the issue takes the last place of the window or the last entry of the queues (05 R78). -/
theorem issueTest_one {d : Port} {c : Sys2Proof.Class} {n : Nat} {t : DTag} {x : SubCmd} {rest : List SubRef} {bs : List Block} {s : State}
    (hu : (s.port d).state = .up) (hw : (s.port d).occupancy < (s.port d).window) (ha : (s.port d).arbiter = some (c, n))
    (ht : (s.port d).lowestFree = some t) (hf : (s.port d).tags[t] = .free) (hq : (s.port d).queues[c] = x.id :: rest)
    (ho : AdmissionOrder s) (hx : s.sub? x.id = some x) (hb : Carries s x bs)
    (hl : (s.port d).window ≤ (s.port d).occupancy + 1 ∨ (rest = [] ∧ ∀ k : Sys2Proof.Class, k ≠ c → (s.port d).queues[k] = [])) :
    issueTest d s = issued d c n t x rest bs s := by
  unfold issueTest issueUpTo
  rw [issueOne_eq hu hw ha ht hq ho hx hb]
  simp only
  unfold issueUpTo
  have : issueOne d (issued d c n t x rest bs s) = none := by
    rcases hl with hl | ⟨rfl, hl⟩
    · apply issueOne_full
      rw [issued_port]
      have := occupancy_put (r := s.port d) (t := t) (x := .issued x.id)
      rw [if_pos hf, if_neg (by simp)] at this
      refine Nat.le_trans hl (Nat.le_of_eq ?_)
      simp only [Nat.add_zero] at this
      exact this.symm
    · unfold issueOne
      split
      · have : ((issued d c n t x [] bs s).port d).arbiter = none := by
          unfold PortRec.arbiter
          rw [busyClasses_nil]
          intro k
          rw [issued_port]
          show (put (s.port d).queues c [])[k] = []
          rw [put_get]; split
          · rfl
          · rename_i h; exact hl k h
        rw [this]
      · rfl
  rw [this]

theorem isEmpty_false {α : Type} {l : List α} (h : l ≠ []) : l.isEmpty = false := by cases l with | nil => exact absurd rfl h | cons => rfl

/-- The arbiter of a port where one class alone has work (05 R79). -/
theorem arbiter_one {r : PortRec} {c : Sys2Proof.Class} (h : r.queues[c] ≠ []) (ho : ∀ k : Sys2Proof.Class, k ≠ c → r.queues[k] = []) : r.arbiter = some (c, 0) := by
  have : r.busyClasses = [c] := by
    unfold PortRec.busyClasses
    have : ∀ k : Sys2Proof.Class, (!(r.queues[k]).isEmpty) = decide (k = c) := by
      intro k
      by_cases e : k = c
      · subst e; rw [isEmpty_false h, decide_eq_true rfl]; rfl
      · rw [ho k e, decide_eq_false e]; rfl
    simp only [this]
    clear this h ho
    revert c; decide
  unfold PortRec.arbiter
  rw [this]

/-- The arbiter of a port where two classes or more have work, by its pass count (05 R79). -/
theorem arbiter_two {r : PortRec} {h l : Sys2Proof.Class} (hl : h < l) (h1 : r.queues[h] ≠ []) (h2 : r.queues[l] ≠ [])
    (h3 : ∀ k : Sys2Proof.Class, k < h → r.queues[k] = []) (h4 : ∀ k : Sys2Proof.Class, h < k → k < l → r.queues[k] = []) :
    r.arbiter = if r.passCount < 8 then some (h, r.passCount + 1) else some (l, 0) := by
  have : ∃ rest, r.busyClasses = h :: l :: rest := by
    unfold PortRec.busyClasses
    have : ∀ k : Sys2Proof.Class, (!(r.queues[k]).isEmpty) = decide (k = h ∨ k = l ∨ (l < k ∧ r.queues[k] ≠ [])) := by
      intro k
      by_cases e : r.queues[k] = []
      · rw [e, decide_eq_false]
        · rfl
        · rintro (rfl | rfl | ⟨_, g⟩)
          · exact h1 e
          · exact h2 e
          · exact g rfl
      · rw [isEmpty_false e, decide_eq_true]
        · rfl
        · rcases lt_trichotomy k h with g | g | g
          · exact absurd (h3 k g) e
          · exact .inl g
          · rcases lt_trichotomy k l with g' | g' | g'
            · exact absurd (h4 k g g') e
            · exact .inr (.inl g')
            · exact .inr (.inr ⟨g', e⟩)
    simp only [this]
    generalize (fun k : Sys2Proof.Class => r.queues[k] ≠ []) = P
    clear this h1 h2 h3 h4
    obtain ⟨h, hh⟩ := h
    obtain ⟨l, hh'⟩ := l
    simp only [Fin.mk_lt_mk] at hl
    interval_cases h <;> interval_cases l <;> first | omega | exact ⟨_, rfl⟩
  obtain ⟨rest, this⟩ := this
  unfold PortRec.arbiter
  rw [this]

end Sys2Proof.Machine
end

