-- ==== Sys2Proof/Laws/Orders.lean ====
section
/-! SUPPORT. `Orders s t`: a move from `s` to `t` that keeps the law of ordering and lets no earlier live parent race where none did; the moves of Ops, Flags, Issue and Merge. -/

-- The package is also compiled as one text: one proof after another keeps the number of Lean's threads small there.
set_option Elab.async false

namespace Sys2Proof.Machine

/-- A move that keeps the law of ordering, and leaves every reference unraced that was so. -/
def Orders (s t : State) : Prop := OrderLaw s → OrderLaw t ∧ ∀ id, Unraced s id → Unraced t id

theorem Orders.refl (s : State) : Orders s s := fun h => ⟨h, fun _ => id⟩

theorem Orders.trans {s t u : State} (a : Orders s t) (b : Orders t u) : Orders s u := fun h =>
  ⟨(b (a h).1).1, fun i hi => (b (a h).1).2 i ((a h).2 i hi)⟩

theorem Orders.foldl {α : Type} {f : State → α → State} (h : ∀ s a, Orders s (f s a)) : ∀ (l : List α) (s : State), Orders s (l.foldl f s)
  | [], s => .refl s
  | a :: l, s => (h s a).trans (Orders.foldl h l (f s a))

/-- A move after which each live parent is one that was live, with its range, and is released only if it was; the lists of the Split Unit and the holds have nothing new, and a new free report names a parent that is gone. -/
structure Thin (s t : State) : Prop where
  ids : (t.parents.map Parent.id).Sublist (s.parents.map Parent.id)
  parents : ∀ q ∈ t.parents, ∃ p ∈ s.parents, p.id = q.id ∧ p.volume = q.volume ∧ p.op = q.op ∧ p.start = q.start ∧ p.count = q.count
    ∧ (q.state = p.state ∨ q.state.released = false)
  next : t.nextParent = s.nextParent := by rfl
  ranges : t.ranges = s.ranges := by rfl
  holds : ∀ v : Volume, ∀ h ∈ t.holds[v], h ∈ s.holds[v] := by exact fun _ _ h => h
  split : ∀ id ∈ t.splitWait, id ∈ s.splitWait := by exact fun _ h => h
  switch : ∀ v : Volume, ∀ id ∈ t.switchHolds[v], id ∈ s.switchHolds[v] := by exact fun _ _ h => h
  reports : ∀ r ∈ t.orderReports, r ∈ s.orderReports ∨ r.parent < s.nextParent ∧ ∀ q ∈ t.parents, q.id ≠ r.parent := by
    exact fun _ h => .inl h

/-- A move that leaves the Command Table as it is. -/
theorem Thin.same {s t : State} (h : t.parents = s.parents := by rfl) (next : t.nextParent = s.nextParent := by rfl)
    (ranges : t.ranges = s.ranges := by rfl) (holds : ∀ v : Volume, ∀ h ∈ t.holds[v], h ∈ s.holds[v] := by exact fun _ _ h => h)
    (split : ∀ id ∈ t.splitWait, id ∈ s.splitWait := by exact fun _ h => h)
    (switch : ∀ v : Volume, ∀ id ∈ t.switchHolds[v], id ∈ s.switchHolds[v] := by exact fun _ _ h => h)
    (reports : ∀ r ∈ t.orderReports, r ∈ s.orderReports := by exact fun _ h => h) : Thin s t where
  ids := by rw [h]
  parents := fun q hq => ⟨q, h ▸ hq, rfl, rfl, rfl, rfl, rfl, .inl rfl⟩
  next := next
  ranges := ranges
  holds := holds
  split := split
  switch := switch
  reports := fun r hr => .inl (reports r hr)

theorem Thin.unraced {s t : State} (h : Thin s t) {id : ParentRef} (hu : Unraced s id) : Unraced t id := by
  intro p hp hid q hq hlt hr
  obtain ⟨p', hp', a1, a2, a3, a4, a5, _⟩ := h.parents p hp
  obtain ⟨q', hq', b1, b2, b3, b4, b5, _⟩ := h.parents q hq
  exact hu p' hp' (a1.trans hid) q' hq' (b1 ▸ hlt) (by simpa only [Races, a2, a3, a4, a5, b2, b3, b4, b5] using hr)

theorem Thin.orders {s t : State} (h : OrderLaw s → Thin s t) : Orders s t := by
  intro hs
  have h := h hs
  refine ⟨⟨⟨?_, ?_⟩, ?_, ?_, ?_, ?_, ?_, ?_, ?_, ?_⟩, fun _ => h.unraced⟩
  · have := hs.admission.1
    rw [← List.pairwise_map (f := Parent.id) (R := fun a b => a < b)] at this ⊢
    exact this.sublist h.ids
  · intro p hp; obtain ⟨p', hp', a1, _⟩ := h.parents p hp
    rw [h.next, ← a1]; exact hs.admission.2 p' hp'
  · intro p hp hv hd
    obtain ⟨p', hp', a1, a2, a3, a4, a5, _⟩ := h.parents p hp
    have := hs.listed p' hp' (a2 ▸ hv) (a3 ▸ hd)
    rw [h.ranges]; rw [a1, a3, a4, a5] at this; simpa only [a2] using this
  · intro v; rw [h.ranges]; exact hs.sorted v
  · intro v; rw [h.ranges, h.next]; exact hs.known v
  · intro r hr
    rw [h.next]
    rcases h.reports r hr with h1 | h1
    · refine ⟨(hs.reported r h1).1, fun q hq => ?_⟩
      obtain ⟨p', hp', a1, _⟩ := h.parents q hq
      exact a1 ▸ (hs.reported r h1).2 p' hp'
    · exact h1
  · intro v x hx
    obtain ⟨h1, h2⟩ := hs.held v x (h.holds v x hx)
    refine ⟨by rw [h.next]; exact h1, fun q hq he => ?_⟩
    obtain ⟨p', hp', a1, a2, a3, _⟩ := h.parents q hq
    have := h2 p' hp' (a1.trans he)
    exact ⟨a2 ▸ this.1, fun hk => a3 ▸ this.2 hk⟩
  · intro q hq hr
    obtain ⟨p', hp', a1, _, _, _, _, a6⟩ := h.parents q hq
    rcases a6 with a6 | a6
    · exact a1 ▸ h.unraced (hs.released p' hp' (a6 ▸ hr))
    · rw [a6] at hr; simp at hr
  · intro id hid; rw [h.next]; exact ⟨(hs.waiting id (h.split id hid)).1, h.unraced (hs.waiting id (h.split id hid)).2⟩
  · intro v id hid; rw [h.next]; exact ⟨(hs.holding v id (h.switch v id hid)).1, h.unraced (hs.holding v id (h.switch v id hid)).2⟩

theorem Orders.same {s t : State} (h : Thin s t) : Orders s t := Thin.orders fun _ => h

/-! ## Parents -/

/-- Two forms of one parent that the law of ordering cannot tell apart. -/
structure SameRange (p q : Parent) : Prop where
  id : q.id = p.id := by rfl
  volume : q.volume = p.volume := by rfl
  op : q.op = p.op := by rfl
  start : q.start = p.start := by rfl
  count : q.count = p.count := by rfl
  state : q.state = p.state ∨ q.state.released = false := by exact .inl rfl

theorem orders_updParent (id : ParentRef) {f : Parent → Parent} (hf : ∀ p, SameRange p (f p)) (s : State) : Orders s (updParent id f s) := by
  have hg : ∀ p, SameRange p (if p.id = id then f p else p) := fun p => by split; exacts [hf p, {}]
  refine .same { ids := ?_, parents := ?_ }
  · rw [updParent_parents, List.map_map]
    rw [show (Parent.id ∘ fun p => if p.id = id then f p else p) = Parent.id from funext fun p => (hg p).id]
  · intro q hq
    rw [updParent_parents, List.mem_map] at hq
    obtain ⟨p, hp, rfl⟩ := hq
    exact ⟨p, hp, (hg p).id.symm, (hg p).volume.symm, (hg p).op.symm, (hg p).start.symm, (hg p).count.symm, (hg p).state⟩

/-- A parent leaves the released states, or moves between others. -/
theorem orders_setState (id : ParentRef) {x : ParentState} (hx : x.released = false) (s : State) : Orders s (setState id x s) :=
  orders_updParent id (fun _ => { state := .inr hx }) s

theorem unraced_updParent {id id' : ParentRef} {f : Parent → Parent}
    (hf : ∀ p, (f p).id = p.id ∧ (f p).volume = p.volume ∧ (f p).op = p.op ∧ (f p).start = p.start ∧ (f p).count = p.count) {s : State}
    (h : Unraced s id') : Unraced (updParent id f s) id' := by
  intro p hp hid q hq hlt hr
  rw [updParent_parents, List.mem_map] at hp hq
  obtain ⟨p, hp, rfl⟩ := hp
  obtain ⟨q, hq, rfl⟩ := hq
  have hg : ∀ p, (if p.id = id then f p else p).id = p.id ∧ (if p.id = id then f p else p).volume = p.volume ∧ (if p.id = id then f p else p).op = p.op
      ∧ (if p.id = id then f p else p).start = p.start ∧ (if p.id = id then f p else p).count = p.count := fun p => by
    split; exacts [hf p, ⟨rfl, rfl, rfl, rfl, rfl⟩]
  obtain ⟨a1, a2, a3, a4, a5⟩ := hg p
  obtain ⟨b1, b2, b3, b4, b5⟩ := hg q
  rw [a1] at hid; rw [b1] at hlt
  exact h p hp hid q hq hlt (by simpa only [Races, a2, a3, a4, a5, b2, b3, b4, b5] using hr)

/-- A parent that nothing earlier races takes any state. -/
theorem orders_release (id : ParentRef) {f : Parent → Parent}
    (hf : ∀ p, (f p).id = p.id ∧ (f p).volume = p.volume ∧ (f p).op = p.op ∧ (f p).start = p.start ∧ (f p).count = p.count) {s : State}
    (h : Unraced s id) : Orders s (updParent id f s) := by
  intro hs
  obtain ⟨h1, h2⟩ := orders_updParent id (f := fun p => { f p with state := .orderWait })
    (fun p => { id := (hf p).1, volume := (hf p).2.1, op := (hf p).2.2.1, start := (hf p).2.2.2.1, count := (hf p).2.2.2.2, state := .inr rfl }) s hs
  have hu : ∀ i, Unraced s i → Unraced (updParent id f s) i := fun _ => unraced_updParent hf
  have hmem : ∀ q ∈ (updParent id f s).parents, ∃ q' ∈ (updParent id (fun p => { f p with state := .orderWait }) s).parents,
      q'.id = q.id ∧ q'.volume = q.volume ∧ q'.op = q.op ∧ q'.start = q.start ∧ q'.count = q.count := by
    intro q hq
    rw [updParent_parents, List.mem_map] at hq
    obtain ⟨p, hp, rfl⟩ := hq
    refine ⟨_, List.mem_map_of_mem hp, ?_⟩
    split <;> exact ⟨rfl, rfl, rfl, rfl, rfl⟩
  refine ⟨⟨⟨?_, ?_⟩, ?_, h1.sorted, h1.known, ?_, ?_, ?_, ?_, ?_⟩, hu⟩
  · have := h1.admission.1
    rw [← List.pairwise_map (f := Parent.id) (R := fun a b => a < b)] at this ⊢
    refine (show List.map Parent.id _ = List.map Parent.id _ from ?_) ▸ this
    rw [updParent_parents, updParent_parents, List.map_map, List.map_map]
    congr 1; funext p; simp only [Function.comp]; split <;> rfl
  · intro q hq; obtain ⟨q', h', a, _⟩ := hmem q hq; exact a ▸ h1.admission.2 q' h'
  · intro q hq hv hd
    obtain ⟨q', h', a1, a2, a3, a4, a5⟩ := hmem q hq
    have := h1.listed q' h' (a2 ▸ hv) (a3 ▸ hd)
    rw [a1, a3, a4, a5] at this; simp only [a2, updParent_ranges] at this ⊢; exact this
  · intro r hr; refine ⟨(h1.reported r hr).1, fun q hq => ?_⟩
    obtain ⟨q', h', a, _⟩ := hmem q hq; exact a ▸ (h1.reported r hr).2 q' h'
  · intro v x hx; refine ⟨(h1.held v x hx).1, fun q hq he => ?_⟩
    obtain ⟨q', h', a1, a2, a3, _⟩ := hmem q hq
    have := (h1.held v x hx).2 q' h' (a1.trans he)
    exact ⟨a2 ▸ this.1, fun hk => a3 ▸ this.2 hk⟩
  · intro q hq hr
    rw [updParent_parents, List.mem_map] at hq
    obtain ⟨p, hp, rfl⟩ := hq
    by_cases he : p.id = id
    · rw [if_pos he]; rw [(hf p).1, he]; exact hu id h
    · rw [if_neg he] at hr ⊢; exact hu _ (hs.released p hp hr)
  · intro i hi; exact ⟨(hs.waiting i hi).1, hu i (hs.waiting i hi).2⟩
  · intro v i hi; exact ⟨(hs.holding v i hi).1, hu i (hs.holding v i hi).2⟩

/-! ## The free of an entry -/

theorem orders_freeParent (id : ParentRef) (s : State) : Orders s (freeParent id s) := by
  unfold freeParent
  split
  · exact .refl s
  · rename_i p hp
    have hid : p.id = id := by simpa using List.find?_some hp
    have hmem : p ∈ s.parents := List.mem_of_find?_eq_some hp
    refine Thin.orders fun hs => ?_
    have he := eraseP_id (id := id) hs.admission.1
    unfold reportFree
    split
    · refine { ids := ?_, parents := fun q hq => ⟨q, ?_, rfl, rfl, rfl, rfl, rfl, .inl rfl⟩ }
      · exact (List.eraseP_sublist ..).map _
      · exact (List.eraseP_sublist ..).subset hq
    · refine { ids := ?_, parents := fun q hq => ⟨q, ?_, rfl, rfl, rfl, rfl, rfl, .inl rfl⟩, reports := fun r hr => ?_ }
      · exact (List.eraseP_sublist ..).map _
      · exact (List.eraseP_sublist ..).subset hq
      · rcases List.mem_append.1 hr with hr | hr
        · exact .inl hr
        · simp only [List.mem_singleton] at hr
          subst hr
          refine .inr ⟨hs.admission.2 p hmem, fun q hq => ?_⟩
          have hq : q ∈ s.parents.eraseP fun q => q.id == id := hq
          rw [he, List.mem_filter] at hq
          simpa [hid] using hq.2

theorem orders_complete (id : ParentRef) (st : Status) (fail : Option Nat) (residual : Nat) (payload : List Block) (s : State) :
    Orders s (complete id st fail residual payload s) := by
  unfold complete; split
  · exact .refl s
  · exact Orders.trans (.same .same) (orders_freeParent _ _)

theorem orders_completeAborted (id : ParentRef) (s : State) : Orders s (completeAborted id s) := by
  unfold completeAborted; split
  · exact .refl s
  · exact orders_complete _ _ _ _ _ _

theorem orders_answer (id : ParentRef) (st : Status) (b : Block) (s : State) : Orders s (answer id st b s) := by
  have h : Orders s (fillSlot id b s) := orders_updParent id (fun _ => {}) s
  unfold answer answerFromSlot
  split
  · exact h
  · exact h.trans (orders_complete _ _ _ _ _ _)

theorem orders_answerResult (id : ParentRef) (st : Status) (detail : Nat) (s : State) : Orders s (answerResult id st detail s) :=
  orders_answer _ _ _ _

theorem put_mem {α : Type} {n : Nat} {x : Vector (List α) n} {v : Fin n} {l : List α} (h : ∀ a ∈ l, a ∈ x[v]) (w : Fin n) :
    ∀ a ∈ (put x v l)[w], a ∈ x[w] := by
  intro a ha
  rw [put_get] at ha
  split at ha
  · rename_i e; exact e ▸ h a ha
  · exact ha

theorem thin_leaveWait (p : Parent) (s : State) : Thin s (leaveWait p s) := by
  unfold leaveWait
  split <;> first
    | exact .same
    | exact .same (holds := put_mem fun _ h => (List.mem_filter.1 h).1)
    | exact .same (split := fun _ h => List.mem_of_mem_erase h)
    | exact .same (switch := put_mem fun _ h => List.mem_of_mem_erase h)

theorem orders_removeQueued (id : ParentRef) (s : State) : Orders s (removeQueued id s) := by
  unfold removeQueued
  exact Orders.trans (t := { s with ports := mapRows (PortRec.without (queuedSubs id s)) s.ports, subs := s.subs.filter fun e => !(e.parent == id && e.issue.isNone) })
    (.same .same) (orders_updParent _ (fun _ => {}) _)

theorem orders_abortParent (p : Parent) (s : State) (h : p.state.released = true → Unraced s p.id) : Orders s (abortParent p s) := by
  have hr := orders_removeQueued p.id s
  unfold abortParent
  split
  all_goals try exact (Orders.same (thin_leaveWait _ _)).trans (orders_completeAborted _ _)
  all_goals try exact .refl s
  rename_i hp
  split
  · intro hs
    have hu := (hr hs).2 _ (h (by rw [hp]; rfl))
    exact (hr.trans (orders_release p.id (f := fun q => { q with state := .aborting }) (fun _ => ⟨rfl, rfl, rfl, rfl, rfl⟩) hu)) hs
  · exact hr.trans (orders_completeAborted _ _)

/-! ## Notices, issue -/

theorem orders_post (b : NoticeBody) (s : State) : Orders s (post b s) := by
  unfold post
  split
  · unfold alertStored; repeat' split
    all_goals exact .same .same
  · exact .same .same

theorem orders_sendSub (p : Port) (t : DTag) (e : SubRef) (s : State) : Orders s (sendSub p t e s) := by
  unfold sendSub; split; exacts [.refl s, .same .same]

theorem orders_issueOne {p : Port} {s t : State} (h : issueOne p s = some t) : Orders s t := by
  unfold issueOne at h
  split at h
  · split at h
    · split at h
      · simp at h
      · obtain rfl := Option.some.inj h
        unfold issueEntry
        exact Orders.trans (.same .same) (orders_sendSub _ _ _ _)
    · simp at h
  · simp at h

theorem orders_issueUpTo : ∀ (n : Nat) (p : Port) (s : State), Orders s (issueUpTo n p s)
  | 0, _, s => .refl s
  | n + 1, p, s => by
    rw [issueUpTo]; split
    · exact .refl s
    · rename_i t h; exact (orders_issueOne h).trans (orders_issueUpTo n p t)

theorem orders_issueTest (p : Port) (s : State) : Orders s (issueTest p s) := orders_issueUpTo _ _ _

theorem orders_updPort (p : Port) (f : PortRec → PortRec) (s : State) : Orders s (updPort p f s) := .same .same

theorem orders_joinQueue (e : SubCmd) (s : State) : Orders s (joinQueue e s) := (orders_updPort _ _ _).trans (orders_issueTest _ _)

/-! ## Merge -/

theorem orders_freeSub (e : SubRef) (s : State) : Orders s (freeSub e s) := .same .same

theorem orders_applyEffect (p : Parent) (pc : Piece) (x : Extent) (f : Effect) (s : State) : Orders s (applyEffect p pc x f s) := by
  have h : Orders s (changeCopies p.volume pc.ordinal f s) := .same .same
  unfold applyEffect
  split
  exacts [.refl s, h.trans (orders_post _ _), h.trans (orders_post _ _)]

theorem orders_updPiece (id : ParentRef) (i : Nat) (f : Piece → Piece) (s : State) : Orders s (updPiece id i f s) :=
  orders_updParent id (fun _ => {}) s

theorem orders_endTest (id : ParentRef) (s : State) : Orders s (endTest id s) := by
  unfold endTest
  split
  · exact .refl s
  · split <;> (repeat' split) <;> first
      | exact .refl s
      | exact orders_complete _ _ _ _ _ _
      | (unfold completePieces; split <;> exact orders_complete _ _ _ _ _ _)
      | exact orders_completeAborted _ _
      | exact orders_freeParent _ _

theorem orders_retarget (e : SubCmd) (i : Nat) (c : CopyNo) (d : CopyNo × Port × Nat) (s : State) : Orders s (retarget e i c d s) :=
  ((orders_updPiece _ _ _ _).trans (.same .same)).trans (orders_joinQueue _ _)

theorem orders_storeRead (p : Parent) (pc : Piece) (r : Result) (s : State) : Orders s (storeRead p pc r s) := by
  unfold storeRead; split
  · exact orders_updParent _ (fun _ => {}) _
  · exact .refl s

theorem orders_mergeRead (e : SubCmd) (p : Parent) (i : Nat) (pc : Piece) (c : CopyNo) (r : Result) (s : State) :
    Orders s (mergeRead e p i pc c r s) := by
  have h := orders_storeRead p pc r s
  unfold mergeRead
  split
  · exact h.trans (orders_retarget _ _ _ _ _)
  · exact ((h.trans (orders_updPiece _ _ _ _)).trans (orders_freeSub _ _)).trans (orders_endTest _ _)

theorem orders_resolvePiece (id : ParentRef) (i : Nat) (s : State) : Orders s (resolvePiece id i s) := by
  unfold resolvePiece
  repeat' split
  all_goals first
    | exact .refl s
    | exact (orders_updPiece _ _ _ _).trans (orders_applyEffect _ _ _ _ _)

theorem orders_mergeWrite (e : SubCmd) (p : Parent) (i : Nat) (pc : Piece) (c : CopyNo) (r : Result) (s : State) :
    Orders s (mergeWrite e p i pc c r s) :=
  (((orders_updPiece _ _ _ _).trans (orders_resolvePiece _ _ _)).trans (orders_freeSub _ _)).trans (orders_endTest _ _)

theorem orders_mergeFlush (e : SubCmd) (r : Result) (s : State) : Orders s (mergeFlush e r s) :=
  ((orders_updParent _ (fun _ => {}) _).trans (orders_freeSub _ _)).trans (orders_endTest _ _)

theorem orders_mergeResult (e : SubRef) (r : Result) (s : State) : Orders s (mergeResult e r s) := by
  unfold mergeResult
  split
  · exact .refl s
  · split
    · exact orders_freeSub _ _
    · unfold mergeInto
      repeat' split
      all_goals first
        | exact orders_mergeFlush _ _ _
        | exact orders_mergeWrite _ _ _ _ _ _ _
        | exact orders_mergeRead _ _ _ _ _ _ _
        | exact orders_freeSub _ _

theorem orders_emptyQueues (p : Port) (k : ResultKind) (s : State) : Orders s (emptyQueues p k s) :=
  (orders_updPort _ _ _).trans (Orders.foldl (fun _ _ => orders_mergeResult _ _ _) _ _)

theorem orders_endAllIssued (p : Port) (k : ResultKind) (s : State) : Orders s (endAllIssued p k s) :=
  Orders.foldl (fun t a => by
    unfold endIssued
    split
    · exact (orders_updPort _ _ _).trans (orders_mergeResult _ _ _)
    · exact .refl t
    · exact .refl t) _ s

end Sys2Proof.Machine
end

