-- ==== Sys2Proof/Laws/OrdersUnits.lean ====
section
/-! SUPPORT. The Split Unit, the Map Unit, the Target Port Units, the Order Unit and the Control Unit keep the law of ordering. -/

-- The package is also compiled as one text: one proof after another keeps the number of Lean's threads small there.
set_option Elab.async false

namespace Sys2Proof.Machine

/-! ## Split (04 R56, R65, R68, R70) -/

theorem orders_handOver (es : List SubCmd) (s : State) : Orders s (handOver es s) :=
  (Orders.foldl (fun t e => by unfold queueNew; split; exacts [orders_joinQueue _ _, .refl t]) es s).trans
    (Orders.foldl (fun t e => by unfold failNew; split <;> first | exact orders_mergeResult _ _ _ | exact .refl t) es _)

theorem orders_updVol (v : Volume) (f : VolRec → VolRec) (s : State) : Orders s (updVol v f s) := .same .same

theorem orders_allocate {p : Parent} (es : List SubCmd) (ps : List Piece) (fs : List FlushResult) {s : State} (h : Unraced s p.id) :
    Orders s (allocate p es ps fs s) := by
  unfold allocate
  have h1 : Orders s { s with subs := s.subs ++ es, nextSub := s.nextSub + es.length } := .same .same
  intro hs
  refine ((h1.trans ?_).trans (orders_updVol _ _ _)) hs
  exact orders_release p.id
    (f := fun q => { q with state := .active, generation := some (s.vol p.volume).generation, pieces := ps, flushResults := fs })
    (fun _ => ⟨rfl, rfl, rfl, rfl, rfl⟩) ((h1 hs).2 _ h)

theorem orders_split {p : Parent} (v : Verdict) {s : State} (h : Unraced s p.id) : Orders s (split p v s) := by
  unfold split
  split
  · exact (orders_allocate _ _ _ h).trans (orders_handOver _ _)
  · exact (orders_allocate _ _ _ h).trans (orders_handOver _ _)
  · exact .refl s
  · exact .refl s

/-- A known reference that nothing earlier races joins a list of the Split Unit. -/
theorem orders_list {s t : State} {id : ParentRef} (h : Unraced s id) (hk : id < s.nextParent) (h1 : t.parents = s.parents)
    (h2 : t.nextParent = s.nextParent) (h3 : t.ranges = s.ranges) (h4 : t.holds = s.holds) (h5 : t.orderReports = s.orderReports)
    (h6 : ∀ i ∈ t.splitWait, i = id ∨ i ∈ s.splitWait) (h7 : ∀ v : Volume, ∀ i ∈ t.switchHolds[v], i = id ∨ i ∈ s.switchHolds[v]) : Orders s t := by
  have hu : ∀ i, Unraced s i → Unraced t i := fun i hi => by unfold Unraced; rw [h1]; exact hi
  intro hs
  refine ⟨⟨?_, ?_, ?_, ?_, ?_, ?_, ?_, ?_, ?_⟩, hu⟩
  · unfold AdmissionOrder; rw [h1, h2]; exact hs.admission
  · rw [h1, h3]; exact hs.listed
  · rw [h3]; exact hs.sorted
  · rw [h2, h3]; exact hs.known
  · rw [h1, h2, h5]; exact hs.reported
  · rw [h1, h2, h4]; exact hs.held
  · rw [h1]; exact fun p hp hr => hu _ (hs.released p hp hr)
  · intro i hi
    rw [h2]
    rcases h6 i hi with e | e
    · subst e; exact ⟨hk, hu _ h⟩
    · exact ⟨(hs.waiting i e).1, hu _ (hs.waiting i e).2⟩
  · intro v i hi
    rw [h2]
    rcases h7 v i hi with e | e
    · subst e; exact ⟨hk, hu _ h⟩
    · exact ⟨(hs.holding v i e).1, hu _ (hs.holding v i e).2⟩

theorem mem_insertAdmitted {id i : ParentRef} : ∀ {l : List ParentRef}, i ∈ insertAdmitted id l → i = id ∨ i ∈ l
  | [], h => by simpa [insertAdmitted] using h
  | x :: xs, h => by
    unfold insertAdmitted at h
    split at h
    · simpa using h
    · rcases List.mem_cons.1 h with h | h
      · exact .inr (h ▸ List.mem_cons_self ..)
      · rcases mem_insertAdmitted h with h | h
        exacts [.inl h, .inr (List.mem_cons_of_mem _ h)]

theorem orders_holdSwitch {p : Parent} {s : State} (h : Unraced s p.id) (hk : p.id < s.nextParent) : Orders s (holdSwitch p s) := by
  unfold holdSwitch
  have h1 : Orders s { s with switchHolds := put s.switchHolds p.volume (insertAdmitted p.id s.switchHolds[p.volume]) } := by
    refine orders_list h hk rfl rfl rfl rfl rfl (fun _ h => .inr h) (fun v i hi => ?_)
    rw [put_get] at hi
    split at hi
    · rename_i e; exact e ▸ mem_insertAdmitted hi
    · exact .inr hi
  intro hs
  exact (h1.trans (orders_release p.id (f := fun q => { q with state := .switchWait }) (fun _ => ⟨rfl, rfl, rfl, rfl, rfl⟩) ((h1 hs).2 _ h))) hs

theorem orders_waitSplit {p : Parent} {s : State} (h : Unraced s p.id) (hk : p.id < s.nextParent) : Orders s (waitSplit p s) := by
  unfold waitSplit
  have h1 : Orders s { s with splitWait := s.splitWait ++ [p.id] } :=
    orders_list h hk rfl rfl rfl rfl rfl (fun i hi => by rcases List.mem_append.1 hi with hi | hi; exacts [.inr hi, .inl (by simpa using hi)])
      (fun _ _ h => .inr h)
  intro hs
  exact (h1.trans (orders_release p.id (f := fun q => { q with state := .splitWait }) (fun _ => ⟨rfl, rfl, rfl, rfl, rfl⟩) ((h1 hs).2 _ h))) hs

theorem parent?_mem {s : State} {id : ParentRef} {p : Parent} (h : s.parent? id = some p) : p ∈ s.parents ∧ p.id = id :=
  ⟨List.mem_of_find?_eq_some h, by simpa using List.find?_some h⟩

/-- A parent that nothing earlier races arrives at the split stage (04 R56). -/
theorem orders_arrive {id : ParentRef} {s : State} (h : Unraced s id) : Orders s (arrive id s) := by
  intro hs
  refine (?_ : Orders s _) hs
  unfold arrive
  split
  · exact .refl s
  · rename_i p hp
    obtain ⟨hm, he⟩ := parent?_mem hp
    have h' : Unraced s p.id := he ▸ h
    have hk := hs.admission.2 p hm
    split
    · exact orders_holdSwitch h' hk
    · exact orders_complete _ _ _ _ _ _
    · split; exacts [orders_split _ h', orders_waitSplit h' hk]
    · split; exacts [orders_split _ h', orders_waitSplit h' hk]

/-- Parents that nothing earlier races, moved on one after another by a move that needs only that. -/
theorem orders_all {f : State → ParentRef → State} (hf : ∀ s id, Unraced s id → Orders s (f s id)) :
    ∀ (ids : List ParentRef) (s : State), (∀ id ∈ ids, Unraced s id) → Orders s (ids.foldl f s)
  | [], s, _ => .refl s
  | id :: ids, s, h => by
    intro hs
    obtain ⟨h1, h2⟩ := hf s id (h id (List.mem_cons_self ..)) hs
    obtain ⟨h3, h4⟩ := orders_all hf ids _ (fun i hi => h2 i (h i (List.mem_cons_of_mem _ hi))) h1
    exact ⟨h3, fun i hi => h4 i (h2 i hi)⟩

theorem orders_tryOnce {s t : State} (h : tryOnce s = some t) : Orders s t := by
  have hpop : Orders s (popSplitWait s) := .same (.same (split := fun _ h => List.mem_of_mem_tail h))
  intro hs
  obtain ⟨hs1, hu⟩ := hpop hs
  unfold tryOnce at h
  split at h
  · simp at h
  · rename_i id rest hw
    split at h
    · obtain rfl := Option.some.inj h; exact hpop hs
    · rename_i p hp
      obtain ⟨hm, he⟩ := parent?_mem hp
      have h' : Unraced (popSplitWait s) p.id := hu _ (he ▸ (hs.waiting id (by rw [hw]; exact List.mem_cons_self ..)).2)
      have hk : p.id < (popSplitWait s).nextParent := hs.admission.2 p hm
      refine hpop.trans ?_ hs
      split at h
      · obtain rfl := Option.some.inj h; exact orders_holdSwitch h' hk
      · obtain rfl := Option.some.inj h; exact orders_complete _ _ _ _ _ _
      · split at h
        · obtain rfl := Option.some.inj h; exact orders_split _ h'
        · simp at h
      · split at h
        · obtain rfl := Option.some.inj h; exact orders_split _ h'
        · simp at h

theorem orders_tryUpTo : ∀ (n : Nat) (s : State), Orders s (tryUpTo n s)
  | 0, s => .refl s
  | n + 1, s => by
    rw [tryUpTo]; split
    · exact .refl s
    · rename_i t h; exact (orders_tryOnce h).trans (orders_tryUpTo n t)

theorem orders_tryHeads (s : State) : Orders s (tryHeads s) := orders_tryUpTo _ s

theorem orders_tryIfFreed (before s : State) : Orders s (tryIfFreed before s) := by
  unfold tryIfFreed; split; exacts [orders_tryUpTo _ s, .refl s]

/-! ## The Map Unit (chapter 1) -/

theorem orders_finishLong (parent : Option ParentRef) (st : Status) (s : State) : Orders s (finishLong parent st s) := by
  unfold finishLong; split; exacts [orders_answerResult _ _ _ _, .refl s]

theorem orders_commitSwap (v : Volume) (s : State) : Orders s (commitSwap v s) := by
  unfold commitSwap
  have h1 : Orders s (swapMaps v s) := .same .same
  refine (h1.trans ?_).trans (orders_finishLong _ _ _)
  unfold releaseSwitch arriveAll
  generalize swapMaps v s = t
  intro ht
  have h2 : Orders t { t with switchHolds := put t.switchHolds v [] } := .same (.same (switch := put_mem fun _ h => by simp at h))
  exact (h2.trans (orders_all (f := fun t id => arrive id t) (fun _ _ h => orders_arrive h) _ _
    fun id hid => (h2 ht).2 id (ht.holding v id hid).2)) ht

/-- The list of a volume without live parents becomes empty (03 R40). -/
theorem orders_emptyRanges {v : Volume} {s : State} (h : ∀ p ∈ s.parents, p.volume = v → v = 0) : Orders s { s with ranges := put s.ranges v [] } := by
  intro hs
  refine ⟨{ hs with listed := fun p hp hv hd => ?_, sorted := fun w => ?_, known := fun w x hx => ?_ }, fun _ h => h⟩
  · show _ ∈ (put s.ranges v [])[p.volume]
    rw [put_get, if_neg fun e => hv (e.trans (h p hp e))]; exact hs.listed p hp hv hd
  · show ((put s.ranges v [])[w]).Pairwise _
    rw [put_get]; split; exacts [.nil, hs.sorted w]
  · have hx : x ∈ (put s.ranges v [])[w] := hx
    rw [put_get] at hx; split at hx
    · simp at hx
    · exact hs.known w x hx

theorem orders_removal {v : Volume} {s : State} (h : ∀ p ∈ s.parents, p.volume = v → v = 0) : Orders s (removal v s) := by
  unfold removal clearColumn
  rw [mapRows_eq]
  exact ((orders_emptyRanges h).trans (.same .same)).trans (orders_finishLong _ _ _)

theorem orders_takeDefine (id : ParentRef) (v : Volume) (capacity : Nat) (wp : Bool) (s : State) : Orders s (takeDefine id v capacity wp s) := by
  unfold takeDefine
  repeat' split
  all_goals first | exact orders_answerResult _ _ _ _ | exact Orders.trans (.same .same) (orders_answerResult _ _ _ _)

theorem orders_takeStage (id : ParentRef) (v : Volume) (n : Nat) (b : Block) (s : State) : Orders s (takeStage id v n b s) := by
  unfold takeStage
  repeat' split
  all_goals first | exact orders_answerResult _ _ _ _ | exact Orders.trans (.same .same) (orders_answerResult _ _ _ _)

theorem orders_takeClear (id : ParentRef) (v : Volume) (s : State) : Orders s (takeClear id v s) := by
  unfold takeClear
  repeat' split
  all_goals first | exact orders_answerResult _ _ _ _ | exact Orders.trans (.same .same) (orders_answerResult _ _ _ _)

theorem orders_takeCommit (id : ParentRef) (v : Volume) (s : State) : Orders s (takeCommit id v s) := by
  unfold takeCommit
  repeat' split
  all_goals try exact orders_answerResult _ _ _ _
  unfold startCommit
  split
  · exact ((orders_updVol _ _ _).trans (orders_setState _ rfl _)).trans (orders_commitSwap _ _)
  · exact (orders_updVol _ _ _).trans (orders_setState _ rfl _)

/-- A volume without a live parent count has no live parent (01 R9). -/
theorem VolumeCountLaw.empty {s : State} (hc : VolumeCountLaw s) {v : Volume} (h : (s.vol v).liveParents = 0) :
    ∀ p ∈ s.parents, p.volume = v → v = 0 := by
  intro p hp he
  by_contra h0
  have := hc.1 v h0
  have h1 : 0 < s.parents.countP fun p => p.volume == v := List.countP_pos_iff.2 ⟨p, hp, by simpa using he⟩
  omega

theorem orders_takeRemove (id : ParentRef) (v : Volume) {s : State} (hc : VolumeCountLaw s) : Orders s (takeRemove id v s) := by
  unfold takeRemove
  repeat' split
  all_goals try exact orders_answerResult _ _ _ _
  unfold startRemove
  split
  · rename_i h0
    refine ((orders_updVol _ _ _).trans (orders_setState _ rfl _)).trans (orders_removal fun p hp he => ?_)
    rw [setState, updParent_parents, List.mem_map] at hp
    obtain ⟨q, hq, rfl⟩ := hp
    exact hc.empty h0 q hq (by rw [← he]; split <;> rfl)
  · exact (orders_updVol _ _ _).trans (orders_setState _ rfl _)

theorem orders_takeMapReportAt (k : Nat) {s : State} (hc : VolumeCountLaw s) : Orders s (takeMapReportAt k s) := by
  unfold takeMapReportAt
  split
  · exact .refl s
  · rename_i r hr
    have h1 : Orders s (lowerCounts r { s with mapReports := s.mapReports.eraseIdx k }) := .same .same
    have h2 := (keeps_lowerCounts hr).counts hc
    refine h1.trans ?_
    show Orders (lowerCounts r { s with mapReports := s.mapReports.eraseIdx k }) (endWaits r (lowerCounts r { s with mapReports := s.mapReports.eraseIdx k }))
    generalize lowerCounts r { s with mapReports := s.mapReports.eraseIdx k } = t at h2
    unfold endWaits
    repeat' split
    all_goals first
      | exact .refl _
      | exact orders_commitSwap _ _
      | (rename_i h; exact orders_removal (h2.empty h))

/-! ## Target Ports (chapters 7, 8) -/

theorem orders_flushEndTest (s : State) : Orders s (flushEndTest s) := by
  unfold flushEndTest
  repeat' split
  all_goals first | exact .refl s | exact Orders.trans (.same .same) (orders_finishLong _ _ _)

theorem orders_endFlushWaiters (p : Port) (s : State) : Orders s (endFlushWaiters p s) :=
  (orders_updPort _ _ _).trans (Orders.foldl (fun t op => by
    unfold tellFlush
    repeat' split
    all_goals first | exact .refl t | exact Orders.trans (.same .same) (orders_flushEndTest _)) _ _)

theorem orders_endManagementReset (p : Port) (st : Status) (s : State) : Orders s (endManagementReset p st s) :=
  (orders_updPort _ _ _).trans (orders_finishLong _ _ _)

theorem orders_sendTrst (p : Port) (n : Nat) (s : State) : Orders s (sendTrst p n s) := .same .same

theorem orders_beginReset (p : Port) (s : State) : Orders s (beginReset p s) :=
  (((orders_updPort _ _ _).trans (orders_endAllIssued _ _ _)).trans (orders_updPort _ _ _)).trans (orders_sendTrst _ _ _)

theorem orders_takeFlushRequest (op : ParentRef) (s : State) (p : Port) : Orders s (takeFlushRequest op s p) := by
  have h : ∀ t, Orders t (awaitPort op p t) := fun t => .same .same
  unfold takeFlushRequest
  split
  · exact .refl s
  · exact h s
  all_goals exact ((orders_beginReset _ _).trans (h _)).trans (orders_tryHeads _)

theorem orders_attachReset (id : ParentRef) (p : Port) (s : State) : Orders s (attachReset id p s) :=
  (orders_updPort _ _ _).trans (orders_setState _ rfl _)

theorem orders_takePortReset (id : ParentRef) (p : Port) (s : State) : Orders s (takePortReset id p s) := by
  unfold takePortReset
  split
  · exact ((orders_beginReset _ _).trans (orders_attachReset _ _ _)).trans (orders_tryHeads _)
  · exact ((orders_beginReset _ _).trans (orders_attachReset _ _ _)).trans (orders_tryHeads _)
  · split; exacts [orders_attachReset _ _ _, orders_answerResult _ _ _ _]
  · exact orders_answerResult _ _ _ _

theorem orders_haltPort (p : Port) (why : HaltReason) (s : State) : Orders s (haltPort p why s) :=
  ((orders_updPort _ _ _).trans (orders_post _ _)).trans (orders_emptyQueues _ _ _)

theorem orders_haltingTest (p : Port) (b s : State) : Orders s (haltingTest p b s) := by
  unfold haltingTest; split; exacts [(orders_haltPort _ _ _).trans (orders_tryHeads _), orders_tryIfFreed _ _]

theorem orders_takeLinkUp (p : Port) (s : State) : Orders s (takeLinkUp p s) := by
  unfold takeLinkUp; split; exacts [.same .same, .refl s]

theorem orders_takeLinkLost (p : Port) (s : State) : Orders s (takeLinkLost p s) := by
  have h : Orders s (losePort p s) :=
    ((((((orders_updPort _ _ _).trans (orders_post _ _)).trans (orders_endAllIssued _ _ _)).trans (orders_updPort _ _ _)).trans
      (orders_emptyQueues _ _ _)).trans (orders_endManagementReset _ _ _)).trans (orders_endFlushWaiters _ _)
  unfold takeLinkLost; split; exacts [.refl s, h.trans (orders_tryHeads _)]

theorem orders_takeTrdy (p : Port) (s : State) : Orders s (takeTrdy p s) := by
  unfold takeTrdy
  split <;> first | exact .refl s | skip
  exact (((((orders_updPort _ _ _).trans (orders_post _ _)).trans (orders_endManagementReset _ _ _)).trans
    (orders_endFlushWaiters _ _)).trans (orders_updPort _ _ _)).trans (orders_issueTest _ _)

theorem orders_takeResetTimer (p : Port) (s : State) : Orders s (takeResetTimer p s) := by
  unfold takeResetTimer
  split
  · split
    · exact .same .same
    · exact (((orders_haltPort _ _ _).trans (orders_endManagementReset _ _ _)).trans (orders_endFlushWaiters _ _)).trans (orders_tryHeads _)
  · exact .refl s

theorem orders_takeDeadline (p : Port) (t : DTag) (s : State) : Orders s (takeDeadline p t s) := by
  unfold takeDeadline
  split
  · exact .refl s
  · split
    · exact (((orders_updPort _ _ _).trans (orders_post _ _)).trans (orders_mergeResult _ _ _)).trans (orders_haltingTest _ _ _)
    · exact .refl s

theorem orders_takeTcpl (p : Port) (f : TcplFrame) (s : State) : Orders s (takeTcpl p f s) := by
  have ht : Orders s (takeTagged p f s) := by
    unfold takeTagged
    split
    · exact orders_post _ _
    · split
      · exact orders_post _ _
      · exact ((orders_updPort _ _ _).trans (orders_post _ _)).trans (orders_issueTest _ _)
      · split
        · exact orders_updPort _ _ _
        · exact (((orders_updPort _ _ _).trans (orders_mergeResult _ _ _)).trans (orders_issueTest _ _)).trans (orders_tryIfFreed _ _)
  unfold takeTcpl
  split <;> first | exact ht | exact .refl s

theorem orders_setParameters (p : Port) (w l m : Nat) (s : State) : Orders s (setParameters p w l m s) := by
  have h : Orders s (writeParameters p w l m s) := orders_updPort _ _ _
  unfold setParameters
  repeat' split
  · exact h
  · exact (h.trans (orders_haltingTest _ _ _)).trans (orders_issueTest _ _)
  · exact h.trans (orders_haltingTest _ _ _)

/-! ## The Order Unit (chapter 3) -/

theorem orders_enterPhase2 (id : ParentRef) (s : State) : Orders s (enterPhase2 id s) :=
  orders_updParent _ (fun p => by split <;> exact {}) _

/-- A parent that nothing earlier races is released (03 R44). -/
theorem orders_releaseOne {id : ParentRef} {s : State} (h : Unraced s id) : Orders s (release id s) := by
  intro hs
  have h1 := orders_enterPhase2 id s
  exact (h1.trans (orders_arrive ((h1 hs).2 id h))) hs

theorem conflicts_of_races {p q : Parent} (h : Races q p) :
    conflicts p.op p.start p.count { parent := q.id, op := q.op, start := q.start, count := q.count } = true := by
  obtain ⟨_, _, _, _, h1, h2, h3⟩ := h
  simp only [conflicts, overlap, Bool.and_eq_true, decide_eq_true_eq, Bool.or_eq_true, beq_iff_eq]
  exact ⟨⟨h3, h2⟩, h1.symm⟩

theorem find?_of_sorted {l : List RangeEntry} (h : l.Pairwise fun x y => x.parent < y.parent) {x : RangeEntry} (hx : x ∈ l) :
    l.find? (fun e => e.parent == x.parent) = some x := by
  induction l with
  | nil => simp at hx
  | cons a l ih =>
    obtain ⟨h1, h2⟩ := List.pairwise_cons.1 h
    rcases List.mem_cons.1 hx with e | e
    · subst e; simp
    · rw [List.find?_cons_of_neg (by simpa using Nat.ne_of_lt (h1 x e)), ih h2 e]

theorem mem_earlier {l : List RangeEntry} (h : l.Pairwise fun x y => x.parent < y.parent) {id : ParentRef} {y : RangeEntry} (hy : y ∈ l)
    (hlt : y.parent < id) : y ∈ earlier id l := by
  unfold earlier
  induction l with
  | nil => simp at hy
  | cons a l ih =>
    obtain ⟨h1, h2⟩ := List.pairwise_cons.1 h
    have ha : a.parent < id := by
      rcases List.mem_cons.1 hy with e | e
      · exact e ▸ hlt
      · exact Nat.lt_trans (h1 y e) hlt
    rw [List.takeWhile_cons_of_pos (by simpa using Nat.ne_of_lt ha)]
    rcases List.mem_cons.1 hy with e | e
    · exact e ▸ List.mem_cons_self ..
    · exact List.mem_cons_of_mem _ (ih h2 e)

/-- The test against a list that holds every live range of a volume lets pass only a parent that nothing earlier races (03 R42, R47). -/
theorem unraced_of_test {s : State} {l : List RangeEntry} {v : Volume} {id : ParentRef} (hsort : l.Pairwise fun x y => x.parent < y.parent)
    (hl : ∀ p ∈ s.parents, p.volume = v → p.volume ≠ 0 → p.op ≠ .drain → { parent := p.id, op := p.op, start := p.start, count := p.count } ∈ l)
    (hv : ∀ p ∈ s.parents, p.id = id → p.volume = v) (ht : rangeHeld l id = false) : Unraced s id := by
  intro p hp hid q hq hlt hr
  have hpv := hv p hp hid
  have hp' := hl p hp hpv (hr.1 ▸ hr.2.1) hr.2.2.2.1
  have hq' := hl q hq (hr.1.trans hpv) hr.2.1 hr.2.2.1
  unfold rangeHeld at ht
  rw [← hid, find?_of_sorted hsort hp'] at ht
  simp only [List.any_eq_false] at ht
  exact ht _ (mem_earlier hsort hq' (hid ▸ hlt)) (conflicts_of_races hr)

theorem unraced_of_drain {s : State} {id : ParentRef} (h : ∀ p ∈ s.parents, p.id = id → p.op = .drain) : Unraced s id :=
  fun p hp hid _ _ _ hr => hr.2.2.2.1 (h p hp hid)

theorem row_mem {α : Type} {n : Nat} (x : Vector (List α) n) {v w : Fin n} (h : v = w) {a : α} (ha : a ∈ x[v]) : a ∈ x[w] := by
  subst h; exact ha

theorem put_filter_mem {α : Type} {n : Nat} {x : Vector (List α) n} {v w : Fin n} {f : α → Bool} {a : α} (h : a ∈ x[w]) (hf : f a = true) :
    a ∈ (put x v (x[v].filter f))[w] := by
  rw [put_get]
  split
  · rename_i e; subst e; exact List.mem_filter.2 ⟨h, hf⟩
  · exact h

theorem orders_takeOrderReport {r : OrderReport} {s : State} (hr : r.parent < s.nextParent ∧ ∀ p ∈ s.parents, p.id ≠ r.parent) :
    Orders s (takeOrderReport r s) := by
  intro hs
  unfold takeOrderReport
  have h1 : Orders s { s with ranges := put s.ranges r.volume (s.ranges[r.volume].filter fun e => e.parent != r.parent)
                              holds := put s.holds r.volume (s.holds[r.volume].filter fun h =>
                                !holdPasses s (s.ranges[r.volume].filter fun e => e.parent != r.parent) h) } := by
    have hsub : ∀ v : Volume, ((put s.ranges r.volume (s.ranges[r.volume].filter fun e => e.parent != r.parent))[v]).Sublist s.ranges[v] := by
      intro v; rw [put_get]; split
      · rename_i e; subst e; exact List.filter_sublist
      · exact List.Sublist.refl _
    intro _
    refine ⟨⟨hs.admission, ?_, fun v => (hs.sorted v).sublist (hsub v), fun v x hx => hs.known v x ((hsub v).subset hx), hs.reported, ?_,
      hs.released, hs.waiting, hs.holding⟩, fun _ h => h⟩
    · intro p hp hv hd
      exact put_filter_mem (hs.listed p hp hv hd) (by simpa using hr.2 p hp)
    · intro v h hh
      exact hs.held v h (put_mem (fun _ h => (List.mem_filter.1 h).1) v h hh)
  refine (h1.trans (orders_all (f := fun t id => release id t) (fun _ _ h => orders_releaseOne h) _ _ fun id hid => ?_)) hs
  simp only [List.mem_map, List.mem_filter] at hid
  obtain ⟨h, ⟨hm, hpass⟩, rfl⟩ := hid
  refine (h1 hs).2 _ ?_
  obtain ⟨_, hh⟩ := hs.held r.volume h hm
  unfold holdPasses at hpass
  split at hpass
  · refine unraced_of_test (v := r.volume) ((hs.sorted r.volume).sublist List.filter_sublist) (fun p hp hv h0 hd => ?_) (fun p hp he => (hh p hp he).1)
      (by simpa using hpass)
    exact List.mem_filter.2 ⟨hv ▸ hs.listed p hp h0 hd, by simpa using hr.2 p hp⟩
  · rename_i hk
    exact unraced_of_drain fun p hp he => (hh p hp he).2 hk

theorem orders_takeAbt (i : Initiator) (t : Byte) (s : State) : Orders s (takeAbt i t s) := by
  unfold takeAbt
  split
  · exact .same .same
  · rename_i p hp
    have hm := List.mem_of_find?_eq_some hp
    intro hs
    have h1 : Orders s (abortReply i t (abortStatus p.state) (abortParent p s)) :=
      (orders_abortParent p s (hs.released p hm)).trans (.same .same)
    unfold tryAfterAbort
    split
    · exact (h1.trans (orders_tryUpTo _ _)) hs
    · exact h1 hs

/-! ## Admission (02 R35) -/

theorem orders_takeHead (s : State) : Orders s (takeHead s) := by
  unfold takeHead
  split
  · rename_i id rest _ _
    exact Orders.trans (t := { s with controlQueue := rest, executing := some id }) (.same .same) (orders_setState _ rfl _)
  · exact .refl s
  · exact .refl s

/-- A new parent at the end of the Command Table, in a waiting state, with its entry in the list (02 R35, 03 R43). -/
theorem orders_admit {s t : State} {p : Parent} (hid : p.id = s.nextParent) (hst : p.state.released = false)
    (h1 : t.parents = s.parents ++ [p]) (h2 : t.nextParent = s.nextParent + 1)
    (h3 : t.ranges = if p.volume = 0 ∨ p.op = .drain then s.ranges
      else put s.ranges p.volume (s.ranges[p.volume] ++ [{ parent := p.id, op := p.op, start := p.start, count := p.count }]))
    (h4 : t.holds = s.holds) (h5 : t.orderReports = s.orderReports) (h6 : t.splitWait = s.splitWait) (h7 : t.switchHolds = s.switchHolds)
    (hs : OrderLaw s) : OrderLaw t := by
  have hlt : ∀ q ∈ s.parents, q.id < p.id := fun q hq => hid ▸ hs.admission.2 q hq
  have hu : ∀ id, id < s.nextParent → Unraced s id → Unraced t id := by
    intro id hk h q hq he x hx hlx hr
    rw [h1] at hq hx
    rcases List.mem_append.1 hq with hq | hq
    · rcases List.mem_append.1 hx with hx | hx
      · exact h q hq he x hx hlx hr
      · simp only [List.mem_singleton] at hx; subst hx; exact absurd (hid ▸ hlx) (Nat.lt_asymm hk)
    · simp only [List.mem_singleton] at hq; subst hq; exact absurd (hid.symm.trans he) (Nat.ne_of_gt hk)
  have hmono : ∀ v : Volume, ∀ e ∈ s.ranges[v], e ∈ t.ranges[v] := by
    intro v e he; rw [h3]; split
    · exact he
    · rw [put_get]; split
      · rename_i hv; subst hv; exact List.mem_append_left _ he
      · exact he
  refine ⟨⟨?_, ?_⟩, ?_, ?_, ?_, ?_, ?_, ?_, ?_, ?_⟩
  · rw [h1, List.pairwise_append]; refine ⟨hs.admission.1, by simp, fun a ha b hb => ?_⟩
    simp only [List.mem_singleton] at hb; subst hb; exact hlt a ha
  · rw [h1, h2]; intro q hq
    rcases List.mem_append.1 hq with hq | hq
    · exact Nat.lt_succ_of_lt (hs.admission.2 q hq)
    · simp only [List.mem_singleton] at hq; subst hq; rw [hid]; exact Nat.lt_succ_self _
  · rw [h1]; intro q hq hv hd
    rcases List.mem_append.1 hq with hq | hq
    · exact hmono _ _ (hs.listed q hq hv hd)
    · simp only [List.mem_singleton] at hq; subst hq
      rw [h3, if_neg (by simp [hv, hd]), put_get, if_pos rfl]; exact List.mem_append_right _ (by simp)
  · intro v; rw [h3]; split
    · exact hs.sorted v
    · rw [put_get]; split
      · rw [List.pairwise_append]; refine ⟨hs.sorted _, by simp, fun a ha b hb => ?_⟩
        simp only [List.mem_singleton] at hb; subst hb; rw [hid]; exact hs.known _ a ha
      · exact hs.sorted v
  · intro v x hx; rw [h2]; rw [h3] at hx
    split at hx
    · exact Nat.lt_succ_of_lt (hs.known v x hx)
    · rw [put_get] at hx
      split at hx
      · rcases List.mem_append.1 hx with hx | hx
        · exact Nat.lt_succ_of_lt (hs.known _ x hx)
        · simp only [List.mem_singleton] at hx; subst hx; rw [hid]; exact Nat.lt_succ_self _
      · exact Nat.lt_succ_of_lt (hs.known v x hx)
  · rw [h1, h2, h5]; intro r hr
    refine ⟨Nat.lt_succ_of_lt (hs.reported r hr).1, fun q hq => ?_⟩
    rcases List.mem_append.1 hq with hq | hq
    · exact (hs.reported r hr).2 q hq
    · simp only [List.mem_singleton] at hq; subst hq; rw [hid]; exact Nat.ne_of_gt (hs.reported r hr).1
  · rw [h1, h2, h4]; intro v h hh
    refine ⟨Nat.lt_succ_of_lt (hs.held v h hh).1, fun q hq he => ?_⟩
    rcases List.mem_append.1 hq with hq | hq
    · exact (hs.held v h hh).2 q hq he
    · simp only [List.mem_singleton] at hq; subst hq; exact absurd (hid.symm.trans he) (Nat.ne_of_gt (hs.held v h hh).1)
  · rw [h1]; intro q hq hr
    rcases List.mem_append.1 hq with hq | hq
    · exact hu _ (hs.admission.2 q hq) (hs.released q hq hr)
    · simp only [List.mem_singleton] at hq; subst hq; rw [hst] at hr; simp at hr
  · rw [h2, h6]; intro i hi; exact ⟨Nat.lt_succ_of_lt (hs.waiting i hi).1, hu i (hs.waiting i hi).1 (hs.waiting i hi).2⟩
  · rw [h2, h7]; intro v i hi; exact ⟨Nat.lt_succ_of_lt (hs.holding v i hi).1, hu i (hs.holding v i hi).1 (hs.holding v i hi).2⟩

/-- A parent is held in its volume's hold record, of its kind (03 R41). -/
theorem orders_holdParent {p : Parent} {k : HoldKind} {s : State} (hk : p.id < s.nextParent)
    (h : ∀ q ∈ s.parents, q.id = p.id → q.volume = p.volume ∧ (k = .drain → q.op = .drain)) : Orders s (holdParent p k s) := by
  unfold holdParent
  refine Orders.trans (t := { s with holds := put s.holds p.volume (s.holds[p.volume] ++ [{ parent := p.id, kind := k }]) }) ?_ (orders_setState _ rfl _)
  intro hs
  refine ⟨⟨hs.admission, hs.listed, hs.sorted, hs.known, hs.reported, fun v x hx => ?_, hs.released, hs.waiting, hs.holding⟩, fun _ h => h⟩
  simp only [put_get] at hx
  split at hx
  · rename_i e
    subst e
    rcases List.mem_append.1 hx with hx | hx
    · exact hs.held _ x hx
    · simp only [List.mem_singleton] at hx; subst hx; exact ⟨hk, h⟩
  · exact hs.held v x hx

theorem law_admit (f : CmdFields) (s : State) (hs : OrderLaw s) : OrderLaw (admitCmd f s) := by
  unfold admitCmd handOn
  have hid : (admittedParent f s.nextParent).id = s.nextParent := rfl
  have hst : (admittedParent f s.nextParent).state.released = false := by simp only [admittedParent]; split <;> rfl
  split
  · rename_i hv
    have h1 : OrderLaw (admitEntry f s) :=
      orders_admit hid hst rfl rfl (by rw [if_pos (.inl hv)]; rfl) rfl rfl rfl rfl hs
    have h2 : OrderLaw (if (admitEntry f s).manager = some (admittedParent f s.nextParent).initiator then startLease (admitEntry f s) else admitEntry f s) := by
      split
      · exact ((Orders.same .same : Orders _ (startLease (admitEntry f s))) h1).1
      · exact h1
    generalize (if (admitEntry f s).manager = some (admittedParent f s.nextParent).initiator then startLease (admitEntry f s) else admitEntry f s) = t at h2
    unfold handControl
    exact ((Orders.trans (t := { t with controlQueue := t.controlQueue ++ [(admittedParent f s.nextParent).id] }) (.same .same) (orders_takeHead _)) h2).1
  · rename_i hv
    split
    · rename_i hd
      have h1 : OrderLaw (updVol (admittedParent f s.nextParent).volume (fun r => { r with liveParents := r.liveParents + 1 }) (admitEntry f s)) :=
        orders_admit hid hst rfl rfl (by rw [if_pos (.inr hd)]; rfl) rfl rfl rfl rfl hs
      have hdr : ∀ q ∈ (updVol (admittedParent f s.nextParent).volume (fun r => { r with liveParents := r.liveParents + 1 }) (admitEntry f s)).parents,
          q.id = (admittedParent f s.nextParent).id → q = admittedParent f s.nextParent := by
        intro q hq he
        rcases List.mem_append.1 (show q ∈ s.parents ++ [admittedParent f s.nextParent] from hq) with hq | hq
        · exact absurd he (Nat.ne_of_lt (hs.admission.2 q hq))
        · simpa using hq
      unfold handDrain
      split
      · refine (orders_holdParent (Nat.lt_succ_self _) (fun q hq he => ?_) h1).1
        rw [hdr q hq he]; exact ⟨rfl, fun _ => hd⟩
      · refine (orders_releaseOne (unraced_of_drain fun q hq he => ?_) h1).1
        rw [hdr q hq he]; exact hd
    · rename_i hd
      have h1 : OrderLaw (appendRange (admittedParent f s.nextParent)
          (updVol (admittedParent f s.nextParent).volume (fun r => { r with liveParents := r.liveParents + 1 }) (admitEntry f s))) :=
        orders_admit hid hst rfl rfl (by rw [if_neg (by simp [hv, hd])]; rfl) rfl rfl rfl rfl hs
      have hdr : ∀ q ∈ (appendRange (admittedParent f s.nextParent)
          (updVol (admittedParent f s.nextParent).volume (fun r => { r with liveParents := r.liveParents + 1 }) (admitEntry f s))).parents,
          q.id = (admittedParent f s.nextParent).id → q = admittedParent f s.nextParent := by
        intro q hq he
        rcases List.mem_append.1 (show q ∈ s.parents ++ [admittedParent f s.nextParent] from hq) with hq | hq
        · exact absurd he (Nat.ne_of_lt (hs.admission.2 q hq))
        · simpa using hq
      unfold handRange
      split
      · refine (orders_holdParent (Nat.lt_succ_self _) (fun q hq he => ?_) h1).1
        rw [hdr q hq he]; exact ⟨rfl, fun hk => by cases hk⟩
      · rename_i ht
        refine (orders_releaseOne (unraced_of_test (h1.sorted _) (fun q hq hv h0 hq' => row_mem _ hv (h1.listed q hq h0 hq')) (fun q hq he => ?_) (by simpa using ht)) h1).1
        rw [hdr q hq he]

theorem law_takeCmd (i : Initiator) (f : CmdFrame) (s : State) (hs : OrderLaw s) : OrderLaw (takeCmd i f s) := by
  have hr : ∀ st, OrderLaw (refuse i f st s) := fun st => ((Orders.same .same : Orders s (refuse i f st s)) hs).1
  unfold takeCmd
  split
  · exact hr _
  · split
    · exact hr _
    · split
      · exact hr _
      · exact law_admit _ _ hs

/-! ## Control commands, link loss (chapters 2, 9) -/

theorem orders_managed {p : Parent} {f : State → State} {s : State} (h : Orders s (f s)) : Orders s (managed p f s) := by
  unfold managed; split; exacts [h, orders_answerResult _ _ _ _]

theorem orders_execute {pick : Parent → Option (State → State)} {s : State} (h : ∀ p f, pick p = some f → Orders s (f s)) :
    Orders s (execute pick s) := by
  unfold execute
  split
  · exact .refl s
  · split
    · exact .refl s
    · rename_i p f hf
      have h1 := h _ _ hf
      unfold endExecution
      exact (h1.trans (.same .same)).trans (orders_takeHead _)

theorem orders_claimWrite (p : Parent) (s : State) : Orders s (claimWrite p s) := by
  have ha : ∀ (m : Initiator) (t : State), Orders t (alertNew m t) := fun m t => by
    unfold alertNew; split; exacts [.refl t, .same .same]
  unfold claimWrite doClaim doRelease claimNew
  repeat' split
  all_goals first
    | exact orders_answerResult _ _ _ _
    | exact Orders.trans (.same .same) (orders_answerResult _ _ _ _)
    | exact (Orders.trans (.same .same) (orders_answerResult _ _ _ _)).trans (ha _ _)

theorem orders_volumeWrite (p : Parent) (v : Volume) {s : State} (hc : VolumeCountLaw s) : Orders s (volumeWrite p v s) := by
  unfold volumeWrite
  repeat' split
  all_goals first | exact orders_takeDefine _ _ _ _ _ | exact orders_takeRemove _ _ hc | exact orders_answerResult _ _ _ _

theorem orders_stageWrite (p : Parent) (v : Volume) (s : State) : Orders s (stageWrite p v s) := by
  unfold stageWrite
  repeat' split
  all_goals first | exact orders_takeStage _ _ _ _ _ | exact orders_takeClear _ _ _ | exact orders_answerResult _ _ _ _

theorem orders_writeAccess (p : Parent) (i : Initiator) (s : State) : Orders s (writeAccess p i s) := by
  unfold writeAccess; split
  · exact orders_answerResult _ _ _ _
  · exact Orders.trans (.same .same) (orders_answerResult _ _ _ _)

theorem orders_writeInitiator (p : Parent) (i : Initiator) (s : State) : Orders s (writeInitiator p i s) := by
  unfold writeInitiator
  repeat' split
  all_goals first | exact orders_answerResult _ _ _ _ | exact Orders.trans (.same .same) (orders_answerResult _ _ _ _)

theorem orders_writePort (p : Parent) (d : Port) (s : State) : Orders s (writePort p d s) := by
  unfold writePort; split
  · exact orders_answerResult _ _ _ _
  · exact (orders_setParameters _ _ _ _ _).trans (orders_answerResult _ _ _ _)

/-- Parents that were live, moved on one after another by a move that needs only that a released one is unraced. -/
theorem orders_parents {f : State → Parent → State} (hf : ∀ s p, (p.state.released = true → Unraced s p.id) → Orders s (f s p)) :
    ∀ (ps : List Parent) (s : State), (∀ p ∈ ps, p.state.released = true → Unraced s p.id) → Orders s (ps.foldl f s)
  | [], s, _ => .refl s
  | p :: ps, s, h => by
    intro hs
    obtain ⟨h1, h2⟩ := hf s p (h p (List.mem_cons_self ..)) hs
    obtain ⟨h3, h4⟩ := orders_parents hf ps _ (fun q hq hr => h2 _ (h q (List.mem_cons_of_mem _ hq) hr)) h1
    exact ⟨h3, fun i hi => h4 i (h2 i hi)⟩

theorem orders_doFlushAll (id : ParentRef) (s : State) : Orders s (doFlushAll id s) := by
  unfold doFlushAll
  split
  · exact orders_answerResult _ _ _ _
  · refine Orders.trans ?_ (orders_tryIfFreed _ _)
    have h0 : Orders s { s with flush := some { op := id, parent := some id, awaited := [] } } := .same .same
    refine h0.trans ?_
    generalize { s with flush := some { op := id, parent := some id, awaited := [] } } = t
    unfold flushSteps
    refine ((Orders.trans ?_ (Orders.foldl (orders_takeFlushRequest id) _ _)).trans (orders_setState _ rfl _)).trans (orders_flushEndTest _)
    intro ht
    refine orders_parents (f := flushParent) (fun u p hu => ?_) _ _ ht.released ht
    unfold flushParent; split; exacts [.refl u, orders_abortParent _ _ hu]

theorem orders_discard (s : State) (p : Parent) (h : p.state.released = true → Unraced s p.id) : Orders s (discard s p) := by
  unfold discard
  split
  all_goals try exact (Orders.same (thin_leaveWait _ _)).trans (orders_freeParent _ _)
  all_goals try exact .refl s
  · exact Orders.trans (t := { s with executing := none }) (.same .same) (orders_freeParent _ _)
  · unfold reportGone
    split <;> exact (orders_freeParent _ _).trans (.same .same)
  all_goals
    rename_i hp
    have hr := orders_removeQueued p.id s
    unfold discardRunning
    split
    · intro hs
      have hu := (hr hs).2 _ (h (by rw [hp]; rfl))
      exact (hr.trans (orders_release p.id (f := fun q => { q with state := .discarding }) (fun _ => ⟨rfl, rfl, rfl, rfl, rfl⟩) hu)) hs
    · exact hr.trans (orders_freeParent _ _)

theorem orders_clearManager (s : State) : Orders s (clearManager s) := .same .same

theorem orders_takeUpstreamLoss (s : State) : Orders s (takeUpstreamLoss s) := by
  unfold takeUpstreamLoss
  split
  · have h : Orders s (clearManager (s.parents.foldl discard { s with linkUp := false })) := by
      refine Orders.trans ?_ (orders_clearManager _)
      have h0 : Orders s { s with linkUp := false } := .same .same
      intro hs
      exact (h0.trans (orders_parents (fun u p hu => orders_discard u p hu) _ _ fun p hp hr => (h0 hs).2 _ (hs.released p hp hr))) hs
    unfold postDiscarded; split; exacts [h, h.trans (orders_post _ _)]
  · exact .refl s

theorem orders_takeLeaseExpiry (s : State) : Orders s (takeLeaseExpiry s) := by
  unfold takeLeaseExpiry; split; exacts [Orders.trans (.same .same) (orders_post _ _), .refl s]

end Sys2Proof.Machine
end

