-- ==== Sys2Proof/Laws/Pages.lean ====
section
/-! SUPPORT. How a page reads: its length, its bytes, its 16-bit and 32-bit fields, and the bytes of equal-sized records laid one after another. -/

-- The package is also compiled as one text: one proof after another keeps the number of Lean's threads small there.
set_option Elab.async false

namespace Sys2Proof.Machine

theorem page_length (l : List Byte) : (page l).length = 512 := by
  unfold page; rw [List.length_take, List.length_append, List.length_replicate]; omega

theorem byteAt_append_left {l m : List Byte} {i : Nat} (h : i < l.length) : byteAt (l ++ m) i = byteAt l i := by
  unfold byteAt; rw [List.getD_append _ _ _ _ h]

theorem byteAt_append_right {l m : List Byte} {i : Nat} (h : l.length ≤ i) : byteAt (l ++ m) i = byteAt m (i - l.length) := by
  unfold byteAt; rw [List.getD_append_right _ _ _ _ h]

theorem byteAt_end {l : List Byte} {i : Nat} (h : l.length ≤ i) : byteAt l i = 0 := by
  unfold byteAt; rw [List.getD_eq_default _ _ h]

theorem byteAt_zeros (n i : Nat) : byteAt (List.replicate n 0) i = 0 := by
  unfold byteAt
  rcases Nat.lt_or_ge i n with h | h
  · rw [List.getD_eq_getElem?_getD, List.getElem?_replicate, if_pos h]; rfl
  · rw [List.getD_eq_default _ _ (by rw [List.length_replicate]; exact h)]

theorem byteAt_page {l : List Byte} {i : Nat} (h : i < 512) : byteAt (page l) i = byteAt l i := by
  have h1 : byteAt (page l) i = byteAt (l ++ List.replicate 512 0) i := by
    unfold byteAt page
    rw [List.getD_eq_getElem?_getD, List.getD_eq_getElem?_getD, List.getElem?_take, if_pos h]
  rw [h1]
  rcases Nat.lt_or_ge i l.length with h2 | h2
  · exact byteAt_append_left h2
  · rw [byteAt_append_right h2, byteAt_zeros, byteAt_end h2]

/-- Every byte of a page at or after the end of its fields is 00h (10 R156). -/
theorem byteAt_page_end {l : List Byte} {i : Nat} (h : l.length ≤ i) : byteAt (page l) i = 0 := by
  rcases Nat.lt_or_ge i 512 with h1 | h1
  · rw [byteAt_page h1, byteAt_end h]
  · exact byteAt_end (by rw [page_length]; exact h1)

/-- Two bytes that a number gives read back as the number, in 16 bits (10 R154). -/
theorem word16_bytes (n : Nat) : BitVec.ofNat 16 ((BitVec.ofNat 8 (n / 256)).toNat * 256 + (BitVec.ofNat 8 n).toNat) = BitVec.ofNat 16 n := by
  apply BitVec.eq_of_toNat_eq
  simp only [BitVec.toNat_ofNat]; omega

/-- Four bytes that a number gives read back as the number, in 32 bits (10 R154). -/
theorem word32_bytes (n : Nat) : BitVec.ofNat 32
    ((BitVec.ofNat 16 ((BitVec.ofNat 8 (n / 65536 / 256)).toNat * 256 + (BitVec.ofNat 8 (n / 65536)).toNat)).toNat * 65536
      + (BitVec.ofNat 16 ((BitVec.ofNat 8 (n / 256)).toNat * 256 + (BitVec.ofNat 8 n).toNat)).toNat) = BitVec.ofNat 32 n := by
  rw [word16_bytes, word16_bytes]
  apply BitVec.eq_of_toNat_eq
  simp only [BitVec.toNat_ofNat]; omega

/-- A 16-bit field reads as the number that its two bytes were made from (10 R154). -/
theorem word16At_of {b : List Byte} {i n : Nat} (h0 : byteAt b i = BitVec.ofNat 8 (n / 256)) (h1 : byteAt b (i + 1) = BitVec.ofNat 8 n) :
    word16At b i = BitVec.ofNat 16 n := by
  unfold word16At; rw [h0, h1, word16_bytes]

/-- A 32-bit field reads as the number that its four bytes were made from (10 R154). -/
theorem word32At_of {b : List Byte} {i n : Nat} (h0 : word16At b i = BitVec.ofNat 16 (n / 65536)) (h1 : word16At b (i + 2) = BitVec.ofNat 16 n) :
    word32At b i = BitVec.ofNat 32 n := by
  unfold word32At; rw [h0, h1]
  apply BitVec.eq_of_toNat_eq
  simp only [BitVec.toNat_ofNat]; omega

/-- Byte `j` of record `k` of records of one size laid one after another. -/
theorem byteAt_flatten {w : Nat} {ls : List (List Byte)} {k j : Nat} {l : List Byte} (hw : ∀ x ∈ ls, x.length = w) (hk : ls[k]? = some l)
    (hj : j < w) : byteAt ls.flatten (w * k + j) = byteAt l j := by
  induction ls generalizing k with
  | nil => simp at hk
  | cons a ls ih =>
    have ha : a.length = w := hw a (by simp)
    cases k with
    | zero =>
      simp at hk; subst hk
      rw [List.flatten_cons, Nat.mul_zero, Nat.zero_add, byteAt_append_left (by omega)]
    | succ k =>
      rw [List.flatten_cons, byteAt_append_right (by rw [ha, Nat.mul_succ]; omega), ha]
      rw [show w * (k + 1) + j - w = w * k + j by rw [Nat.mul_succ]; omega]
      exact ih (fun x hx => hw x (by simp [hx])) (by simpa using hk)

theorem flatten_length {w : Nat} {ls : List (List Byte)} (hw : ∀ x ∈ ls, x.length = w) : ls.flatten.length = w * ls.length := by
  induction ls with
  | nil => rfl
  | cons a ls ih =>
    rw [List.flatten_cons, List.length_append, hw a (by simp), ih fun x hx => hw x (by simp [hx]), List.length_cons, Nat.mul_succ]
    omega

/-- A byte of a page, from the byte of its fields. -/
theorem byteAt_page_of {l : List Byte} {i : Nat} {x : Byte} (h : i < 512) (e : byteAt l i = x) : byteAt (page l) i = x := (byteAt_page h).trans e

/-- A 16-bit field of a page, from the two bytes of its fields. -/
theorem word16At_page_of {l : List Byte} {i n : Nat} (h : i + 1 < 512) (h0 : byteAt l i = BitVec.ofNat 8 (n / 256)) (h1 : byteAt l (i + 1) = BitVec.ofNat 8 n) :
    word16At (page l) i = BitVec.ofNat 16 n := word16At_of (byteAt_page_of (by omega) h0) (byteAt_page_of h h1)

/-- The tags of a kind, counted by number (05 R75). -/
theorem countTags_eq (r : PortRec) (f : TagState → Bool) : r.countTags f = (List.finRange 16).countP fun t => f r.tags[t] := by
  unfold PortRec.countTags
  have : r.tags.toList = (List.finRange 16).map fun t => r.tags[t] := by
    apply List.ext_getElem
    · simp
    · intro i h1 h2; simp
  rw [this, List.countP_map]; rfl

theorem notice_length (n : Notice) : n.bytes.length = 16 := by simp [Notice.bytes, bytes8, bytes16, bytes32]

theorem extent_length (k : Nat) (x : Extent) : (x.bytes k).length = 28 := by simp [Extent.bytes, bytes8, bytes16, bytes32]

theorem ofNat_of_toNat {w : Nat} (x : BitVec w) : BitVec.ofNat w x.toNat = x := by simp

/-- A notice record reads from the bytes it is laid out in (10 section 10.5). -/
theorem notice_readsAt {b : Block} {o : Nat} {n : Notice} (h : ∀ j < 16, byteAt b (o + j) = byteAt n.bytes j) : n.ReadsAt b o := by
  have h0 := h 0 (by omega)
  rw [Nat.add_zero] at h0
  have hf : byteAt b (o + 5) = BitVec.ofNat 8 (boolCode n.body.port.isSome + 2 * boolCode n.body.volume.isSome + 4 * boolCode n.body.initiator.isSome
        + 8 * boolCode n.body.generation.isSome + 16 * boolCode n.body.ordinal.isSome + 32 * boolCode n.body.tag.isSome
        + 64 * boolCode n.body.reason.isSome) := (h 5 (by omega)).trans rfl
  constructor
  · rw [word32At_of (n := n.seq.toNat) (word16At_of (h0.trans rfl) ((h 1 (by omega)).trans rfl)) (word16At_of ((h 2 (by omega)).trans rfl) ((h 3 (by omega)).trans rfl)), ofNat_of_toNat]
  · exact (h 4 (by omega)).trans rfl
  · rw [hf]
    cases n.body.port.isSome <;> cases n.body.volume.isSome <;> cases n.body.initiator.isSome <;> cases n.body.generation.isSome <;> cases n.body.ordinal.isSome <;> cases n.body.tag.isSome <;> cases n.body.reason.isSome <;> decide
  · exact (h 6 (by omega)).trans rfl
  · exact (h 7 (by omega)).trans rfl
  · exact (h 8 (by omega)).trans rfl
  · exact (h 9 (by omega)).trans rfl
  · rw [word16At_of (n := (n.body.generation.map BitVec.toNat).getD 0) ((h 10 (by omega)).trans rfl) ((h 11 (by omega)).trans rfl)]
    cases n.body.generation <;> simp
  · exact word16At_of ((h 12 (by omega)).trans rfl) ((h 13 (by omega)).trans rfl)
  · exact (h 14 (by omega)).trans rfl
  · exact (h 15 (by omega)).trans rfl

set_option maxHeartbeats 3000000 in
/-- An extent record reads from the bytes it is laid out in (10 section 10.5). -/
theorem extent_readsAt {b : Block} {o k : Nat} {x : Extent} (h : ∀ j < 28, byteAt b (o + j) = byteAt (x.bytes k) j) : x.ReadsAt b o k := by
  have h0 := h 0 (by omega)
  rw [Nat.add_zero] at h0
  constructor
  · exact word16At_of (h0.trans rfl) ((h 1 (by omega)).trans rfl)
  · rw [show byteAt b (o + 2) = BitVec.ofNat 8 (boolCode x.copy2.isSome) from (h 2 (by omega)).trans rfl]; cases x.copy2 <;> rfl
  · rw [show byteAt b (o + 3) = BitVec.ofNat 8 x.lead.number from (h 3 (by omega)).trans rfl]; cases x.lead <;> rfl
  · rw [word32At_of (n := x.first.toNat) (word16At_of ((h 4 (by omega)).trans rfl) ((h 5 (by omega)).trans rfl)) (word16At_of ((h 6 (by omega)).trans rfl) ((h 7 (by omega)).trans rfl)), ofNat_of_toNat]
  · rw [word32At_of (n := x.length.toNat) (word16At_of ((h 8 (by omega)).trans rfl) ((h 9 (by omega)).trans rfl)) (word16At_of ((h 10 (by omega)).trans rfl) ((h 11 (by omega)).trans rfl)), ofNat_of_toNat]
  · exact (h 12 (by omega)).trans rfl
  · rw [show byteAt b (o + 13) = BitVec.ofNat 8 x.copy1.state.code from (h 13 (by omega)).trans rfl]; cases x.copy1.state <;> rfl
  · intro c hc
    have e14 : byteAt b (o + 14) = (x.copy2.map Copy.port).getD 0 := (h 14 (by omega)).trans rfl
    have e15 : byteAt b (o + 15) = BitVec.ofNat 8 ((x.copy2.map fun c => c.state.code).getD 0) := (h 15 (by omega)).trans rfl
    refine ⟨by rw [e14, hc]; rfl, by rw [e15, hc]; show BitVec.ofNat 8 c.state.code = _; cases c.state <;> rfl, ?_⟩
    rw [word32At_of (n := (x.copy2.map fun c => c.first.toNat).getD 0) (word16At_of ((h 20 (by omega)).trans rfl) ((h 21 (by omega)).trans rfl)) (word16At_of ((h 22 (by omega)).trans rfl) ((h 23 (by omega)).trans rfl)), hc]
    simp
  · intro hc
    have e14 : byteAt b (o + 14) = (x.copy2.map Copy.port).getD 0 := (h 14 (by omega)).trans rfl
    have e15 : byteAt b (o + 15) = BitVec.ofNat 8 ((x.copy2.map fun c => c.state.code).getD 0) := (h 15 (by omega)).trans rfl
    refine ⟨by rw [e14, hc]; rfl, by rw [e15, hc]; rfl, ?_⟩
    rw [word32At_of (n := (x.copy2.map fun c => c.first.toNat).getD 0) (word16At_of ((h 20 (by omega)).trans rfl) ((h 21 (by omega)).trans rfl)) (word16At_of ((h 22 (by omega)).trans rfl) ((h 23 (by omega)).trans rfl)), hc]
    simp
  · rw [word32At_of (n := x.copy1.first.toNat) (word16At_of ((h 16 (by omega)).trans rfl) ((h 17 (by omega)).trans rfl)) (word16At_of ((h 18 (by omega)).trans rfl) ((h 19 (by omega)).trans rfl)), ofNat_of_toNat]
  · exact word32At_of (n := 0) (word16At_of ((h 24 (by omega)).trans rfl) ((h 25 (by omega)).trans rfl)) (word16At_of ((h 26 (by omega)).trans rfl) ((h 27 (by omega)).trans rfl))

end Sys2Proof.Machine
end

