-- ==== Sys2Proof/Laws/PortFlows.lean ====
section
/-! SUPPORT. The events of the target ports and of every command keep the law of sub-commands and tags, and what goes with the state of each port: `Settles s t`. -/

-- The package is also compiled as one text: one proof after another keeps the number of Lean's threads small there.
set_option Elab.async false

namespace Sys2Proof.Machine

/-- A move that keeps the law of sub-commands and tags, and what goes with the state of each port. -/
structure Settles (s t : State) : Prop where
  subs : SubCommandLaw s → SubCommandLaw t
  ports : PortStateLaw s → PortStateLaw t

theorem Settles.refl (s : State) : Settles s s := ⟨id, id⟩

theorem Settles.trans {s t u : State} (a : Settles s t) (b : Settles t u) : Settles s u := ⟨b.subs ∘ a.subs, b.ports ∘ a.ports⟩

theorem PortStays.settled {p : Port} {s t : State} (h : PortStays p s t) (hs : (s.port p).Settled) : (t.port p).Settled where
  queues hd := h.queues (h.state ▸ hd) (hs.queues (h.state ▸ hd))
  pending := by rw [h.pending, h.state]; exact hs.pending
  waiters := by rw [h.waiters, h.state]; exact hs.waiters
  timer := by rw [h.state, h.timer]; exact hs.timer
  tags hd k := by
    rw [h.state] at hd
    rcases h.tags (by rcases hd with hd | hd <;> rw [hd] <;> simp) k with e | e
    · rw [e]; exact hs.tags hd k
    · exact e

theorem Flows.settles {s t : State} (h : Flows s t) : Settles s t := ⟨h.subs, fun hs p => (h.stays p).settled (hs p)⟩

theorem Inert.settles {s t : State} (h : Inert s t) : Settles s t := h.flows.settles

theorem Settles.foldl {α : Type} {f : State → α → State} (h : ∀ s a, Settles s (f s a)) : ∀ (l : List α) (s : State), Settles s (l.foldl f s)
  | [], s => .refl s
  | a :: l, s => (h s a).trans (Settles.foldl h l (f s a))

/-- An event of one port: the others are left, and it goes with its own state at the end. -/
theorem Settles.port {p : Port} {s t : State} (hs : SubCommandLaw s → SubCommandLaw t) (hq : ∀ q, q ≠ p → PortStays q s t)
    (hp : (s.port p).Settled → (t.port p).Settled) : Settles s t :=
  ⟨hs, fun h q => by
    by_cases he : q = p
    · subst he; exact hp (h q)
    · exact (hq q he).settled (h q)⟩

/-! ## What goes with each state of a port -/

theorem PortRec.Settled.ofResetting {r : PortRec} (h : r.state = .resetting) (ht : r.resetTimer ≠ none) (hg : ∀ t : DTag, r.tags[t] = .free) : r.Settled :=
  ⟨by rw [h]; simp, fun _ => h, fun _ => h, fun _ => ht, fun _ => hg⟩

theorem PortRec.Settled.ofHalted {r : PortRec} (h : r.state = .halted) (hq : ∀ c : Sys2Proof.Class, r.queues[c] = [])
    (hp : r.pendingReset = none) (hw : r.flushWaiters = []) : r.Settled :=
  ⟨fun _ => hq, fun h => absurd hp h, fun h => absurd hw h, by rw [h]; simp, by rw [h]; simp⟩

theorem PortRec.Settled.ofUp {r : PortRec} (h : r.state = .up) (hp : r.pendingReset = none) (hw : r.flushWaiters = []) : r.Settled :=
  ⟨by rw [h]; simp, fun h => absurd hp h, fun h => absurd hw h, by rw [h]; simp, by rw [h]; simp⟩

theorem PortRec.Settled.pending_none {r : PortRec} (hr : r.Settled) (h : r.state ≠ .resetting) : r.pendingReset = none := by
  by_contra hn; exact h (hr.pending hn)

theorem PortRec.Settled.waiters_nil {r : PortRec} (hr : r.Settled) (h : r.state ≠ .resetting) : r.flushWaiters = [] := by
  by_contra hn; exact h (hr.waiters hn)

/-! ## The parts of a port's events -/

theorem port_upd (p : Port) (f : PortRec → PortRec) (s : State) : (updPort p f s).port p = f (s.port p) := by rw [updPort_port, if_pos rfl]

theorem endIssued_notIssued {p : Port} {k : ResultKind} {s : State} {t : DTag} (h : (s.port p).state ≠ .up) (e : SubRef) :
    ((endIssued p k s t).port p).tags[t] ≠ .issued e := by
  unfold endIssued
  split
  · rename_i r _
    have h1 : ((freeTag p t s).port p).tags[t] = .free := by
      rw [freeTag, port_upd]; exact put_get_self _ _ _
    rcases (stays_mergeResult r (bareResult k true) (freeTag p t s) p).tags (by rw [(stays_freeTag p t s p).state]; exact h) t with h2 | h2
    · rw [h2, h1]; simp
    · rw [h2]; simp
  · rename_i ht; rw [ht]; simp
  · rename_i ht; rw [ht]; simp

/-- Every ISSUED tag of a port that is not UP has ended (08 R124 step 3, R129 step 2). -/
theorem endAllIssued_notIssued {p : Port} {k : ResultKind} {s : State} (h : (s.port p).state ≠ .up) (t : DTag) (e : SubRef) :
    ((endAllIssued p k s).port p).tags[t] ≠ .issued e := by
  unfold endAllIssued
  have : ∀ (l : List DTag) (s : State), (s.port p).state ≠ .up → t ∈ l → ((l.foldl (endIssued p k) s).port p).tags[t] ≠ .issued e := by
    intro l
    induction l with
    | nil => simp
    | cons a l ih =>
      intro s h ht
      have h1 := stays_endIssued p k s a p
      have hu : ((endIssued p k s a).port p).state ≠ .up := by rw [h1.state]; exact h
      rw [List.foldl_cons]
      by_cases ha : t = a
      · subst ha
        rcases (PortStays.foldl (fun s a => stays_endIssued p k s a p) l (endIssued p k s t)).tags hu t with h2 | h2
        · rw [h2]; exact endIssued_notIssued h e
        · rw [h2]; simp
      · exact ih _ hu (by simpa [ha] using ht)
  exact this _ s h (List.mem_finRange t)

theorem freeQuarantined_free {p : Port} {s : State} (h : ∀ (t : DTag) (e : SubRef), (s.port p).tags[t] ≠ .issued e) (t : DTag) :
    ((freeQuarantined p s).port p).tags[t] = .free := by
  rw [freeQuarantined, port_upd]
  simp only [mapRows_eq, Fin.getElem_fin, Vector.getElem_map]
  have := h t
  simp only [Fin.getElem_fin] at this
  cases e : (s.port p).tags[t.val] <;> simp_all

/-- The class queues of a DOWN or HALTED port stay emptied (05 R73, R82). -/
theorem emptyQueues_empty {p : Port} {k : ResultKind} {s : State} (h : (s.port p).state = .down ∨ (s.port p).state = .halted) (c : Sys2Proof.Class) :
    ((emptyQueues p k s).port p).queues[c] = [] := by
  refine (PortStays.foldl (p := p) (fun _ _ => stays_mergeResult _ _ _ _) _ (updPort p (fun r => { r with queues := Vector.replicate 4 [] }) s)).queues ?_ ?_ c
  · rw [port_upd]; exact h
  · intro c; rw [port_upd]; exact Vector.getElem_replicate _

/-! ## The end of a reset -/

theorem stays_endManagementReset {p q : Port} (h : q ≠ p) (st : Status) (s : State) : PortStays q s (endManagementReset p st s) :=
  (PortStays.ne h _ s).trans ((inert_finishLong _ _ _).stays q)

theorem endManagementReset_port (p : Port) (st : Status) (s : State) :
    (endManagementReset p st s).port p = { s.port p with pendingReset := none } := by
  rw [endManagementReset, (inert_finishLong _ _ _).port, port_upd]

theorem subs_endManagementReset (p : Port) (st : Status) {s : State} (h : SubsFit [] s) : SubsFit [] (endManagementReset p st s) :=
  (fit_updPort rfl rfl h).inert (inert_finishLong _ _ _)

theorem inert_tellAll (p : Port) (l : List ParentRef) (s : State) : Inert s (l.foldl (tellFlush p) s) :=
  Inert.foldl (fun s op => inert_tellFlush p s op) l s

theorem stays_endFlushWaiters {p q : Port} (h : q ≠ p) (s : State) : PortStays q s (endFlushWaiters p s) :=
  (PortStays.ne h _ s).trans ((inert_tellAll _ _ _).stays q)

theorem endFlushWaiters_port (p : Port) (s : State) : (endFlushWaiters p s).port p = { s.port p with flushWaiters := [] } := by
  rw [endFlushWaiters, (inert_tellAll _ _ _).port, port_upd]

theorem subs_endFlushWaiters (p : Port) {s : State} (h : SubsFit [] s) : SubsFit [] (endFlushWaiters p s) :=
  (fit_updPort rfl rfl h).inert (inert_tellAll _ _ _)

/-! ## Resets (08 R123, R128, R129, R131) -/

theorem inert_postPort (k : NoticeKind) (p : Port) (r : Option Nat) (s : State) : Inert s (postPort k p r s) := inert_post _ _
theorem inert_postTag (k : NoticeKind) (p : Port) (t : Byte) (s : State) : Inert s (postTag k p t s) := inert_post _ _

theorem inert_sendDown (p : Port) (f : DownFrame) (s : State) : Inert s (sendDown p f s) := {}

theorem stays_sendTrst {p q : Port} (h : q ≠ p) (n : Nat) (s : State) : PortStays q s (sendTrst p n s) :=
  (PortStays.ne h _ s).trans ((inert_sendDown _ _ _).stays q)

theorem sendTrst_port (p : Port) (n : Nat) (s : State) :
    (sendTrst p n s).port p = { s.port p with attempts := n, resetTimer := some (s.now + (s.port p).responseLimit) } := by
  rw [sendTrst, (inert_sendDown _ _ _).port, port_upd]

theorem subs_sendTrst (p : Port) (n : Nat) {s : State} (h : SubsFit [] s) : SubsFit [] (sendTrst p n s) :=
  (fit_updPort rfl rfl h).inert (inert_sendDown _ _ _)

theorem stays_beginReset {p q : Port} (h : q ≠ p) (s : State) : PortStays q s (beginReset p s) :=
  (((PortStays.ne h _ s).trans (stays_endAllIssued _ _ _ _)).trans (stays_freeQuarantined _ _ _)).trans (stays_sendTrst h _ _)

/-- What a reset that has begun leaves of its port (08 R129). -/
theorem beginReset_port (p : Port) (s : State) :
    ((beginReset p s).port p).state = .resetting ∧ ((beginReset p s).port p).resetTimer ≠ none ∧ ∀ t : DTag, ((beginReset p s).port p).tags[t] = .free := by
  unfold beginReset
  rw [sendTrst_port]
  generalize hu : updPort p (fun r => { r with state := .resetting, reason := none }) s = u
  have h1 : (u.port p).state = .resetting := by subst hu; rw [port_upd]
  have h2 : ((endAllIssued p .reset u).port p).state = .resetting := (stays_endAllIssued p .reset u p).state.trans h1
  have h3 := fun t => freeQuarantined_free (endAllIssued_notIssued (p := p) (k := .reset) (s := u) (by rw [h1]; simp)) t
  have h4 : ((freeQuarantined p (endAllIssued p .reset u)).port p).state = .resetting := (stays_freeQuarantined _ _ p).state.trans h2
  generalize freeQuarantined p (endAllIssued p .reset u) = v at *
  exact ⟨h4, fun h => Option.some_ne_none _ h, h3⟩

theorem subs_beginReset (p : Port) {s : State} (h : SubsFit [] s) : SubsFit [] (beginReset p s) := by
  unfold beginReset
  refine subs_sendTrst p 1 (fit_freeQuarantined (fit_endAllIssued ?_))
  exact fit_updPort rfl rfl h

theorem inert_flushRec (op : ParentRef) (p : Port) (s : State) :
    Inert (updPort p (fun r => { r with flushWaiters := r.flushWaiters ++ [op] }) s) (awaitPort op p s) := {}

/-- A request is joined to a port whose reset has begun, or runs. -/
theorem settles_join {p : Port} {s t u : State} (hs : SubsFit [] s → SubsFit [] t) (hq : ∀ q, q ≠ p → PortStays q s t)
    (hp : (s.port p).Settled → (t.port p).state = .resetting ∧ (t.port p).resetTimer ≠ none ∧ ∀ k : DTag, (t.port p).tags[k] = .free)
    (f : PortRec → PortRec) (hf : ∀ r, (f r).state = r.state ∧ (f r).resetTimer = r.resetTimer ∧ (f r).tags = r.tags ∧ (f r).queues = r.queues)
    (hu : Inert (updPort p f t) u) : Settles s u := by
  refine Settles.trans (t := updPort p f t) ?_ hu.settles
  obtain ⟨h1, h2, h3, h4⟩ := hf (t.port p)
  refine Settles.port (p := p) (fun h => (fit_updPort h3 h4 (hs h.fit)).law) (fun q h => (hq q h).trans (.ne h f t)) fun h => ?_
  obtain ⟨a, b, c⟩ := hp h
  rw [port_upd]
  exact .ofResetting (h1.trans a) (by rw [h2]; exact b) (by rw [h3]; exact c)

theorem settled_resetting {p : Port} {s : State} (h : (s.port p).state = .resetting) (hs : (s.port p).Settled) :
    (s.port p).state = .resetting ∧ (s.port p).resetTimer ≠ none ∧ ∀ k : DTag, (s.port p).tags[k] = .free := ⟨h, hs.timer h, hs.tags (.inr h)⟩

theorem settles_takeFlushRequest (op : ParentRef) (s : State) (p : Port) : Settles s (takeFlushRequest op s p) := by
  have hr : Settles s (tryHeads (awaitPort op p (beginReset p s))) :=
    (settles_join (subs_beginReset p) (fun _ h => stays_beginReset h s) (fun _ => beginReset_port p s)
      (fun r => { r with flushWaiters := r.flushWaiters ++ [op] }) (fun _ => ⟨rfl, rfl, rfl, rfl⟩) (inert_flushRec _ _ _)).trans (flows_tryHeads _).settles
  unfold takeFlushRequest
  split
  · exact .refl s
  · rename_i h
    exact settles_join (p := p) (fun h => h) (fun q _ => .refl q s) (settled_resetting h) (fun r => { r with flushWaiters := r.flushWaiters ++ [op] }) (fun _ => ⟨rfl, rfl, rfl, rfl⟩) (inert_flushRec _ _ _)
  · exact hr
  · exact hr

theorem settles_takePortReset (id : ParentRef) (p : Port) (s : State) : Settles s (takePortReset id p s) := by
  have hr : Settles s (tryHeads (attachReset id p (beginReset p s))) :=
    (settles_join (subs_beginReset p) (fun _ h => stays_beginReset h s) (fun _ => beginReset_port p s)
      (fun r => { r with pendingReset := some id }) (fun _ => ⟨rfl, rfl, rfl, rfl⟩) (inert_setState _ _ _)).trans
      (flows_tryHeads _).settles
  unfold takePortReset
  split
  · exact hr
  · exact hr
  · rename_i h
    split
    · exact settles_join (p := p) (fun h => h) (fun q _ => .refl q s) (settled_resetting h)
        (fun r => { r with pendingReset := some id }) (fun _ => ⟨rfl, rfl, rfl, rfl⟩) (inert_setState _ _ _)
    · exact (inert_answerResult _ _ _ _).settles
  · exact (inert_answerResult _ _ _ _).settles

/-! ## Halting (07 R110, 08 R126, R127) -/

theorem stays_haltPort {p q : Port} (h : q ≠ p) (why : HaltReason) (s : State) : PortStays q s (haltPort p why s) :=
  ((PortStays.ne h _ s).trans ((inert_postPort _ _ _ _).stays q)).trans (stays_emptyQueues _ _ _ _)

/-- What a halt leaves of its port (08 R127). -/
theorem haltPort_port (p : Port) (why : HaltReason) (s : State) :
    ((haltPort p why s).port p).state = .halted ∧ (∀ c : Sys2Proof.Class, ((haltPort p why s).port p).queues[c] = [])
      ∧ ((haltPort p why s).port p).pendingReset = (s.port p).pendingReset ∧ ((haltPort p why s).port p).flushWaiters = (s.port p).flushWaiters := by
  unfold haltPort
  generalize hu : postPort .portHalted p (some why.code) (updPort p (fun r => { r with state := .halted, reason := some why, resetTimer := none }) s) = u
  have h1 : u.port p = { s.port p with state := .halted, reason := some why, resetTimer := none } := by
    subst hu; rw [(inert_postPort _ _ _ _).port, port_upd]
  have hs := stays_emptyQueues p .halted u p
  have h2 : (u.port p).state = .halted := by rw [h1]
  refine ⟨hs.state.trans h2, emptyQueues_empty (.inr h2), hs.pending.trans (by rw [h1]), hs.waiters.trans (by rw [h1])⟩

theorem subs_haltPort (p : Port) (why : HaltReason) {s : State} (h : SubsFit [] s) : SubsFit [] (haltPort p why s) :=
  fit_emptyQueues ((fit_updPort rfl rfl h).inert (inert_postPort _ _ _ _))

theorem settles_haltingTest (p : Port) (before s : State) : Settles s (haltingTest p before s) := by
  unfold haltingTest
  split
  · rename_i h
    refine Settles.trans ?_ (flows_tryHeads _).settles
    refine Settles.port (p := p) (fun h => (subs_haltPort p _ h.fit).law) (fun q hq => stays_haltPort hq _ s) fun hs => ?_
    obtain ⟨a, b, c, d⟩ := haltPort_port p .tagsExhausted s
    have hn : (s.port p).state ≠ .resetting := by rw [h.1]; simp
    exact .ofHalted a b (c.trans (hs.pending_none hn)) (d.trans (hs.waiters_nil hn))
  · exact (flows_tryIfFreed _ _).settles

theorem settles_resetFailed (p : Port) (s : State) : Settles s (resetFailed p s) := by
  refine Settles.trans ?_ (flows_tryHeads _).settles
  refine Settles.port (p := p) (fun h => (subs_endFlushWaiters p (subs_endManagementReset p _ (subs_haltPort p _ h.fit))).law)
    (fun q hq => ((stays_haltPort hq _ s).trans (stays_endManagementReset hq _ _)).trans (stays_endFlushWaiters hq _)) fun _ => ?_
  obtain ⟨a, b, _, _⟩ := haltPort_port p .resetUnanswered s
  rw [endFlushWaiters_port, endManagementReset_port]
  exact .ofHalted a b rfl rfl

/-! ## Link events, TRDY and the reset timer (08 R123 to R126) -/

theorem settles_takeLinkUp (p : Port) (s : State) : Settles s (takeLinkUp p s) := by
  unfold takeLinkUp
  split
  · rename_i h
    refine Settles.port (p := p) (fun h => (subs_sendTrst p _ (fit_updPort rfl rfl h.fit)).law) (fun q hq => (PortStays.ne hq _ s).trans (stays_sendTrst hq _ _)) fun hs => ?_
    rw [sendTrst_port, port_upd]
    exact .ofResetting rfl (by simp) (hs.tags (.inl h))
  · exact .refl s

/-- What the loss of its link leaves of a port (08 R124). -/
theorem losePort_settled (p : Port) (s : State) : ((losePort p s).port p).Settled := by
  unfold losePort
  rw [endFlushWaiters_port, endManagementReset_port]
  generalize hu : postPort .portDown p none (updPort p (fun r => { r with state := .down, reason := none, resetTimer := none }) s) = u
  have h1 : (u.port p).state = .down := by subst hu; rw [(inert_postPort _ _ _ _).port, port_upd]
  have h2 : ((endAllIssued p .lost u).port p).state = .down := (stays_endAllIssued p .lost u p).state.trans h1
  have h3 : ((freeQuarantined p (endAllIssued p .lost u)).port p).state = .down := (stays_freeQuarantined _ _ p).state.trans h2
  have h4 := stays_emptyQueues p .lost (freeQuarantined p (endAllIssued p .lost u)) p
  have hg : ∀ t : DTag, ((emptyQueues p .lost (freeQuarantined p (endAllIssued p .lost u))).port p).tags[t] = .free := by
    intro t
    rcases h4.tags (by rw [h3]; simp) t with h | h
    · rw [h]; exact freeQuarantined_free (endAllIssued_notIssued (by rw [h1]; simp)) t
    · exact h
  have h5 := h4.state.trans h3
  have h6 := fun c => emptyQueues_empty (k := .lost) (.inl h3) c
  generalize emptyQueues p .lost (freeQuarantined p (endAllIssued p .lost u)) = v at *
  exact ⟨fun _ => h6, fun h => absurd rfl h, fun h => absurd rfl h, fun h => absurd (h5.symm.trans h) (by decide), fun _ => hg⟩

theorem settles_takeLinkLost (p : Port) (s : State) : Settles s (takeLinkLost p s) := by
  unfold takeLinkLost
  split
  · exact .refl s
  · refine Settles.trans ?_ (flows_tryHeads _).settles
    refine Settles.port (p := p) (fun h => ?_) (fun q hq => ?_) fun _ => losePort_settled p s
    · refine (subs_endFlushWaiters p (subs_endManagementReset p _ (fit_emptyQueues (fit_freeQuarantined (fit_endAllIssued
        (SubsFit.inert (inert_postPort _ _ _ _) ?_)))))).law
      exact fit_updPort rfl rfl h.fit
    · exact ((((((PortStays.ne hq _ s).trans ((inert_postPort _ _ _ _).stays q)).trans (stays_endAllIssued _ _ _ _)).trans
        (stays_freeQuarantined _ _ _)).trans (stays_emptyQueues _ _ _ _)).trans (stays_endManagementReset hq _ _)).trans (stays_endFlushWaiters hq _)

theorem settles_takeTrdy (p : Port) (s : State) : Settles s (takeTrdy p s) := by
  unfold takeTrdy
  split
  · unfold endReset
    refine Settles.trans ?_ (flows_issueTest _ _).settles
    refine Settles.port (p := p) (fun h => ?_) (fun q hq => ?_) fun _ => ?_
    · exact (fit_updPort rfl rfl (subs_endFlushWaiters p (subs_endManagementReset p _
        ((fit_updPort rfl rfl h.fit).inert (inert_postPort _ _ _ _))))).law
    · exact ((((PortStays.ne hq _ s).trans ((inert_postPort _ _ _ _).stays q)).trans (stays_endManagementReset hq _ _)).trans
        (stays_endFlushWaiters hq _)).trans (.ne hq _ _)
    · rw [port_upd, endFlushWaiters_port, endManagementReset_port, (inert_postPort _ _ _ _).port, port_upd]
      exact .ofUp rfl rfl rfl
  all_goals exact .refl s

theorem settles_takeResetTimer (p : Port) (s : State) : Settles s (takeResetTimer p s) := by
  unfold takeResetTimer
  split
  · rename_i h
    have h : (s.port p).state = .resetting := by simp only [resetTimerDue, Bool.and_eq_true, beq_iff_eq] at h; exact h.1
    split
    · refine Settles.port (p := p) (fun h => (subs_sendTrst p _ h.fit).law) (fun q hq => stays_sendTrst hq _ s) fun hs => ?_
      rw [sendTrst_port]
      exact .ofResetting h (by simp) (hs.tags (.inr h))
    · exact settles_resetFailed p s
  · exact .refl s

/-! ## Deadlines, TCPLs, parameters (chapter 7, 05 R85) -/

theorem settles_takeDeadline (p : Port) (t : DTag) (s : State) : Settles s (takeDeadline p t s) := by
  unfold takeDeadline
  split
  · exact .refl s
  · rename_i e he
    split
    · unfold issuedUnder at he
      split at he
      · rename_i r hr
        have hes : e ∈ s.subs := List.mem_of_find?_eq_some he
        have hid : e.id = r := by simpa using List.find?_some he
        unfold expire
        refine Settles.trans ?_ (settles_haltingTest _ _ _)
        have hn : (s.port p).Settled → (s.port p).state ≠ .down ∧ (s.port p).state ≠ .resetting := by
          intro hs
          refine ⟨fun h => ?_, fun h => ?_⟩
          · have := hs.tags (.inl h) t; rw [hr] at this; simp at this
          · have := hs.tags (.inr h) t; rw [hr] at this; simp at this
        have hp : (s.port p).Settled → ((quarantineTag p t s).port p).Settled := by
          intro hs
          obtain ⟨h1, h2⟩ := hn hs
          rw [quarantineTag, port_upd]
          exact ⟨hs.queues, hs.pending, hs.waiters, hs.timer, fun h => absurd h (not_or.2 ⟨h1, h2⟩)⟩
        refine Settles.port (p := p) (fun h => ?_) (fun q hq => ?_) fun hs => ?_
        · have h1 := fit_untag (x := .quarantined) (by simp) hes (hid ▸ hr) h.fit
          exact (fit_mergeResult (h1.inert (inert_post _ _))).law
        · exact ((PortStays.ne hq _ s).trans ((inert_post _ _).stays q)).trans (stays_mergeResult _ _ _ _)
        · refine (stays_mergeResult _ _ _ p).settled ?_
          rw [(inert_post _ _).port]; exact hp hs
      · simp at he
      · simp at he
    · exact .refl s

theorem settles_takeTcpl (p : Port) (f : TcplFrame) (s : State) : Settles s (takeTcpl p f s) := by
  have ht : Settles s (takeTagged p f s) := by
    unfold takeTagged
    split
    · exact (inert_postTag _ _ _ _).settles
    · rename_i t _
      split
      · exact (inert_postTag _ _ _ _).settles
      · rename_i hq
        unfold takeLate
        refine (Settles.trans ?_ (inert_postTag _ _ _ _).settles).trans (flows_issueTest _ _).settles
        exact Flows.settles ⟨stays_freeTag _ _ _, fun h => (fit_freeTag (fun e he => by rw [hq] at he; simp at he) h.fit).law⟩
      · rename_i r hr
        split
        · rename_i hn
          refine ⟨fun h => ?_, fun h q => (stays_freeTag p t s q).settled (h q)⟩
          obtain ⟨x, hx, hid, _⟩ := h.tagged p t r hr
          rw [← hid, h.fit.find hx] at hn; simp at hn
        · rename_i e he
          have hes : e ∈ s.subs := List.mem_of_find?_eq_some he
          have hid : e.id = r := by simpa using List.find?_some he
          unfold takeAnswer
          refine (Settles.trans ?_ (flows_issueTest _ _).settles).trans (flows_tryIfFreed _ _).settles
          exact Flows.settles ⟨fun q => (stays_freeTag _ _ _ q).trans (stays_mergeResult _ _ _ _),
            fun h => (fit_mergeResult (fit_untag (x := .free) (by simp) hes (hid ▸ hr) h.fit)).law⟩
  unfold takeTcpl
  split <;> first | exact ht | exact .refl s

theorem settles_writeParameters (p : Port) (w l m : Nat) (s : State) : Settles s (writeParameters p w l m s) :=
  Flows.settles ⟨fun q => PortStays.upd q p _ (fun _ h => h) fun _ _ => .inl rfl, fun h => (fit_updPort rfl rfl h.fit).law⟩

theorem settles_setParameters (p : Port) (w l m : Nat) (s : State) : Settles s (setParameters p w l m s) := by
  have h := settles_writeParameters p w l m s
  unfold setParameters
  repeat' split
  · exact h
  · exact (h.trans (settles_haltingTest _ _ _)).trans (flows_issueTest _ _).settles
  · exact h.trans (settles_haltingTest _ _ _)

/-- A pending management reset whose parent is gone leaves the port (08 R130). -/
theorem settles_takeGonePort (g : GonePort) (s : State) : Settles s (takeGonePort g s) := by
  refine Settles.port (p := g.port) (fun h => (fit_updPort ?_ ?_ h.fit).law) (fun q hq => .ne hq _ s) fun hs => ?_
  · split <;> rfl
  · split <;> rfl
  · rw [takeGonePort, port_upd]
    split
    · exact ⟨hs.queues, by simp, hs.waiters, hs.timer, hs.tags⟩
    · exact hs

/-! ## Control commands (chapter 9) -/

theorem settles_execute {pick : Parent → Option (State → State)} (h : ∀ p f, pick p = some f → ∀ s, Settles s (f s)) (s : State) :
    Settles s (execute pick s) := by
  unfold execute
  split
  · exact .refl s
  · split
    · exact .refl s
    · rename_i f hf
      exact (h _ f hf s).trans (Inert.trans (t := { f s with executing := none }) {} (inert_takeHead _)).settles

theorem settles_managed {p : Parent} {f : State → State} (h : ∀ s, Settles s (f s)) (s : State) : Settles s (managed p f s) := by
  unfold managed; split; exacts [h s, (inert_answerResult _ _ _ _).settles]

theorem settles_writePort (p : Parent) (d : Port) (s : State) : Settles s (writePort p d s) := by
  unfold writePort; split
  · exact (inert_answerResult _ _ _ _).settles
  · exact (settles_setParameters _ _ _ _ _).trans (inert_answerResult _ _ _ _).settles

theorem settles_doFlushAll (id : ParentRef) (s : State) : Settles s (doFlushAll id s) := by
  unfold doFlushAll
  split
  · exact (inert_answerResult _ _ _ _).settles
  · refine Settles.trans (t := flushSteps id { s with flush := some { op := id, parent := some id, awaited := [] } }) ?_ (flows_tryIfFreed _ _).settles
    refine Settles.trans (t := { s with flush := some { op := id, parent := some id, awaited := [] } }) (Inert.settles {}) ?_
    generalize { s with flush := some { op := id, parent := some id, awaited := [] } } = u
    unfold flushSteps
    have hf : ∀ (t : State) (p : Parent), Flows t (flushParent t p) := fun t p => by
      unfold flushParent; split; exacts [.refl t, flows_abortParent p t]
    have h1 := (Flows.foldl hf u.parents u).settles.trans (Settles.foldl (settles_takeFlushRequest id) (List.finRange 4) _)
    refine h1.trans ?_
    exact ((inert_setState _ _ _).trans (inert_flushEndTest _)).settles

end Sys2Proof.Machine
end

