-- ==== Sys2Proof/Laws/Results.lean ====
section
/-! SUPPORT. Results as a whole: the TCPL for an ISSUED tag, a retry, a FLUSH, the ends that a port gives, a WRITE's last result, and a try at the Split-Wait List. -/

-- The package is also compiled as one text: one proof after another keeps the number of Lean's threads small there.
set_option Elab.async false

namespace Sys2Proof.Machine

/-! ## TCPLs -/

/-- A frame without payload fits its kind (10 R155). -/
theorem tcpl_wf_nil {f : TcplFrame} (h : f.payload = []) : f.wf = true := by unfold TcplFrame.wf payloadFits; rw [h]; rfl

/-- A TCPL for an ISSUED tag: the tag is freed, the entry's result taken, and the two tests made (06 R88, 07 R111). -/
theorem exec_tcpl_issued {s : State} {d : Port} {t : DTag} {e : SubCmd} {f : TcplFrame} (htag : (s.port d).tags[t] = .issued e.id) (hn : s.subs.Pairwise fun x y => x.id ≠ y.id) (hk : e ∈ s.subs)
    (hst : (s.port d).state = .up ∨ (s.port d).state = .halted) (hf : f.wf = true) (ht : f.tag.toNat = t.val) :
    exec (.tcpl d f) s = .next (tryIfFreed s (issueTest d (mergeResult e.id (tcplResult e f) (freeTag d t s)))) := by
  show Host.Outcome.next _ = _
  congr 1
  unfold receiveTcpl; rw [if_pos hf]
  unfold takeTcpl takeTagged
  rw [dtagOf_eq ht]; simp only [htag]
  rw [sub_of_mem hn hk]
  rcases hst with h | h <;> rw [h] <;> rfl

/-- The result of a TCPL with neither error block nor payload (06 R88, 10 R158). -/
theorem tcplResult_bare {e : SubCmd} {f : TcplFrame} {k : ResultKind} (h1 : f.flags.getLsbD 0 = false) (h2 : f.payload = []) (h3 : (f.result = 0 ∧ k = .ok ∧ e.op ≠ .read) ∨ (f.result = 2 ∧ k = .fault) ∨ (f.result = 3 ∧ k = .refused)) :
    tcplResult e f = bareResult k true := by
  have he : errorOf f = none := by unfold errorOf; rw [h1]; rfl
  unfold tcplResult tcplKind
  rcases h3 with ⟨h, rfl, ho⟩ | ⟨h, rfl⟩ | ⟨h, rfl⟩ <;> simp [h, tcplFit, he, h2, bareResult] <;> simp_all

/-- What a TCPL that fails a READ entry hands over (06 R87, R88, R94). -/
theorem tcplResult_fails {e : SubCmd} {f : TcplFrame} {n : Nat} {st : Status} (h : Fails f e n st) (ho : e.op = .read) :
    (tcplResult e f).kind ≠ .ok ∧ (tcplResult e f).kind.status = st ∧ (tcplResult e f).payload = f.payload ∧ ((tcplResult e f).kind = .medium ∨ (tcplResult e f).payload = [])
      ∧ (∀ p pc, failBlock p pc e (tcplResult e f) = pieceFirst p pc + n) := by
  obtain ⟨h1, h2, ⟨h3, h4, h5⟩ | ⟨h3, h4, h5, h6, h7⟩⟩ := h
  · have hp : f.payload = [] := List.eq_nil_of_length_eq_zero (h2.trans h3)
    subst h3
    rcases h5 with ⟨h5, rfl⟩ | ⟨h5, rfl⟩
    · rw [tcplResult_bare (k := .fault) h4 hp (.inr (.inl ⟨h5, rfl⟩))]
      exact ⟨by simp [bareResult], rfl, hp.symm, .inr rfl, fun _ _ => rfl⟩
    · rw [tcplResult_bare (k := .refused) h4 hp (.inr (.inr ⟨h5, rfl⟩))]
      exact ⟨by simp [bareResult], rfl, hp.symm, .inr rfl, fun _ _ => rfl⟩
  · subst h4
    have : tcplResult e f = { kind := .medium, errorBlock := some (e.targetStart + n), payload := f.payload, issued := true } := by
      unfold tcplResult tcplKind
      rw [if_neg (by rw [h3]; decide), if_pos h3]; simp only
      have : errorOf f = some (e.targetStart + n) := by unfold errorOf; rw [h5, h6]; rfl
      rw [if_pos (by unfold tcplFit; simp [this, ho, h7, h2]), this]
    rw [this]
    refine ⟨by simp, rfl, rfl, .inl rfl, fun p pc => ?_⟩
    show _ + (e.targetStart + n - e.targetStart) = _
    rw [Nat.add_sub_cancel_left]

/-! ## Deadlines -/

/-- The expiry of the deadline of an ISSUED entry: the tag is quarantined, the notice posted, TARGET_TIMEOUT handed over and the halting test made (07 R107, R108). -/
theorem exec_deadline {s : State} {d : Port} {t : DTag} {p : Parent} {e : SubCmd} {i : Issue} (ho : AdmissionOrder s) (hp : p ∈ s.parents) (he : e.parent = p.id) (htag : (s.port d).tags[t] = .issued e.id)
    (hn : s.subs.Pairwise fun x y => x.id ≠ y.id) (hk : e ∈ s.subs) (hi : e.issue = some i) (hd : i.deadline ≤ s.now) :
    exec (.deadlineExpiry d t) s = .next (haltingTest d s (mergeResult e.id (bareResult .timeout true)
      (noticed (portNotice .subExpired d (some (BitVec.ofNat 8 t.val)) none (some p.volume)) (withPort d { s.port d with tags := put (s.port d).tags t .quarantined } s)))) := by
  have e0 : issuedUnder d t s = some e := by
    unfold issuedUnder; rw [htag]; exact sub_of_mem hn hk
  have en : post (expiredNotice d t e s) (quarantineTag d t s) = noticed (portNotice .subExpired d (some (BitVec.ofNat 8 t.val)) none (some p.volume))
          (withPort d { s.port d with tags := put (s.port d).tags t .quarantined } s) := by
    rw [post_eq]
    have : expiredNotice d t e s = portNotice .subExpired d (some (BitVec.ofNat 8 t.val)) none (some p.volume) := by
      unfold expiredNotice portNotice
      rw [he, find?_of_order ho hp]; rfl
    rw [this]; rfl
  show Host.Outcome.next _ = _
  congr 1
  unfold takeDeadline
  rw [e0]; simp only
  rw [if_pos (by unfold deadlineDue; rw [hi]; simpa using hd)]
  unfold expire
  rw [en]

/-! ## The Command Table with one parent changed -/

theorem updParent_order {u : State} {id : ParentRef} {F : Parent → Parent} (hF : ∀ q, (F q).id = q.id) (h : AdmissionOrder u) : AdmissionOrder (updParent id F u) := by
  refine ⟨pairwise_updParent hF h, fun q hq => ?_⟩
  obtain ⟨q', hq', rfl⟩ := List.mem_map.1 (show q ∈ u.parents.map _ from hq)
  have := h.2 q' hq'
  show _ < u.nextParent
  split
  · rw [hF]; exact this
  · exact this

theorem updParent_mem {u : State} {p : Parent} {F : Parent → Parent} (hp : p ∈ u.parents) : F p ∈ (updParent p.id F u).parents :=
  List.mem_map.2 ⟨p, hp, if_pos rfl⟩

/-- A parent whose last entry is freed holds none (06 R103, R104). -/
theorem noEntry_of_last {l : List SubCmd} {id : ParentRef} {e : SubCmd} (h : ∀ z ∈ l, z.parent = id → z = e) : (l.filter fun z => z.id ≠ e.id).any (fun z => z.parent == id) = false := by
  rw [List.any_eq_false]
  intro z hz
  obtain ⟨h1, h2⟩ := List.mem_filter.1 hz
  simp only [ne_eq, decide_not, Bool.not_eq_eq_eq_not, Bool.not_true, decide_eq_false_iff_not] at h2
  simp only [beq_iff_eq]
  exact fun h3 => h2 (by rw [h z h1 h3])

/-- The end test of a parent that holds no other entry: ABORTING, it completes ABORTED; DISCARDING, it is freed without a CPL (06 R103, R104). -/
theorem endTest_leaving {u : State} {p : Parent} {e : SubRef} {F : Parent → Parent} (ho : AdmissionOrder u) (hp : p ∈ u.parents) (hF : ∀ q, F q = { q with pieces := (F q).pieces, slots := q.slots, flushResults := (F q).flushResults })
    (hst : p.state = .aborting ∨ p.state = .discarding) (hl : (u.subs.eraseP fun x => x.id == e).any (fun z => z.parent == p.id) = false) (c : Cpl) :
    endTest p.id (freeSub e (updParent p.id F u)) = { freed p u with subs := u.subs.eraseP (fun x => x.id == e), outbound := u.outbound ++ endFrames p c } := by
  have hid : ∀ q, (F q).id = q.id := fun q => by rw [hF]
  set w := freeSub e (updParent p.id F u) with hw
  have how : AdmissionOrder w := updParent_order hid ho
  have hlw : F p ∈ w.parents := updParent_mem hp
  have hpar : w.parents.filter (fun q => q.id ≠ (F p).id) = u.parents.filter (fun q => q.id ≠ p.id) := by rw [hid]; exact filter_map_id hid
  have hfr : ∀ o, { freed (F p) w with outbound := o } = { freed p u with subs := u.subs.eraseP (fun x => x.id == e), outbound := o } := by
    intro o
    apply State.ext
    case parents => exact hpar
    all_goals (unfold freed; rw [hF] <;> rfl)
  unfold endTest
  rw [show w.parent? p.id = some (F p) by rw [← hid p]; exact find?_of_order (p := F p) how hlw]
  simp only
  rw [show (F p).state = p.state by rw [hF]]
  have hh : holdsEntry p.id w = false := hl
  rcases hst with hst | hst <;> rw [hst] <;> simp only [hh, Bool.false_eq_true, if_false]
  · rw [← hid p, completeAborted_eq how hlw, hfr]
    unfold endFrames; rw [hst]
    rw [hF]; rfl
  · rw [← hid p, freeParent_eq how hlw]
    refine (hfr w.outbound).trans ?_
    unfold endFrames; rw [hst]; simp; rfl

/-- Any result of the last entry of an ABORTING or DISCARDING parent, a READ, VERIFY or FLUSH: the parent completes ABORTED, or is freed without a CPL (06 R89, R103, R104). -/
theorem mergeResult_leaving {s u : State} {d : Port} {t : DTag} {p : Parent} {e : SubCmd} (h : LastOfLeaving s d t p e) (hp : u.parents = s.parents) (hs : u.subs = s.subs) (hn : u.nextParent = s.nextParent) (r : Result) (c : Cpl) :
    mergeResult e.id r u = { freed p u with subs := s.subs.filter (fun z => z.id ≠ e.id), outbound := u.outbound ++ endFrames p c } := by
  obtain ⟨e1, e2, e3⟩ := h.entry
  have ho : AdmissionOrder u := by unfold AdmissionOrder; rw [hp, hn]; exact h.order
  have hpu : p ∈ u.parents := hp ▸ h.live
  have hna : p.state ≠ .active := by rcases h.state with g | g <;> rw [g] <;> simp
  have hE : u.subs.eraseP (fun x => x.id == e.id) = s.subs.filter (fun z => z.id ≠ e.id) := by rw [hs]; exact eraseP_sub h.names
  have hl : (u.subs.eraseP fun x => x.id == e.id).any (fun z => z.parent == p.id) = false := by rw [hE]; exact noEntry_of_last h.last
  unfold mergeResult
  rw [show u.sub? e.id = some e by unfold State.sub?; rw [hs]; exact sub_of_mem h.names h.known]
  simp only
  rw [show u.parent? e.parent = some p by rw [e1]; exact find?_of_order ho hpu]
  simp only
  rw [← hE]
  have hread : (∃ (i : Nat) (k : CopyNo), e.piece = some i ∧ e.copy = some k ∧ i < p.pieces.length) → e.op = .read ∨ e.op = .verify →
      ∃ i pc k, p.pieces[i]? = some pc ∧ mergeInto e p r u = mergeRead e p i pc k r u := by
    rintro ⟨i, k, h1, h2, h3⟩ h4
    refine ⟨i, p.pieces[i], k, List.getElem?_eq_getElem h3, ?_⟩
    unfold mergeInto
    rcases h4 with h4 | h4 <;> rw [h4, h1, h2] <;> simp only [List.getElem?_eq_getElem h3]
  rcases e3 with g | ⟨g, hi⟩
  · unfold mergeInto
    rw [g]
    simp only
    unfold mergeFlush
    rw [e1]
    exact endTest_leaving ho hpu (F := fun p => { p with flushResults := p.flushResults.map fun f => if f.port = e.port then { f with status := some r.kind.status } else f }) (fun _ => rfl) h.state hl c
  · obtain ⟨i, pc, k, _, h2⟩ := hread hi g
    rw [h2]
    unfold mergeRead
    rw [show (if r.kind = .ok then none else retryTarget p pc k u) = none by
      unfold retryTarget; rw [if_pos (Or.inr hna)]; split <;> rfl]
    simp only
    rw [show storeRead p pc r u = u by unfold storeRead; rw [if_neg fun hh => hna hh.2.1]]
    unfold updPiece
    exact endTest_leaving ho hpu (fun _ => rfl) h.state hl c

/-! ## Reads -/

/-- Blocks written from the first slot on. -/
theorem writeSlots_front {sl : List (Option Block)} {bs : List Block} (h : bs.length ≤ sl.length) : writeSlots sl 0 bs = bs.map some ++ sl.drop bs.length := by
  unfold writeSlots
  apply List.ext_getElem
  · simp; omega
  · intro i h1 h2
    simp only [List.getElem_mapIdx, Nat.zero_le, Nat.zero_add, true_and, Nat.sub_zero]
    by_cases g : i < bs.length
    · rw [if_pos g, List.getElem_append_left (by simpa using g)]; simp [g]
    · rw [if_neg g, List.getElem_append_right (by simpa using g)]
      simp only [List.length_map, List.getElem_drop]
      congr 1; omega

/-- A failure of the one sub-command of a READ that may be retried keeps the blocks of a MEDIUM result and re-targets the entry (06 R90, R92). -/
theorem mergeResult_retry {s u : State} {d : Port} {p : Parent} {pc : Piece} {e : SubCmd} {x : Extent} {c : CopyNo} {y : Copy} {q : Port} (h : SoleRead s d p pc e)
    (hp : u.parents = s.parents) (hs : u.subs = s.subs) (hn : u.nextParent = s.nextParent) (hv : u.volumes = s.volumes) (hpc : pc.retried = false) 
    (hc : e.copy = some c) (hx : (s.vol p.volume).live[pc.ordinal]? = some x) (hy : x.copy? c.other = some y) (hcur : y.state = .current) (hq : y.port.toNat = q.val)
    (hu : (u.port q).state = .resetting ∨ (u.port q).state = .up) (r : Result) (hk : r.kind ≠ .ok) (hb : r.kind = .medium ∨ r.payload = []) (hl : r.payload.length ≤ p.count) :
    mergeResult e.id r u = issueTest q (retried (keeping p r.payload) pc e c.other q (p.start - x.first.toNat + y.first.toNat) u) := by
  obtain ⟨e1, e2, e3, e4, e5⟩ := h.entry
  obtain ⟨c', hm, hcp⟩ := h.member
  obtain rfl : c' = c := by rw [hc] at hcp; exact (Option.some.inj hcp).symm
  unfold mergeResult
  rw [show u.sub? e.id = some e by unfold State.sub?; rw [hs]; exact sub_of_mem h.names h.known]
  simp only
  have ho : AdmissionOrder u := by unfold AdmissionOrder; rw [hp, hn]; exact h.order
  rw [show u.parent? e.parent = some p by rw [e1]; exact find?_of_order ho (hp ▸ h.live)]
  simp only
  unfold mergeInto
  simp only [e3, e2, hc, h.pieces, List.getElem?_cons_zero]
  unfold mergeRead
  have hport : x.portOfCopy c'.other = q := by
    unfold Extent.portOfCopy; rw [hy]; unfold portOf; apply Fin.ext; simp [Fin.ofNat, hq]
  have hrt : retryTarget p pc c' u = some (c'.other, q, p.start - x.first.toNat + y.first.toNat) := by
    unfold retryTarget
    rw [if_neg (by simp [hpc, h.state])]
    rw [show (u.vol p.volume) = s.vol p.volume by unfold State.vol; rw [hv], hx]
    simp only
    rw [if_pos ⟨by unfold Extent.isCurrent; rw [hy]; simp [hcur], by rw [hport]; unfold usable; rcases hu with hu | hu <;> rw [hu] <;> rfl⟩, hport]
    congr 3
    unfold Extent.targetOf pieceFirst
    rw [hy, h.whole.1]; rfl
  rw [if_neg hk, hrt]
  simp only
  have hst : storeRead p pc r u = updParent p.id (fun _ => keeping p r.payload) u := by
    have hsl : ∀ z ∈ u.parents, z.id = p.id → z = p := fun z hz g => eq_of_id h.order h.live (hp ▸ hz) g
    have hkeep : keeping p r.payload = { p with slots := if r.kind = .medium then writeSlots p.slots pc.offset r.payload else p.slots } := by
      unfold keeping
      rw [h.whole.1]
      split
      · rw [writeSlots_front (by rw [h.slots]; exact hl)]
      · rename_i g; rw [hb.resolve_left g]; rfl
    unfold storeRead
    by_cases g : r.kind = .medium
    · rw [if_pos ⟨h.op, h.state, .inr g⟩]
      unfold updParent
      congr 1
      apply List.map_congr_left
      intro z hz
      by_cases g' : z.id = p.id
      · obtain rfl := hsl z hz g'
        rw [if_pos rfl, if_pos rfl, hkeep, if_pos g]
      · rw [if_neg g', if_neg g']
    · rw [if_neg (by rintro ⟨_, _, g' | g'⟩; exact hk g'; exact g g')]
      apply State.ext
      case parents =>
        show _ = u.parents.map _
        conv_lhs => rw [← List.map_id u.parents]
        apply List.map_congr_left
        intro z hz
        by_cases g' : z.id = p.id
        · obtain rfl := hsl z hz g'
          rw [if_pos rfl, hkeep, if_neg g]; rfl
        · rw [if_neg g']; rfl
      all_goals rfl
  rw [hst]
  unfold retarget joinQueue
  congr 1
  apply State.ext
  case parents =>
    show (u.parents.map _).map _ = u.parents.map _
    rw [hp, List.map_map]
    apply List.map_congr_left
    intro z hz
    simp only [Function.comp]
    by_cases g : z.id = p.id
    · rw [if_pos g, if_pos (show (keeping p r.payload).id = e.parent from e1.symm), if_pos (show z.id = (keeping p r.payload).id from g)]
      simp only [keeping, h.pieces, List.modify_cons, if_true, hm, List.map_cons, List.map_nil]
    · rw [if_neg g, if_neg (by rw [e1]; exact g), if_neg (show ¬ z.id = (keeping p r.payload).id from g)]
  case subs =>
    show u.subs.map _ = u.subs.map _
    rw [hs]
    apply List.map_congr_left
    intro z hz
    by_cases g : z.id = e.id
    · have : z = e := by
        have h1 := sub_of_mem h.names hz
        rw [g, sub_of_mem h.names h.known] at h1
        exact (Option.some.inj h1).symm
      subst this; rfl
    · rw [if_neg g, if_neg g]
  all_goals rfl

/-- A retry goes to another port than a port `d` (06 R92). -/
theorem retried_port {p : Parent} {pc : Piece} {e : SubCmd} {c : CopyNo} {d q : Port} {n : Nat} {s : State} (h : d ≠ q) : (retried p pc e c q n s).port d = s.port d := by
  show (put _ _ _)[d] = _; rw [put_get, if_neg h]; rfl

/-- The entry joins its class queue on the port it is retried to (06 R92). -/
theorem retried_port_self {p : Parent} {pc : Piece} {e : SubCmd} {c : CopyNo} {d : Port} {n : Nat} {s : State} : (retried p pc e c d n s).port d = { s.port d with queues := put (s.port d).queues e.cls ((s.port d).queues[e.cls] ++ [e.id]) } :=
  put_get_self _ _ _

/-- How a port takes a retried entry is a matter of its record alone. -/
theorem ready_of {s u : State} {q : Port} {o : Option DTag} (h : u.port q = s.port q) (hr : Ready s q o) : Ready u q o := by
  cases o with
  | none => unfold Ready at *; rw [h]; exact hr
  | some t => unfold Ready at *; rw [h]; exact hr

/-- The issue test after a retry: a RESETTING port keeps the entry, an UP port with room issues it (06 R92, 05 R78). -/
theorem issueTest_retried {s u : State} {d : Port} {p r : Parent} {pc : Piece} {e : SubCmd} {c : CopyNo} {q : Port} {n : Nat} {o : Option DTag} (h : SoleRead s d p pc e)
    (hp : u.parents = s.parents) (hs : u.subs = s.subs) (hn : u.nextParent = s.nextParent) (hr : r.id = p.id) (hq : Ready u q o) :
    issueTest q (retried r pc e c q n u) = retriedTo r pc e c q n o u := by
  unfold retriedTo
  cases o with
  | none => exact issueTest_notUp (p := q) (by rw [retried_port_self]; show (u.port q).state ≠ _; rw [hq]; simp)
  | some t =>
    obtain ⟨h1, h2, h3, h4, h5⟩ := hq
    set v := retried r pc e c q n u with hv
    have rp : v.port q = { u.port q with queues := put (u.port q).queues e.cls [e.id] } := by
      rw [hv, retried_port_self, h2 e.cls]; rfl
    have rs : v.subs = s.subs.map fun z => if z.id = e.id then { e with copy := some c, port := q, targetStart := n, issue := none } else z := by rw [← hs]; rfl
    have hids : ∀ z : SubCmd, (if z.id = e.id then { e with copy := some c, port := q, targetStart := n, issue := none } else z : SubCmd).id = z.id := by
      intro z; split
      · rename_i g; exact g.symm
      · rfl
    refine issueTest_one ?_ ?_ ?_ ?_ ?_ ?_ ?_ ?_ (.inl ⟨by show e.op ≠ _; rw [h.entry.2.2.1]; simp, rfl⟩) (.inr ⟨rfl, ?_⟩)
    · rw [rp]; exact h1
    · rw [rp]; exact h3
    · rw [rp]; exact arbiter_one (by rw [put_get_self]; simp) (fun k hk => by rw [put_get, if_neg hk]; exact h2 k)
    · rw [rp]; exact lowestFree_eq h4 h5
    · rw [rp]; exact h4
    · rw [rp]; exact put_get_self _ _ _
    · refine ⟨?_, ?_⟩
      · show (u.parents.map _).Pairwise _
        rw [hp, List.pairwise_map]
        exact h.order.1.imp fun {a b} hab => by
          split <;> split <;> simp_all
      · intro z hz
        obtain ⟨z', hz', rfl⟩ := List.mem_map.1 (show z ∈ u.parents.map _ from hz)
        rw [hp] at hz'
        have := h.order.2 z' hz'
        show _ < u.nextParent
        rw [hn]
        split
        · show r.id < _; rw [hr]; exact h.order.2 p h.live
        · exact this
    · refine sub_of_mem (e := { e with copy := some c, port := q, targetStart := n, issue := none }) ?_ ?_
      · rw [rs, List.pairwise_map]; exact h.names.imp fun {a b} hab => by rw [hids, hids]; exact hab
      · rw [rs]; exact List.mem_map.2 ⟨e, h.known, if_pos rfl⟩
    · intro k hk; rw [rp]; show (put _ _ _)[k] = _; rw [put_get, if_neg hk]; exact h2 k

/-- What a retry leaves as it was: another port, and the Split-Wait List (06 R92). -/
theorem retriedTo_same {p : Parent} {pc : Piece} {e : SubCmd} {c : CopyNo} {d q : Port} {n : Nat} {o : Option DTag} {s : State} (h : d ≠ q) :
    (retriedTo p pc e c q n o s).port d = s.port d ∧ (retriedTo p pc e c q n o s).splitWait = s.splitWait := by
  cases o with
  | none => exact ⟨retried_port h, rfl⟩
  | some t =>
    refine ⟨?_, rfl⟩
    show (put _ _ _)[d] = _; rw [put_get, if_neg h]; exact retried_port h

/-- A change of another port may as well come before a retry (06 R92). -/
theorem updPort_retriedTo {p : Parent} {pc : Piece} {e : SubCmd} {c : CopyNo} {d q : Port} {n : Nat} {o : Option DTag} {s : State} (h : d ≠ q) (f : PortRec → PortRec) :
    updPort d f (retriedTo p pc e c q n o s) = retriedTo p pc e c q n o (updPort d f s) := by
  have hq : (updPort d f s).port q = s.port q := by rw [updPort_port, if_neg (Ne.symm h)]
  have one : updPort d f (retried p pc e c q n s) = retried p pc e c q n (updPort d f s) := by
    apply State.ext
    case ports =>
      show put (put s.ports q _) d (f (put s.ports q _)[d]) = put (put s.ports d _) q _
      rw [put_comm _ (Ne.symm h), put_get, if_neg h, hq]
    all_goals rfl
  cases o with
  | none => exact one
  | some t =>
    show updPort d f (issued q e.cls 0 t _ [] [] (retried p pc e c q n s)) = issued q e.cls 0 t _ [] [] (retried p pc e c q n (updPort d f s))
    rw [← one]
    set v := retried p pc e c q n s with hv
    have hv' : (updPort d f v).port q = v.port q := by rw [updPort_port, if_neg (Ne.symm h)]
    unfold issued
    rw [hv']
    apply State.ext
    case ports =>
      show put (put v.ports q _) d (f (put v.ports q _)[d]) = put (put v.ports d _) q _
      rw [put_comm _ (Ne.symm h), put_get, if_neg h]
    all_goals rfl

/-! ## Flushes -/

/-- The result of a FLUSH: its flush result is written, and the DRAIN completes with the last one (03 R52, R53). -/
theorem mergeResult_flush {u : State} {d : Port} {p : Parent} {e : SubCmd} {S : List SubCmd} (ho : AdmissionOrder u) (hpu : p ∈ u.parents) (hst : p.state = .active) (hop : p.op = .drain)
    (hen : e.parent = p.id ∧ e.op = .flush ∧ e.port = d) (hfind : u.sub? e.id = some e) (hS : u.subs.eraseP (fun x => x.id == e.id) = S) (r : Result) (rs : List FlushResult)
    (hrs : rs = p.flushResults.map (fun x => if x.port = d then ⟨d, some r.kind.status⟩ else x)) :
    mergeResult e.id r u = if rs.all (fun f => f.status.isSome) then { freed p u with subs := S, outbound := u.outbound ++ [.cpl (commandCpl p (drainStatus rs) none 0 [])] } 
      else { u with subs := S, parents := u.parents.map fun q => if q.id = p.id then { p with flushResults := rs } else q } := by
  obtain ⟨e1, e2, e3⟩ := hen
  unfold mergeResult
  rw [hfind]
  simp only
  rw [show u.parent? e.parent = some p by rw [e1]; exact find?_of_order ho hpu]
  simp only
  unfold mergeInto
  simp only [e2]
  unfold mergeFlush
  rw [e1]
  set F : Parent → Parent := fun q => { q with flushResults := q.flushResults.map fun f => if f.port = e.port then { f with status := some r.kind.status } else f } with hF
  have hFp : F p = { p with flushResults := rs } := by
    rw [hF]; simp only
    congr 1
    rw [hrs]
    apply List.map_congr_left
    intro x _
    rw [e3]
    split
    · rename_i g; rw [← g]
    · rfl
  set w := freeSub e.id (updParent p.id F u) with hw
  have hwp : w.parents = u.parents.map fun q => if q.id = p.id then F q else q := rfl
  have how : AdmissionOrder w := by
    refine ⟨pairwise_updParent (fun _ => rfl) ho, ?_⟩
    intro q hq
    rw [hwp] at hq
    obtain ⟨q', hq', rfl⟩ := List.mem_map.1 hq
    have := ho.2 q' hq'
    show _ < u.nextParent
    split <;> exact this
  have hlw : F p ∈ w.parents := by
    rw [hwp, List.mem_map]; exact ⟨p, hpu, by rw [if_pos rfl]⟩
  have hfw : w.parent? p.id = some (F p) := find?_of_order (p := F p) how hlw
  have hsubs : w.subs = S := hS
  unfold endTest
  rw [hfw]
  simp only
  rw [show (F p).state = .active from hst, show (F p).op = .drain from hop]
  simp only [if_true]
  rw [show (F p).flushResults = rs by rw [hFp]]
  split
  · unfold completeDrain
    rw [show (F p).flushResults = rs by rw [hFp], complete_eq how hlw]
    apply State.ext
    case parents =>
      show w.parents.filter _ = u.parents.filter _
      rw [hwp]; exact filter_map_id (fun _ => rfl)
    case subs => exact hsubs
    all_goals rfl
  · apply State.ext
    case parents =>
      show u.parents.map _ = u.parents.map _
      apply List.map_congr_left
      intro z hz
      by_cases g : z.id = p.id
      · obtain rfl : z = p := eq_of_id ho hpu hz g
        rw [if_pos rfl, if_pos rfl, hFp]; simp [hop, hst]
      · rw [if_neg g, if_neg g]
    case subs => exact hsubs
    all_goals rfl

/-- A DRAIN whose flush results are all GOOD completes GOOD (03 R53). -/
theorem drainStatus_good {rs : List FlushResult} (h : ∀ r ∈ rs, r.status = some .good) : drainStatus rs = .good := by
  unfold drainStatus
  rw [List.find?_eq_none.2]
  · rfl
  · intro x hx
    obtain ⟨r, hr, he⟩ := List.mem_filterMap.1 hx
    rw [h r hr] at he
    cases he; simp

/-- A DRAIN completes with the status of the lowest port that is not GOOD (03 R53). -/
theorem drainStatus_bad : ∀ {rs : List FlushResult} {q : Port} {st : Status}, rs.Pairwise (fun x y => x.port < y.port) → ⟨q, some st⟩ ∈ rs → st ≠ .good → (∀ r ∈ rs, r.port < q → r.status = some .good) → drainStatus rs = st
  | a :: rs, q, st, hp, hm, hst, hl => by
    obtain ⟨h1, h2⟩ := List.pairwise_cons.1 hp
    unfold drainStatus
    rcases List.mem_cons.1 hm with rfl | hm
    · simp [hst]
    · have := hl a (by simp) (h1 _ hm)
      rw [List.filterMap_cons_some this, List.find?_cons_of_neg (by simp)]
      exact drainStatus_bad h2 hm hst fun r hr => hl r (by simp [hr])

/-! ## Ends at a port -/

/-- The end of the one ISSUED tag of a port (08 R124, R129). -/
theorem endAllIssued_one {p : Port} {k : ResultKind} {s : State} {t : DTag} {e : SubRef} (ht : (s.port p).tags[t] = .issued e)
    (ho : ∀ u : DTag, u ≠ t → (s.port p).tags[u].isIssued = false)
    (hr : ∀ u : DTag, ((mergeResult e (bareResult k true) (freeTag p t s)).port p).tags[u].isIssued = false) :
    endAllIssued p k s = mergeResult e (bareResult k true) (freeTag p t s) := by
  have same : ∀ (v : State) (u : DTag), (v.port p).tags[u].isIssued = false → endIssued p k v u = v := by
    intro v u h
    unfold endIssued
    cases g : (v.port p).tags[u] <;> simp [g, TagState.isIssued] at h ⊢
  have none : ∀ (l : List DTag) (v : State), (∀ u ∈ l, (v.port p).tags[u].isIssued = false) → l.foldl (endIssued p k) v = v := by
    intro l
    induction l with
    | nil => intro _ _; rfl
    | cons a l ih =>
      intro v h
      rw [List.foldl_cons, same v a (h a (by simp))]
      exact ih v fun u hu => h u (by simp [hu])
  unfold endAllIssued
  have e1 : List.finRange 16 = (List.finRange 16).take t.val ++ t :: (List.finRange 16).drop (t.val + 1) := by
    conv_lhs => rw [← List.take_append_drop t.val (List.finRange 16)]
    congr 1
    rw [List.drop_eq_getElem_cons (by simp)]
    simp
  have e2 : endIssued p k s t = mergeResult e (bareResult k true) (freeTag p t s) := by unfold endIssued; rw [ht]
  rw [e1, List.foldl_append, none _ s, List.foldl_cons, e2, none]
  · exact fun u _ => hr u
  · intro u hu
    rw [List.mem_take_iff_getElem] at hu
    obtain ⟨j, hj, rfl⟩ := hu
    refine ho _ fun g => ?_
    have := congrArg Fin.val g
    simp at this; omega

/-- A port whose one ISSUED tag is freed has none left (05 R75). -/
theorem noIssued_freed {r : PortRec} {t : DTag} (ho : ∀ u : DTag, u ≠ t → r.tags[u].isIssued = false) (u : DTag) : ({ r with tags := put r.tags t .free } : PortRec).tags[u].isIssued = false := by
  show TagState.isIssued (put _ _ _)[u] = false
  rw [put_get]; split
  · rfl
  · rename_i g; exact ho u g

/-- The queue order of a port with one QUEUED entry (05 R82). -/
theorem queued_one {r : PortRec} {c : Sys2Proof.Class} {e : SubRef} (h : r.queues[c] = [e]) (ho : ∀ k : Sys2Proof.Class, k ≠ c → r.queues[k] = []) : r.queued = [e] := by
  unfold PortRec.queued
  have : ∀ k : Sys2Proof.Class, r.queues[k] = if k = c then [e] else [] := by
    intro k; split
    · rename_i g; rw [g]; exact h
    · rename_i g; exact ho k g
  simp only [this]
  clear this h ho
  obtain ⟨c, hc⟩ := c
  interval_cases c <;> rfl

/-- The emptying of class queues that hold one entry (05 R82). -/
theorem emptyQueues_one {p : Port} {k : ResultKind} {s : State} {c : Sys2Proof.Class} {e : SubRef} (h : (s.port p).queues[c] = [e]) (ho : ∀ k : Sys2Proof.Class, k ≠ c → (s.port p).queues[k] = []) :
    emptyQueues p k s = mergeResult e (bareResult k false) (updPort p (fun r => { r with queues := Vector.replicate 4 [] }) s) := by
  unfold emptyQueues mergeAll
  rw [queued_one h ho]; rfl

/-! ## Writes -/

theorem noticed_withParents (b : NoticeBody) (s : State) (l : List Parent) : noticed b { s with parents := l } = { noticed b s with parents := l } := by
  unfold noticed
  split
  · rfl
  · cases s.manager <;> cases s.alert <;> rfl

theorem noticed_withPort (b : NoticeBody) (d : Port) (r : PortRec) (s : State) : noticed b (withPort d r s) = withPort d r (noticed b s) := by
  have : noticed b { s with ports := put s.ports d r } = { noticed b s with ports := put s.ports d r } := by
    unfold noticed
    split
    · rfl
    · cases s.manager <;> cases s.alert <;> rfl
  unfold withPort
  rw [this, noticed_ports]

theorem effected_withParents (p : Parent) (n : Nat) (x : Extent) (g : Effect) (s : State) (l : List Parent) : effected p n x g { s with parents := l } = { effected p n x g s with parents := l } := by
  unfold effected
  cases g with
  | none => rfl
  | stale c => exact noticed_withParents _ (withVol p.volume { s.vol p.volume with live := (s.vol p.volume).live.set n (x.apply (.stale c)) } s) l
  | swap c => exact noticed_withParents _ (withVol p.volume { s.vol p.volume with live := (s.vol p.volume).live.set n (x.apply (.swap c)) } s) l

/-- What a copy-state effect leaves as it was (06 R97). -/
theorem effected_same (p : Parent) (n : Nat) (x : Extent) (g : Effect) (s : State) : (effected p n x g s).parents = s.parents ∧ (effected p n x g s).subs = s.subs ∧ (effected p n x g s).nextParent = s.nextParent
    ∧ (effected p n x g s).ports = s.ports ∧ (effected p n x g s).splitWait = s.splitWait := by
  unfold effected
  cases g with
  | none => exact ⟨rfl, rfl, rfl, rfl, rfl⟩
  | stale c => exact ⟨noticed_parents _ _, noticed_subs _ _, noticed_next _ _, noticed_ports _ _, noticed_splitWait _ _⟩
  | swap c => exact ⟨noticed_parents _ _, noticed_subs _ _, noticed_next _ _, noticed_ports _ _, noticed_splitWait _ _⟩

theorem effected_outbound {p n x g} {s u : State} (h1 : u.notices = s.notices) (h2 : u.outbound = s.outbound) (h3 : u.manager = s.manager) (h4 : u.alert = s.alert) (h5 : u.seq = s.seq) : (effected p n x g u).outbound = (effected p n x g s).outbound := by
  unfold effected
  cases g with
  | none => exact h2
  | stale c => exact noticed_outbound h1 h2 h3 h4 h5
  | swap c => exact noticed_outbound h1 h2 h3 h4 h5

theorem modify_set {l : List Extent} {n : Nat} {x : Extent} {f : Extent → Extent} (h : l[n]? = some x) : l.modify n f = l.set n (f x) := by
  induction l generalizing n with
  | nil => simp at h
  | cons a l ih =>
    cases n with
    | zero => simp at h; simp [h]
    | succ n => simp at h; simp [ih h]

/-- A copy-state effect, as a whole (06 R97, R98). -/
theorem applyEffect_eq {p : Parent} {pc : Piece} {n : Nat} {x : Extent} {g : Effect} {s : State} (hn : pc.ordinal = n) (hx : (s.vol p.volume).live[n]? = some x) :
    applyEffect p pc x g s = effected p n x g s := by
  subst hn
  have e : ∀ g, changeCopies p.volume pc.ordinal g s = withVol p.volume { s.vol p.volume with live := (s.vol p.volume).live.set pc.ordinal (x.apply g) } s := by
    intro g
    unfold changeCopies
    show withVol p.volume { s.vol p.volume with live := (s.vol p.volume).live.modify pc.ordinal _ } s = _
    rw [modify_set hx]
  unfold applyEffect effected
  cases g with
  | none => rfl
  | stale c => simp only; rw [post_eq, e]; congr 1
  | swap c => simp only; rw [post_eq, e]; congr 1

/-- The result that settles the one piece of a WRITE: the piece is resolved, the effect applied and the WRITE completed (06 R89, R95 to R98, R101). -/
theorem mergeResult_write {s u : State} {d : Port} {t : DTag} {p : Parent} {pc : Piece} {e : SubCmd} {c : CopyNo} {n : Nat} {x : Extent} {k : ResultKind} {y : PieceState} {g : Effect} (h : LastWrite s d t p pc e c n x)
    (hp : u.parents = s.parents) (hs : u.subs = s.subs) (hn : u.nextParent = s.nextParent) (hv : u.volumes = s.volumes) (hk : k ≠ .medium)
    (hres : resolveWrite x p.start { pc with members := pc.members.map fun m => if m.copy = c then ⟨c, none, some ⟨k, p.start, true⟩⟩ else m } = (y, g)) :
    mergeResult e.id (bareResult k true) u = { freed p (effected p n x g u) with subs := s.subs.filter (fun z => z.id ≠ e.id), outbound := (effected p n x g u).outbound ++ endFrames p (pieceCpl p y) } := by
  obtain ⟨e1, e2, e3, e4, e5⟩ := h.entry
  unfold mergeResult
  rw [show u.sub? e.id = some e by unfold State.sub?; rw [hs]; exact sub_of_mem h.names h.known]
  simp only
  have ho : AdmissionOrder u := by unfold AdmissionOrder; rw [hp, hn]; exact h.order
  have hpu : p ∈ u.parents := hp ▸ h.live
  rw [show u.parent? e.parent = some p by rw [e1]; exact find?_of_order ho hpu]
  simp only
  unfold mergeInto
  simp only [e4, e2, e3, h.pieces, List.getElem?_cons_zero]
  unfold mergeWrite
  have hfb : failBlock p pc e (bareResult k true) = p.start := by
    unfold failBlock bareResult pieceFirst
    rw [h.whole.1]
    cases k <;> simp_all
  rw [hfb]
  set pc1 : Piece := pc.record c ⟨k, p.start, true⟩ with hpc1
  have hpc1' : pc1 = { pc with members := pc.members.map fun m => if m.copy = c then ⟨c, none, some ⟨k, p.start, true⟩⟩ else m } := by
    rw [hpc1]; unfold Piece.record
    congr 1
    apply List.map_congr_left
    intro m _
    split
    · rename_i g; rw [← g]
    · rfl
  set F : Parent → Parent := fun q => { q with pieces := q.pieces.modify 0 (Piece.record c ⟨k, p.start, true⟩) } with hF
  have hFp : F p = { p with pieces := [pc1] } := by rw [hF]; simp only [h.pieces, List.modify_cons, if_true]; rw [hpc1]
  have q1 : updPiece p.id 0 (Piece.record c ⟨k, p.start, true⟩) u = updParent p.id F u := rfl
  rw [show (bareResult k true).kind = k from rfl, show (bareResult k true).issued = true from rfl, q1]
  have settled : pc1.settled = true := by
    unfold Piece.settled
    rw [hpc1', List.all_eq_true]
    intro m hm
    obtain ⟨m', hm', rfl⟩ := List.mem_map.1 hm
    split
    · rfl
    · rename_i g; rw [h.settled m' hm' g]; simp
  have hx : ((updParent p.id F u).vol (F p).volume).live[pc1.ordinal]? = some x := by
    rw [hFp, hpc1']
    show (u.vol p.volume).live[pc.ordinal]? = _
    unfold State.vol; rw [hv, h.extent.1]; exact h.extent.2
  have hy : y ≠ .pending := by
    intro hy
    rw [hy] at hres
    have hc : pc1.resultOf c = some ⟨k, p.start, true⟩ := by
      unfold Piece.resultOf
      obtain ⟨m, hm⟩ : ∃ m, pc1.members.find? (fun m => m.copy == c) = some m := by
        rw [← Option.isSome_iff_exists, List.find?_isSome]
        refine ⟨⟨c, none, some ⟨k, p.start, true⟩⟩, ?_, by simp⟩
        rw [hpc1']
        exact List.mem_map.2 ⟨_, h.member, by simp⟩
      rw [hm]
      have h1 := List.mem_of_find?_eq_some hm
      have h2 := List.find?_some hm
      rw [hpc1'] at h1
      obtain ⟨m', hm', rfl⟩ := List.mem_map.1 h1
      split at h2
      · rename_i g; rw [if_pos g]; rfl
      · rename_i g; simp at h2; exact absurd h2 g
    rw [← hpc1'] at hres
    unfold resolveWrite at hres
    split at hres
    · rename_i m hm
      unfold Piece.resultOf at hc
      rw [hm] at hc
      simp only [List.find?_cons, List.find?_nil] at hc
      split at hc
      · simp only [Option.bind_some] at hc
        rw [hc] at hres; simp [pieceStateOf] at hres
        split at hres <;> simp at hres
      · simp at hc
    · have : ∀ l o : Option MemberResult, (l ≠ none ∨ o ≠ none) → (resolveTwo x.lead (x.isCurrent x.lead.other) p.start l o).1 ≠ .pending := by
        intro l o hlo
        unfold resolveTwo pieceStateOf
        cases l <;> cases o <;> simp at hlo ⊢
        · split <;> simp
        · split
          · simp
          · split <;> simp
      refine this (pc1.resultOf x.lead) (pc1.resultOf x.lead.other) ?_ (by rw [hres])
      have : c = x.lead ∨ c = x.lead.other := by cases c <;> cases x.lead <;> simp [CopyNo.other]
      rcases this with g | g
      · left; rw [← g, hc]; simp
      · right; rw [← g, hc]; simp
  have q2 : resolvePiece p.id 0 (updParent p.id F u) = effected p n x g (setPieceState p.id 0 y (updParent p.id F u)) := by
    unfold resolvePiece
    rw [show (updParent p.id F u).parent? p.id = some (F p) from find?_of_order (p := F p) (updParent_order (fun _ => rfl) ho) (updParent_mem hpu)]
    simp only
    rw [show (F p).pieces[0]? = some pc1 by rw [hFp]; rfl]
    simp only
    rw [if_pos settled, hx]
    simp only
    have hp1 : pieceFirst (F p) pc1 = p.start := by rw [hFp, hpc1']; show p.start + pc.offset = _; rw [h.whole.1]; rfl
    rw [hp1, hpc1', hres, ← hpc1']
    simp only
    rw [applyEffect_eq (n := n) (by rw [hpc1']; exact h.extent.1) (by rw [← show pc1.ordinal = n by rw [hpc1']; exact h.extent.1]; exact hx)]
    rw [hFp]; rfl
  rw [q2]
  set G : Parent → Parent := fun q => { F q with pieces := (F q).pieces.modify 0 fun pc => { pc with state := y } } with hG
  have q3 : setPieceState p.id 0 y (updParent p.id F u) = updParent p.id G u := by
    unfold setPieceState updPiece
    exact updParent_comp p.id F _ (fun _ => rfl) u
  have q4 : updParent p.id G u = { u with parents := (updParent p.id G u).parents } := rfl
  rw [q3, q4, effected_withParents]
  obtain ⟨s1, s2, s3, s4, s5⟩ := effected_same p n x g u
  have hE : (effected p n x g u).subs.eraseP (fun z => z.id == e.id) = s.subs.filter (fun z => z.id ≠ e.id) := by
    rw [s2, hs]; exact eraseP_sub h.names
  have hoe : AdmissionOrder (effected p n x g u) := by unfold AdmissionOrder; rw [s1, s3]; exact ho
  have hpe : p ∈ (effected p n x g u).parents := s1.symm ▸ hpu
  have q5 : { effected p n x g u with parents := (updParent p.id G u).parents } = updParent p.id G (effected p n x g u) := by
    unfold updParent; rw [s1]
  rw [q5, ← hE]
  rcases h.state with hst | ⟨hst, hl⟩
  · set w := freeSub e.id (updParent p.id G (effected p n x g u)) with hw
    have how : AdmissionOrder w := updParent_order (fun _ => rfl) hoe
    have hlw : G p ∈ w.parents := updParent_mem hpe
    have hGp : G p = { p with pieces := [{ pc1 with state := y }] } := by rw [hG]; simp only [hFp, List.modify_cons, if_true]
    unfold endTest
    rw [show w.parent? p.id = some (G p) from find?_of_order (p := G p) how hlw]
    simp only
    rw [show (G p).state = .active from hst, show (G p).op = .write from h.op]
    simp only [reduceCtorEq, if_false]
    have hps : (G p).pieces = [{ pc1 with state := y }] := by rw [hGp]
    rw [if_pos (by rw [hps]; unfold allResolved; simp [hy])]
    have hfin : completePieces (G p) w = { freed (G p) w with outbound := w.outbound ++ [.cpl (pieceCpl p y)] } := by
      unfold completePieces
      rw [hps]
      have rp : ∀ n, readPayload (G p) n = [] := by intro n; unfold readPayload; rw [show (G p).op = .write from h.op]; rfl
      cases y with
      | pending => exact absurd rfl hy
      | good => simp only [lowestFailure]; rw [complete_eq how hlw, rp]; rfl
      | failed st b => simp only [lowestFailure]; rw [complete_eq how hlw, rp]; rfl
    rw [hfin]
    apply State.ext
    case parents =>
      show w.parents.filter _ = (effected p n x g u).parents.filter _
      exact filter_map_id (fun _ => rfl)
    case outbound => show w.outbound ++ _ = _ ++ endFrames p _; unfold endFrames; rw [hst]; rfl
    all_goals rfl
  · exact endTest_leaving hoe hpe (fun _ => rfl) hst (by rw [hE]; exact noEntry_of_last hl) _

/-! ## The Split-Wait List -/

/-- A try whose head leaves the list goes on with the next (04 R68). -/
theorem tryHeads_cons {s t : State} {id : ParentRef} {rest : List ParentRef} (h : s.splitWait = id :: rest) (ht : tryOnce s = some t) (hr : t.splitWait = rest) : tryHeads s = tryHeads t := by
  unfold tryHeads
  rw [h, hr]
  show tryUpTo (rest.length + 1) s = _
  rw [tryUpTo, ht]

/-- A try whose head stays changes nothing (04 R68). -/
theorem tryHeads_stay {s : State} {id : ParentRef} {rest : List ParentRef} (h : s.splitWait = id :: rest) (ht : tryOnce s = none) : tryHeads s = s := by
  unfold tryHeads
  rw [h]
  show tryUpTo (rest.length + 1) s = _
  rw [tryUpTo, ht]

/-- A parent admitted last goes to the end of a switch hold (04 R70). -/
theorem insertAdmitted_last : ∀ {l : List ParentRef} {id : ParentRef}, (∀ x ∈ l, x < id) → insertAdmitted id l = l ++ [id]
  | [], _, _ => rfl
  | a :: l, id, h => by
    have := h a (by simp)
    unfold insertAdmitted
    rw [if_neg (Nat.lt_asymm this), insertAdmitted_last fun x hx => h x (by simp [hx])]; rfl

end Sys2Proof.Machine
end

