-- ==== Sys2Proof/Laws/Splitting.lean ====
section
/-! SUPPORT. The split of a range as a whole: the pieces it is cut into, their entries, and how the entries start. -/

-- The package is also compiled as one text: one proof after another keeps the number of Lean's threads small there.
set_option Elab.async false

namespace Sys2Proof.Machine

/-! ## The walk and the cut (04 R57, R58) -/

/-- The copies that the Split Unit chooses are those that the manual names (04 R61, R62). -/
theorem chosenCopies_eq (s : State) (op : Op) (x : Extent) : chosenCopies s op x = servingCopies s op x := by
  unfold chosenCopies servingCopies readCopy
  simp only
  split
  · rfl
  · have hu : ∀ c : CopyNo, usable s (x.portOfCopy c) = true ↔ ((s.port (x.portOfCopy c)).state = .up ∨ (s.port (x.portOfCopy c)).state = .resetting) := by
      intro c; unfold usable
      cases (s.port (x.portOfCopy c)).state <;> simp
    by_cases h1 : usable s (x.portOfCopy x.lead) = true
    · rw [if_pos h1, if_neg (fun h => h.1 ((hu _).1 h1))]
    · rw [if_neg h1]
      by_cases h2 : x.isCurrent x.lead.other ∧ usable s (x.portOfCopy x.lead.other)
      · rw [if_pos h2, if_pos ⟨fun h => h1 ((hu _).2 h), h2.1, (hu _).1 h2.2⟩]
      · rw [if_neg h2, if_neg fun h => h2 ⟨h.2.1, (hu _).2 h.2.2⟩]

theorem servingCopies_ne_nil (s : State) (op : Op) (x : Extent) : servingCopies s op x ≠ [] := by
  unfold servingCopies; simp only; split <;> split <;> simp

/-- The transfer that applies to a run is the smallest of its copies' ports (04 R58). -/
theorem runTransfer_le {s : State} {x : Extent} : ∀ {cs : List CopyNo} {n : Nat}, cs ≠ [] → ((∀ c ∈ cs, n ≤ (s.port (x.portOfCopy c)).maxTransfer) ↔ n ≤ runTransfer s x cs)
  | [], _, h => absurd rfl h
  | [c], n, _ => by simp [runTransfer]
  | c :: d :: cs, n, _ => by
    have := runTransfer_le (s := s) (x := x) (cs := d :: cs) (n := n) (by simp)
    rw [runTransfer, Nat.le_min, ← this]
    · simp
    · simp

theorem runTransfer_mem {s : State} {x : Extent} {cs : List CopyNo} {c : CopyNo} (h : c ∈ cs) : runTransfer s x cs ≤ (s.port (x.portOfCopy c)).maxTransfer :=
  (runTransfer_le (List.ne_nil_of_mem h)).2 (Nat.le_refl _) c h

theorem cutLengths_more {n m : Nat} (h0 : 1 ≤ m) (h : m < n) : cutLengths n m = m :: cutLengths (n - m) m := by
  unfold cutLengths
  rw [Nat.div_eq_sub_div h0 (Nat.le_of_lt h), Nat.mod_eq_sub_mod (Nat.le_of_lt h)]
  rfl

/-- Extents that do not contain the place of a walk are passed over (04 R57). -/
theorem walkRuns_skip : ∀ (a b : List Extent) (i pos stop : Nat), (∀ x ∈ a, ¬ (pos < stop ∧ x.contains pos = true)) → walkRuns i (a ++ b) pos stop = walkRuns (i + a.length) b pos stop
  | [], _, _, _, _, _ => rfl
  | x :: a, b, i, pos, stop, h => by
    rw [List.cons_append, walkRuns, if_neg (h x (by simp)), walkRuns_skip a b (i + 1) pos stop fun y hy => h y (by simp [hy])]
    congr 1; simp; omega

theorem walkRuns_end (l : List Extent) (i pos stop : Nat) (h : ¬ pos < stop) : walkRuns i l pos stop = ([], pos) := by
  have := walkRuns_skip l [] i pos stop (fun _ _ g => h g.1)
  rw [List.append_nil] at this
  rw [this]; rfl

/-- A step of the walk over a live map: the run in the extent that contains the place, and the walk from its end (04 R57). -/
theorem walkRuns_step {l : List Extent} {k pos stop : Nat} {x : Extent} (hs : l.Pairwise fun x y => x.first.toNat ≤ y.first.toNat) (ha : l.Pairwise Extent.Apart) (hx : l[k]? = some x)
    (h1 : x.first.toNat ≤ pos) (h2 : pos < x.first.toNat + x.length.toNat) (h3 : pos < stop) :
    walkRuns 0 l pos stop = (⟨k, x, pos, min stop x.stop - pos⟩ :: (walkRuns 0 l (min stop x.stop) stop).1, (walkRuns 0 l (min stop x.stop) stop).2) := by
  obtain ⟨hk, rfl⟩ := List.getElem?_eq_some_iff.1 hx
  have hl : l = l.take k ++ l[k] :: l.drop (k + 1) := by rw [← List.drop_eq_getElem_cons, List.take_append_drop]
  have hl2 : l = l.take (k + 1) ++ l.drop (k + 1) := (List.take_append_drop _ _).symm
  have hbefore : ∀ y ∈ l.take k, y.first.toNat + y.length.toNat ≤ l[k].first.toNat ∧ y.first.toNat ≤ l[k].first.toNat := by
    intro y hy
    rw [hl, List.pairwise_append] at hs ha
    have a := ha.2.2 y hy l[k] List.mem_cons_self
    have b := hs.2.2 y hy l[k] List.mem_cons_self
    unfold Extent.Apart at a
    omega
  have s1 := walkRuns_skip (l.take k) (l[k] :: l.drop (k + 1)) 0 pos stop (fun y hy hh => by
    have := hbefore y hy
    have := hh.2
    unfold Extent.contains Extent.stop at this
    simp at this; omega)
  rw [← hl] at s1
  have hst : l[k].stop = l[k].first.toNat + l[k].length.toNat := rfl
  have s2 := walkRuns_skip (l.take (k + 1)) (l.drop (k + 1)) 0 (min stop l[k].stop) stop (fun y hy hh => by
    have hc := hh.2
    have hlt := hh.1
    unfold Extent.contains at hc
    simp at hc
    rw [List.take_succ_eq_append_getElem hk, List.mem_append] at hy
    rcases hy with hy | hy
    · have := hbefore y hy
      unfold Extent.stop at hc hlt; omega
    · simp at hy; subst hy
      omega)
  rw [← hl2] at s2
  have e1 : (l.take k).length = k := by simp; omega
  have e2 : (l.take (k + 1)).length = k + 1 := by simp; omega
  rw [s1, s2, e1, e2, Nat.zero_add, Nat.zero_add, walkRuns, if_pos ⟨h3, by unfold Extent.contains; rw [hst]; simp; omega⟩]

/-- The pieces of a range are those that the manual describes (04 R57, R58). -/
theorem cutsFrom_eq {s : State} {l : List Extent} {op : Op} {stop : Nat} (hs : l.Pairwise fun x y => x.first.toNat ≤ y.first.toNat) (ha : l.Pairwise Extent.Apart) :
    ∀ {qs : List PlannedPiece} {pos : Nat}, CutsFrom s l op stop pos qs → (walkRuns 0 l pos stop).1.flatMap (cutRun s op) = qs ∧ (walkRuns 0 l pos stop).2 = stop
  | [], pos, h => by
    obtain rfl : pos = stop := h
    rw [walkRuns_end _ _ _ _ (Nat.lt_irrefl _)]; exact ⟨rfl, rfl⟩
  | q :: qs, pos, h => by
    obtain ⟨h1, h2, ⟨x, hx, k1, k2, k3, k4, k5, k6⟩, h3⟩ := h
    obtain ⟨r1, r2⟩ := cutsFrom_eq hs ha h3
    have hne := servingCopies_ne_nil s op x
    set mt := runTransfer s x (servingCopies s op x) with hmt
    have hle : q.length ≤ mt := (runTransfer_le hne).1 k4
    have hst : x.stop = x.first.toNat + x.length.toNat := rfl
    have w := walkRuns_step hs ha hx k1 (by omega) (show pos < stop by omega)
    set e := min stop x.stop with he
    have hee : pos + q.length ≤ e := by rw [he, hst]; omega
    have hq : q = ⟨pos, q.length, q.ordinal, (servingCopies s op x).map fun c => ⟨c, x.portOfCopy c, x.targetOf c pos⟩⟩ := by
      cases q; simp_all
    have run : ∀ a n, cutRun s op ⟨q.ordinal, x, a, n⟩ = layPieces ⟨q.ordinal, x, a, n⟩ (servingCopies s op x) a (cutLengths n mt) := by
      intro a n; unfold cutRun; rw [chosenCopies_eq]
    have lay : ∀ (a a' n n' : Nat) (b : Nat) (ns : List Nat), layPieces ⟨q.ordinal, x, a, n⟩ (servingCopies s op x) b ns = layPieces ⟨q.ordinal, x, a', n'⟩ (servingCopies s op x) b ns := by
      intro a a' n n' b ns
      induction ns generalizing b with
      | nil => rfl
      | cons m ms ih => rw [layPieces, layPieces, ih]
    rw [w]
    simp only [List.flatMap_cons, run]
    rcases Nat.lt_or_ge (pos + q.length) e with hlt | hge
    · have hmq : q.length = mt := by
        rcases k5 with g | g | ⟨c, hc, g⟩
        · omega
        · omega
        · have := runTransfer_mem (s := s) (x := x) hc; omega
      have w2 := walkRuns_step hs ha hx (show x.first.toNat ≤ pos + q.length by omega) (by omega) (show pos + q.length < stop by omega)
      rw [← he] at w2
      rw [w2] at r1 r2
      simp only [List.flatMap_cons, run] at r1
      refine ⟨?_, r2⟩
      rw [cutLengths_more (by omega) (show mt < e - pos by omega), layPieces, List.cons_append, ← hmq]
      rw [← hmq] at r1
      rw [lay pos (pos + q.length) (e - pos) (e - (pos + q.length)), show e - pos - q.length = e - (pos + q.length) by omega, r1]
      congr 1
      exact hq.symm
    · have hpe : pos + q.length = e := by omega
      rw [hpe] at r1 r2
      refine ⟨?_, r2⟩
      rw [cutLengths_one (by omega) (show e - pos ≤ mt by omega), layPieces, layPieces, List.cons_append, List.nil_append, r1, show e - pos = q.length by omega]
      congr 1
      exact hq.symm

/-- What the split stage finds for a range that the live map covers: too many pieces, or the pieces (04 R56, R58, R60). -/
theorem verdict_cuts {s : State} {p : Parent} {qs : List PlannedPiece} (hs : (s.vol p.volume).live.Pairwise fun x y => x.first.toNat ≤ y.first.toNat) (ha : (s.vol p.volume).live.Pairwise Extent.Apart) (hon : (s.vol p.volume).state ≠ .switching) (hd : p.op ≠ .drain)
    (h : CutsFrom s (s.vol p.volume).live p.op (p.start + p.count) p.start qs) :
    verdict s p = if 16 < qs.length then .completed .fragmented (some p.start) p.count else .pieces qs := by
  obtain ⟨h1, h2⟩ := cutsFrom_eq hs ha h
  unfold verdict
  rw [if_neg hon, if_neg hd]
  unfold lookup
  rw [if_pos h2]
  simp only [h1]

/-! ## The pieces and the entries of a split (04 R63, R64) -/

theorem map_zipIdx {α β : Type} (l : List α) (f : α × Nat → β) : l.zipIdx.map f = l.mapIdx fun i a => f (a, i) := by
  apply List.ext_getElem
  · simp
  · intro k h1 h2; simp

theorem find_of_nodup {l : List SubCmd} {e : SubCmd} (h : (l.map SubCmd.id).Nodup) (he : e ∈ l) : l.find? (fun x => x.id == e.id) = some e := by
  induction l with
  | nil => simp at he
  | cons a l ih =>
    rw [List.map_cons, List.nodup_cons] at h
    rcases List.mem_cons.1 he with rfl | he
    · rw [List.find?_cons_of_pos (by simp)]
    · rw [List.find?_cons_of_neg (by simp only [beq_iff_eq]; exact fun g => h.1 (g ▸ List.mem_map_of_mem he))]
      exact ih h.2 he

theorem entriesBefore_succ (q : PlannedPiece) (qs : List PlannedPiece) (i : Nat) : entriesBefore (q :: qs) (i + 1) = q.members.length + entriesBefore qs i := by
  unfold entriesBefore; simp

theorem entriesBefore_all (qs : List PlannedPiece) : entriesBefore qs qs.length = (qs.map fun q => q.members.length).sum := by
  unfold entriesBefore; rw [List.take_length]

theorem need_pieces (qs : List PlannedPiece) : (Verdict.pieces qs).need = entriesBefore qs qs.length := (entriesBefore_all qs).symm

/-- The piece records of a split (04 R63). -/
theorem pieceRecords_eq (p : Parent) : ∀ (qs : List PlannedPiece) (n : Nat), pieceRecords p n qs = splitPieces p.start n qs
  | [], _ => rfl
  | q :: qs, n => by
    rw [pieceRecords, pieceRecords_eq p qs]
    unfold splitPieces
    rw [List.mapIdx_cons]
    congr 1
    · unfold membersOf
      rw [map_zipIdx]; rfl
    · congr 1
      funext i r
      rw [entriesBefore_succ, Nat.add_assoc]

/-- The entries of a split, from piece `i` on (04 R64, R65). -/
theorem pieceEntries_from (p : Parent) : ∀ (qs : List PlannedPiece) (i n : Nat), pieceEntries p i n qs = (qs.mapIdx fun j q => q.members.mapIdx fun k m =>
    (⟨n + entriesBefore qs j + k, p.id, some (i + j), some m.copy, m.port, subOpOf p.op, p.cls, m.target, q.length, none⟩ : SubCmd)).flatten
  | [], _, _ => rfl
  | q :: qs, i, n => by
    rw [pieceEntries, pieceEntries_from p qs, List.mapIdx_cons, List.flatten_cons]
    congr 1
    · unfold entriesOf
      rw [map_zipIdx]; rfl
    · congr 1
      congr 1
      funext j r
      rw [entriesBefore_succ]
      congr 1
      funext k m
      rw [show n + q.members.length + entriesBefore qs j = n + (q.members.length + entriesBefore qs j) by omega, show i + 1 + j = i + (j + 1) by omega]

theorem pieceEntries_eq (p : Parent) (qs : List PlannedPiece) (n : Nat) : pieceEntries p 0 n qs = splitEntries p n qs := by
  rw [pieceEntries_from]; unfold splitEntries; simp only [Nat.zero_add]

/-- The entries of a split are named one after another (04 R64). -/
theorem splitEntries_ids (p : Parent) (n : Nat) (qs : List PlannedPiece) : (splitEntries p n qs).map SubCmd.id = List.range' n (entriesBefore qs qs.length) := by
  rw [← pieceEntries_eq, pieceEntries_ids, pieceEntries_length, need_pieces]

theorem splitEntries_length (p : Parent) (n : Nat) (qs : List PlannedPiece) : (splitEntries p n qs).length = entriesBefore qs qs.length := by
  rw [← pieceEntries_eq, pieceEntries_length, need_pieces]

/-- What an entry of a split is (04 R64). -/
theorem mem_splitEntries {p : Parent} {n : Nat} {qs : List PlannedPiece} {e : SubCmd} (h : e ∈ splitEntries p n qs) :
    e.parent = p.id ∧ e.op = subOpOf p.op ∧ e.cls = p.cls ∧ e.issue = none ∧ ∃ i q, e.piece = some i ∧ qs[i]? = some q ∧ e.count = q.length := by
  unfold splitEntries at h
  obtain ⟨l, hl, he⟩ := List.mem_flatten.1 h
  obtain ⟨i, hi, rfl⟩ := List.mem_mapIdx.1 hl
  obtain ⟨k, hk, rfl⟩ := List.mem_mapIdx.1 he
  exact ⟨rfl, rfl, rfl, rfl, i, qs[i], rfl, List.getElem?_eq_getElem hi, rfl⟩

/-! ## The start of the entries (04 R67) -/

/-- What the start of an entry leaves as it was (04 R67, 05 R78). -/
theorem startedBy_same (bs : List Block) (x : SubCmd × Option DTag) (s : State) : (startedBy bs x s).parents = s.parents ∧ (startedBy bs x s).nextParent = s.nextParent
    ∧ (∀ d : Port, ((startedBy bs x s).port d).state = (s.port d).state) ∧ (∀ d : Port, d ≠ x.1.port → (startedBy bs x s).port d = s.port d)
    ∧ (∀ e : SubCmd, e.id ≠ x.1.id → s.sub? e.id = some e → (startedBy bs x s).sub? e.id = some e) := by
  obtain ⟨e, o⟩ := x
  cases o with
  | none =>
    refine ⟨rfl, rfl, fun d => ?_, fun d h => ?_, fun _ _ h => h⟩
    · show ((put _ _ _)[d] : PortRec).state = _
      rw [put_get]; split
      · rename_i g; rw [g]
      · rfl
    · show (put _ _ _)[d] = _
      rw [put_get, if_neg h]; rfl
  | some t =>
    refine ⟨rfl, rfl, fun d => ?_, fun d h => ?_, fun z hz h => ?_⟩
    · show ((put _ _ _)[d] : PortRec).state = _
      rw [put_get]; split
      · rename_i g; rw [g]
      · rfl
    · show (put _ _ _)[d] = _
      rw [put_get, if_neg h]; rfl
    · have := sub_updSub (s := s) (id := e.id) (fun y => { y with issue := some ⟨t, s.now + (s.port e.port).responseLimit⟩ }) fun _ => rfl
      unfold State.sub? at h ⊢
      show (s.subs.map _).find? _ = _
      rw [List.find?_map]
      have hc : ((fun x : SubCmd => x.id == z.id) ∘ fun y => if y.id = e.id then { y with issue := some ⟨t, s.now + (s.port e.port).responseLimit⟩ } else y) = fun x => x.id == z.id := by
        funext y; simp only [Function.comp]; split <;> rfl
      rw [hc, h, Option.map_some, if_neg hz]

/-- A new entry on a usable port starts: RESETTING, it is QUEUED; UP and ready for it, it is issued (04 R67). -/
theorem queueNew_eq {u : State} {e : SubCmd} {o : Option DTag} {bs : List Block} (hr : Ready u e.port o) (ho : AdmissionOrder u) (hf : u.sub? e.id = some e) (hc : Carries u e bs) :
    queueNew u e = startedBy bs (e, o) u := by
  cases o with
  | none =>
    have hr : (u.port e.port).state = .resetting := hr
    unfold queueNew joinQueue
    rw [if_pos (by unfold usable; rw [hr]; rfl), issueTest_notUp (by rw [updPort_port, if_pos rfl]; show (u.port e.port).state ≠ _; rw [hr]; simp)]
    rfl
  | some t =>
    obtain ⟨h1, h2, h3, h4, h5⟩ := hr
    unfold queueNew joinQueue
    rw [if_pos (by unfold usable; rw [h1]; rfl)]
    set v := updPort e.port (fun r => { r with queues := put r.queues e.cls (r.queues[e.cls] ++ [e.id]) }) u with hv
    have vp : v.port e.port = { u.port e.port with queues := put (u.port e.port).queues e.cls [e.id] } := by
      rw [hv, updPort_port, if_pos rfl, h2 e.cls]; rfl
    rw [issueTest_one (s := v) (d := e.port) (c := e.cls) (n := 0) (t := t) (x := e) (rest := []) (bs := bs) (by rw [vp]; exact h1) (by rw [vp]; exact h3)
      (by rw [vp]; exact arbiter_one (by rw [put_get_self]; simp) (fun k hk => by rw [put_get, if_neg hk]; exact h2 k))
      (by rw [vp]; exact lowestFree_eq h4 h5) (by rw [vp]; exact h4) (by rw [vp]; exact put_get_self _ _ _) ho hf hc
      (.inr ⟨rfl, fun k hk => by rw [vp]; show (put _ _ _)[k] = _; rw [put_get, if_neg hk]; exact h2 k⟩)]
    unfold startedBy
    simp only
    unfold issued
    rw [vp]
    apply State.ext
    case ports =>
      show put (put u.ports e.port _) e.port _ = put u.ports e.port _
      rw [put_put]
      simp only [put_put]
    all_goals rfl

/-- The hand-over of new entries that all start (04 R65 step 5, R67). -/
theorem handOver_eq {bl : SubCmd → List Block} : ∀ {es : List SubCmd} {ts : List (Option DTag)} {u : State}, ts.length = es.length → AdmissionOrder u → (∀ e ∈ es, u.sub? e.id = some e) → (es.map SubCmd.id).Nodup
    → (∀ e ∈ es, Carries u e (bl e)) → (∀ x ∈ es.zip ts, Ready u x.1.port x.2) → ((es.zip ts).Pairwise fun x y => x.1.port = y.1.port → x.2 = none)
    → es.foldl queueNew u = (es.zip ts).foldl (fun v x => startedBy (bl x.1) x v) u
  | [], [], _, _, _, _, _, _, _, _ => rfl
  | e :: es, o :: ts, u, hl, ho, hf, hn, hc, hr, hp => by
    rw [List.foldl_cons, List.zip_cons_cons, List.foldl_cons, queueNew_eq (hr (e, o) (by simp)) ho (hf e (by simp)) (hc e (by simp))]
    obtain ⟨s1, s2, s3, s4, s5⟩ := startedBy_same (bl e) (e, o) u
    obtain ⟨n1, n2⟩ := List.nodup_cons.1 hn
    obtain ⟨p1, p2⟩ := List.pairwise_cons.1 hp
    refine handOver_eq (by simpa using hl) (by unfold AdmissionOrder; rw [s1, s2]; exact ho) (fun z hz => s5 z (fun g => n1 (g ▸ List.mem_map_of_mem hz)) (hf z (by simp [hz]))) n2
      (fun z hz => ?_) (fun x hx => ?_) p2
    · have := hc z (by simp [hz])
      unfold Carries at this ⊢
      rw [s1]; exact this
    · have hx' := hr x (by simp [hx])
      by_cases g : x.1.port = e.port
      · have hon : o = none := p1 x hx g.symm
        subst hon
        have hre : (u.port e.port).state = .resetting := hr (e, none) (by simp)
        rw [← g] at hre
        cases hx2 : x.2 with
        | none => show ((startedBy (bl e) (e, none) u).port x.1.port).state = _; rw [s3]; exact hre
        | some t => rw [hx2] at hx'; have := hx'.1; rw [hre] at this; simp at this
      · exact ready_of (s4 _ g) hx'

/-- A split whose entries all start, as a whole (04 R65 to R67). -/
theorem split_eq {s : State} {p : Parent} {qs : List PlannedPiece} {ts : List (Option DTag)} (ho : AdmissionOrder s) (hp : p ∈ s.parents) (hsub : ∀ e ∈ s.subs, e.id < s.nextSub)
    (h : CanBegin s p qs ts) : split p (.pieces qs) s = begun p qs ts s := by
  obtain ⟨h1, h2, h3, hw⟩ := h
  have hz : allocate p (pieceEntries p 0 s.nextSub qs) (pieceRecords p s.nextSub qs) p.flushResults s = splitInto p qs s := by
    rw [pieceEntries_eq, pieceRecords_eq]
    unfold allocate
    apply State.ext
    case parents =>
      show s.parents.map _ = s.parents.map _
      apply List.map_congr_left
      intro q hq
      by_cases g : q.id = p.id
      · obtain rfl : q = p := eq_of_id ho hp hq g
        simp only [if_true]
      · rw [if_neg g, if_neg g]
    case nextSub => show s.nextSub + _ = s.nextSub + _; rw [splitEntries_length]
    all_goals rfl
  show handOver (pieceEntries p 0 s.nextSub qs) _ = _
  rw [hz, pieceEntries_eq]
  set es := splitEntries p s.nextSub qs with hes
  set z := splitInto p qs s with hzdef
  have hzp : ∀ d, z.port d = s.port d := fun _ => rfl
  have hzo : AdmissionOrder z := by
    refine ⟨?_, fun q hq => ?_⟩
    · show (s.parents.map _).Pairwise _
      rw [List.pairwise_map]
      exact ho.1.imp fun {a b} hab => by split <;> split <;> simp_all
    · obtain ⟨q', hq', rfl⟩ := List.mem_map.1 (show q ∈ s.parents.map _ from hq)
      show _ < s.nextParent
      split
      · exact ho.2 p hp
      · exact ho.2 q' hq'
  have hids : (es.map SubCmd.id).Nodup := by rw [hes, splitEntries_ids]; exact List.nodup_range'
  have hfresh : ∀ e ∈ es, s.nextSub ≤ e.id := by
    intro e he
    have := List.mem_map_of_mem (f := SubCmd.id) he
    rw [hes, splitEntries_ids, List.mem_range'_1] at this
    exact this.1
  have hfind : ∀ e ∈ es, z.sub? e.id = some e := by
    intro e he
    unfold State.sub?
    show (s.subs ++ es).find? _ = _
    rw [List.find?_append, List.find?_eq_none.2 (by
      intro x hx; simp only [beq_iff_eq]; exact Nat.ne_of_lt (Nat.lt_of_lt_of_le (hsub x hx) (hfresh e he))), Option.none_or]
    exact find_of_nodup hids he
  have hcar : ∀ e ∈ es, Carries z e (carried p qs e) := by
    intro e he
    obtain ⟨a1, a2, a3, a4, i, q, a5, a6, a7⟩ := mem_splitEntries he
    by_cases g : p.op = .write
    · right
      refine ⟨by rw [a2, g]; rfl, { p with state := .active, generation := some (s.vol p.volume).generation, pieces := splitPieces p.start s.nextSub qs }, List.mem_map.2 ⟨p, hp, if_pos rfl⟩, i, _, a1.symm, a5,
        by show (splitPieces _ _ _)[i]? = _; unfold splitPieces; rw [List.getElem?_mapIdx, a6]; rfl, ?_⟩
      show (p.slots.drop (q.first - p.start)).take e.count = _
      unfold carried
      rw [g, a5, a7]
      simp only [Option.bind_some, a6]
      have : ∀ l : List (Option Block), (∀ b ∈ l, b.isSome = true) → l = (l.filterMap id).map some := by
        intro l
        induction l with
        | nil => intro _; rfl
        | cons b l ih =>
          intro hb
          cases b with
          | none => have := hb none (by simp); simp at this
          | some b => rw [List.filterMap_cons_some (by rfl), List.map_cons, ← ih fun x hx => hb x (by simp [hx])]
      exact this _ fun b hb => hw g b (List.mem_of_mem_drop (List.mem_of_mem_take hb))
    · left
      refine ⟨by rw [a2]; cases hop : p.op <;> simp_all [subOpOf], ?_⟩
      unfold carried
      split
      · rename_i h _; exact absurd h g
      · rfl
  have hq := handOver_eq (bl := carried p qs) h1 hzo hfind hids hcar (fun x hx => ready_of (hzp _) (h2 x hx)) h3
  unfold handOver
  rw [hq]
  have hstate : ∀ (l : List (SubCmd × Option DTag)) (u : State) (d : Port), ((l.foldl (fun v x => startedBy (carried p qs x.1) x v) u).port d).state = (u.port d).state := by
    intro l
    induction l with
    | nil => intro _ _; rfl
    | cons x l ih => intro u d; rw [List.foldl_cons, ih, (startedBy_same _ _ _).2.2.1]
  have hnf : ∀ (l : List SubCmd) (u : State), (∀ e ∈ l, (u.port e.port).state = .up ∨ (u.port e.port).state = .resetting) → l.foldl failNew u = u := by
    intro l
    induction l with
    | nil => intro _ _; rfl
    | cons e l ih =>
      intro u hu
      have : failNew u e = u := by unfold failNew; rcases hu e (by simp) with g | g <;> rw [g]
      rw [List.foldl_cons, this]
      exact ih u fun x hx => hu x (by simp [hx])
  rw [hnf]
  · rfl
  · intro e he
    rw [hstate, hzp]
    obtain ⟨k, hk, rfl⟩ := List.getElem_of_mem he
    have := h2 (es[k], ts[k]'(by omega)) (by rw [← List.getElem_zip (h := by simp; omega)]; exact List.getElem_mem _)
    cases ht : ts[k]'(by omega) with
    | none => rw [ht] at this; exact .inr this
    | some t => rw [ht] at this; exact .inl this.1

/-! ## The split stage (04 R55, R56) -/

/-- A range over a hole has no answer of runs (04 R59). -/
theorem lookup_hole {l : List Extent} {start count b : Nat} (h1 : start ≤ b) (h2 : b < start + count) (h : ∀ x ∈ l, b < x.first.toNat ∨ x.first.toNat + x.length.toNat ≤ b) : lookup l start count = none := by
  unfold lookup
  have := walkRuns_hole l 0 start (start + count) b h1 h2 h
  rw [if_neg (by omega)]

/-- The ports of a DRAIN: none exactly when no live copy is CURRENT (04 R71). -/
theorem drainPorts_nil {l : List Extent} : drainPorts l = [] ↔ ∀ x ∈ l, ∀ c : CopyNo, x.isCurrent c = false := by
  unfold drainPorts
  rw [List.filter_eq_nil_iff]
  constructor
  · intro h x hx c
    have := h (x.portOfCopy c) (List.mem_finRange _)
    rw [List.any_eq_true] at this
    by_contra g
    refine this ⟨x, hx, ?_⟩
    cases c <;> simp_all
  · intro h d _ g
    obtain ⟨x, hx, g⟩ := List.any_eq_true.1 g
    simp [h x hx] at g

/-- A parent that comes to the split stage while its volume is ONLINE takes the outcome of R56 (04 R55, R56). -/
theorem arrive_eq {s t : State} {p : Parent} (ho : AdmissionOrder s) (hp : p ∈ s.parents) (hsub : ∀ e ∈ s.subs, e.id < s.nextSub) (hon : (s.vol p.volume).state ≠ .switching)
    (hs : (s.vol p.volume).live.Pairwise fun x y => x.first.toNat ≤ y.first.toNat) (ha : (s.vol p.volume).live.Pairwise Extent.Apart) (h : Arrives p s t) : arrive p.id s = t := by
  unfold arrive
  rw [find?_of_order ho hp]
  simp only
  rcases h with ⟨hd, ⟨b, b1, b2, b3⟩, rfl⟩ | ⟨hd, qs, hq, h⟩ | ⟨hd, hc, rfl⟩ | ⟨hd, ⟨x, hx, c, hc⟩, hw, rfl⟩
  · have hv : verdict s p = .completed .unmapped (some p.start) p.count := by
      unfold verdict; rw [if_neg hon, if_neg hd, lookup_hole b1 b2 b3]
    rw [hv]; exact complete_eq ho hp ..
  · have hv := verdict_cuts hs ha hon hd hq
    rcases h with ⟨h16, rfl⟩ | ⟨h16, hw, rfl⟩ | ⟨h16, hw, hn, ts, hts, rfl⟩
    · rw [hv, if_pos h16]; exact complete_eq ho hp ..
    · rw [hv, if_neg (by omega)]
      simp only [need_pieces]
      rw [if_neg]
      · rfl
      · rintro ⟨a, b⟩
        unfold State.freeSubs at b
        rcases hw with hw | hw
        · exact hw a
        · omega
    · rw [hv, if_neg (by omega)]
      simp only [need_pieces]
      rw [if_pos ⟨hw, by unfold State.freeSubs; omega⟩]
      exact split_eq ho hp hsub hts
  · have hv : verdict s p = .completed .good none 0 := by
      unfold verdict; rw [if_neg hon, if_pos hd, if_pos (drainPorts_nil.2 hc)]
    rw [hv]; exact complete_eq ho hp ..
  · have hv : verdict s p = .flushes (drainPorts (s.vol p.volume).live) := by
      unfold verdict; rw [if_neg hon, if_pos hd, if_neg]
      intro g; rw [drainPorts_nil.1 g x hx c] at hc; simp at hc
    rw [hv]
    simp only
    rw [if_neg fun g => hw g.1]; rfl

/-- What an arrival at the split stage keeps of the tables, for the arrivals after it (04 R55). -/
structure Passes (p : Parent) (s t : State) : Prop where
  order : AdmissionOrder t
  fresh : ∀ e ∈ t.subs, e.id < t.nextSub
  others : ∀ q ∈ s.parents, q.id ≠ p.id → q ∈ t.parents
  volumes : ∀ v : Volume, (t.vol v).live = (s.vol v).live ∧ (t.vol v).state = (s.vol v).state

theorem begun_passes {s : State} {p : Parent} {qs : List PlannedPiece} {ts : List (Option DTag)} (ho : AdmissionOrder s) (hp : p ∈ s.parents) (hsub : ∀ e ∈ s.subs, e.id < s.nextSub) : Passes p s (begun p qs ts s) := by
  have fold : ∀ (l : List (SubCmd × Option DTag)) (u : State), (l.foldl (fun v x => startedBy (carried p qs x.1) x v) u).parents = u.parents
      ∧ (l.foldl (fun v x => startedBy (carried p qs x.1) x v) u).nextParent = u.nextParent ∧ (l.foldl (fun v x => startedBy (carried p qs x.1) x v) u).nextSub = u.nextSub
      ∧ (l.foldl (fun v x => startedBy (carried p qs x.1) x v) u).volumes = u.volumes
      ∧ (l.foldl (fun v x => startedBy (carried p qs x.1) x v) u).subs.map SubCmd.id = u.subs.map SubCmd.id := by
    intro l
    induction l with
    | nil => intro _; exact ⟨rfl, rfl, rfl, rfl, rfl⟩
    | cons x l ih =>
      intro u
      rw [List.foldl_cons]
      obtain ⟨a1, a2, a3, a4, a5⟩ := ih (startedBy (carried p qs x.1) x u)
      obtain ⟨b1, b2, _⟩ := startedBy_same (carried p qs x.1) x u
      have b3 : (startedBy (carried p qs x.1) x u).nextSub = u.nextSub ∧ (startedBy (carried p qs x.1) x u).volumes = u.volumes ∧ (startedBy (carried p qs x.1) x u).subs.map SubCmd.id = u.subs.map SubCmd.id := by
        obtain ⟨e, o⟩ := x
        cases o with
        | none => exact ⟨rfl, rfl, rfl⟩
        | some t =>
          refine ⟨rfl, rfl, ?_⟩
          show (u.subs.map _).map SubCmd.id = _
          rw [List.map_map]
          apply List.map_congr_left
          intro y _
          simp only [Function.comp]; split <;> rfl
      exact ⟨a1.trans b1, a2.trans b2, a3.trans b3.1, a4.trans b3.2.1, a5.trans b3.2.2⟩
  obtain ⟨f1, f2, f3, f4, f5⟩ := fold ((splitEntries p s.nextSub qs).zip ts) (splitInto p qs s)
  unfold begun
  refine ⟨⟨?_, ?_⟩, ?_, ?_, ?_⟩
  · rw [f1]
    show (s.parents.map _).Pairwise _
    rw [List.pairwise_map]
    exact ho.1.imp fun {a b} hab => by split <;> split <;> simp_all
  · rw [f1, f2]
    intro q hq
    obtain ⟨q', hq', rfl⟩ := List.mem_map.1 (show q ∈ s.parents.map _ from hq)
    show _ < s.nextParent
    split
    · exact ho.2 p hp
    · exact ho.2 q' hq'
  · intro e he
    have := List.mem_map_of_mem (f := SubCmd.id) he
    rw [f5] at this
    rw [f3]
    show e.id < s.nextSub + _
    rw [show (splitInto p qs s).subs = s.subs ++ splitEntries p s.nextSub qs from rfl, List.map_append, splitEntries_ids, List.mem_append, List.mem_range'_1] at this
    rcases this with h | h
    · obtain ⟨z, hz, hze⟩ := List.mem_map.1 h
      have := hsub z hz
      rw [hze] at this
      exact Nat.lt_of_lt_of_le this (Nat.le_add_right _ _)
    · exact h.2
  · intro q hq hne
    rw [f1]
    exact List.mem_map.2 ⟨q, hq, if_neg hne⟩
  · intro v
    unfold State.vol
    rw [f4]
    show ((put s.volumes _ _)[v] : VolRec).live = _ ∧ ((put s.volumes _ _)[v] : VolRec).state = _
    rw [put_get]; split
    · rename_i g; subst g; exact ⟨rfl, rfl⟩
    · exact ⟨rfl, rfl⟩

/-- An arrival at the split stage changes no other parent and no live map (04 R55, R56). -/
theorem arrives_passes {s t : State} {p : Parent} (ho : AdmissionOrder s) (hp : p ∈ s.parents) (hsub : ∀ e ∈ s.subs, e.id < s.nextSub) (h : Arrives p s t) : Passes p s t := by
  have hf : ∀ o, Passes p s { freed p s with outbound := o } := fun o =>
    ⟨⟨ho.1.filter _, fun q hq => ho.2 q (List.mem_filter.1 hq).1⟩, hsub, fun q hq hne => List.mem_filter.2 ⟨hq, by simpa using hne⟩, fun _ => ⟨rfl, rfl⟩⟩
  have hw : Passes p s (waiting p s) := by
    refine ⟨⟨?_, fun q hq => ?_⟩, hsub, fun q hq hne => List.mem_map.2 ⟨q, hq, if_neg hne⟩, fun _ => ⟨rfl, rfl⟩⟩
    · show (s.parents.map _).Pairwise _
      rw [List.pairwise_map]
      exact ho.1.imp fun {a b} hab => by split <;> split <;> simp_all
    · obtain ⟨q', hq', rfl⟩ := List.mem_map.1 (show q ∈ s.parents.map _ from hq)
      have := ho.2 q' hq'
      show _ < s.nextParent
      split <;> exact this
  rcases h with ⟨_, _, rfl⟩ | ⟨_, _, _, ⟨_, rfl⟩ | ⟨_, _, rfl⟩ | ⟨_, _, _, _, _, rfl⟩⟩ | ⟨_, _, rfl⟩ | ⟨_, _, _, rfl⟩
  · exact hf _
  · exact hf _
  · exact hw
  · exact begun_passes ho hp hsub
  · exact hf _
  · exact hw

/-- Several parents of one ONLINE volume, handed to the split stage one after another (04 R55, R70). -/
theorem arriveAll_eq {v : Volume} : ∀ {ps : List Parent} {s t : State}, AdmissionOrder s → (∀ e ∈ s.subs, e.id < s.nextSub) → (ps.Pairwise fun p q => p.id ≠ q.id) → (∀ p ∈ ps, p ∈ s.parents ∧ p.volume = v)
    → (s.vol v).state ≠ .switching → ((s.vol v).live.Pairwise fun x y => x.first.toNat ≤ y.first.toNat) → (s.vol v).live.Pairwise Extent.Apart → Released ps s t
    → arriveAll (ps.map Parent.id) s = t ∧ AdmissionOrder t ∧ ∀ q ∈ s.parents, (∀ p ∈ ps, q.id ≠ p.id) → q ∈ t.parents
  | [], s, t, ho, _, _, _, _, _, _, h => by
    obtain rfl : t = s := h
    exact ⟨rfl, ho, fun q hq _ => hq⟩
  | p :: ps, s, t, ho, hsub, hpw, hps, hon, hs, ha, h => by
    obtain ⟨u, h1, h2⟩ := h
    obtain ⟨hp, rfl⟩ := hps p (by simp)
    obtain ⟨n1, n2⟩ := List.pairwise_cons.1 hpw
    obtain ⟨a1, a2, a3, a4⟩ := arrives_passes ho hp hsub h1
    obtain ⟨v1, v2⟩ := a4 p.volume
    obtain ⟨b1, b2, b3⟩ := arriveAll_eq a1 a2 n2 (fun q hq => ⟨a3 q (hps q (by simp [hq])).1 (Ne.symm (n1 q hq)), (hps q (by simp [hq])).2⟩) (by rw [v2]; exact hon) (by rw [v1]; exact hs) (by rw [v1]; exact ha) h2
    refine ⟨?_, b2, fun q hq hne => b3 q (a3 q hq (hne p (by simp))) fun z hz => hne z (by simp [hz])⟩
    show arriveAll (ps.map Parent.id) (arrive p.id s) = t
    rw [arrive_eq ho hp hsub hon hs ha h1]; exact b1

end Sys2Proof.Machine
end

