-- ==== Sys2Proof/Tests/Slice0.lean ====
section
/-! SUPPORT. The model's own tests: ill-formed terms, one small step of each command, and for every obligation with hypotheses a state that meets them. -/

-- The package is also compiled as one text: one proof after another keeps the number of Lean's threads small there.
set_option Elab.async false

namespace Sys2Proof.Tests

open Sys2Proof Sys2Proof.Machine

set_option maxRecDepth 20000

/-! ## Ill-formed terms -/

/-- A CMD frame of initiator 2. -/
def cmdOf (tag volume op cls : Byte) (start : BitVec 32) (count : BitVec 16) (payload : List Block) : CmdFrame :=
  { initiator := 2, tag := tag, volume := volume, operation := op, cls := cls, count := count, start := start, payload := payload }

/-- A TCPL frame without payload. -/
def tcplOf (tag result : Byte) : TcplFrame := { tag := tag, result := result, flags := 0, errorBlock := 0, payload := [] }

/-- Too many blocks do not fit. -/
theorem payloadFits_long (n : Nat) (bs : List Block) (h : n < bs.length) : payloadFits n bs = false := by
  rw [payloadFits, decide_eq_false (by omega), Bool.false_and]

theorem test_wf_cmd_initiator : (Instr.cmd { cmdOf 1 0 1 0 0 1 [] with initiator := 16 }).wf = false := by decide
theorem test_wf_cmd_block_length : (Instr.cmd (cmdOf 1 0 2 0 0 1 [[0, 0]])).wf = false := by decide
theorem test_wf_cmd_block_count : (Instr.cmd (cmdOf 1 0 2 0 0 1 (List.replicate 2048 []))).wf = false := by
  rw [Instr.wf, CmdFrame.wf, payloadFits_long 2047 _ (by rw [cmdOf, List.length_replicate]; decide), Bool.and_false]
theorem test_wf_abt_initiator : (Instr.abt { initiator := 16, tag := 0 }).wf = false := by decide
theorem test_wf_tcpl_block_length : (Instr.tcpl 0 { tcplOf 0 0 with payload := [[0]] }).wf = false := by decide
theorem test_wf_tcpl_block_count : (Instr.tcpl 0 { tcplOf 0 0 with payload := List.replicate 1025 [] }).wf = false := by
  rw [Instr.wf, TcplFrame.wf, payloadFits_long 1024 _ (by rw [List.length_replicate]; decide)]
theorem test_wf_dropped_abt : (Instr.droppedFrame .upstream true [2, 3, 7, 0]).wf = false := by decide
theorem test_wf_dropped_trdy : (Instr.droppedFrame (.target 1) true [0xC2, 0, 0, 0]).wf = false := by decide
theorem test_wf_dropped_bad_check : (Instr.droppedFrame .upstream false [2, 3, 7, 0]).wf = true := by decide
theorem test_wf_commands : (Instr.abt { initiator := 15, tag := 0 }).wf ∧ (Instr.cmd (cmdOf 1 0 1 0 0 1 [])).wf
    ∧ (Instr.tcpl 3 (tcplOf 0 0)).wf ∧ Instr.flushAll.wf := by decide

/-! ## Frames as bytes (10 R154, R155) -/

theorem test_receive_cmd : receiveUpstream true [1, 2, 7, 5, 1, 3, 0x01, 0x02, 0x0A, 0x0B, 0x0C, 0x0D, 0, 0, 0, 0]
    = .cmd (cmdOf 7 5 1 3 0x0A0B0C0D 0x0102 []) := by decide
theorem test_receive_abt : receiveUpstream true [2, 2, 7, 0] = .abt { initiator := 2, tag := 7 } := by decide
theorem test_receive_tcpl : receiveDownstream 1 true [0xC1, 4, 1, 1, 0, 0, 1, 2]
    = .tcpl 1 { tag := 4, result := 1, flags := 1, errorBlock := 0x102, payload := [] } := by decide
theorem test_receive_trdy : receiveDownstream 1 true [0xC2, 0, 0, 0] = .trdy 1 := by decide
theorem test_receive_initiator_16 : receiveUpstream true [2, 16, 7, 0] = .droppedFrame .upstream true [2, 16, 7, 0] := by decide
theorem test_sent_cpl : (Cpl.bytes ⟨2, 7, .command, .unmapped, some 0x10203, 0x102, []⟩) = [0x81, 2, 7, 1, 0x20, 1, 1, 2, 0, 1, 2, 3, 0, 0, 0, 0] := by decide
theorem test_sent_alr : (Alr.bytes { initiator := 2, queued := 3, oldest := 0x102 }) = [0x82, 2, 3, 0, 0, 0, 1, 2] := by decide
theorem test_sent_sub : (SubFrame.bytes { tag := 9, op := .flush, targetStart := 0x10203, count := 0x102, payload := [] })
    = [0x41, 9, 5, 0, 1, 2, 0, 0, 0, 1, 2, 3] := by decide

/-! ## Small states -/

/-- A live parent of initiator 2 and tag 7, class 1. -/
def parentOf (id : ParentRef) (v : Volume) (op : Op) (start count : Nat) (x : ParentState) (slots : List (Option Block)) : Parent :=
  { id := id, initiator := 2, tag := 7, volume := v, op := op, cls := 1, start := start, count := count, state := x, slots := slots,
    generation := none, pieces := [], drainPhase := none, flushResults := [] }

/-- The CONTROL_ACTIVE parent of a control address, with the block in its slot. -/
def controlOf (op : Op) (pg sel : Nat) (b : Block) : Parent := parentOf 0 0 op (pg * 65536 + sel) 1 .controlActive [some b]

/-- A state with one live parent, of the manager. -/
def alive (p : Parent) (s : State) : State :=
  { s with linkUp := true, parents := [p], nextParent := p.id + 1, freeSlots := 2048 - p.slots.length, manager := some p.initiator,
           initiators := put s.initiators p.initiator { credit := 8, barred := false, liveCount := 1 } }

/-- A state whose CONTROL_ACTIVE parent is the one live parent. -/
def active (p : Parent) (s : State) : State := { alive p s with executing := some p.id }

/-- Reset, but for the record of volume 1. -/
def withVol1 (r : VolRec) : State := withVol 1 r State.reset

/-- Reset, but for the record of port 1. -/
def withPort1 (r : PortRec) : State := withPort 1 r State.reset

/-- An ONLINE volume of 100 blocks without records. -/
def online : VolRec := { VolRec.reset with state := .online, capacity := some 100 }

/-- Extent 10 to 19, on port 1 from target block 0x100 and on port 2 from target block 0x200. -/
def extent : Extent := { first := 10, length := 10, copy1 := ⟨1, 0x100, .current⟩, copy2 := some ⟨2, 0x200, .current⟩, lead := .one }

/-- A port that is UP. -/
def upPort : PortRec := { PortRec.reset with state := .up }

/-- A port that is RESETTING, with a timer that expires at 2000. -/
def resetting : PortRec := { PortRec.reset with state := .resetting, attempts := 1, resetTimer := some 2000 }

/-- The state that an outcome gives, and reset where it gives none. -/
def after (o : Host.Outcome State Fault Refusal) : State :=
  match o with
  | .next s => s
  | .fault _ => State.reset
  | .refused _ => State.reset

/-- The statuses of the CPLs in the outbound order. -/
def statuses (s : State) : List Status := s.outbound.filterMap fun f =>
  match f with
  | .cpl c => some c.status
  | .alr _ => none

/-! ## One step of each command -/

/-- A READ of blocks 12 and 13, split to the one entry 7 that is ISSUED under tag 3 of port 1. -/
def reading : Parent :=
  { parentOf 4 1 .read 12 2 .active [none, none] with
    generation := some 0
    pieces := [⟨0, 2, 0, [⟨.one, some 7, none⟩], false, .pending⟩] }

/-- The same READ, its piece already retried. -/
def retriedRead : Parent := { reading with pieces := [⟨0, 2, 0, [⟨.one, some 7, none⟩], true, .pending⟩] }

/-- The entry of `reading`, with its deadline. -/
def entry : SubCmd :=
  { id := 7, parent := 4, piece := some 0, copy := some .one, port := 1, op := .read, cls := 1, targetStart := 0x102, count := 2,
    issue := some ⟨3, 2000⟩ }

/-- The state in which a READ waits for its one answer. -/
def inFlight (p : Parent) : State :=
  { alive p (withVol 1 { online with live := [extent], liveParents := 1, splitParents := 1 }
      (withPort1 { upPort with tags := put upPort.tags 3 (.issued 7) })) with
    access := put State.reset.access 2 (put (State.reset.access[(2 : Initiator)]) 1 .full)
    subs := [entry], nextSub := 8, freeExtents := 511, ranges := put State.reset.ranges 1 [⟨4, .read, 12, 2⟩] }

/-- A block of 512 bytes. -/
def data : Block := page []

theorem test_reset_input : (after (exec .resetInput (inFlight reading))).subs = [] := by decide
theorem test_link_up : (after (exec .upstreamLinkUp State.reset)).linkUp = true := by decide
theorem test_link_loss : (after (exec .upstreamLinkLoss (inFlight reading))).parents = [{ reading with state := .discarding }] := by decide
theorem test_outbound_send :
    (after (exec .outboundFrameSend { State.reset with linkUp := true, outbound := [.alr ⟨2, 1, 0⟩] })).sent = [.up (.alr ⟨2, 1, 0⟩)] := by decide
theorem test_dropped_frame : after (exec (.droppedFrame .upstream true [9]) State.reset) = State.reset := by decide
theorem test_cmd_refused : statuses (after (exec (.cmd (cmdOf 1 1 1 0 0 1 [])) { State.reset with linkUp := true })) = [.badVolume] := by decide
theorem test_cmd_admitted : (after (exec (.cmd (cmdOf 1 0 1 0 0 1 [])) { State.reset with linkUp := true })).executing = some 0 := by decide
theorem test_abt : statuses (after (exec (.abt ⟨2, 7⟩) (active (controlOf .read 0 0 data) State.reset))) = [.abortDenied] := by decide
theorem test_free_report_map : ((after (exec (.freeReportMap 0)
    { withVol1 { online with liveParents := 2 } with mapReports := [⟨1, false⟩] })).vol 1).liveParents = 1 := by decide
theorem test_free_report_order : (after (exec (.freeReportOrder 0)
    { State.reset with orderReports := [⟨1, 4⟩], ranges := put State.reset.ranges 1 [⟨4, .read, 12, 2⟩] })) = State.reset := by decide
theorem test_gone_map : ((after (exec (.longParentGoneMap 0)
    { withVol1 { online with longParent := some 4 } with goneMap := [⟨1, 4⟩] })).vol 1).longParent = none := by decide
theorem test_gone_port : ((after (exec (.longParentGonePort 0)
    { withPort1 { resetting with pendingReset := some 4 } with gonePort := [⟨1, 4⟩] })).port 1).pendingReset = none := by decide
theorem test_gone_flush : (after (exec (.longParentGoneFlush 0)
    { State.reset with flush := some ⟨4, some 4, [1]⟩, goneFlush := [4] })).flush = some ⟨4, none, [1]⟩ := by decide
theorem test_target_link_up : (after (exec (.targetLinkUp 1) State.reset)).port 1 = resetting := by decide
theorem test_target_link_lost : statuses (after (exec (.targetLinkLost 1) (inFlight retriedRead))) = [.targetLost] := by decide
theorem test_tcpl : statuses (after (exec (.tcpl 1 { tcplOf 3 0 with payload := [data, data] }) (inFlight reading))) = [.good] := by decide
theorem test_tcpl_read_retry :
    (after (exec (.tcpl 1 (tcplOf 3 2)) { inFlight reading with ports := put (inFlight reading).ports 2 upPort })).sent
      = [.down 2 (.sub ⟨0, .read, 0x202, 2, []⟩)] := by decide
theorem test_trdy : ((after (exec (.trdy 1) (withPort1 resetting))).port 1).state = .up := by decide
theorem test_deadline : ((after (exec (.deadlineExpiry 1 3) { inFlight reading with now := 2000 })).port 1).tags[(3 : DTag)] = .quarantined := by decide
theorem test_deadline_early : after (exec (.deadlineExpiry 1 3) { inFlight reading with now := 1999 }) = { inFlight reading with now := 1999 } := by decide
theorem test_reset_timer : ((after (exec (.resetTimerExpiry 1) { withPort1 resetting with now := 2000 })).port 1).attempts = 2 := by decide
theorem test_lease_expiry :
    (after (exec .leaseExpiry { State.reset with manager := some 2, lease := 1, leaseTimer := some 1000, now := 1000 })).manager = none := by decide
theorem test_bad_page : statuses (after (exec .badPage (active (controlOf .read 14 0 data) State.reset))) = [.badPage] := by decide
theorem test_identity_read : statuses (after (exec .identityRead (active (controlOf .read 0 0 data) State.reset))) = [.good] := by decide
theorem test_status_read : (after (exec .statusRead (active (controlOf .read 1 0 data) State.reset))).outbound
    = [.cpl ⟨2, 7, .command, .good, none, 0, [page ((List.replicate 4 [0, 0, 16, 0, 0, 0, 0, 0]).flatten
        ++ [0, 127, 1, 0, 0x07, 0xFF, 2, 0, 0, 0, 0])]⟩] := by decide
theorem test_notices_read : (after (exec .noticesRead { active (controlOf .read 2 0 data) State.reset with dropped := 3 })).dropped = 0 := by decide
theorem test_claim : (after (exec .claim (active (controlOf .write 3 0 (page [1, 0, 0, 5])) State.reset))).leaseTimer = some 5000 := by decide
theorem test_release : (after (exec .release (active (controlOf .write 3 0 (page [2])) State.reset))).manager = none := by decide
theorem test_volume_read : statuses (after (exec .volumeRead (active (controlOf .read 4 1 data) State.reset))) = [.good] := by decide
theorem test_define : (after (exec .define (active (controlOf .write 4 1 (page [1, 1, 0, 0, 0, 0, 0, 9])) State.reset))).vol 1
    = { VolRec.reset with state := .online, capacity := some 9, writeProtected := true } := by decide
theorem test_remove : ((after (exec .remove (active (controlOf .write 4 1 (page [2])) (withVol1 online)))).vol 1).state = .absent := by decide

/-- The STAGE data of one record: `extent`, with its first volume block as given. -/
def stageData (first : Byte) : Block :=
  page [1, 1, 0, 0, 0, 0, 0, 0, 0, 0, 1, 1, 0, 0, 0, first, 0, 0, 0, 10, 1, 0, 2, 0, 0, 0, 1, 0, 0, 0, 2, 0]

theorem test_stage : ((after (exec .stage (active (controlOf .write 5 1 (stageData 10)) (withVol1 online)))).vol 1).staged = [extent] := by decide
theorem test_clear : (after (exec .clear (active (controlOf .write 5 1 (page [2])) { withVol1 { online with staged := [extent] } with freeExtents := 511 }))).freeExtents = 512 := by decide
theorem test_commit : ((after (exec .commit (active (controlOf .write 6 1 data) (withVol1 { online with staged := [extent] })))).vol 1)
    = { online with live := [extent], generation := 1 } := by decide
theorem test_access_read : statuses (after (exec .accessRead (active (controlOf .read 7 3 data) State.reset))) = [.good] := by decide
theorem test_access_write : (after (exec .accessWrite (active (controlOf .write 7 3 (page [0, 2])) (withVol1 online)))).access[(3 : Initiator)][(1 : Volume)] = .full := by decide
theorem test_initiator_read : statuses (after (exec .initiatorRead (active (controlOf .read 8 3 data) State.reset))) = [.good] := by decide
theorem test_initiator_write : (after (exec .initiatorWrite (active (controlOf .write 8 3 (page [32, 1])) State.reset))).initiators[(3 : Initiator)] = ⟨32, true, 0⟩ := by decide
theorem test_port_read : statuses (after (exec .portRead (active (controlOf .read 9 3 data) State.reset))) = [.good] := by decide
theorem test_port_write : (after (exec .portWrite (active (controlOf .write 9 3 (page [16, 0, 0, 0, 0, 10, 0, 8])) State.reset))).port 3
    = { PortRec.reset with window := 16, responseLimit := 10, maxTransfer := 8 } := by decide
theorem test_port_reset : (after (exec .portReset (active (controlOf .write 10 1 data) (withPort1 upPort)))).port 1 = { resetting with pendingReset := some 0 } := by decide
theorem test_flush_all : (after (exec .flushAll (active (controlOf .write 11 0 data) (withPort1 upPort)))).flush = some ⟨0, some 0, [1]⟩ := by decide
theorem test_live_map_read : statuses (after (exec .liveMapRead (active (controlOf .read 12 1024 data) State.reset))) = [.good] := by decide
theorem test_staged_map_read : statuses (after (exec .stagedMapRead (active (controlOf .read 13 1024 data) State.reset))) = [.good] := by decide

/-! ## States that meet the hypotheses of the obligations -/

/-- The answer to the one sub-command of `reading`. -/
def answerFrame : TcplFrame := { tcplOf 3 0 with payload := [data, data] }

/-- A READ in flight, with two notices queued, a lease that runs, and the READ's answer waiting. -/
def stepping : State :=
  { inFlight reading with
    pending := [.tcpl 1 answerFrame], notices := [⟨0, notice .portUp⟩, ⟨1, notice .portUp⟩], seq := 2, lease := 1, leaseTimer := some 1000 }

theorem test_laws_command_table : CommandTableLaw stepping := by
  refine ⟨by decide, ⟨List.pairwise_singleton _ _, by decide⟩, List.pairwise_singleton _ _, ⟨?_, by decide⟩, ?_⟩
  · decide
  · unfold LiveCountLaw; decide

theorem test_laws_extent_pool : ExtentPoolLaw stepping := by
  refine ⟨fun v => ?_, by decide⟩
  by_cases h : v = 1
  · subst h; exact ⟨100, rfl, by decide, by decide⟩
  · have : stepping.vol v = VolRec.reset := by revert v; decide
    rw [this]; exact ⟨rfl, rfl, rfl⟩

theorem mapSound_of {x : Extent} (h : x.Sound 100) (n m : Nat) : { online with live := [x], liveParents := n, splitParents := m }.MapSound := by
  refine ⟨fun h => absurd h (by simp [online]), List.pairwise_singleton _ _, List.pairwise_singleton _ _, ?_, fun h => absurd h (by simp [online])⟩
  intro y hy
  rw [List.mem_singleton.1 hy]
  exact h

theorem sound_extent : extent.Sound 100 := ⟨by decide, by decide, by decide, by decide, by decide, by decide, ⟨_, rfl, rfl⟩⟩

theorem mapSound_extent (n m : Nat) : { online with live := [extent], liveParents := n, splitParents := m }.MapSound := mapSound_of sound_extent n m

theorem mapSound_reset : VolRec.reset.MapSound :=
  ⟨fun _ => rfl, .nil, .nil, by simp [VolRec.reset], fun h => absurd h (by decide)⟩

theorem test_laws_live_map : LiveMapLaw stepping := by
  intro v
  by_cases h : v = 1
  · subst h
    rw [show stepping.vol 1 = { online with live := [extent], liveParents := 1, splitParents := 1 } by decide]
    exact mapSound_extent 1 1
  · rw [show stepping.vol v = VolRec.reset by revert v; decide]
    exact mapSound_reset

theorem test_laws_notices : NoticeLaw stepping := by
  unfold NoticeLaw; decide

theorem test_laws_manager : ManagerLaw stepping := by
  unfold ManagerLaw; decide

theorem test_laws_ports : PortLaw stepping := by
  intro p
  by_cases h : p = 1
  · subst h; constructor <;> decide
  · have : stepping.port p = PortRec.reset := by revert p; decide
    rw [this]; constructor <;> decide

theorem test_laws_bounds : BoundLaw stepping := by unfold BoundLaw; decide

theorem order_inFlight : OrderLaw (inFlight reading) where
  admission := ⟨List.pairwise_singleton _ _, by decide⟩
  listed := by decide
  sorted := by decide
  known := by decide
  reported := by decide
  held := by decide
  released := by unfold Unraced Races; decide
  waiting := by unfold Unraced Races; decide
  holding := by unfold Unraced Races; decide

theorem test_laws_order : OrderLaw stepping :=
  have h := order_inFlight
  ⟨h.admission, h.listed, h.sorted, h.known, h.reported, h.held, h.released, h.waiting, h.holding⟩

theorem test_laws_volume_counts : VolumeCountLaw stepping := by unfold VolumeCountLaw; decide

theorem test_laws_port_states : PortStateLaw stepping := by
  intro p
  by_cases h : p = 1
  · subst h; constructor <;> decide
  · have : stepping.port p = PortRec.reset := by revert p; decide
    rw [this]; constructor <;> decide

theorem test_laws_sub_commands : SubCommandLaw stepping where
  names := List.pairwise_singleton _ _
  fresh := by decide
  tagged p t e h := by
    have one : ∀ (p : Port) (t : DTag), (stepping.port p).tags[t] = .free ∨ (p = 1 ∧ t = 3 ∧ (stepping.port p).tags[t] = .issued 7) := by decide
    rcases one p t with h' | ⟨rfl, rfl, h'⟩ <;> rw [h'] at h <;> cases h
    exact ⟨entry, .head _, rfl, rfl, _, rfl, rfl⟩
  issued x hx i hi := by cases List.mem_singleton.1 hx; cases hi; decide
  queued := by decide
  waiting := by decide
  once := by decide

/-- The seven obligations that say a step keeps laws. -/
theorem test_witness_StepKeeps : ∃ s t, CommandTableLaw s ∧ ExtentPoolLaw s ∧ LiveMapLaw s ∧ VolumeCountLaw s ∧ NoticeLaw s ∧ ManagerLaw s ∧ PortLaw s
    ∧ PortStateLaw s ∧ SubCommandLaw s ∧ BoundLaw s ∧ OrderLaw s ∧ step s = .next t ∧ statuses t = [.good] :=
  ⟨stepping, _, test_laws_command_table, test_laws_extent_pool, test_laws_live_map, test_laws_volume_counts, test_laws_notices, test_laws_manager,
    test_laws_ports, test_laws_port_states, test_laws_sub_commands, test_laws_bounds, test_laws_order, rfl, by decide⟩

theorem test_witness_StepRunsFrontCommand : ∃ (s : State) (c : Instr) (rest : List Instr), s.pending = c :: rest := ⟨stepping, _, _, rfl⟩

/-- Every timer at its earliest moment. -/
def ticking : State :=
  { inFlight reading with now := 2000, ports := put (inFlight reading).ports 0 resetting, leaseTimer := some 2000 }

theorem test_witness_Idle :
    (∃ s : State, s.pending = [] ∧ (∀ t, s.leaseTimer = some t → s.now ≤ t)
      ∧ (∀ p : Port, ∀ t, (s.port p).state = .resetting → (s.port p).resetTimer = some t → s.now ≤ t)
      ∧ (∀ e ∈ s.subs, ∀ i, e.issue = some i → s.now ≤ i.deadline) ∧ s.now = 2000)
    ∧ (∃ (s : State) (t : Nat), s.pending = [] ∧ s.leaseTimer = some t ∧ t + 1 = s.now) := by
  refine ⟨⟨ticking, rfl, ?_, ?_, ?_, rfl⟩, ⟨{ State.reset with leaseTimer := some 1000, now := 1001 }, 1000, rfl, rfl, rfl⟩⟩
  · intro t h; cases h; decide
  · intro p t _ h
    have : ∀ q : Port, (ticking.port q).resetTimer = none ∨ (ticking.port q).resetTimer = some 2000 := by decide
    rcases this p with e | e <;> rw [e] at h <;> cases h
    decide
  · intro e he i h; cases List.mem_singleton.1 he; cases h; decide

theorem test_witness_Outbound : ∃ (s t : State) (f : UpFrame) (rest : List UpFrame),
    s.linkUp = true ∧ s.outbound = f :: rest ∧ t.linkUp = false ∧ t.outbound = f :: rest :=
  ⟨{ State.reset with linkUp := true, outbound := [.alr ⟨2, 1, 0⟩] }, { State.reset with outbound := [.alr ⟨2, 1, 0⟩] }, _, _, rfl, rfl, rfl, rfl⟩

theorem test_witness_FramesOfWrongLengthAreDropped :
    (∃ l : List Byte, l.head? ≠ some 0x01 ∧ l.head? ≠ some 0x02)
    ∧ (∃ l : List Byte, l.head? = some 0x01 ∧ l.length = 15)
    ∧ (∃ l : List Byte, l.head? = some 0x01 ∧ l.length = 16 + 511)
    ∧ (∃ l : List Byte, l.head? = some 0x01 ∧ (l.length - 16) / 512 = 2048 ∧ (l.length - 16) % 512 = 0)
    ∧ (∃ l : List Byte, l.head? = some 0x02 ∧ l.length = 5)
    ∧ (∃ l : List Byte, l.head? ≠ some 0xC1 ∧ l.head? ≠ some 0xC2)
    ∧ (∃ l : List Byte, l.head? = some 0xC1 ∧ l.length = 7)
    ∧ (∃ l : List Byte, l.head? = some 0xC1 ∧ l.length = 8 + 513)
    ∧ (∃ l : List Byte, l.head? = some 0xC1 ∧ (l.length - 8) / 512 = 1025 ∧ (l.length - 8) % 512 = 0)
    ∧ (∃ l : List Byte, l.head? = some 0xC2 ∧ l.length = 3) :=
  ⟨⟨[], by decide⟩, ⟨1 :: List.replicate 14 0, rfl, by simp⟩, ⟨1 :: List.replicate (15 + 511) 0, rfl, by simp⟩,
    ⟨1 :: List.replicate (15 + 2048 * 512) 0, rfl, by rw [List.length_cons, List.length_replicate], by rw [List.length_cons, List.length_replicate]⟩, ⟨[2, 0, 0, 0, 0], by decide⟩,
    ⟨[1], by decide⟩, ⟨0xC1 :: List.replicate 6 0, rfl, by simp⟩, ⟨0xC1 :: List.replicate (7 + 513) 0, rfl, by simp⟩,
    ⟨0xC1 :: List.replicate (7 + 1025 * 512) 0, rfl, by rw [List.length_cons, List.length_replicate], by rw [List.length_cons, List.length_replicate]⟩, ⟨[0xC2, 0, 0], by decide⟩⟩

/-- A CMD at its shortest and longest, and an ABT, each from initiator 15 and from 16; a TCPL at its shortest and longest; a TRDY. -/
theorem test_witness_FramesAreTaken :
    (∃ (l : List Byte) (n : Nat), l.head? = some 0x01 ∧ l.length = 16 + 512 * n ∧ n = 0 ∧ (byteAt l 1).toNat = 15)
    ∧ (∃ (l : List Byte) (n : Nat), l.head? = some 0x01 ∧ l.length = 16 + 512 * n ∧ n = 2047 ∧ (byteAt l 1).toNat = 16)
    ∧ (∃ l : List Byte, l.head? = some 0x02 ∧ l.length = 4 ∧ (byteAt l 1).toNat = 15)
    ∧ (∃ l : List Byte, l.head? = some 0x02 ∧ l.length = 4 ∧ (byteAt l 1).toNat = 16)
    ∧ (∃ (l : List Byte) (n : Nat), l.head? = some 0xC1 ∧ l.length = 8 + 512 * n ∧ n = 0)
    ∧ (∃ (l : List Byte) (n : Nat), l.head? = some 0xC1 ∧ l.length = 8 + 512 * n ∧ n = 1024)
    ∧ (∃ l : List Byte, l.head? = some 0xC2 ∧ l.length = 4) :=
  ⟨⟨1 :: 15 :: List.replicate 14 0, 0, rfl, by decide, rfl, rfl⟩,
    ⟨1 :: 16 :: List.replicate (14 + 512 * 2047) 0, 2047, rfl, by rw [List.length_cons, List.length_cons, List.length_replicate], rfl, rfl⟩,
    ⟨[2, 15, 0, 0], by decide⟩, ⟨[2, 16, 0, 0], by decide⟩, ⟨0xC1 :: List.replicate 7 0, 0, rfl, by decide, rfl⟩,
    ⟨0xC1 :: List.replicate (7 + 512 * 1024) 0, 1024, rfl, by rw [List.length_cons, List.length_replicate], rfl⟩, ⟨[0xC2, 0, 0, 0], by decide⟩⟩

/-- Reset with the link UP. -/
def linked : State := { State.reset with linkUp := true }

theorem test_witness_FieldsOutOfRange :
    (∃ (s : State) (f : CmdFrame), s.linkUp = false ∧ f.wf) ∧ (∃ (s : State) (f : CmdFrame), s.linkUp ∧ f.initiator.toNat = 16)
    ∧ (∃ (s : State) (f : AbtFrame), s.linkUp = false ∧ f.wf) ∧ (∃ (s : State) (f : AbtFrame), s.linkUp ∧ f.initiator.toNat = 16)
    ∧ (∃ (s : State) (f : CmdFrame) (i : Initiator), s.linkUp = true ∧ f.wf = true ∧ f.initiator.toNat = i.val ∧ f.volume.toNat = 64)
    ∧ (∃ (s : State) (f : CmdFrame) (i : Initiator), s.linkUp = true ∧ f.wf = true ∧ f.initiator.toNat = i.val ∧ f.operation.toNat = 0)
    ∧ (∃ (s : State) (f : CmdFrame) (i : Initiator), s.linkUp = true ∧ f.wf = true ∧ f.initiator.toNat = i.val ∧ f.operation.toNat = 5)
    ∧ (∃ (s : State) (f : CmdFrame) (i : Initiator), s.linkUp = true ∧ f.wf = true ∧ f.initiator.toNat = i.val ∧ f.cls.toNat = 4)
    ∧ (∃ (s : State) (f : CmdFrame) (i : Initiator), s.linkUp = true ∧ f.wf = true ∧ f.initiator.toNat = i.val ∧ f.count.toNat = 2048) :=
  ⟨⟨State.reset, cmdOf 1 0 1 0 0 1 [], by decide⟩, ⟨linked, { cmdOf 1 0 1 0 0 1 [] with initiator := 16 }, by decide⟩,
    ⟨State.reset, ⟨2, 7⟩, by decide⟩, ⟨linked, ⟨16, 7⟩, by decide⟩,
    ⟨linked, cmdOf 1 64 1 0 0 1 [], 2, by decide⟩, ⟨linked, cmdOf 1 0 0 0 0 1 [], 2, by decide⟩, ⟨linked, cmdOf 1 0 5 0 0 1 [], 2, by decide⟩,
    ⟨linked, cmdOf 1 0 1 4 0 1 [], 2, by decide⟩, ⟨linked, cmdOf 1 0 1 0 0 2048 [], 2, by decide⟩⟩

/-- The fields of a `cmdOf` frame, taken with the link UP. -/
theorem taken_cmdOf {s : State} {tag volume op cls : Byte} {start : BitVec 32} {count : BitVec 16} {payload : List Block}
    {v : Volume} {o : Op} {c : Sys2Proof.Class} (h1 : s.linkUp = true) (h2 : (cmdOf tag volume op cls start count payload).wf = true)
    (h3 : volume.toNat = v.val) (h4 : opOf op = some o) (h5 : cls.toNat = c.val) (h6 : count.toNat ≤ 2047) :
    Taken s (cmdOf tag volume op cls start count payload) 2 v o c := ⟨h1, h2, rfl, h3, h4, h5, h6⟩

/-- One CMD of initiator 2 that a state refuses with a status. -/
def Refused (st : Status) : Prop :=
  ∃ (s : State) (f : CmdFrame) (i : Initiator) (v : Volume) (op : Op) (c : Sys2Proof.Class), Taken s f i v op c ∧ firstFailure s i v op f = some st

theorem refused (s : State) (tag volume op : Byte) (start : BitVec 32) (count : BitVec 16) (payload : List Block) (v : Volume) (o : Op) {st : Status}
    (h : firstFailure s 2 v o (cmdOf tag volume op 1 start count payload) = some st)
    (h1 : s.linkUp = true := by decide) (h2 : (cmdOf tag volume op 1 start count payload).wf = true := by decide)
    (h3 : volume.toNat = v.val := by decide) (h4 : opOf op = some o := by decide) (h6 : count.toNat ≤ 2047 := by decide) : Refused st :=
  ⟨s, _, 2, v, o, 1, taken_cmdOf (v := v) (c := 1) h1 h2 h3 h4 (by decide) h6, h⟩

/-- Volume 1 ONLINE with 100 blocks and one extent, initiator 2 with FULL rights on it, port 1 UP. -/
def ready : State :=
  { withVol 1 { online with live := [extent] } (withPort1 upPort) with
    linkUp := true, freeExtents := 511, access := put State.reset.access 2 (put (State.reset.access[(2 : Initiator)]) 1 .full) }

/-- Every check of a CMD fails first somewhere, at the edge of its range. -/
theorem test_witness_FirstFailedCheck : Refused .malformed ∧ Refused .barred ∧ Refused .duplicateTag ∧ Refused .badOperation ∧ Refused .badCount
    ∧ Refused .badVolume ∧ Refused .noAccess ∧ Refused .writeProtected ∧ Refused .outOfRange ∧ Refused .creditExceeded
    ∧ Refused .controlBusy ∧ Refused .noBuffer ∧ Refused .tableBusy :=
  ⟨refused linked 1 0 2 0 1 [] 0 .write (by decide),
    refused { linked with initiators := put linked.initiators 2 ⟨8, true, 0⟩ } 1 0 1 0 1 [] 0 .read (by decide),
    refused (inFlight reading) 7 0 1 0 1 [] 0 .read (by decide),
    refused linked 1 0 4 0 1 [] 0 .drain (by decide),
    refused linked 1 1 1 0 1025 [] 1 .read (by decide),
    refused linked 1 1 1 0 1 [] 1 .read (by decide),
    refused { ready with access := State.reset.access } 1 1 1 0 1 [] 1 .read (by decide),
    refused { ready with volumes := put ready.volumes 1 { online with writeProtected := true } } 1 1 2 0 1 [data] 1 .write (by decide),
    refused ready 1 1 1 99 2 [] 1 .read (by decide),
    refused { linked with initiators := put linked.initiators 2 ⟨8, false, 8⟩ } 1 0 1 0 1 [] 0 .read (by decide),
    refused { linked with controlQueue := List.range 8 } 1 0 1 0 1 [] 0 .read (by decide),
    refused { ready with freeSlots := 1 } 1 1 1 10 2 [] 1 .read (by decide),
    refused { linked with parents := List.replicate 128 (parentOf 0 0 .read 0 1 .controlWait []) } 1 0 1 0 1 [] 0 .read (by decide)⟩

theorem order_ready : OrderLaw ready where
  admission := ⟨.nil, by decide⟩
  listed := by decide
  sorted := by decide
  known := by decide
  reported := by decide
  held := by decide
  released := by unfold Unraced Races; decide
  waiting := by unfold Unraced Races; decide
  holding := by unfold Unraced Races; decide

theorem live_ready : LiveMapLaw ready := by
  intro v
  by_cases h : v = 1
  · subst h
    rw [show ready.vol 1 = { online with live := [extent], liveParents := 0, splitParents := 0 } by decide]
    exact mapSound_extent 0 0
  · rw [show ready.vol v = VolRec.reset by revert v; decide]
    exact mapSound_reset

theorem admission_alive (p : Parent) (s : State) : AdmissionOrder (alive p s) :=
  ⟨List.pairwise_singleton _ _, fun q h => by rw [List.mem_singleton.1 h]; exact Nat.lt_succ_self _⟩

theorem admission_inFlight : AdmissionOrder (inFlight reading) := order_inFlight.admission

theorem key_alive (p : Parent) (s : State) : KeyLaw (alive p s) := List.pairwise_singleton _ _

theorem test_witness_AdmittedControlCommand :
    (∃ (s : State) (f : CmdFrame) (i : Initiator) (op : Op) (c : Sys2Proof.Class), AdmissionOrder s ∧ Taken s f i 0 op c
      ∧ firstFailure s i 0 op f = none ∧ s.executing.isSome ∧ s.manager = some i)
    ∧ (∃ (s : State) (f : CmdFrame) (i : Initiator) (op : Op) (c : Sys2Proof.Class), AdmissionOrder s ∧ Taken s f i 0 op c
      ∧ firstFailure s i 0 op f = none ∧ s.executing = none ∧ s.controlQueue = []) :=
  ⟨⟨active (controlOf .read 0 0 data) State.reset, cmdOf 1 0 2 1 0 1 [data], 2, .write, 1, admission_alive _ State.reset,
      taken_cmdOf (by decide) (by decide) (by decide) (by decide) (by decide) (by decide), by decide, by decide, by decide⟩,
    ⟨linked, cmdOf 1 0 1 1 0 1 [], 2, .read, 1, ⟨.nil, by decide⟩,
      taken_cmdOf (by decide) (by decide) (by decide) (by decide) (by decide) (by decide), by decide, by decide, by decide⟩⟩

/-- The last block of the earlier range is the only one shared. -/
theorem test_witness_ConflictingCommandIsHeld : ∃ (s : State) (f : CmdFrame) (i : Initiator) (v : Volume) (op : Op) (c : Sys2Proof.Class) (e : RangeEntry),
    OrderLaw s ∧ Taken s f i v op c ∧ firstFailure s i v op f = none ∧ v ≠ 0 ∧ op ≠ .drain ∧ e ∈ s.ranges[v]
    ∧ f.start.toNat + 1 = e.start + e.count ∧ e.start < f.start.toNat + f.count.toNat ∧ (op = .write ∨ e.op = .write) :=
  ⟨inFlight reading, cmdOf 1 1 2 1 13 1 [data], 2, 1, .write, 1, ⟨4, .read, 12, 2⟩, order_inFlight,
    taken_cmdOf (by decide) (by decide) (by decide) (by decide) (by decide) (by decide), by decide⟩

theorem test_witness_DrainIsHeld : ∃ (s : State) (f : CmdFrame) (i : Initiator) (v : Volume) (c : Sys2Proof.Class) (q : Parent),
    AdmissionOrder s ∧ Taken s f i v .drain c ∧ firstFailure s i v .drain f = none ∧ v ≠ 0 ∧ q ∈ s.parents ∧ q.initiator = i ∧ q.volume = v :=
  ⟨inFlight reading, cmdOf 1 1 4 1 0 0 [], 2, 1, 1, reading, admission_inFlight,
    taken_cmdOf (by decide) (by decide) (by decide) (by decide) (by decide) (by decide), by decide⟩

/-- Block 9 lies just before the one extent. -/
theorem test_witness_RangeOverHole : ∃ (s : State) (f : CmdFrame) (i : Initiator) (v : Volume) (op : Op) (c : Sys2Proof.Class) (b : Nat),
    OrderLaw s ∧ Taken s f i v op c ∧ firstFailure s i v op f = none ∧ v ≠ 0 ∧ op ≠ .drain ∧ (s.vol v).state = .online
    ∧ (∀ e ∈ s.ranges[v], f.start.toNat < e.start + e.count → e.start < f.start.toNat + f.count.toNat → op ≠ .write ∧ e.op ≠ .write)
    ∧ f.start.toNat ≤ b ∧ b < f.start.toNat + f.count.toNat
    ∧ (∀ x ∈ (s.vol v).live, b < x.first.toNat ∨ x.first.toNat + x.length.toNat ≤ b) :=
  ⟨ready, cmdOf 1 1 2 1 9 2 [data, data], 2, 1, .write, 1, 9, order_ready,
    taken_cmdOf (by decide) (by decide) (by decide) (by decide) (by decide) (by decide), by decide⟩

/-- The whole of the one extent is read, or verified. -/
theorem test_witness_RangeInsideOneExtent (op : Op) (h : op = .read ∨ op = .verify) :
    ∃ (s : State) (f : CmdFrame) (i : Initiator) (v : Volume) (c : Sys2Proof.Class) (n : Nat) (x : Extent) (y : Copy) (d : Port) (t : DTag),
    OrderLaw s ∧ LiveMapLaw s ∧ (∀ e ∈ s.subs, e.id < s.nextSub)
    ∧ Taken s f i v op c ∧ firstFailure s i v op f = none ∧ v ≠ 0 ∧ (s.vol v).state = .online
    ∧ (∀ e ∈ s.ranges[v], f.start.toNat < e.start + e.count → e.start < f.start.toNat + f.count.toNat → e.op ≠ .write)
    ∧ s.splitWait = [] ∧ s.subs.length < 256
    ∧ (s.vol v).live[n]? = some x ∧ x.first.toNat ≤ f.start.toNat ∧ f.start.toNat + f.count.toNat ≤ x.first.toNat + x.length.toNat
    ∧ x.copy? x.lead = some y ∧ y.port.toNat = d.val ∧ (s.port d).state = .up ∧ f.count.toNat ≤ (s.port d).maxTransfer
    ∧ (∀ k : Sys2Proof.Class, (s.port d).queues[k] = []) ∧ (s.port d).occupancy < (s.port d).window
    ∧ (s.port d).tags[t] = .free ∧ (∀ u : DTag, u < t → (s.port d).tags[u] ≠ .free) := by
  rcases h with rfl | rfl
  · exact ⟨ready, cmdOf 1 1 1 1 10 10 [], 2, 1, 1, 0, extent, ⟨1, 0x100, .current⟩, 1, 0, order_ready, live_ready, by decide,
      taken_cmdOf (by decide) (by decide) (by decide) (by decide) (by decide) (by decide), by decide⟩
  · exact ⟨ready, cmdOf 1 1 3 1 10 10 [], 2, 1, 1, 0, extent, ⟨1, 0x100, .current⟩, 1, 0, order_ready, live_ready, by decide,
      taken_cmdOf (by decide) (by decide) (by decide) (by decide) (by decide) (by decide), by decide⟩

theorem test_witness_UpstreamLinkLoss :
    (∃ s : State, s.linkUp = true ∧ AdmissionOrder s ∧ s.parents ≠ [] ∧ s.notices.length + 1 = 32)
    ∧ (∃ s : State, s.linkUp = true ∧ AdmissionOrder s ∧ s.parents ≠ [] ∧ s.notices.length = 32)
    ∧ (∃ s : State, s.linkUp = true ∧ AdmissionOrder s ∧ s.parents = []) :=
  ⟨⟨alive reading { State.reset with notices := List.replicate 31 ⟨0, notice .portUp⟩ }, rfl, admission_alive _ _, by decide⟩,
    ⟨alive reading { State.reset with notices := List.replicate 32 ⟨0, notice .portUp⟩ }, rfl, admission_alive _ _, by decide⟩,
    ⟨linked, rfl, ⟨.nil, by decide⟩, rfl⟩⟩

/-- A state that holds one parent of a state and tag 7, which an ABT names. -/
def Named (x : ParentState) (C : State → Parent → Prop) : Prop :=
  ∃ (s : State) (f : AbtFrame) (p : Parent), s.linkUp = true ∧ f.initiator.toNat = p.initiator.val ∧ f.tag = p.tag ∧ KeyLaw s
    ∧ AdmissionOrder s ∧ p ∈ s.parents ∧ p.state = x ∧ C s p

theorem named (p : Parent) (s : State) {C : State → Parent → Prop} (h : C (alive p s) p) : Named p.state C :=
  ⟨alive p s, ⟨BitVec.ofNat 8 p.initiator.val, p.tag⟩, p, rfl, by have := p.initiator.isLt; simp; omega, rfl, key_alive _ _, admission_alive _ _,
    List.mem_singleton.2 rfl, rfl, h⟩

theorem test_witness_AbortThatFreesNothing :
    (∃ (s : State) (f : AbtFrame) (i : Initiator), s.linkUp = true ∧ f.initiator.toNat = i.val ∧ (∀ p ∈ s.parents, ¬(p.initiator = i ∧ p.tag = f.tag)) ∧ s.parents ≠ [])
    ∧ Named .controlActive (fun _ _ => True) ∧ Named .controlLong (fun _ _ => True) ∧ Named .aborting (fun _ _ => True)
    ∧ Named .discarding (fun _ _ => True) :=
  ⟨⟨inFlight reading, ⟨2, 6⟩, 2, by decide⟩, named (parentOf 0 0 .read 0 1 .controlActive [none]) State.reset trivial,
    named (parentOf 0 0 .read 0 1 .controlLong [none]) State.reset trivial, named { reading with state := .aborting } State.reset trivial,
    named { reading with state := .discarding } State.reset trivial⟩

theorem test_witness_AbortOfWaitingParent : Named .controlWait (fun _ _ => True) ∧ Named .orderWait (fun _ _ => True)
    ∧ Named .switchWait (fun _ _ => True) ∧ Named .splitWait (fun s p => s.splitWait = [p.id])
    ∧ Named .splitWait (fun s p => ∃ q rest, s.splitWait = q :: rest ∧ q ≠ p.id) :=
  ⟨named (parentOf 0 0 .read 0 1 .controlWait [none]) State.reset trivial, named (parentOf 0 1 .read 0 1 .orderWait [none]) State.reset trivial,
    named (parentOf 0 1 .read 0 1 .switchWait [none]) State.reset trivial,
    named (parentOf 4 1 .read 0 1 .splitWait [none]) { State.reset with splitWait := [4] } rfl,
    named (parentOf 4 1 .read 0 1 .splitWait [none]) { State.reset with splitWait := [3, 4] } ⟨3, [4], rfl, by decide⟩⟩

theorem test_witness_AbortOfActiveParent :
    Named .active (fun s p => s.splitWait = [] ∧ ∃ e ∈ s.subs, e.parent = p.id ∧ e.issue ≠ none)
    ∧ Named .active (fun s p => s.splitWait = [] ∧ s.subs ≠ [] ∧ ∀ e ∈ s.subs, e.parent = p.id → e.issue = none) :=
  ⟨named reading { State.reset with subs := [entry] } ⟨rfl, entry, by decide, rfl, by decide⟩,
    named reading { State.reset with subs := [{ entry with issue := none }] } ⟨rfl, by decide, by decide⟩⟩

/-! ### Control commands -/

/-- A state in which a CONTROL_ACTIVE parent of an initiator that is the manager addresses a page, with a block in its slot. -/
def Met (op : Op) (pg sel : Nat) (b : Block) (C : State → Prop) : Prop :=
  ∃ (s : State) (p : Parent), Running p s ∧ s.manager = some p.initiator ∧ addressed p op pg sel ∧ p.slots = [some b] ∧ C s

theorem running_active (op : Op) (pg sel : Nat) (b : Block) (s : State) : Running (controlOf op pg sel b) (active (controlOf op pg sel b) s) :=
  ⟨admission_alive _ s, List.mem_singleton.2 rfl, rfl, rfl, rfl⟩

theorem running_other (op : Op) (pg sel : Nat) (b : Block) (m : Option Initiator) (s : State) :
    Running (controlOf op pg sel b) { active (controlOf op pg sel b) s with manager := m } :=
  ⟨admission_alive _ s, List.mem_singleton.2 rfl, rfl, rfl, rfl⟩

theorem met {op : Op} {pg sel : Nat} {b : Block} (s : State) {C : State → Prop} (hc : C (active (controlOf op pg sel b) s))
    (h : sel < 65536 := by decide) : Met op pg sel b C :=
  ⟨_, _, running_active op pg sel b s, rfl, ⟨rfl, rfl, h⟩, rfl, hc⟩

/-- A CONTROL_ACTIVE parent at an address. -/
def At (op : Op) (pg sel : Nat) (C : State → Parent → Prop) : Prop :=
  ∃ (s : State) (p : Parent), Running p s ∧ addressed p op pg sel ∧ C s p

theorem runs {op : Op} {pg sel : Nat} (m : Option Initiator) (s : State) {C : State → Parent → Prop}
    (hc : C { active (controlOf op pg sel data) s with manager := m } (controlOf op pg sel data)) (h : sel < 65536 := by decide) : At op pg sel C :=
  ⟨_, _, running_other op pg sel data m s, ⟨rfl, rfl, h⟩, hc⟩

/-- The first page beyond the last, an access that a page does not accept, and selectors just out of range. -/
theorem test_witness_InvalidControlAddress :
    At .read 14 0 (fun _ p => pageRows.any (PageRow.names p) = false) ∧ At .write 0 0 (fun _ p => pageRows.any (PageRow.names p) = false)
    ∧ At .read 4 64 (fun _ p => pageRows.any (PageRow.names p) = false) ∧ At .read 4 0 (fun _ p => pageRows.any (PageRow.names p) = false)
    ∧ At .read 12 1023 (fun _ p => pageRows.any (PageRow.names p) = false) :=
  ⟨runs none State.reset (by decide), runs none State.reset (by decide), runs none State.reset (by decide), runs none State.reset (by decide),
    runs none State.reset (by decide)⟩

/-- A command of a page that needs the manager, run by another initiator. -/
def Turned (c : Instr) : Prop := ∃ (s : State) (p : Parent), Running p s ∧ s.manager ≠ some p.initiator ∧ managedAddress p c

theorem turned {c : Instr} (op : Op) (pg sel : Nat) (b : Block) (h : managedAddress (controlOf op pg sel b) c) : Turned c :=
  ⟨_, _, running_other op pg sel b (some 3) State.reset, show some (3 : Initiator) ≠ some 2 by decide, h⟩

theorem test_witness_ManagedPage : Turned .noticesRead ∧ Turned .volumeRead ∧ Turned .define ∧ Turned .remove ∧ Turned .stage ∧ Turned .clear
    ∧ Turned .commit ∧ Turned .accessRead ∧ Turned .accessWrite ∧ Turned .initiatorRead ∧ Turned .initiatorWrite ∧ Turned .portRead
    ∧ Turned .portWrite ∧ Turned .portReset ∧ Turned .flushAll ∧ Turned .liveMapRead ∧ Turned .stagedMapRead :=
  have v (op : Op) (pg : Nat) (b : Block) : ∃ u : Volume, u ≠ 0 ∧ addressed (controlOf op pg 63 b) op pg u.val := ⟨63, by decide, rfl, rfl, by decide⟩
  have i (op : Op) (pg : Nat) : ∃ u : Initiator, addressed (controlOf op pg 15 data) op pg u.val := ⟨15, rfl, rfl, by decide⟩
  have d (op : Op) (pg : Nat) : ∃ u : Port, addressed (controlOf op pg 3 data) op pg u.val := ⟨3, rfl, rfl, by decide⟩
  have m (op : Op) (pg : Nat) : ∃ (u : Volume) (n : Nat), u ≠ 0 ∧ n < 1024 ∧ addressed (controlOf op pg 65535 data) op pg (u.val * 1024 + n) :=
    ⟨63, 1023, by decide, by decide, rfl, rfl, by decide⟩
  ⟨turned .read 2 0 data ⟨rfl, rfl, by decide⟩, turned .read 4 63 data (v _ _ _), turned .write 4 63 (page [1]) ⟨v _ _ _, _, rfl, by decide⟩,
    turned .write 4 63 (page [2]) ⟨v _ _ _, _, rfl, by decide⟩, turned .write 5 63 (page [1]) ⟨v _ _ _, _, rfl, by decide⟩,
    turned .write 5 63 (page [2]) ⟨v _ _ _, _, rfl, by decide⟩, turned .write 6 63 data (v _ _ _), turned .read 7 15 data (i _ _),
    turned .write 7 15 data (i _ _), turned .read 8 15 data (i _ _), turned .write 8 15 data (i _ _), turned .read 9 3 data (d _ _),
    turned .write 9 3 data (d _ _), turned .write 10 3 data (d _ _), turned .write 11 0 data ⟨rfl, rfl, by decide⟩,
    turned .read 12 65535 data (m _ _), turned .read 13 65535 data (m _ _)⟩

theorem test_witness_IdentityRead : At .read 0 0 (fun s _ => s.manager = none ∧ s.leaseTimer = none)
    ∧ At .read 0 0 (fun s _ => s.manager.isSome ∧ s.leaseTimer = none)
    ∧ At .read 0 0 (fun s _ => s.manager.isSome ∧ s.leaseTimer = some 255000 ∧ s.lease = 255) :=
  ⟨runs none State.reset (by decide), runs (some 2) State.reset (by decide),
    runs (some 2) { State.reset with lease := 255, leaseTimer := some 255000 } (by decide)⟩

theorem test_witness_StatusRead : At .read 1 0 (fun s _ => (s.port 1).state = .up) := runs none (withPort1 upPort) (by decide)

theorem test_witness_NoticesRead : Met .read 2 0 data (fun s => s.notices.length = 15) ∧ Met .read 2 0 data (fun s => s.notices.length = 16) :=
  ⟨met { State.reset with notices := List.replicate 15 ⟨0, notice .portUp⟩ } (by decide),
    met { State.reset with notices := List.replicate 16 ⟨0, notice .portUp⟩ } (by decide)⟩

/-- A CLAIM page WRITE with its data, and what the manager record holds. -/
def Claims (b : Block) (C : State → Parent → Prop) : Prop :=
  ∃ (s : State) (p : Parent), Running p s ∧ addressed p .write 3 0 ∧ p.slots = [some b] ∧ C s p

theorem claims {b : Block} (m : Option Initiator) (s : State) {C : State → Parent → Prop}
    (hc : C { active (controlOf .write 3 0 b) s with manager := m } (controlOf .write 3 0 b)) : Claims b C :=
  ⟨_, _, running_other .write 3 0 b m s, ⟨rfl, rfl, by decide⟩, rfl, hc⟩

theorem test_witness_ClaimAndRelease :
    (∃ b : Block, byteAt b 0 ≠ 1 ∧ byteAt b 0 ≠ 2 ∧ Claims b fun _ _ => True)
    ∧ (∃ b : Block, byteAt b 0 = 1 ∧ (word16At b 2).toNat = 256 ∧ Claims b fun _ _ => True)
    ∧ (∃ b : Block, byteAt b 0 = 1 ∧ (word16At b 2).toNat = 255 ∧ Claims b (fun s _ => s.manager = none ∧ s.notices = [])
        ∧ Claims b (fun s _ => s.manager = none ∧ s.notices.length = 1) ∧ Claims b (fun s p => s.manager = some p.initiator)
        ∧ Claims b (fun s p => ∃ m, s.manager = some m ∧ m ≠ p.initiator))
    ∧ (∃ b : Block, byteAt b 0 = 1 ∧ (word16At b 2).toNat = 0 ∧ Claims b fun s _ => s.manager = none)
    ∧ (∃ b : Block, byteAt b 0 = 2 ∧ Claims b (fun s p => s.manager = some p.initiator) ∧ Claims b (fun s p => s.manager ≠ some p.initiator)) :=
  ⟨⟨page [3], by decide, by decide, claims none State.reset trivial⟩, ⟨page [1, 0, 1, 0], by decide, by decide, claims none State.reset trivial⟩,
    ⟨page [1, 0, 0, 255], by decide, by decide, claims none State.reset (by decide),
      claims none { State.reset with notices := [⟨0, notice .portUp⟩] } (by decide), claims (some 2) State.reset (by decide),
      claims (some 3) State.reset ⟨3, by decide⟩⟩,
    ⟨page [1], by decide, by decide, claims none State.reset (by decide)⟩,
    ⟨page [2], by decide, claims (some 2) State.reset (by decide), claims none State.reset (by decide)⟩⟩

theorem test_witness_VolumeRead : Met .read 4 63 data (fun s => (s.vol 63).state = .absent) := met State.reset (by decide)

/-- A DEFINE of a capacity. -/
def defineData (n : Byte) : Block := page [1, 1, 0, 0, 0, 0, 0, n]

theorem test_witness_Define :
    Met .write 4 1 (page [3]) (fun _ => byteAt (page [3]) 0 ≠ 1 ∧ byteAt (page [3]) 0 ≠ 2)
    ∧ Met .write 4 1 (page [1, 2]) (fun _ => byteAt (page [1, 2]) 0 = 1 ∧ (byteAt (page [1, 2]) 1).toNat = 2)
    ∧ Met .write 4 1 (defineData 0) (fun s => byteAt (defineData 0) 0 = 1 ∧ (byteAt (defineData 0) 1).toNat = 1
        ∧ (word32At (defineData 0) 4).toNat = 0 ∧ (s.vol 1).state = .absent)
    ∧ Met .write 4 1 (defineData 0) (fun s => (word32At (defineData 0) 4).toNat = 0 ∧ (s.vol 1).state = .online)
    ∧ Met .write 4 1 (defineData 1) (fun s => (word32At (defineData 1) 4).toNat = 1 ∧ (s.vol 1).state = .absent)
    ∧ Met .write 4 1 (defineData 20) (fun s => (word32At (defineData 20) 4).toNat = 20 ∧ (s.vol 1).state = .online
        ∧ (s.vol 1).live ≠ [] ∧ ∀ x ∈ (s.vol 1).live, x.first.toNat + x.length.toNat ≤ 20)
    ∧ Met .write 4 1 (defineData 19) (fun s => (word32At (defineData 19) 4).toNat = 19 ∧ (s.vol 1).state = .online
        ∧ ∃ x, (s.vol 1).live[0]? = some x ∧ 19 < x.first.toNat + x.length.toNat)
    ∧ Met .write 4 1 (defineData 19) (fun s => (s.vol 1).state = .switching) ∧ Met .write 4 1 (defineData 19) (fun s => (s.vol 1).state = .retiring) :=
  ⟨met State.reset (by decide), met State.reset (by decide), met State.reset (by decide), met (withVol1 online) (by decide), met State.reset (by decide),
    met (withVol1 { online with live := [extent] }) (by decide), met (withVol1 { online with live := [extent] }) ⟨by decide, by decide, extent, by decide⟩,
    met (withVol1 { online with state := .switching }) (by decide), met (withVol1 { online with state := .retiring }) (by decide)⟩

theorem test_witness_Stage :
    Met .write 5 1 (page [3]) (fun _ => byteAt (page [3]) 0 ≠ 1 ∧ byteAt (page [3]) 0 ≠ 2)
    ∧ Met .write 5 1 (page [1, 1]) (fun s => byteAt (page [1, 1]) 0 = 1 ∧ (s.vol 1).state = .absent)
    ∧ Met .write 5 1 (page [1, 1]) (fun s => (s.vol 1).state = .switching) ∧ Met .write 5 1 (page [1, 1]) (fun s => (s.vol 1).state = .retiring)
    ∧ Met .write 5 1 (page [1, 0]) (fun s => (s.vol 1).state = .online ∧ (byteAt (page [1, 0]) 1).toNat = 0)
    ∧ Met .write 5 1 (page [1, 17]) (fun s => (s.vol 1).state = .online ∧ (byteAt (page [1, 17]) 1).toNat = 17)
    ∧ Met .write 5 1 (page [1, 16]) (fun s => (s.vol 1).state = .online ∧ (byteAt (page [1, 16]) 1).toNat = 16 ∧ s.freeExtents = 15)
    ∧ Met .write 5 1 (page [1, 16]) (fun s => (s.vol 1).state = .online ∧ (byteAt (page [1, 16]) 1).toNat = 16 ∧ s.freeExtents = 16)
    ∧ Met .write 5 1 (page [1, 1]) (fun s => (s.vol 1).state = .online ∧ (byteAt (page [1, 1]) 1).toNat = 1 ∧ s.freeExtents = 1) :=
  ⟨met State.reset (by decide), met State.reset (by decide), met (withVol1 { online with state := .switching }) (by decide),
    met (withVol1 { online with state := .retiring }) (by decide), met (withVol1 online) (by decide), met (withVol1 online) (by decide),
    met { withVol1 online with freeExtents := 15 } (by decide), met { withVol1 online with freeExtents := 16 } (by decide),
    met { withVol1 online with freeExtents := 1 } (by decide)⟩

/-- The action byte 02h, as CLEAR and REMOVE write it. -/
theorem action_two : byteAt (page [2]) 0 = 2 := by decide

theorem test_witness_ClearAndRemove :
    byteAt (page [2]) 0 = 2
    ∧ Met .write 5 1 (page [2]) (fun s => (s.vol 1).state = .absent) ∧ Met .write 5 1 (page [2]) (fun s => (s.vol 1).state = .switching)
    ∧ Met .write 5 1 (page [2]) (fun s => (s.vol 1).state = .online ∧ (s.vol 1).staged = [extent])
    ∧ Met .write 4 1 (page [2]) (fun s => (s.vol 1).state = .absent) ∧ Met .write 4 1 (page [2]) (fun s => (s.vol 1).state = .retiring)
    ∧ Met .write 4 1 (page [2]) (fun s => (s.vol 1).state = .online ∧ (s.vol 1).liveParents = 1)
    ∧ Met .write 4 1 (page [2]) (fun s => (s.vol 1).state = .online ∧ (s.vol 1).liveParents = 0) :=
  ⟨action_two, met State.reset (by decide), met (withVol1 { online with state := .switching }) (by decide), met (withVol1 { online with staged := [extent] }) (by decide),
    met State.reset (by decide), met (withVol1 { online with state := .retiring }) (by decide), met (withVol1 { online with liveParents := 1 }) (by decide),
    met (withVol1 online) (by decide)⟩

/-- `extent` of a volume one block too small for it. -/
theorem extent_bad : extent.Bad 19 [] := .inr (.inr (.inl (by decide)))

theorem extent_good : ¬ extent.Bad 20 [] := by unfold Extent.Bad; decide

theorem test_witness_Commit :
    Met .write 6 1 data (fun s => (s.vol 1).state = .absent) ∧ Met .write 6 1 data (fun s => (s.vol 1).state = .switching)
    ∧ Met .write 6 1 data (fun s => (s.vol 1).state = .online ∧ (s.vol 1).capacity = some 19 ∧ (s.vol 1).staged = [extent] ∧ extent.Bad 19 [])
    ∧ Met .write 6 1 data (fun s => (s.vol 1).state = .online ∧ (s.vol 1).capacity = some 20 ∧ (s.vol 1).staged = [extent] ∧ ¬ extent.Bad 20 []
        ∧ (s.vol 1).splitParents = 1)
    ∧ Met .write 6 1 data (fun s => (s.vol 1).state = .online ∧ (s.vol 1).capacity = some 20 ∧ (s.vol 1).staged = [extent] ∧ ¬ extent.Bad 20 []
        ∧ (s.vol 1).splitParents = 0 ∧ s.switchHolds[(1 : Volume)] = []) :=
  ⟨met State.reset (by decide), met (withVol1 { online with state := .switching }) (by decide),
    met (withVol1 { online with capacity := some 19, staged := [extent] }) ⟨by decide, by decide, by decide, extent_bad⟩,
    met (withVol1 { online with capacity := some 20, staged := [extent], splitParents := 1 }) ⟨by decide, by decide, by decide, extent_good, by decide⟩,
    met (withVol1 { online with capacity := some 20, staged := [extent] }) ⟨by decide, by decide, by decide, extent_good, by decide⟩⟩

theorem test_witness_MapReads : Met .read 12 (1 * 1024 + 0) data (fun s => (s.vol 1).live.length = 1)
    ∧ Met .read 13 (63 * 1024 + 1023) data (fun s => (s.vol 63).staged = []) :=
  ⟨met (withVol1 { online with live := [extent] }) (by decide), met State.reset (by decide)⟩

theorem test_witness_AccessPage : Met .read 7 15 data (fun _ => True)
    ∧ Met .write 7 15 (page [0, 3]) (fun _ => (byteAt (page [0, 3]) 1).toNat = 3)
    ∧ Met .write 7 15 (page [0, 1]) (fun s => byteAt (page [0, 1]) 1 = 1 ∧ (s.vol 1).state = .absent)
    ∧ Met .write 7 15 (page [0, 2]) (fun s => ∀ v : Volume, v ≠ 0 → (byteAt (page [0, 2]) v.val).toNat ≤ 2 ∧ (byteAt (page [0, 2]) v.val = 0 ∨ (s.vol v).state ≠ .absent)) :=
  ⟨met State.reset trivial, met State.reset (by decide), met State.reset (by decide), met (withVol1 online) (by decide)⟩

theorem test_witness_InitiatorPage : Met .read 8 15 data (fun _ => True)
    ∧ Met .write 8 15 (page [0]) (fun _ => (byteAt (page [0]) 0).toNat = 0)
    ∧ Met .write 8 15 (page [33]) (fun _ => (byteAt (page [33]) 0).toNat = 33)
    ∧ Met .write 8 15 (page [1, 2]) (fun _ => (byteAt (page [1, 2]) 0).toNat = 1 ∧ (byteAt (page [1, 2]) 1).toNat = 2)
    ∧ Met .write 8 15 (page [32, 1]) (fun _ => (byteAt (page [32, 1]) 0).toNat = 32 ∧ (byteAt (page [32, 1]) 1).toNat = 1) :=
  ⟨met State.reset trivial, met State.reset (by decide), met State.reset (by decide), met State.reset (by decide), met State.reset (by decide)⟩

/-- PORT write data. -/
def portData (w : Byte) (l m : Nat) : Block := page ([w, 0, 0, 0] ++ bytes16 l ++ bytes16 m)

/-- A PORT write of port 1 with three values. -/
def Writes (w : Byte) (l m : Nat) (C : PortRec → Prop) : Prop :=
  (word16At (portData w l m) 4).toNat = l ∧ (word16At (portData w l m) 6).toNat = m ∧ byteAt (portData w l m) 0 = w
    ∧ Met .write 9 1 (portData w l m) fun s => C (s.port 1)

theorem test_witness_PortPage : Met .read 9 3 data (fun _ => True)
    ∧ Writes 0 10 8 (fun _ => True) ∧ Writes 17 10 8 (fun _ => True) ∧ Writes 1 9 8 (fun _ => True) ∧ Writes 16 60001 8 (fun _ => True)
    ∧ Writes 1 10 7 (fun _ => True) ∧ Writes 16 60000 1025 (fun _ => True)
    ∧ Writes 8 60000 1024 (fun r => r.window = 8 ∧ r.state = .up) ∧ Writes 16 10 8 (fun r => r.state = .down)
    ∧ Writes 1 10 8 (fun r => r.state = .up ∧ r.window ≠ 1 ∧ r.quarantinedTags = 1 ∧ ∀ c : Sys2Proof.Class, r.queues[c] = []) :=
  ⟨met State.reset trivial, ⟨by decide, by decide, by decide, met State.reset trivial⟩, ⟨by decide, by decide, by decide, met State.reset trivial⟩,
    ⟨by decide, by decide, by decide, met State.reset trivial⟩, ⟨by decide, by decide, by decide, met State.reset trivial⟩,
    ⟨by decide, by decide, by decide, met State.reset trivial⟩, ⟨by decide, by decide, by decide, met State.reset trivial⟩,
    ⟨by decide, by decide, by decide, met (withPort1 upPort) (by decide)⟩, ⟨by decide, by decide, by decide, met State.reset (by decide)⟩,
    ⟨by decide, by decide, by decide, met (withPort1 { upPort with tags := put upPort.tags 3 .quarantined }) (by decide)⟩⟩

theorem test_witness_PortReset :
    Met .write 10 1 data (fun s => (s.port 1).state = .down) ∧ Met .write 10 1 data (fun s => (s.port 1).state = .resetting ∧ (s.port 1).pendingReset ≠ none)
    ∧ Met .write 10 1 data (fun s => (s.port 1).state = .resetting ∧ (s.port 1).pendingReset = none)
    ∧ Met .write 10 1 data (fun s => (s.port 1).state = .up ∧ ∀ t : DTag, (s.port 1).tags[t].isIssued = false)
    ∧ Met .write 10 1 data (fun s => (s.port 1).state = .halted ∧ ∀ t : DTag, (s.port 1).tags[t].isIssued = false) :=
  ⟨met State.reset (by decide), met (withPort1 { resetting with pendingReset := some 9 }) (by decide), met (withPort1 resetting) (by decide),
    met (withPort1 upPort) (by decide), met (withPort1 { upPort with state := .halted, reason := some .tagsExhausted }) (by decide)⟩

theorem test_witness_FlushAllWaits :
    Met .write 11 0 data (fun s => s.flush ≠ none)
    ∧ Met .write 11 0 data (fun s => s.flush = none ∧ (∀ q ∈ s.parents, q.volume = 0) ∧ ∀ d : Port, (s.port d).state = .down)
    ∧ Met .write 11 0 data (fun s => s.flush = none ∧ (∀ q ∈ s.parents, q.volume = 0)
        ∧ (∀ d : Port, (s.port d).state = .down ∨ (s.port d).state = .resetting) ∧ ∃ d : Port, (s.port d).state = .resetting) :=
  ⟨met { State.reset with flush := some ⟨9, none, [1]⟩ } (by decide), met State.reset (by decide), met (withPort1 resetting) (by decide)⟩

/-- FLUSH ALL behind a READ that waits in ORDER_WAIT, every port UP. -/
def flushing (p q : Parent) : State :=
  { State.reset with
    parents := [q, p], nextParent := 2, executing := some 1, manager := some 2, ports := Vector.replicate 4 upPort
    holds := put State.reset.holds 1 [⟨0, .range⟩] }

theorem test_witness_FlushAllAborts : ∃ (s : State) (p q : Parent), Running p s ∧ s.manager = some p.initiator ∧ addressed p .write 11 0 ∧ s.flush = none
    ∧ s.splitWait = [] ∧ q ∈ s.parents ∧ q.volume ≠ 0 ∧ q.state = .orderWait ∧ (∀ r ∈ s.parents, r.volume ≠ 0 → r = q)
    ∧ (∀ d : Port, (s.port d).state = .up ∧ ∀ t : DTag, (s.port d).tags[t].isIssued = false) :=
  ⟨flushing { controlOf .write 11 0 data with id := 1 } (parentOf 0 1 .read 12 2 .orderWait [none, none]), _, _,
    ⟨⟨by decide, by decide⟩, .tail _ (.head _), rfl, rfl, rfl⟩, by decide, ⟨rfl, rfl, by decide⟩, by decide, rfl, .head _, by decide, by decide, by decide, by decide⟩

/-! ### Reports, ports and answers -/

/-- The parent of a long operation. -/
def longOf : Parent := parentOf 0 0 .write (6 * 65536 + 1) 1 .controlLong [some data]

/-- A state that holds the live parent of a long operation. -/
def Long (C : State → Parent → Prop) : Prop := ∃ (s : State) (p : Parent), LongParent p s ∧ C s p

theorem long (s : State) {C : State → Parent → Prop} (h : C (alive longOf s) longOf) : Long C :=
  ⟨_, _, ⟨admission_alive _ s, List.mem_singleton.2 rfl, rfl, rfl⟩, h⟩

/-- Reset with a report for volume 1 on its way to the Map Unit. -/
def reported (split : Bool) (r : VolRec) : State := { withVol1 r with mapReports := [⟨1, split⟩] }

theorem test_witness_FreeReportLowers : ∃ (s : State) (k : Nat) (r : MapReport), s.mapReports[k]? = some r
    ∧ ¬((s.vol r.volume).state = .switching ∧ r.split = true ∧ (s.vol r.volume).splitParents ≤ 1)
    ∧ ¬((s.vol r.volume).state = .retiring ∧ (s.vol r.volume).liveParents ≤ 1) :=
  ⟨reported true { online with state := .switching, liveParents := 2, splitParents := 2 }, 0, ⟨1, true⟩, by decide⟩

theorem test_witness_LastFreeReport :
    (∃ (s : State) (k : Nat) (r : MapReport), s.mapReports[k]? = some r ∧ (s.vol r.volume).state = .switching ∧ r.split = true
      ∧ (s.vol r.volume).splitParents = 1 ∧ s.switchHolds[r.volume] = [] ∧ (s.vol r.volume).longParent = none)
    ∧ Long (fun s p => ∃ (k : Nat) (r : MapReport), s.mapReports[k]? = some r ∧ (s.vol r.volume).state = .switching ∧ r.split = true
      ∧ (s.vol r.volume).splitParents = 1 ∧ s.switchHolds[r.volume] = [] ∧ (s.vol r.volume).longParent = some p.id)
    ∧ (∃ (s : State) (k : Nat) (r : MapReport), s.mapReports[k]? = some r ∧ (s.vol r.volume).state = .retiring
      ∧ (s.vol r.volume).liveParents = 1 ∧ (s.vol r.volume).longParent = none)
    ∧ Long (fun s p => ∃ (k : Nat) (r : MapReport), s.mapReports[k]? = some r ∧ (s.vol r.volume).state = .retiring
      ∧ (s.vol r.volume).liveParents = 1 ∧ (s.vol r.volume).longParent = some p.id) :=
  ⟨⟨reported true { online with state := .switching, liveParents := 1, splitParents := 1 }, 0, ⟨1, true⟩, by decide⟩,
    long (reported true { online with state := .switching, liveParents := 1, splitParents := 1, longParent := some 0 }) ⟨0, ⟨1, true⟩, by decide⟩,
    ⟨reported false { online with state := .retiring, liveParents := 1 }, 0, ⟨1, false⟩, by decide⟩,
    long (reported false { online with state := .retiring, liveParents := 1, longParent := some 0 }) ⟨0, ⟨1, false⟩, by decide⟩⟩

/-- A READ held behind the entry of a freed WRITE, whose report is on its way, and behind that of a WRITE that is live when `live`. -/
def heldBehind (live : Bool) : State :=
  { State.reset with
    parents := (if live then [parentOf 1 1 .write 12 1 .active [none]] else []) ++ [{ parentOf 2 1 .read 12 2 .orderWait [none, none] with tag := 8 }]
    nextParent := 3
    orderReports := [⟨1, 0⟩]
    ranges := put State.reset.ranges 1 ([⟨0, .write, 13, 1⟩] ++ (if live then [⟨1, .write, 12, 1⟩] else []) ++ [⟨2, .read, 12, 2⟩])
    holds := put State.reset.holds 1 [⟨2, .range⟩]
    volumes := put State.reset.volumes 1 { online with state := .switching } }

theorem order_heldBehind (b : Bool) : OrderLaw (heldBehind b) where
  admission := by cases b <;> (unfold AdmissionOrder; decide)
  listed := by cases b <;> decide
  sorted := by cases b <;> decide
  known := by cases b <;> decide
  reported := by cases b <;> decide
  held := by cases b <;> decide
  released := by unfold Unraced Races; cases b <;> decide
  waiting := by unfold Unraced Races; cases b <;> decide
  holding := by unfold Unraced Races; cases b <;> decide

/-- A DRAIN held behind a live parent of its initiator. -/
def heldDrain : State :=
  { State.reset with
    parents := [parentOf 1 1 .verify 12 1 .active [], { parentOf 2 1 .drain 0 0 .orderWait [] with tag := 8, drainPhase := some .one }]
    nextParent := 3
    orderReports := [⟨1, 0⟩]
    ranges := put State.reset.ranges 1 [⟨0, .verify, 13, 1⟩, ⟨1, .verify, 12, 1⟩]
    holds := put State.reset.holds 1 [⟨2, .drain⟩] }

theorem order_heldDrain : OrderLaw heldDrain where
  admission := by unfold AdmissionOrder; decide
  listed := by decide
  sorted := by decide
  known := by decide
  reported := by decide
  held := by decide
  released := by unfold Unraced Races; decide
  waiting := by unfold Unraced Races; decide
  holding := by unfold Unraced Races; decide

theorem test_witness_FreeReportReTests :
    (∃ (s : State) (k : Nat) (r : OrderReport), OrderLaw s ∧ s.orderReports[k]? = some r ∧ s.holds[r.volume] ≠ [] ∧ ∀ h ∈ s.holds[r.volume],
      h.kind = .range ∧ ∃ x ∈ s.ranges[r.volume], ∃ y ∈ s.ranges[r.volume], x.parent = h.parent ∧ x.parent ≠ r.parent ∧ y.parent ≠ r.parent
        ∧ y.parent < x.parent ∧ x.start < y.start + y.count ∧ y.start < x.start + x.count ∧ (x.op = .write ∨ y.op = .write))
    ∧ (∃ (s : State) (k : Nat) (r : OrderReport), OrderLaw s ∧ s.orderReports[k]? = some r ∧ s.holds[r.volume] ≠ [] ∧ ∀ h ∈ s.holds[r.volume],
      h.kind = .drain ∧ ∃ p ∈ s.parents, ∃ q ∈ s.parents, p.id = h.parent ∧ q.id < p.id ∧ q.initiator = p.initiator ∧ q.volume = p.volume)
    ∧ (∃ (s : State) (k : Nat) (r : OrderReport) (p : Parent), OrderLaw s ∧ s.orderReports[k]? = some r ∧ p ∈ s.parents ∧ p.volume = r.volume
      ∧ r.volume ≠ 0 ∧ p.op ≠ .drain ∧ s.holds[r.volume] = [⟨p.id, .range⟩]
      ∧ (∀ y ∈ s.ranges[r.volume], y.parent ≠ r.parent → y.parent < p.id →
          ¬(p.start < y.start + y.count ∧ y.start < p.start + p.count ∧ (p.op = .write ∨ y.op = .write)))
      ∧ (s.vol r.volume).state = .switching ∧ s.switchHolds[r.volume] = []) :=
  ⟨⟨heldBehind true, 0, ⟨1, 0⟩, order_heldBehind _, by decide⟩, ⟨heldDrain, 0, ⟨1, 0⟩, order_heldDrain, by decide⟩,
    ⟨heldBehind false, 0, ⟨1, 0⟩, _, order_heldBehind _, by decide, .head _, by decide⟩⟩

theorem test_witness_GoneReports :
    (∃ (s : State) (k : Nat) (g : GoneMap), s.goneMap[k]? = some g ∧ (s.vol g.volume).longParent = some g.parent)
    ∧ (∃ (s : State) (k : Nat) (g : GonePort), s.gonePort[k]? = some g ∧ (s.port g.port).pendingReset = some g.parent)
    ∧ (∃ (s : State) (k : Nat) (id : ParentRef) (f : FlushRec), s.goneFlush[k]? = some id ∧ s.flush = some f ∧ f.parent = some id) :=
  ⟨⟨{ withVol1 { online with longParent := some 4 } with goneMap := [⟨1, 4⟩] }, 0, ⟨1, 4⟩, by decide⟩,
    ⟨{ withPort1 { resetting with pendingReset := some 4 } with gonePort := [⟨1, 4⟩] }, 0, ⟨1, 4⟩, by decide⟩,
    ⟨{ State.reset with flush := some ⟨4, some 4, [1]⟩, goneFlush := [4] }, 0, 4, ⟨4, some 4, [1]⟩, by decide⟩⟩

theorem test_witness_ResetExchange :
    (∃ (s : State) (d : Port), (s.port d).state = .down)
    ∧ (∃ (s : State) (d : Port), (s.port d).state = .resetting ∧ (s.port d).resetTimer = some s.now ∧ (s.port d).attempts = 2)
    ∧ (∃ (s : State) (d : Port), (s.port d).state = .resetting ∧ (s.port d).resetTimer = some s.now ∧ (s.port d).attempts = 3
        ∧ (∀ c : Sys2Proof.Class, (s.port d).queues[c] = []) ∧ (s.port d).flushWaiters = [] ∧ (s.port d).pendingReset = none)
    ∧ Long (fun s p => (s.port 1).state = .resetting ∧ (s.port 1).resetTimer = some s.now ∧ (s.port 1).attempts = 3
        ∧ (∀ c : Sys2Proof.Class, (s.port 1).queues[c] = []) ∧ (s.port 1).flushWaiters = [] ∧ (s.port 1).pendingReset = some p.id) :=
  ⟨⟨State.reset, 1, by decide⟩, ⟨{ withPort1 { resetting with attempts := 2 } with now := 2000 }, 1, by decide⟩,
    ⟨{ withPort1 { resetting with attempts := 3 } with now := 2000 }, 1, by decide⟩,
    long { withPort1 { resetting with attempts := 3, pendingReset := some 0 } with now := 2000 } (by decide)⟩

theorem test_witness_TargetLinkLoss :
    (∃ (s : State) (d : Port), (s.port d).state = .halted ∧ (∀ t : DTag, (s.port d).tags[t].isIssued = false) ∧ (s.port d).quarantinedTags = 1
      ∧ (∀ c : Sys2Proof.Class, (s.port d).queues[c] = []) ∧ (s.port d).flushWaiters = [] ∧ (s.port d).pendingReset = none)
    ∧ Long (fun s p => (s.port 1).state = .resetting ∧ (∀ t : DTag, (s.port 1).tags[t].isIssued = false)
      ∧ (∀ c : Sys2Proof.Class, (s.port 1).queues[c] = []) ∧ (s.port 1).flushWaiters = [] ∧ (s.port 1).pendingReset = some p.id) :=
  ⟨⟨withPort1 { upPort with state := .halted, reason := some .tagsExhausted, window := 1, tags := put upPort.tags 0 .quarantined }, 1, by decide⟩,
    long (withPort1 { resetting with pendingReset := some 0 }) (by decide)⟩

theorem test_witness_TrdyEndsReset :
    (∃ (s : State) (d : Port), (s.port d).state = .up)
    ∧ (∃ (s : State) (d : Port), (s.port d).state = .resetting ∧ (∀ c : Sys2Proof.Class, (s.port d).queues[c] = [])
        ∧ (s.port d).pendingReset = none ∧ (s.port d).flushWaiters = [])
    ∧ Long (fun s p => (s.port 1).state = .resetting ∧ (∀ c : Sys2Proof.Class, (s.port 1).queues[c] = [])
        ∧ (s.port 1).pendingReset = some p.id ∧ (s.port 1).flushWaiters = [])
    ∧ Long (fun s p => ∃ f : FlushRec, (s.port 1).state = .resetting ∧ (∀ c : Sys2Proof.Class, (s.port 1).queues[c] = [])
        ∧ (s.port 1).pendingReset = none ∧ (s.port 1).flushWaiters = [f.op] ∧ s.flush = some f ∧ f.awaited = [1] ∧ f.parent = some p.id) :=
  ⟨⟨withPort1 upPort, 1, by decide⟩, ⟨withPort1 resetting, 1, by decide⟩, long (withPort1 { resetting with pendingReset := some 0 }) (by decide),
    long { withPort1 { resetting with flushWaiters := [0] } with flush := some ⟨0, some 0, [1]⟩ } ⟨⟨0, some 0, [1]⟩, by decide⟩⟩

theorem test_witness_UnknownTag :
    (∃ (s : State) (d : Port) (t : DTag) (f : TcplFrame), f.wf = true ∧ (s.port d).state = .up ∧ f.tag.toNat = t.val ∧ (s.port d).tags[t] = .free)
    ∧ (∃ (s : State) (d : Port) (t : DTag) (f : TcplFrame), f.wf = true ∧ (s.port d).state = .halted ∧ f.tag.toNat = t.val ∧ (s.port d).tags[t] = .free) :=
  ⟨⟨withPort1 upPort, 1, 15, tcplOf 15 0, by decide⟩, ⟨withPort1 { upPort with state := .halted, reason := some .tagsExhausted }, 1, 0, tcplOf 0 0, by decide⟩⟩

theorem test_witness_LateAndStrayTcpls :
    (∃ (s : State) (d : Port) (f : TcplFrame), f.wf = true ∧ (s.port d).state = .down)
    ∧ (∃ (s : State) (d : Port) (f : TcplFrame), f.wf = true ∧ (s.port d).state = .resetting)
    ∧ (∃ (s : State) (d : Port) (f : TcplFrame), f.wf = true ∧ (s.port d).state = .up ∧ f.tag.toNat = 16)
    ∧ (∃ (s : State) (d : Port) (f : TcplFrame) (t : DTag), f.wf = true ∧ (s.port d).state = .halted ∧ f.tag.toNat = t.val ∧ (s.port d).tags[t] = .quarantined)
    ∧ (∃ (s : State) (d : Port) (f : TcplFrame) (t : DTag), f.wf = true ∧ (s.port d).state = .up ∧ (∀ c : Sys2Proof.Class, (s.port d).queues[c] = [])
        ∧ f.tag.toNat = t.val ∧ (s.port d).tags[t] = .quarantined) :=
  ⟨⟨State.reset, 1, tcplOf 3 0, by decide⟩, ⟨withPort1 resetting, 1, tcplOf 3 0, by decide⟩, ⟨withPort1 upPort, 1, tcplOf 16 0, by decide⟩,
    ⟨withPort1 { upPort with state := .halted, tags := put upPort.tags 3 .quarantined }, 1, tcplOf 3 0, 3, by decide⟩,
    ⟨withPort1 { upPort with tags := put upPort.tags 3 .quarantined }, 1, tcplOf 3 0, 3, by decide⟩⟩

/-- The one piece of `reading`, retried or not. -/
def onePiece (b : Bool) : Piece := ⟨0, 2, 0, [⟨.one, some 7, none⟩], b, .pending⟩

/-- A READ of the first two blocks of `extent` with its one entry, on any state that holds both. -/
theorem soleRead_of {s : State} {p : Parent} {b : Bool} {e : SubCmd} (h1 : AdmissionOrder s) (h2 : p ∈ s.parents)
    (hp : p = { reading with pieces := [onePiece b] }) (he : e = { entry with issue := e.issue }) (h3 : s.subs = [e]) :
    SoleRead s 1 p (onePiece b) e := by
  subst hp
  refine ⟨h1, h2, rfl, rfl, rfl, rfl, ⟨rfl, rfl⟩, ⟨.one, ?_, ?_⟩, ?_, ?_, ?_⟩
  · rw [he]; rfl
  · rw [he]; rfl
  · rw [he]; exact ⟨rfl, rfl, rfl, rfl, rfl⟩
  · rw [h3]; exact .head _
  · rw [h3]; exact List.pairwise_singleton _ _

theorem inFlight_reading : InFlight (inFlight reading) 1 3 reading (onePiece false) entry :=
  ⟨soleRead_of admission_inFlight (.head _) rfl rfl rfl, by decide⟩

theorem inFlight_retried (n : Nat) : InFlight { inFlight retriedRead with now := n } 1 3 retriedRead (onePiece true) entry :=
  ⟨soleRead_of (admission_alive retriedRead State.reset) (.head _) rfl rfl rfl,
    show (((inFlight retriedRead).port 1).tags[(3 : DTag)]) = .issued 7 by decide⟩

theorem test_witness_LastReadResult :
    (∃ (s : State) (d : Port) (t : DTag) (p : Parent) (pc : Piece) (e : SubCmd) (f : TcplFrame), InFlight s d t p pc e ∧ (s.port d).state = .up
      ∧ (∀ c : Sys2Proof.Class, (s.port d).queues[c] = []) ∧ s.splitWait = [] ∧ f.wf = true ∧ f.tag.toNat = t.val
      ∧ f.result = 0 ∧ f.flags.getLsbD 0 = false ∧ f.payload.length = p.count)
    ∧ (∃ (s : State) (d : Port) (t : DTag) (p : Parent) (pc : Piece) (e : SubCmd) (f : TcplFrame), InFlight s d t p pc e ∧ (s.port d).state = .up
      ∧ (∀ c : Sys2Proof.Class, (s.port d).queues[c] = []) ∧ s.splitWait = [] ∧ f.wf = true ∧ f.tag.toNat = t.val
      ∧ f.result = 1 ∧ f.flags.getLsbD 0 = true ∧ f.errorBlock.toNat = e.targetStart + 1 ∧ 1 + 1 = p.count ∧ f.payload.length = 1 ∧ pc.retried = true) :=
  ⟨⟨inFlight reading, 1, 3, reading, _, entry, answerFrame, inFlight_reading, by decide⟩,
    ⟨_, 1, 3, retriedRead, _, entry, { tcplOf 3 1 with flags := 1, errorBlock := 0x103, payload := [data] }, inFlight_retried 0, by decide⟩⟩

/-- Entry 7 is the last one of a leaving parent, ISSUED under tag 3 of port 1 with a deadline that has come; a TCPL or the expiry may end it. -/
def Leaves (x : ParentState) (op : SubOp) : Prop :=
  ∃ (s : State) (p : Parent) (e : SubCmd) (f : TcplFrame) (i : Issue), LastOfLeaving s 1 3 p e ∧ s.splitWait = [] ∧ p.state = x ∧ e.op = op
    ∧ (s.port 1).state = .up ∧ (∀ c : Sys2Proof.Class, (s.port 1).queues[c] = []) ∧ f.wf = true ∧ f.tag.toNat = 3
    ∧ e.issue = some i ∧ i.deadline = s.now ∧ (s.port 1).quarantinedTags + 1 < (s.port 1).window

theorem leaves (p : Parent) (e : SubCmd) (h : p.state = .aborting ∨ p.state = .discarding)
    (h2 : e.parent = p.id ∧ e.port = 1 ∧ (e.op = .flush ∨ ((e.op = .read ∨ e.op = .verify) ∧ ∃ (i : Nat) (c : CopyNo),
      e.piece = some i ∧ e.copy = some c ∧ i < p.pieces.length))) (h3 : e.id = 7) (h4 : e.issue = some ⟨3, 2000⟩) : Leaves p.state e.op :=
  ⟨{ inFlight p with subs := [e], now := 2000 }, p, e, tcplOf 3 2, ⟨3, 2000⟩,
    ⟨admission_alive p State.reset, .head _, h, h2, fun z hz _ => List.mem_singleton.1 hz, .head _, List.pairwise_singleton _ _, by
      rw [h3]; exact show ((inFlight reading).port 1).tags[(3 : DTag)] = .issued 7 by decide⟩,
    rfl, rfl, rfl, show ((inFlight reading).port 1).state = .up by decide,
    show ∀ c : Sys2Proof.Class, ((inFlight reading).port 1).queues[c] = [] by decide, by decide, by decide, h4, rfl,
    show ((inFlight reading).port 1).quarantinedTags + 1 < ((inFlight reading).port 1).window by decide⟩

/-- A DRAIN with one FLUSH, in a state. -/
def flushParent (x : ParentState) : Parent :=
  { parentOf 4 1 .drain 0 0 x [] with generation := some 0, drainPhase := some .two, flushResults := [⟨1, none⟩] }

theorem test_witness_LastOfLeaving : Leaves .aborting .read ∧ Leaves .aborting .verify ∧ Leaves .aborting .flush
    ∧ Leaves .discarding .read ∧ Leaves .discarding .verify ∧ Leaves .discarding .flush :=
  have piece (o : SubOp) (h : o = .read ∨ o = .verify) : o = .flush ∨ ((o = .read ∨ o = .verify) ∧ ∃ (i : Nat) (c : CopyNo),
      some 0 = some i ∧ some CopyNo.one = some c ∧ i < reading.pieces.length) := .inr ⟨h, 0, .one, rfl, rfl, by decide⟩
  ⟨leaves { reading with state := .aborting } entry (.inl rfl) ⟨rfl, rfl, piece _ (.inl rfl)⟩ rfl rfl,
    leaves { reading with state := .aborting } { entry with op := .verify } (.inl rfl) ⟨rfl, rfl, piece _ (.inr rfl)⟩ rfl rfl,
    leaves (flushParent .aborting) { entry with op := .flush } (.inl rfl) ⟨rfl, rfl, .inl rfl⟩ rfl rfl,
    leaves { reading with state := .discarding } entry (.inr rfl) ⟨rfl, rfl, piece _ (.inl rfl)⟩ rfl rfl,
    leaves { reading with state := .discarding } { entry with op := .verify } (.inr rfl) ⟨rfl, rfl, piece _ (.inr rfl)⟩ rfl rfl,
    leaves (flushParent .discarding) { entry with op := .flush } (.inr rfl) ⟨rfl, rfl, .inl rfl⟩ rfl rfl⟩

theorem test_witness_DeadlineExpiry :
    ∃ (s : State) (d : Port) (t : DTag) (p : Parent) (pc : Piece) (e : SubCmd) (i : Issue), InFlight s d t p pc e ∧ pc.retried = true
      ∧ e.issue = some i ∧ i.deadline = s.now ∧ s.splitWait = [] ∧ 1 ≤ p.count ∧ (s.port d).quarantinedTags + 1 < (s.port d).window :=
  ⟨{ inFlight retriedRead with now := 2000 }, 1, 3, retriedRead, _, entry, ⟨3, 2000⟩, inFlight_retried 2000, by decide⟩

theorem test_witness_LeaseExpiry : ∃ (s : State) (t : Nat), s.leaseTimer = some t ∧ t = s.now ∧ s.manager.isSome :=
  ⟨{ State.reset with manager := some 2, lease := 1, leaseTimer := some 1000, now := 1000 }, 1000, by decide⟩

/-- A result of a member. -/
def resultAs (k : ResultKind) : MemberResult := ⟨k, 12, true⟩

/-- A WRITE piece with two members and their results. -/
def written (l o : Option MemberResult) : Piece := ⟨0, 2, 0, [⟨.one, none, l⟩, ⟨.two, none, o⟩], false, .pending⟩

/-- Results of the lead and of the other copy of an extent that a two-copy piece can hold. -/
def Holds (x : Extent) (l o : Option MemberResult) : Prop :=
  ∃ pc : Piece, pc.members.length = 2 ∧ pc.resultOf x.lead = l ∧ pc.resultOf x.lead.other = o

/-- `extent` with its other copy STALE. -/
def staleExtent : Extent := { extent with copy2 := some ⟨2, 0x200, .stale⟩ }

theorem test_witness_TwoCopyWrite :
    (Holds extent (some (resultAs .ok)) none ∧ Holds extent (some (resultAs .ok)) (some (resultAs .ok)))
    ∧ (Holds extent (some (resultAs .ok)) (some (resultAs .fault)) ∧ extent.isCurrent extent.lead.other = true)
    ∧ (Holds staleExtent (some (resultAs .ok)) (some (resultAs .fault)) ∧ staleExtent.isCurrent staleExtent.lead.other = false)
    ∧ Holds extent (some (resultAs .fault)) (some (resultAs .ok)) ∧ Holds extent (some (resultAs .fault)) (some (resultAs .medium))
    ∧ Holds extent (some (resultAs .fault)) none ∧ Holds staleExtent (some (resultAs .fault)) (some (resultAs .ok))
    ∧ Holds extent none (some (resultAs .ok)) :=
  ⟨⟨⟨written _ _, rfl, rfl, rfl⟩, ⟨written _ _, rfl, rfl, rfl⟩⟩, ⟨⟨written _ _, rfl, rfl, rfl⟩, by decide⟩, ⟨⟨written _ _, rfl, rfl, rfl⟩, by decide⟩,
    ⟨written _ _, rfl, rfl, rfl⟩, ⟨written _ _, rfl, rfl, rfl⟩, ⟨written _ _, rfl, rfl, rfl⟩, ⟨written _ _, rfl, rfl, rfl⟩, ⟨written _ _, rfl, rfl, rfl⟩⟩

/-! ### DRAIN and the Split-Wait List -/

/-- A record for volume 1, initiator 2 with FULL rights on it, ports 1 and 2 alike. -/
def served (v : VolRec) (r : PortRec) : State :=
  { withVol 1 v (withPort 2 r (withPort1 r)) with
    linkUp := true, freeExtents := 512 - v.live.length, access := put State.reset.access 2 (put (State.reset.access[(2 : Initiator)]) 1 .full) }

/-- Volume 1 ONLINE with some records. -/
def servedBy (xs : List Extent) (r : PortRec) : State := served { online with live := xs } r

theorem sound_stale : staleExtent.Sound 100 :=
  ⟨by decide, by decide, by decide, by decide, by decide, by decide, ⟨_, rfl, rfl⟩⟩

theorem live_served {x : VolRec} (h : x.MapSound) (r : PortRec) : LiveMapLaw (served x r) := by
  intro v
  by_cases e : v = 1
  · subst e; exact h
  · have : (served x r).vol v = VolRec.reset := by
      have ne : (1 : Nat) ≠ v.val := fun x => e (Fin.ext x.symm)
      show (State.reset.volumes.set 1 _)[v.val] = VolRec.reset
      rw [Vector.getElem_set_ne _ _ ne]
      revert v; decide
    rw [this]; exact mapSound_reset

/-- What every clause on a DRAIN that enters phase 2 at its hand-off supposes. -/
def Drains (C : State → CmdFrame → Sys2Proof.Class → Volume → List Port → Prop) : Prop :=
  ∃ (s : State) (f : CmdFrame) (i : Initiator) (v : Volume) (c : Sys2Proof.Class) (ports : List Port),
    AdmissionOrder s ∧ LiveMapLaw s ∧ (∀ e ∈ s.subs, e.id < s.nextSub) ∧ Taken s f i v .drain c ∧ firstFailure s i v .drain f = none ∧ v ≠ 0
    ∧ (s.vol v).state = .online ∧ (∀ q ∈ s.parents, ¬(q.initiator = i ∧ q.volume = v))
    ∧ ports = (List.finRange 4).filter (fun d => (s.vol v).live.any fun x => [CopyNo.one, .two].any fun k =>
        (x.copy? k).any fun y => y.state == .current && y.port.toNat == d.val)
    ∧ C s f c v ports

theorem drains {xs : List Extent} (h : { online with live := xs }.MapSound) (r : PortRec) {C : State → CmdFrame → Sys2Proof.Class → Volume → List Port → Prop}
    (h1 : firstFailure (servedBy xs r) 2 1 .drain (cmdOf 1 1 4 1 0 0 []) = none)
    (h2 : C (servedBy xs r) (cmdOf 1 1 4 1 0 0 []) 1 1 ((List.finRange 4).filter fun d => xs.any fun x => [CopyNo.one, .two].any fun k =>
        (x.copy? k).any fun y => y.state == .current && y.port.toNat == d.val)) : Drains C :=
  ⟨servedBy xs r, cmdOf 1 1 4 1 0 0 [], 2, 1, 1, _, ⟨.nil, by intro q hq; cases hq⟩, live_served h r, (by intro e he; cases he),
    taken_cmdOf rfl (by decide) (by decide) (by decide) (by decide) (by decide), h1, by decide, rfl, (by intro q hq; cases hq), rfl, h2⟩

/-- A port that is HALTED. -/
def haltedPort : PortRec := { upPort with state := .halted, reason := some .tagsExhausted }

theorem mapSound_empty : { online with live := [] }.MapSound :=
  ⟨fun _ => rfl, .nil, .nil, by simp [online], fun h => absurd h (by decide)⟩

theorem test_witness_DrainInPhase2 :
    Drains (fun _ _ _ _ ports => ports = [])
    ∧ Drains (fun s _ _ _ ports => ports = [1, 2] ∧ s.splitWait = [] ∧ s.subs.length + ports.length ≤ 256 ∧ ∀ d ∈ ports, (s.port d).state = .resetting)
    ∧ Drains (fun s _ _ _ ports => ports = [1] ∧ s.splitWait = [] ∧ s.subs.length + ports.length ≤ 256 ∧ (s.port 1).state = .up
        ∧ (∀ k : Sys2Proof.Class, (s.port 1).queues[k] = []) ∧ (s.port 1).occupancy < (s.port 1).window ∧ (s.port 1).tags[(0 : DTag)] = .free)
    ∧ Drains (fun s _ _ _ ports => ports = [1] ∧ s.splitWait = [] ∧ s.subs.length + ports.length ≤ 256 ∧ (s.port 1).state = .down)
    ∧ Drains (fun s _ _ _ ports => ports = [1] ∧ s.splitWait = [] ∧ s.subs.length + ports.length ≤ 256 ∧ (s.port 1).state = .halted) :=
  ⟨drains mapSound_empty upPort (by decide) (by decide),
    drains (mapSound_extent 0 0) resetting (by decide) (by decide), drains (mapSound_of sound_stale 0 0) upPort (by decide) (by decide),
    drains (mapSound_of sound_stale 0 0) PortRec.reset (by decide) (by decide), drains (mapSound_of sound_stale 0 0) haltedPort (by decide) (by decide)⟩

/-- A READ of two blocks, from the first one given, that waits at the head of the Split-Wait List, with the state of its volume and the sub-commands allocated. -/
def splitWaiting (x : VolState) (start : Nat) (subs : List SubCmd) : State :=
  { alive (parentOf 4 1 .read start 2 .splitWait [none, none]) ready with
    splitWait := [4], subs := subs, nextSub := 8, volumes := put ready.volumes 1 { online with live := [extent], state := x } }

theorem test_witness_SplitWaitHead :
    (∃ s : State, s.splitWait = [])
    ∧ (∃ (s : State) (p : Parent) (rest : List ParentRef), AdmissionOrder s ∧ p ∈ s.parents ∧ s.splitWait = p.id :: rest
        ∧ (s.vol p.volume).state = .switching ∧ ∀ id ∈ s.switchHolds[p.volume], id < p.id)
    ∧ (∃ (s : State) (p : Parent) (rest : List ParentRef) (b : Nat), AdmissionOrder s ∧ p ∈ s.parents ∧ s.splitWait = p.id :: rest
        ∧ (s.vol p.volume).state = .online ∧ p.op ≠ .drain ∧ p.start ≤ b ∧ b + 1 = p.start + p.count
        ∧ ∀ x ∈ (s.vol p.volume).live, b < x.first.toNat ∨ x.first.toNat + x.length.toNat ≤ b)
    ∧ (∀ n : Nat, n = 256 ∨ n = 255 → ∃ (s : State) (p : Parent) (rest : List ParentRef) (x : Extent) (y : Copy) (d : Port), AdmissionOrder s ∧ p ∈ s.parents
        ∧ s.splitWait = p.id :: rest ∧ LiveMapLaw s ∧ (∀ e ∈ s.subs, e.id < s.nextSub) ∧ (s.vol p.volume).state = .online ∧ p.op = .read ∧ 1 ≤ p.count
        ∧ (s.vol p.volume).live[0]? = some x ∧ x.first.toNat ≤ p.start ∧ p.start + p.count = x.first.toNat + x.length.toNat
        ∧ x.copy? x.lead = some y ∧ y.port.toNat = d.val ∧ (s.port d).state = .up ∧ p.count ≤ (s.port d).maxTransfer
        ∧ (∀ k : Sys2Proof.Class, (s.port d).queues[k] = []) ∧ (s.port d).occupancy < (s.port d).window ∧ (s.port d).tags[(0 : DTag)] = .free
        ∧ s.subs.length = n) := by
  refine ⟨⟨State.reset, rfl⟩, ⟨splitWaiting .switching 12 [], _, [], admission_alive _ ready, .head _, rfl, by decide, by decide⟩,
    ⟨splitWaiting .online 19 [], _, [], 20, admission_alive _ ready, .head _, rfl, by decide⟩, fun n _ =>
    ⟨splitWaiting .online 18 (List.replicate n entry), _, [], extent, ⟨1, 0x100, .current⟩, 1, admission_alive _ ready, .head _, rfl, ?_, ?_, rfl,
      rfl, by decide, rfl, by decide, by decide, rfl, by decide, show (ready.port 1).state = .up by decide, show 2 ≤ (ready.port 1).maxTransfer by decide,
      show ∀ k : Sys2Proof.Class, (ready.port 1).queues[k] = [] by decide, show (ready.port 1).occupancy < (ready.port 1).window by decide,
      show (ready.port 1).tags[(0 : DTag)] = .free by decide, List.length_replicate⟩⟩
  · intro v
    by_cases h : v = 1
    · subst h; exact mapSound_extent 0 0
    · have e : (splitWaiting .online 18 (List.replicate n entry)).vol v = VolRec.reset := by
        show (splitWaiting .online 18 []).vol v = VolRec.reset
        revert v; decide
      rw [e]; exact mapSound_reset
  · intro e he
    rw [List.eq_of_mem_replicate he]; exact show (7 : Nat) < 8 by decide

/-! ### The PORT page's window, deadlines, flushes and retries -/

/-- A port with one tag ISSUED and one entry queued. -/
def behindTag (w : Nat) : PortRec := { upPort with window := w, tags := put upPort.tags 0 (.issued 9), queues := put upPort.queues 1 [7] }

/-- The entry of `reading`, QUEUED. -/
def waitingEntry : SubCmd := { entry with issue := none }

/-- The least raise of a window that lets the one queued entry issue, and a window of an UP port lowered to its bound. -/
theorem test_witness_PortPageWindow :
    (∃ (c : Sys2Proof.Class) (t : DTag) (x : SubCmd) (bs : List Block), Met .write 9 1 (portData 2 10 8) fun s =>
      (s.port 1).state = .up ∧ (s.port 1).window + 1 = 2 ∧ (s.port 1).quarantinedTags < 2 ∧ (s.port 1).occupancy + 1 = 2
      ∧ (s.port 1).queues[c] = [x.id] ∧ (∀ k : Sys2Proof.Class, k ≠ c → (s.port 1).queues[k] = []) ∧ x ∈ s.subs
      ∧ (s.subs.Pairwise fun y z => y.id ≠ z.id) ∧ Carries s x bs ∧ (s.port 1).tags[t] = .free ∧ ∀ u : DTag, u < t → (s.port 1).tags[u] ≠ .free)
    ∧ Writes 2 10 8 (fun r => r.state = .up ∧ r.quarantinedTags + 1 = 2 ∧ 2 < r.window ∧ r.queues[(1 : Sys2Proof.Class)] ≠ [])
    ∧ Writes 2 10 8 (fun r => r.state = .up ∧ r.quarantinedTags < 2 ∧ r.occupancy = 2 ∧ r.window = 1 ∧ r.queues[(1 : Sys2Proof.Class)] ≠ [])
    ∧ Writes 16 10 8 (fun r => r.state = .up ∧ r.quarantinedTags < 16 ∧ ∀ c : Sys2Proof.Class, r.queues[c] = [])
    ∧ Met .write 9 1 (portData 1 10 8) (fun s => (s.port 1).state = .up ∧ (s.port 1).window ≠ 1 ∧ (s.port 1).quarantinedTags = 1
        ∧ (∀ c : Sys2Proof.Class, (s.port 1).queues[c] = []) ∧ s.splitWait = []) :=
  ⟨⟨1, 1, waitingEntry, [], met { withPort1 (behindTag 1) with subs := [{ entry with id := 9, issue := some ⟨0, 2000⟩ }, waitingEntry] }
      ⟨by decide, by decide, by decide, by decide, by decide, by decide, .tail _ (.head _), by decide, .inl ⟨by decide, rfl⟩, by decide, by decide⟩⟩,
    ⟨by decide, by decide, by decide, met (withPort1 { behindTag 3 with tags := put upPort.tags 3 .quarantined }) (by decide)⟩,
    ⟨by decide, by decide, by decide, met (withPort1 { behindTag 1 with tags := put (put upPort.tags 3 .quarantined) 4 (.issued 9) }) (by decide)⟩,
    ⟨by decide, by decide, by decide, met (withPort1 upPort) (by decide)⟩,
    met (withPort1 { upPort with tags := put upPort.tags 3 .quarantined }) (by decide)⟩

/-- A READ in flight on a port whose window the tag's quarantine reaches. -/
theorem test_witness_DeadlineHalts :
    ∃ (s : State) (d : Port) (t : DTag) (p : Parent) (pc : Piece) (e : SubCmd) (i : Issue), InFlight s d t p pc e ∧ pc.retried = true
      ∧ e.issue = some i ∧ i.deadline = s.now ∧ s.splitWait = [] ∧ (s.port d).state = .up ∧ (s.port d).window = (s.port d).quarantinedTags + 1
      ∧ ∀ c : Sys2Proof.Class, (s.port d).queues[c] = [] :=
  ⟨{ inFlight retriedRead with now := 2000, ports := put State.reset.ports 1 { upPort with window := 1, tags := put upPort.tags 3 (.issued 7) } },
    1, 3, retriedRead, onePiece true, entry, ⟨3, 2000⟩,
    ⟨soleRead_of (admission_alive retriedRead State.reset) (.head _) rfl rfl rfl, by decide⟩, by decide⟩

/-- A DRAIN with a FLUSH in flight on port 1, and what port 2 has given. -/
def flushOf (o : Option Status) : Parent :=
  { parentOf 4 1 .drain 0 0 .active [] with generation := some 0, drainPhase := some .two, flushResults := [⟨1, none⟩, ⟨2, o⟩] }

/-- The FLUSH of `flushOf`. -/
def flushEntry : SubCmd := { entry with op := .flush, piece := none, copy := none, targetStart := 0, count := 0 }

def Flushed (C : State → Parent → Prop) : Prop :=
  ∃ (s : State) (d : Port) (t : DTag) (p : Parent) (e : SubCmd), Flushing s d t p e ∧ (s.port d).state = .up
    ∧ (∀ c : Sys2Proof.Class, (s.port d).queues[c] = []) ∧ s.splitWait = [] ∧ d = 1 ∧ t = 3 ∧ C s p

theorem flushed (o : Option Status) {C : State → Parent → Prop} (h : C { inFlight (flushOf o) with subs := [flushEntry] } (flushOf o)) : Flushed C :=
  ⟨{ inFlight (flushOf o) with subs := [flushEntry] }, 1, 3, flushOf o, flushEntry,
    ⟨admission_alive (flushOf o) State.reset, .head _, rfl, rfl,
      List.Pairwise.cons (fun x hx => by rw [List.mem_singleton.1 hx]; show (1 : Port) < 2; decide) (List.pairwise_singleton _ _),
      .head _, ⟨rfl, rfl, rfl⟩, .head _, List.pairwise_singleton _ _, show ((inFlight reading).port 1).tags[(3 : DTag)] = .issued 7 by decide⟩,
    show ((inFlight reading).port 1).state = .up by decide,
    show ∀ c : Sys2Proof.Class, ((inFlight reading).port 1).queues[c] = [] by decide, rfl, rfl, rfl, h⟩

/-- The results that a DRAIN's list holds after port 1 has given one. -/
def resultsAfter (p : Parent) (st : Status) : List FlushResult := p.flushResults.map fun r => if r.port = 1 then ⟨1, some st⟩ else r

theorem test_witness_FlushResults :
    Flushed (fun _ p => ∃ r ∈ resultsAfter p .good, r.status = none)
    ∧ Flushed (fun _ p => (∀ r ∈ resultsAfter p .good, r.status ≠ none) ∧ ∀ r ∈ resultsAfter p .good, r.status = some .good)
    ∧ Flushed (fun _ p => (∀ r ∈ resultsAfter p .good, r.status ≠ none) ∧ ⟨2, some .targetLost⟩ ∈ resultsAfter p .good
        ∧ ∀ r ∈ resultsAfter p .good, r.port < 2 → r.status = some .good)
    ∧ Flushed (fun _ p => (∀ r ∈ resultsAfter p .mediumError, r.status ≠ none) ∧ ⟨1, some .mediumError⟩ ∈ resultsAfter p .mediumError
        ∧ ∀ r ∈ resultsAfter p .mediumError, r.port < 1 → r.status = some .good) :=
  ⟨flushed none (by decide), flushed (some .good) (by decide), flushed (some .targetLost) (by decide), flushed (some .targetLost) (by decide)⟩

/-! ### Results that a port gives -/

/-- A control command that runs beside a data parent of reference 4. -/
def besideOf (pg : Nat) (b : Block) : Parent := { controlOf .write pg 1 b with id := 5, tag := 8 }

/-- The state with that control command, and a record for port 1. -/
def beside (pg : Nat) (b : Block) (r : PortRec) (e : SubCmd) : State :=
  { inFlight retriedRead with
    parents := [retriedRead, besideOf pg b], nextParent := 6, executing := some 5, ports := put State.reset.ports 1 r, subs := [e] }

/-- Two parents, the later one below the next reference, stand in admission order. -/
theorem order_pair {s : State} {p q : Parent} (h : s.parents = [p, q]) (h1 : p.id < q.id) (h2 : q.id < s.nextParent) : AdmissionOrder s := by
  refine ⟨h ▸ List.pairwise_pair.2 h1, fun r hr => ?_⟩
  rw [h] at hr
  rcases List.mem_cons.1 hr with e | e
  · exact e ▸ Nat.lt_trans h1 h2
  · exact List.mem_singleton.1 e ▸ h2

theorem order_beside (pg : Nat) (b : Block) (r : PortRec) (e : SubCmd) : AdmissionOrder (beside pg b r e) :=
  order_pair (p := retriedRead) (q := besideOf pg b) rfl (show 4 < 5 by decide) (show 5 < 6 by decide)

theorem running_beside (pg : Nat) (b : Block) (r : PortRec) (e : SubCmd) : Running (besideOf pg b) (beside pg b r e) :=
  ⟨order_beside pg b r e, .tail _ (.head _), rfl, rfl, rfl⟩

/-- `reading` with its one entry, and records for ports 1 and 2, beside a control WRITE, at the time of the entry's deadline. -/
def retrying (pg : Nat) (b : Block) (x : Extent) (e : SubCmd) (r1 r2 : PortRec) : State :=
  { beside pg b r1 e with
    parents := [reading, besideOf pg b], now := 2000, ports := put (put State.reset.ports 1 r1) 2 r2
    volumes := put State.reset.volumes 1 { online with live := [x] } }

/-- What every clause on a retry supposes, beside a control WRITE, and what holds of its entry, of the records of ports 1 and 2, and of the extent. -/
def Retries (pg : Nat) (b : Block) (C : State → SubCmd → Extent → Prop) : Prop :=
  ∃ (s : State) (p : Parent) (pc : Piece) (e : SubCmd) (x : Extent) (r : Parent), SoleRead s 1 p pc e ∧ pc.retried = false ∧ s.splitWait = []
    ∧ e.copy = some .one ∧ (s.vol p.volume).live[pc.ordinal]? = some x ∧ p.volume ≠ 0
    ∧ Running r s ∧ s.manager = some r.initiator ∧ addressed r .write pg 1 ∧ r.slots = [some b] ∧ C s e x

theorem retries {pg : Nat} {b : Block} (x : Extent) (e : SubCmd) (r1 r2 : PortRec) {C : State → SubCmd → Extent → Prop}
    (he : e = { entry with issue := e.issue }) (h : C (retrying pg b x e r1 r2) e x) : Retries pg b C :=
  have o : AdmissionOrder (retrying pg b x e r1 r2) :=
    order_pair (p := reading) (q := besideOf pg b) rfl (show 4 < 5 by decide) (show 5 < 6 by decide)
  ⟨retrying pg b x e r1 r2, reading, onePiece false, e, x, besideOf pg b, soleRead_of o (.head _) rfl he rfl, rfl, rfl, by rw [he]; rfl, rfl,
    by decide, ⟨o, .tail _ (.head _), rfl, rfl, rfl⟩, rfl, ⟨rfl, rfl, by decide⟩, rfl, h⟩

/-- `Ready`, as a condition that is decided. -/
theorem ready_iff (s : State) (q : Port) (o : Option DTag) : Ready s q o ↔ (o = none ∧ (s.port q).state = .resetting)
    ∨ ∃ u : DTag, o = some u ∧ (s.port q).state = .up ∧ (∀ k : Sys2Proof.Class, (s.port q).queues[k] = []) ∧ (s.port q).occupancy < (s.port q).window
      ∧ (s.port q).tags[u] = .free ∧ ∀ k : DTag, k < u → (s.port q).tags[k] ≠ .free := by
  cases o with
  | none => simp [Ready]
  | some u => simp [Ready]

/-- Port 2 takes the retried entry, by a RESETTING record or by one that has room for one tag, its second. -/
def Other (s : State) (x : Extent) (o : Option DTag) : Prop := x.copy? .two = some ⟨2, 0x200, .current⟩ ∧ Ready s 2 o

/-- Port 2 with room for one tag, its second. -/
def oneTagLeft : PortRec := { upPort with window := 2, tags := put upPort.tags 0 .quarantined }

theorem other_resetting (pg : Nat) (b : Block) (e : SubCmd) (r : PortRec) : Other (retrying pg b extent e r resetting) extent none :=
  ⟨by decide, (ready_iff ..).2 (.inl ⟨rfl, congrArg PortRec.state (Vector.getElem_set_self _)⟩)⟩

theorem other_up (pg : Nat) (b : Block) (e : SubCmd) (r : PortRec) : Other (retrying pg b extent e r oneTagLeft) extent (some 1) := by
  have h : (retrying pg b extent e r oneTagLeft).port 2 = oneTagLeft := Vector.getElem_set_self _
  refine ⟨by decide, (ready_iff ..).2 (.inr ⟨1, rfl, ?_⟩)⟩
  rw [h]; decide

/-- An entry ISSUED under tag 3, the only one that is, of port 1. -/
def OnlyIssued (s : State) (e : SubCmd) : Prop :=
  (s.port 1).tags[(3 : DTag)] = .issued e.id ∧ (∀ k : Sys2Proof.Class, (s.port 1).queues[k] = []) ∧ (s.port 1).pendingReset = none
    ∧ (s.port 1).flushWaiters = [] ∧ ((s.port 1).state = .up ∨ (s.port 1).state = .halted)
    ∧ ∀ k : DTag, k ≠ 3 → (s.port 1).tags[k].isIssued = false

/-- Port 1 with tag 3 ISSUED to entry 7. -/
def issuedPort (r : PortRec) : PortRec := { r with tags := put upPort.tags 3 (.issued 7) }

theorem onlyIssued (pg : Nat) (b : Block) (x : Extent) (r q : PortRec) (h : r = upPort ∨ r = haltedPort) :
    OnlyIssued (retrying pg b x entry (issuedPort r) q) entry := by
  have e : (retrying pg b x entry (issuedPort r) q).port 1 = issuedPort r := by
    show ((State.reset.ports.set 1 (issuedPort r)).set 2 q)[1] = _
    rw [Vector.getElem_set_ne _ _ (by decide), Vector.getElem_set_self]
  rw [OnlyIssued, e]
  rcases h with rfl | rfl <;> decide

/-- The TCPLs that fail entry 7 at its first or second block. -/
theorem test_witness_Failures :
    Fails (tcplOf 3 2) entry 0 .targetFault ∧ Fails (tcplOf 3 3) entry 0 .targetRefused
    ∧ Fails { tcplOf 3 1 with flags := 1, errorBlock := 0x102 } entry 0 .mediumError
    ∧ Fails { tcplOf 3 1 with flags := 1, errorBlock := 0x103, payload := [data] } entry 1 .mediumError := by
  refine ⟨⟨?_, ?_, .inl ?_⟩, ⟨?_, ?_, .inl ?_⟩, ⟨?_, ?_, .inr ?_⟩, ⟨?_, ?_, .inr ?_⟩⟩ <;> decide

/-- An ISSUED READ that a TCPL, the expiry, the loss of the link or a port reset fails: with room for it on port 2, and with none. -/
theorem test_witness_ReadRetry :
    Retries 10 data (fun s e x => OnlyIssued s e ∧ (s.port 1).state = .up ∧ e.issue = some ⟨3, s.now⟩ ∧ (s.port 1).quarantinedTags + 1 < (s.port 1).window ∧ Other s x none)
    ∧ Retries 10 data (fun s e x => OnlyIssued s e ∧ (s.port 1).state = .up ∧ e.issue = some ⟨3, s.now⟩ ∧ (s.port 1).quarantinedTags + 1 < (s.port 1).window ∧ Other s x (some 1))
    ∧ Retries 10 data (fun s e x => OnlyIssued s e ∧ (s.port 1).state = .halted ∧ Other s x none)
    ∧ Retries 10 data (fun s e x => OnlyIssued s e ∧ x.copy? .two = none)
    ∧ Retries 10 data (fun s e x => OnlyIssued s e ∧ x.copy? .two = some ⟨2, 0x200, .stale⟩)
    ∧ Retries 10 data (fun s e x => OnlyIssued s e ∧ x.copy? .two = some ⟨2, 0x200, .current⟩ ∧ (s.port 2).state = .down)
    ∧ Retries 10 data (fun s e x => OnlyIssued s e ∧ x.copy? .two = some ⟨2, 0x200, .current⟩ ∧ (s.port 2).state = .halted) :=
  have i (x : Extent) (r q : PortRec) (h : r = upPort ∨ r = haltedPort := by exact .inl rfl) := onlyIssued 10 data x r q h
  ⟨retries extent entry (issuedPort upPort) resetting rfl ⟨i _ _ _, by decide, rfl, by decide, other_resetting ..⟩,
    retries extent entry (issuedPort upPort) oneTagLeft rfl ⟨i _ _ _, by decide, rfl, by decide, other_up ..⟩,
    retries extent entry (issuedPort haltedPort) resetting rfl ⟨i _ _ _ (.inr rfl), by decide, other_resetting ..⟩,
    retries { extent with copy2 := none } entry (issuedPort upPort) upPort rfl ⟨i _ _ _, by decide⟩,
    retries staleExtent entry (issuedPort upPort) upPort rfl ⟨i _ _ _, by decide⟩,
    retries extent entry (issuedPort upPort) PortRec.reset rfl ⟨i _ _ _, by decide⟩,
    retries extent entry (issuedPort upPort) haltedPort rfl ⟨i _ _ _, by decide⟩⟩

/-- An entry that is the only one QUEUED on port 1, with no tag ISSUED. -/
def OnlyQueued (s : State) (e : SubCmd) : Prop :=
  (s.port 1).queues[(1 : Sys2Proof.Class)] = [e.id] ∧ (∀ j : Sys2Proof.Class, j ≠ 1 → (s.port 1).queues[j] = [])
    ∧ (∀ t : DTag, (s.port 1).tags[t].isIssued = false) ∧ (s.port 1).pendingReset = none ∧ (s.port 1).flushWaiters = []

/-- Port 1 with entry 7 in class queue 1. -/
def queuedPort (r : PortRec) : PortRec := { r with queues := put upPort.queues 1 [7] }

/-- A QUEUED READ that the loss of the link, the reset timer or a lowered window fails, with room for it on port 2. -/
theorem test_witness_QueuedReadRetry :
    Retries 9 (portData 1 60000 1024) (fun s e x => OnlyQueued s e ∧ (s.port 1).state = .up ∧ (s.port 1).window = 8
        ∧ (s.port 1).quarantinedTags = 1 ∧ Other s x none)
    ∧ Retries 9 (portData 1 60000 1024) (fun s e x => OnlyQueued s e ∧ (s.port 1).state = .up ∧ (s.port 1).window = 8
        ∧ (s.port 1).quarantinedTags = 1 ∧ Other s x (some 1))
    ∧ Retries 9 data (fun s e x => OnlyQueued s e ∧ (s.port 1).state = .resetting ∧ (s.port 1).resetTimer = some s.now ∧ (s.port 1).attempts = 3 ∧ Other s x none)
    ∧ Retries 9 data (fun s e x => OnlyQueued s e ∧ (s.port 1).state = .resetting ∧ (s.port 1).resetTimer = some s.now ∧ (s.port 1).attempts = 3 ∧ Other s x (some 1)) :=
  have q (pg : Nat) (b : Block) (r o : PortRec) (h : r = { upPort with tags := put upPort.tags 0 .quarantined } ∨ r = { resetting with attempts := 3 }) :
      OnlyQueued (retrying pg b extent waitingEntry (queuedPort r) o) waitingEntry := by
    have e : (retrying pg b extent waitingEntry (queuedPort r) o).port 1 = queuedPort r := by
      show ((State.reset.ports.set 1 (queuedPort r)).set 2 o)[1] = _
      rw [Vector.getElem_set_ne _ _ (by decide), Vector.getElem_set_self]
    rw [OnlyQueued, e]
    rcases h with rfl | rfl <;> decide
  ⟨retries extent waitingEntry (queuedPort { upPort with tags := put upPort.tags 0 .quarantined }) resetting rfl
      ⟨q _ _ _ _ (.inl rfl), by decide, by decide, by decide, other_resetting ..⟩,
    retries extent waitingEntry (queuedPort { upPort with tags := put upPort.tags 0 .quarantined }) oneTagLeft rfl
      ⟨q _ _ _ _ (.inl rfl), by decide, by decide, by decide, other_up ..⟩,
    retries extent waitingEntry (queuedPort { resetting with attempts := 3 }) resetting rfl
      ⟨q _ _ _ _ (.inr rfl), by decide, by decide, by decide, other_resetting ..⟩,
    retries extent waitingEntry (queuedPort { resetting with attempts := 3 }) oneTagLeft rfl
      ⟨q _ _ _ _ (.inr rfl), by decide, by decide, by decide, other_up ..⟩⟩

/-- A READ already retried, its one entry ISSUED under the only ISSUED tag of port 1, beside a PORT RESET. -/
def IssuedThere (C : State → Prop) : Prop :=
  ∃ (s : State) (p : Parent) (pc : Piece) (e : SubCmd) (r : Parent), InFlight s 1 3 p pc e ∧ pc.retried = true ∧ p.volume ≠ 0 ∧ s.splitWait = []
    ∧ (∀ k : DTag, k ≠ 3 → (s.port 1).tags[k].isIssued = false) ∧ (∀ c : Sys2Proof.Class, (s.port 1).queues[c] = [])
    ∧ Running r s ∧ s.manager = some r.initiator ∧ addressed r .write 10 1 ∧ C s

theorem issuedThere (r : PortRec) {C : State → Prop} (h1 : r.tags = put upPort.tags 3 (.issued 7)) (h2 : ∀ c : Sys2Proof.Class, r.queues[c] = [])
    (h : C (beside 10 data r entry)) : IssuedThere C := by
  have e : (beside 10 data r entry).port 1 = r := Vector.getElem_set_self _
  refine ⟨beside 10 data r entry, retriedRead, onePiece true, entry, besideOf 10 data,
    ⟨soleRead_of (order_beside _ _ _ _) (.head _) rfl rfl rfl, ?_⟩, rfl, by decide, rfl, ?_, ?_, running_beside _ _ _ _, rfl, ⟨rfl, rfl, by decide⟩, h⟩
  · rw [e, h1]; decide
  · rw [e, h1]; decide
  · rw [e]; exact h2

/-- A READ already retried, its one entry the only QUEUED one of port 1, beside a PORT WRITE. -/
def QueuedThere (b : Block) (C : State → Prop) : Prop :=
  ∃ (s : State) (p : Parent) (pc : Piece) (e : SubCmd) (r : Parent), InQueue s 1 1 p pc e ∧ pc.retried = true ∧ p.volume ≠ 0 ∧ s.splitWait = []
    ∧ (∀ k : DTag, (s.port 1).tags[k].isIssued = false) ∧ Running r s ∧ s.manager = some r.initiator ∧ addressed r .write 9 1 ∧ r.slots = [some b] ∧ C s

theorem queuedThere (b : Block) (r : PortRec) {C : State → Prop} (h1 : ∀ k : DTag, r.tags[k].isIssued = false)
    (h2 : r.queues = put upPort.queues 1 [7]) (h : C (beside 9 b r waitingEntry)) : QueuedThere b C := by
  have e : (beside 9 b r waitingEntry).port 1 = r := Vector.getElem_set_self _
  refine ⟨beside 9 b r waitingEntry, retriedRead, onePiece true, waitingEntry, besideOf 9 b,
    ⟨soleRead_of (order_beside _ _ _ _) (.head _) rfl rfl rfl, ?_⟩, rfl, by decide, rfl, ?_, running_beside _ _ _ _, rfl, ⟨rfl, rfl, by decide⟩, rfl, h⟩
  · rw [e, h2]; decide
  · rw [e]; exact h1

theorem test_witness_PortResults :
    IssuedThere (fun s => (s.port 1).state = .up ∧ (s.port 1).pendingReset = none ∧ (s.port 1).flushWaiters = [])
    ∧ IssuedThere (fun s => (s.port 1).state = .halted ∧ (s.port 1).pendingReset = none ∧ (s.port 1).flushWaiters = [])
    ∧ QueuedThere data (fun s => (s.port 1).state = .up ∧ (s.port 1).pendingReset = none ∧ (s.port 1).flushWaiters = [])
    ∧ QueuedThere data (fun s => (s.port 1).state = .resetting ∧ (s.port 1).pendingReset = none ∧ (s.port 1).flushWaiters = [])
    ∧ QueuedThere data (fun s => (s.port 1).state = .resetting ∧ (s.port 1).resetTimer = some s.now ∧ (s.port 1).attempts = 3
        ∧ (s.port 1).pendingReset = none ∧ (s.port 1).flushWaiters = [])
    ∧ QueuedThere (portData 1 60000 1024) (fun s => (s.port 1).state = .up ∧ (s.port 1).window = 8 ∧ (s.port 1).quarantinedTags = 1) :=
  ⟨issuedThere { upPort with tags := put upPort.tags 3 (.issued 7) } rfl (by decide) (by decide),
    issuedThere { haltedPort with tags := put upPort.tags 3 (.issued 7) } rfl (by decide) (by decide),
    queuedThere data { upPort with queues := put upPort.queues 1 [7] } (by decide) rfl (by decide),
    queuedThere data { resetting with queues := put upPort.queues 1 [7] } (by decide) rfl (by decide),
    queuedThere data { resetting with queues := put upPort.queues 1 [7], attempts := 3, resetTimer := some 0 } (by decide) rfl (by decide),
    queuedThere (portData 1 60000 1024) { upPort with queues := put upPort.queues 1 [7], tags := put upPort.tags 0 .quarantined } (by decide) rfl (by decide)⟩

/-! ### The arbiter -/

/-- The WRITE of `data` in two slots whose two entries wait on port 1. -/
def writingParent : Parent :=
  { parentOf 4 1 .write 12 2 .active [some data, some data] with
    generation := some 0, pieces := [⟨0, 2, 0, [⟨.one, some 7, none⟩, ⟨.two, none, some (resultAs .ok)⟩], false, .pending⟩] }

/-- Entry 7 writes one copy of it. -/
def writingEntry : SubCmd := { entry with op := .write, issue := none }

/-- Port 1 UP with a full window: tag 0 QUARANTINED, one WRITE entry in class 1 and one READ entry in class 3, at a pass count. -/
def arbitrating (n : Nat) (qs : Vector (List SubRef) 4) : State :=
  { inFlight writingParent with
    subs := [writingEntry, { waitingEntry with id := 9, cls := 3 }]
    ports := put State.reset.ports 1 { upPort with window := 1, passCount := n, queues := qs, tags := put upPort.tags 0 .quarantined } }

/-- What every clause on the arbiter supposes, with the lowest tag that is then FREE. -/
def Arbitrates (h : Sys2Proof.Class) (x : SubCmd) (bs : List Block) (C : State → Prop) : Prop :=
  ∃ (s : State) (t u : DTag), (s.port 1).state = .up ∧ (s.port 1).tags[t] = .quarantined ∧ (s.port 1).occupancy = (s.port 1).window
    ∧ (u = t ∨ (s.port 1).tags[u] = .free) ∧ (∀ k : DTag, k < u → k ≠ t ∧ (s.port 1).tags[k] ≠ .free) ∧ (s.port 1).queues[h] ≠ []
    ∧ (∀ k : Sys2Proof.Class, k < h → (s.port 1).queues[k] = []) ∧ AdmissionOrder s ∧ x ∈ s.subs ∧ (s.subs.Pairwise fun y z => y.id ≠ z.id)
    ∧ Carries s x bs ∧ C s

theorem carries_writing (n : Nat) (qs : Vector (List SubRef) 4) : Carries (arbitrating n qs) writingEntry [data, data] :=
  .inr ⟨rfl, writingParent, .head _, 0, _, rfl, rfl, rfl, rfl⟩

theorem carries_reading (n : Nat) (qs : Vector (List SubRef) 4) : Carries (arbitrating n qs) { waitingEntry with id := 9, cls := 3 } [] :=
  .inl ⟨by decide, rfl⟩

theorem test_witness_Arbiter :
    Arbitrates 1 writingEntry [data, data] (fun s => (s.port 1).queues[(1 : Sys2Proof.Class)] = 7 :: []
        ∧ ∀ k : Sys2Proof.Class, 1 < k → (s.port 1).queues[k] = [])
    ∧ Arbitrates 1 writingEntry [data, data] (fun s => (s.port 1).queues[(3 : Sys2Proof.Class)] ≠ []
        ∧ (∀ k : Sys2Proof.Class, 1 < k → k < 3 → (s.port 1).queues[k] = []) ∧ (s.port 1).passCount = 7 ∧ (s.port 1).queues[(1 : Sys2Proof.Class)] = 7 :: [])
    ∧ Arbitrates 1 { waitingEntry with id := 9, cls := 3 } [] (fun s => (s.port 1).queues[(3 : Sys2Proof.Class)] = 9 :: []
        ∧ (∀ k : Sys2Proof.Class, 1 < k → k < 3 → (s.port 1).queues[k] = []) ∧ (s.port 1).passCount = 8) :=
  ⟨⟨arbitrating 8 (put upPort.queues 1 [7]), 0, 0, by decide, by decide, by decide, .inl rfl, by decide, by decide, by decide,
      admission_alive writingParent State.reset, .head _, by decide, carries_writing _ _, by decide⟩,
    ⟨arbitrating 7 (put (put upPort.queues 1 [7]) 3 [9]), 0, 0, by decide, by decide, by decide, .inl rfl, by decide, by decide, by decide,
      admission_alive writingParent State.reset, .head _, by decide, carries_writing _ _, by decide⟩,
    ⟨arbitrating 8 (put (put upPort.queues 1 [7]) 3 [9]), 0, 0, by decide, by decide, by decide, .inl rfl, by decide, by decide, by decide,
      admission_alive writingParent State.reset, .tail _ (.head _), by decide, carries_reading _ _, by decide⟩⟩

/-! ### A WRITE's last result -/

/-- `writingParent` in a state, its other copy with its result, and its entry ISSUED. -/
def lastWriting (x : Extent) (window : Nat) (st : ParentState) : State :=
  { inFlight { writingParent with state := st } with
    now := 2000
    volumes := put (inFlight writingParent).volumes 1 { online with live := [x] }
    subs := [{ writingEntry with issue := some ⟨3, 2000⟩ }]
    ports := put State.reset.ports 1 { upPort with window := window, tags := put upPort.tags 3 (.issued 7) } }

/-- The piece of `writingParent` after a result of its copy one. -/
def settledBy (k : ResultKind) : Piece := ⟨0, 2, 0, [⟨.one, none, some ⟨k, 12, true⟩⟩, ⟨.two, none, some (resultAs .ok)⟩], false, .pending⟩

theorem lastWrite_lastWriting (x : Extent) (w : Nat) {st : ParentState} (h : st = .active ∨ st = .aborting ∨ st = .discarding) :
    LastWrite (lastWriting x w st) 1 3 { writingParent with state := st }
      ⟨0, 2, 0, [⟨.one, some 7, none⟩, ⟨.two, none, some (resultAs .ok)⟩], false, .pending⟩ { writingEntry with issue := some ⟨3, 2000⟩ } .one 0 x :=
  ⟨admission_alive { writingParent with state := st } State.reset, .head _, h.imp id fun h => ⟨h, fun z hz _ => List.mem_singleton.1 hz⟩, rfl, rfl, ⟨rfl, rfl⟩, ⟨rfl, rfl⟩, .head _, by decide, by decide, ⟨rfl, rfl, rfl, rfl, rfl⟩, .head _,
    List.pairwise_singleton _ _, rfl⟩

/-- The result that settles the one piece of a WRITE in a state, and what the table makes of it. -/
def Settles (st : ParentState) (k : ResultKind) (y : PieceState) (g : Effect) (C : State → Prop) : Prop :=
  ∃ (s : State) (d : Port) (t : DTag) (p : Parent) (pc : Piece) (e : SubCmd) (c : CopyNo) (n : Nat) (x : Extent), LastWrite s d t p pc e c n x
    ∧ s.splitWait = [] ∧ d = 1 ∧ e.issue = some ⟨t, s.now⟩ ∧ p.state = st
    ∧ resolveWrite x p.start { pc with members := pc.members.map fun m => if m.copy = c then ⟨c, none, some ⟨k, p.start, true⟩⟩ else m } = (y, g)
    ∧ C s

theorem settles {st : ParentState} {k : ResultKind} {y : PieceState} {g : Effect} {C : State → Prop} (x : Extent) (w : Nat)
    (h : resolveWrite x 12 (settledBy k) = (y, g)) (hc : C (lastWriting x w st))
    (hs : st = .active ∨ st = .aborting ∨ st = .discarding := by decide) : Settles st k y g C :=
  ⟨lastWriting x w st, 1, 3, _, _, _, .one, 0, x, lastWrite_lastWriting x w hs, rfl, rfl, rfl, rfl, h, hc⟩

/-- Port 1 is UP with nothing queued. -/
def Quiet (s : State) : Prop := (s.port 1).state = .up ∧ ∀ q : Sys2Proof.Class, (s.port 1).queues[q] = []

theorem test_witness_WriteResult :
    Settles .active .ok .good .none Quiet ∧ Settles .active .fault .good (.swap .two) Quiet
    ∧ Settles .active .refused (.failed .targetRefused 12) .none Quiet ∧ Settles .active .fault .good (.stale .one) Quiet
    ∧ Settles .active .timeout .good (.swap .two) (fun s => (s.port 1).quarantinedTags + 1 < (s.port 1).window)
    ∧ Settles .aborting .fault .good (.swap .two) Quiet ∧ Settles .discarding .fault .good (.swap .two) Quiet
    ∧ Settles .aborting .timeout .good (.swap .two) (fun s => (s.port 1).quarantinedTags + 1 < (s.port 1).window)
    ∧ Settles .discarding .timeout .good (.swap .two) (fun s => (s.port 1).quarantinedTags + 1 < (s.port 1).window) :=
  have q (st : ParentState) (x : Extent) : Quiet (lastWriting x 8 st) :=
    ⟨show upPort.state = .up by decide, show ∀ q : Sys2Proof.Class, upPort.queues[q] = [] by decide⟩
  ⟨settles extent 8 (by decide) (q _ _), settles extent 8 (by decide) (q _ _), settles staleExtent 8 (by decide) (q _ _),
    settles { extent with lead := .two } 8 (by decide) (q _ _), settles extent 2 (by decide) (by decide), settles extent 8 (by decide) (q _ _),
    settles extent 8 (by decide) (q _ _), settles extent 2 (by decide) (by decide), settles extent 2 (by decide) (by decide)⟩

/-! ### The split stage -/

theorem canBegin_of {s : State} {p : Parent} {qs : List PlannedPiece} {ts : List (Option DTag)} (h1 : ts.length = (splitEntries p s.nextSub qs).length)
    (h2 : ∀ x ∈ (splitEntries p s.nextSub qs).zip ts, (x.2 = none ∧ (s.port x.1.port).state = .resetting)
      ∨ ∃ u : DTag, x.2 = some u ∧ (s.port x.1.port).state = .up ∧ (∀ k : Sys2Proof.Class, (s.port x.1.port).queues[k] = [])
        ∧ (s.port x.1.port).occupancy < (s.port x.1.port).window
        ∧ (s.port x.1.port).tags[u] = .free ∧ ∀ k : DTag, k < u → (s.port x.1.port).tags[k] ≠ .free)
    (h3 : ((splitEntries p s.nextSub qs).zip ts).Pairwise fun x y => x.1.port = y.1.port → x.2 = none)
    (h4 : p.op = .write → ∀ b ∈ p.slots, b.isSome = true) : CanBegin s p qs ts :=
  ⟨h1, fun x hx => (ready_iff ..).2 (h2 x hx), h3, h4⟩

theorem cuts_cons {s : State} {live : List Extent} {op : Op} {stop pos : Nat} {q : PlannedPiece} {qs : List PlannedPiece} (x : Extent)
    (h : q.first = pos ∧ 1 ≤ q.length ∧ live[q.ordinal]? = some x ∧ x.first.toNat ≤ pos ∧ pos + q.length ≤ x.first.toNat + x.length.toNat
      ∧ pos + q.length ≤ stop ∧ (∀ c ∈ servingCopies s op x, q.length ≤ (s.port (x.portOfCopy c)).maxTransfer)
      ∧ (pos + q.length = x.first.toNat + x.length.toNat ∨ pos + q.length = stop
        ∨ ∃ c ∈ servingCopies s op x, q.length = (s.port (x.portOfCopy c)).maxTransfer)
      ∧ q.members = (servingCopies s op x).map fun c => ⟨c, x.portOfCopy c, x.targetOf c pos⟩)
    (hs : CutsFrom s live op stop (pos + q.length) qs) : CutsFrom s live op stop pos (q :: qs) :=
  ⟨h.1, h.2.1, ⟨x, h.2.2⟩, hs⟩

/-- The state in which an admitted CMD that nothing holds back comes to the split stage. -/
def handed (s : State) (f : CmdFrame) (i : Initiator) (v : Volume) (op : Op) (c : Sys2Proof.Class) : State :=
  { withLiveParent v (withParent (newParent s f i v op c .orderWait) s) with
    ranges := put s.ranges v (s.ranges[v] ++ [⟨s.nextParent, op, f.start.toNat, f.count.toNat⟩]) }

/-- A CMD that comes to the split stage, and what becomes of it. -/
def Comes (op : Op) (C : State → Prop) : Prop :=
  ∃ (s t : State) (f : CmdFrame) (i : Initiator) (v : Volume) (c : Sys2Proof.Class),
    OrderLaw s ∧ LiveMapLaw s ∧ (∀ e ∈ s.subs, e.id < s.nextSub) ∧ Taken s f i v op c ∧ firstFailure s i v op f = none ∧ v ≠ 0 ∧ op ≠ .drain
    ∧ (s.vol v).state = .online
    ∧ (∀ e ∈ s.ranges[v], f.start.toNat < e.start + e.count → e.start < f.start.toNat + f.count.toNat → op ≠ .write ∧ e.op ≠ .write)
    ∧ Arrives (newParent s f i v op c .orderWait) (handed s f i v op c) t ∧ C t

/-- A CMD of volume 1, of initiator 2 and class 1. -/
def cmdAt (op : Byte) (start : BitVec 32) (count : BitVec 16) (payload : List Block) : CmdFrame := cmdOf 1 1 op 1 start count payload

theorem comes {s t : State} {op : Op} {o : Byte} {start : BitVec 32} {count : BitVec 16} {payload : List Block} {C : State → Prop}
    (h1 : OrderLaw s) (h2 : LiveMapLaw s) (h3 : ∀ e ∈ s.subs, e.id < s.nextSub)
    (ha : Arrives (newParent s (cmdAt o start count payload) 2 1 op 1 .orderWait) (handed s (cmdAt o start count payload) 2 1 op 1) t) (hc : C t)
    (h4 : s.linkUp = true ∧ (cmdAt o start count payload).wf = true ∧ opOf o = some op ∧ count.toNat ≤ 2047 ∧ op ≠ .drain := by decide)
    (h5 : firstFailure s 2 1 op (cmdAt o start count payload) = none := by decide) (h6 : (s.vol 1).state = .online := by decide)
    (h7 : ∀ e ∈ s.ranges[(1 : Volume)], start.toNat < e.start + e.count → e.start < start.toNat + count.toNat → op ≠ .write ∧ e.op ≠ .write := by decide) :
    Comes op C :=
  ⟨s, t, cmdAt o start count payload, 2, 1, 1, h1, h2, h3, taken_cmdOf h4.1 h4.2.1 (by decide) h4.2.2.1 (by decide) h4.2.2.2.1, h5, by decide,
    h4.2.2.2.2, h6, h7, ha, hc⟩

theorem order_served (x : VolRec) (r : PortRec) : OrderLaw (served x r) :=
  have h := order_ready
  ⟨h.admission, h.listed, h.sorted, h.known, h.reported, h.held, h.released, h.waiting, h.holding⟩

theorem fresh_served (x : VolRec) (r : PortRec) : ∀ e ∈ (served x r).subs, e.id < (served x r).nextSub := fun _ h => by cases h

/-- The piece of blocks 12 and 13 for a WRITE of `extent`. -/
def bothCopies : PlannedPiece := ⟨12, 2, 0, [⟨.one, 1, 0x102⟩, ⟨.two, 2, 0x202⟩]⟩

/-- A port that is RESETTING, with the least maximum transfer. -/
def short : PortRec := { resetting with maxTransfer := 8 }

/-- Extent 10 to 145, on port 1. -/
def wide : Extent := { extent with length := 136, copy2 := none }

/-- `wide` on a volume of 146 blocks. -/
def wideVol : VolRec := { online with capacity := some 146, live := [wide] }

theorem mapSound_wide : wideVol.MapSound :=
  ⟨fun h => absurd h (by decide), List.pairwise_singleton _ _, List.pairwise_singleton _ _,
    fun y hy => List.mem_singleton.1 hy ▸ ⟨by decide, by decide, by decide, by decide, by decide, by decide, ⟨_, rfl, rfl⟩⟩, fun h => absurd h (by decide)⟩

/-- Pieces of 8 blocks of `wide`. -/
def eights : Nat → Nat → List PlannedPiece
  | _, 0 => []
  | pos, n + 1 => ⟨pos, 8, 0, [⟨.one, 1, 0x100 + (pos - 10)⟩]⟩ :: eights (pos + 8) n

theorem cuts_eights {s : State} (h : servingCopies s .verify wide = [.one]) (h2 : (s.port 1).maxTransfer = 8) :
    ∀ n pos : Nat, 10 ≤ pos → pos + 8 * n = 146 → CutsFrom s [wide] .verify 146 pos (eights pos n)
  | 0, pos, _, e => e
  | n + 1, pos, l, e => by
    have d : (s.port (wide.portOfCopy .one)).maxTransfer = 8 := h2
    have b : wide.first.toNat = 10 ∧ wide.length.toNat = 136 := by decide
    refine cuts_cons wide ⟨rfl, show 1 ≤ 8 by decide, rfl, by omega, by show pos + 8 ≤ _; omega, by show pos + 8 ≤ _; omega, ?_, ?_, ?_⟩
      (cuts_eights h h2 n (pos + 8) (by omega) (by omega))
    · rw [h]; intro c hc; rw [List.mem_singleton.1 hc, d]
    · rw [h]; exact .inr (.inr ⟨.one, .head _, d.symm⟩)
    · rw [h]
      show [PlannedMember.mk .one 1 (0x100 + (pos - 10))] = [PlannedMember.mk .one 1 (pos - 10 + 0x100)]
      rw [Nat.add_comm]

/-- The second half of a two-extent volume: blocks 20 to 29, on port 2. -/
def nextExtent : Extent := { first := 20, length := 10, copy1 := ⟨2, 0x300, .current⟩, copy2 := none, lead := .one }

theorem sound_next : nextExtent.Sound 100 := ⟨by decide, by decide, by decide, by decide, by decide, by decide, ⟨_, rfl, rfl⟩⟩

theorem mapSound_two : { online with live := [extent, nextExtent] }.MapSound :=
  ⟨fun h => absurd h (by decide), List.pairwise_pair.2 (by decide), List.pairwise_pair.2 (.inl (by decide)), fun y hy => by
    rcases List.mem_cons.1 hy with e | e
    · exact e ▸ sound_extent
    · exact List.mem_singleton.1 e ▸ sound_next, fun h => absurd h (by decide)⟩

/-- A READ that waits at the head of the Split-Wait List, with its range listed. -/
def headWaiting : State := { inFlight { reading with state := .splitWait, generation := none, pieces := [] } with subs := [], splitWait := [4] }

theorem order_headWaiting : OrderLaw headWaiting where
  admission := ⟨List.pairwise_singleton _ _, by decide⟩
  listed := by decide
  sorted := by decide
  known := by decide
  reported := by decide
  held := by decide
  released := by unfold Unraced Races; decide
  waiting := by unfold Unraced Races; decide
  holding := by unfold Unraced Races; decide

/-- Every entry allocated. -/
def full : State := { servedBy [extent] resetting with subs := List.replicate 256 entry, nextSub := 8 }

theorem order_full : OrderLaw full :=
  have h := order_ready
  ⟨h.admission, h.listed, h.sorted, h.known, h.reported, h.held, h.released, h.waiting, h.holding⟩

/-- A WRITE of two copies, QUEUED on RESETTING ports and ISSUED on UP ones. -/
theorem test_witness_WriteIsSplit :
    Comes .write (fun t => t.subs.map (fun e => (e.port, e.targetStart, e.issue.isSome)) = [(1, 0x102, false), (2, 0x202, false)])
    ∧ Comes .write (fun t => t.subs.map (fun e => (e.port, e.targetStart, e.issue.isSome)) = [(1, 0x102, true), (2, 0x202, true)] ∧ t.sent.length = 2) := by
  have one (r : PortRec) (ts : List (Option DTag)) (C : State → Prop) (h : CanBegin (handed (servedBy [extent] r) (cmdAt 2 12 2 [data, data]) 2 1 .write 1)
      (newParent (servedBy [extent] r) (cmdAt 2 12 2 [data, data]) 2 1 .write 1 .orderWait) [bothCopies] ts)
      (h1 : CutsFrom (handed (servedBy [extent] r) (cmdAt 2 12 2 [data, data]) 2 1 .write 1) [extent] .write 14 12 [bothCopies])
      (h2 : firstFailure (servedBy [extent] r) 2 1 .write (cmdAt 2 12 2 [data, data]) = none)
      (hc : C (begun (newParent (servedBy [extent] r) (cmdAt 2 12 2 [data, data]) 2 1 .write 1 .orderWait) [bothCopies] ts
        (handed (servedBy [extent] r) (cmdAt 2 12 2 [data, data]) 2 1 .write 1))) : Comes .write C :=
    comes (order_served _ r) (live_served (mapSound_extent 0 0) r) (fresh_served _ r)
      (.inr (.inl ⟨show Op.write ≠ .drain by decide, _, h1, .inr (.inr ⟨by decide, rfl, show 2 ≤ 256 - 0 by decide, ts, h, rfl⟩)⟩)) hc
      ⟨rfl, by decide, by decide, by decide, by decide⟩ h2 rfl (fun e he => by cases he)
  refine ⟨one resetting [none, none] _ (canBegin_of (by decide) (by decide) (by decide) (by decide)) (cuts_cons extent (by decide) rfl) (by decide) (by decide),
    one upPort [some 0, some 0] _ (canBegin_of (by decide) (by decide) (by decide) (by decide)) (cuts_cons extent (by decide) rfl) (by decide) (by decide)⟩

/-- A VERIFY cut by the maximum transfer, and a READ cut by the end of an extent. -/
theorem test_witness_RangeIsCut :
    Comes .verify (fun t => t.subs.map (fun e => (e.port, e.targetStart, e.count)) = [(1, 0x100, 8), (1, 0x108, 2)])
    ∧ Comes .read (fun t => t.subs.map (fun e => (e.port, e.targetStart, e.count)) = [(1, 0x108, 2), (2, 0x300, 2)] ∧ t.sent.length = 2) :=
  ⟨comes (s := servedBy [extent] short) (o := 3) (start := 10) (count := 10) (payload := []) (order_served _ _) (live_served (mapSound_extent 0 0) _) (fresh_served _ _)
      (.inr (.inl ⟨by decide, [⟨10, 8, 0, [⟨.one, 1, 0x100⟩]⟩, ⟨18, 2, 0, [⟨.one, 1, 0x108⟩]⟩], cuts_cons extent (by decide) (cuts_cons extent (by decide) rfl),
        .inr (.inr ⟨by decide, rfl, by decide, [none, none], canBegin_of (by decide) (by decide) (by decide) (by decide), rfl⟩)⟩)) (by decide),
    comes (s := servedBy [extent, nextExtent] upPort) (o := 1) (start := 18) (count := 4) (payload := []) (order_served _ _) (live_served mapSound_two _) (fresh_served _ _)
      (.inr (.inl ⟨by decide, [⟨18, 2, 0, [⟨.one, 1, 0x108⟩]⟩, ⟨20, 2, 1, [⟨.one, 2, 0x300⟩]⟩], cuts_cons extent (by decide) (cuts_cons nextExtent (by decide) rfl),
        .inr (.inr ⟨by decide, rfl, by decide, [some 0, some 0], canBegin_of (by decide) (by decide) (by decide) (by decide), rfl⟩)⟩)) (by decide)⟩

/-- A range over a hole, one of 17 pieces, one behind a waiting parent, and one for which no entry is free. -/
theorem test_witness_RangeIsNotSplit :
    Comes .write (fun t => statuses t = [.unmapped])
    ∧ Comes .verify (fun t => statuses t = [.fragmented])
    ∧ Comes .read (fun t => t.splitWait = [4, 5]) ∧ Comes .read (fun t => t.splitWait = [0]) :=
  ⟨comes (s := ready) (o := 2) (start := 9) (count := 2) (payload := [data, data]) order_ready live_ready (by decide)
      (.inl ⟨by decide, ⟨9, by decide, by decide, by decide⟩, rfl⟩) (by decide),
    comes (s := served wideVol short) (o := 3) (start := 10) (count := 136) (payload := []) (order_served _ _) (live_served mapSound_wide _) (fresh_served _ _)
      (.inr (.inl ⟨by decide, eights 10 17, cuts_eights (by decide) (by decide) 17 10 (by decide) rfl, .inl ⟨by decide, rfl⟩⟩)) (by decide),
    comes (s := headWaiting) (o := 1) (start := 15) (count := 2) (payload := []) order_headWaiting (by
        intro v
        by_cases h : v = 1
        · subst h; exact mapSound_extent 1 1
        · rw [show headWaiting.vol v = VolRec.reset by revert v; decide]; exact mapSound_reset) (by decide)
      (.inr (.inl ⟨by decide, [⟨15, 2, 0, [⟨.one, 1, 0x105⟩]⟩], cuts_cons extent (by decide) rfl, .inr (.inl ⟨by decide, .inl (by decide), rfl⟩)⟩)) (by decide),
    comes (s := full) (o := 1) (start := 15) (count := 2) (payload := [])
      order_full
      (live_served (mapSound_extent 0 0) resetting) (fun e he => by rw [List.eq_of_mem_replicate he]; exact show (7 : Nat) < 8 by decide)
      (.inr (.inl ⟨by decide, [⟨15, 2, 0, [⟨.one, 1, 0x105⟩]⟩], cuts_cons extent (by decide) rfl,
        .inr (.inl ⟨by decide, .inr (by show 256 - (List.replicate 256 entry).length < 1; rw [List.length_replicate]; decide), rfl⟩)⟩)) (by decide)⟩

/-- A volume that switches to one record, or to none, with one split parent left. -/
def switchingTo (xs : List Extent) (o : Option ParentRef) : VolRec :=
  { online with state := .switching, staged := xs, liveParents := 3, splitParents := 1, longParent := o }

/-- Volume 1 switches; the parents in its hold and in the Split-Wait List are of it, and the commit's parent is live or gone. -/
def switching (xs : List Extent) (o : Option Parent) (held waiting : List Parent) : State :=
  { withVol 1 (switchingTo xs (o.map Parent.id)) (withPort1 resetting) with
    parents := o.toList ++ held ++ waiting, nextParent := 9, mapReports := [⟨1, true⟩]
    switchHolds := put State.reset.switchHolds 1 (held.map Parent.id), splitWait := waiting.map Parent.id }

/-- The swap of a volume whose hold has parents, and what becomes of them. -/
def Swaps (o : Option Parent) (held : List Parent) (C : State → Prop) : Prop :=
  ∃ (s : State) (k : Nat) (r : MapReport) (v : Volume), s.mapReports[k]? = some r ∧ r.volume = v ∧ (s.vol v).state = .switching ∧ r.split = true
    ∧ (s.vol v).splitParents = 1 ∧ v ≠ 0 ∧ LiveMapLaw s ∧ AdmissionOrder s ∧ (∀ e ∈ s.subs, e.id < s.nextSub)
    ∧ (s.vol v).longParent = o.map Parent.id ∧ (∀ p, o = some p → LongParent p s) ∧ s.switchHolds[v] = held.map Parent.id
    ∧ (held.Pairwise fun p q => p.id < q.id) ∧ (∀ p ∈ held, p ∈ s.parents ∧ p.volume = v)
    ∧ ∃ m t, SortedFrom (s.vol v).staged m ∧ Released held { withVol v { (s.vol v).swapped m with liveParents := (s.vol v).liveParents - 1, splitParents := 0 } s with
        freeExtents := s.freeExtents + (s.vol v).live.length
        mapReports := s.mapReports.eraseIdx k
        switchHolds := put s.switchHolds v [] } t ∧ C t

/-- The state in which the parents of a hold come to the split stage. -/
def swappedTo (xs : List Extent) (s : State) : State :=
  { withVol 1 { (s.vol 1).swapped xs with liveParents := (s.vol 1).liveParents - 1, splitParents := 0 } s with
    freeExtents := s.freeExtents + (s.vol 1).live.length
    mapReports := s.mapReports.eraseIdx 0
    switchHolds := put s.switchHolds 1 [] }

theorem swaps {o : Option Parent} {held : List Parent} {C : State → Prop} (xs : List Extent) (waiting : List Parent) {t : State}
    (hx : (switchingTo xs (o.map Parent.id)).MapSound) (hs : xs.Pairwise fun x y => x.first.toNat ≤ y.first.toNat)
    (ha : AdmissionOrder (switching xs o held waiting)) (hl : ∀ p, o = some p → p.volume = 0 ∧ p.slots.length = 1)
    (hh : (held.Pairwise fun p q => p.id < q.id) ∧ ∀ p ∈ held, p.volume = 1)
    (hr : Released held (swappedTo xs (switching xs o held waiting)) t) (hc : C t) : Swaps o held C := by
  refine ⟨switching xs o held waiting, 0, ⟨1, true⟩, 1, rfl, rfl, rfl, rfl, rfl, by decide, ?_, ha, (fun e he => by cases he), rfl, ?_, rfl, hh.1, ?_, xs, t,
    ⟨.refl _, hs⟩, hr, hc⟩
  · intro v
    by_cases e : v = 1
    · subst e; exact hx
    · have : (switching xs o held waiting).vol v = VolRec.reset := by
        have ne : (1 : Nat) ≠ v.val := fun x => e (Fin.ext x.symm)
        show (State.reset.volumes.set 1 _)[v.val] = VolRec.reset
        rw [Vector.getElem_set_ne _ _ ne]
        revert v; decide
      rw [this]; exact mapSound_reset
  · rintro p rfl
    exact ⟨ha, .head _, (hl p rfl).1, (hl p rfl).2⟩
  · exact fun p hp => ⟨List.mem_append_left _ (List.mem_append_right _ hp), hh.2 p hp⟩

theorem mapSound_switching (o : Option ParentRef) : (switchingTo [extent] o).MapSound :=
  ⟨fun h => absurd h (by simp [switchingTo]), .nil, .nil, (fun x hx => by cases hx),
    fun _ => ⟨List.pairwise_singleton _ _, fun y hy => List.mem_singleton.1 hy ▸ sound_extent⟩⟩

theorem mapSound_switching_empty (o : Option ParentRef) : (switchingTo [] o).MapSound :=
  ⟨fun h => absurd h (by simp [switchingTo]), .nil, .nil, (fun x hx => by cases hx), fun _ => ⟨.nil, fun y hy => by cases hy⟩⟩

/-- A parent of volume 1 in SWITCH_WAIT. -/
def held (id : ParentRef) (op : Op) (start count : Nat) : Parent :=
  { parentOf id 1 op start count .switchWait [] with tag := BitVec.ofNat 8 id, drainPhase := if op = .drain then some .two else none }

/-- A parent of volume 1 in SPLIT_WAIT. -/
def waiter (id : ParentRef) : Parent := { held id .verify 12 2 with state := .splitWait }

/-- A VERIFY over a hole of the new map and one inside its extent; a VERIFY and a DRAIN behind a parent that waits; a DRAIN of an empty map. -/
theorem test_witness_SwitchHoldIsReleased :
    Swaps (some longOf) [held 2 .verify 19 2, held 3 .verify 12 2] (fun t => statuses t = [.unmapped] ∧ t.subs.map SubCmd.parent = [3])
    ∧ Swaps none [held 2 .verify 12 2, held 3 .drain 0 0] (fun t => t.splitWait = [8, 2, 3])
    ∧ Swaps none [held 2 .drain 0 0] (fun t => statuses t = [.good]) := by
  refine ⟨swaps [extent] [] (mapSound_switching _) (List.pairwise_singleton _ _) ⟨by decide, by decide⟩ (by rintro p ⟨⟩; decide) (by decide)
      ⟨_, .inl ⟨by decide, ⟨20, by decide, by decide, by decide⟩, rfl⟩, _, .inr (.inl ⟨by decide, [⟨12, 2, 0, [⟨.one, 1, 0x102⟩]⟩],
        cuts_cons extent (by decide) rfl, .inr (.inr ⟨by decide, rfl, by decide, [none], canBegin_of (by decide) (by decide) (by decide) (by decide), rfl⟩)⟩), rfl⟩
      (by decide),
    swaps [extent] [waiter 8] (mapSound_switching _) (List.pairwise_singleton _ _) ⟨by decide, by decide⟩ (by rintro p ⟨⟩) (by decide)
      ⟨_, .inr (.inl ⟨by decide, [⟨12, 2, 0, [⟨.one, 1, 0x102⟩]⟩], cuts_cons extent (by decide) rfl, .inr (.inl ⟨by decide, .inl (by decide), rfl⟩)⟩),
        _, .inr (.inr (.inr ⟨by decide, ⟨extent, by decide, .one, by decide⟩, by decide, rfl⟩)), rfl⟩ (by decide),
    swaps [] [] (mapSound_switching_empty _) .nil ⟨by decide, by decide⟩ (by rintro p ⟨⟩) (by decide)
      ⟨_, .inr (.inr (.inl ⟨by decide, (fun x hx => by cases hx), rfl⟩)), rfl⟩ (by decide)⟩

/-! ### Events that the manual takes without condition -/

/-- A link loss that frees nothing tries the head of the Split-Wait List (08 R124 step 8). -/
theorem test_link_loss_tries_head :
    (after (exec (.targetLinkLost 3) { splitWaiting .switching 12 [] with ports := put ready.ports 3 upPort })).splitWait = [] := by decide

/-- A removal empties the volume's Active Range List (03 R40). -/
theorem test_remove_empties_list : (after (exec .remove (active (controlOf .write 4 1 (page [2]))
    { withVol1 online with ranges := put State.reset.ranges 1 [⟨9, .read, 0, 1⟩], orderReports := [⟨1, 9⟩] }))).ranges[(1 : Volume)] = [] := by decide

end Sys2Proof.Tests
end

section
/-!
Volumes and the extent map: the RESET input's Volume Table (01 R2), STAGE (01 R12) and CLEAR (01 R13).
-/

namespace Sys2Proof.Machine

/-! ## The RESET input (01 R2) -/

theorem reset_vol (v : Volume) : State.reset.vol v = VolRec.reset :=
  Vector.getElem_replicate v.isLt

/-- The volumes, the Extent Pool and the Command Table after the RESET input, whatever the state before it. -/
theorem exec_resetInput (s : State) :
    ∃ t, exec .resetInput s = .next t ∧ (∀ v, t.vol v = VolRec.reset) ∧ t.freeExtents = 512 ∧ t.parents = [] :=
  ⟨_, rfl, reset_vol, rfl, rfl⟩

/-! ## The records of STAGE write data (10 section 10.6, R159) -/

@[simp] theorem extentsOf_length (b : Block) (n : Nat) : (extentsOf b n).length = n := by
  simp [extentsOf]

/-- A record decoded at an offset is the record that the bytes there give (10 R159). -/
theorem extentAt_storedFrom (b : Block) (o : Nat) : (extentAt b o).StoredFrom b o where
  first := rfl
  length := rfl
  lead := rfl
  copy1 := rfl
  copy2 := rfl

/-- Record `i` of STAGE write data stands at 8 + 28 i (10 section 10.6). -/
theorem extentsOf_storedFrom {b : Block} {n i : Nat} {x : Extent} (h : (extentsOf b n)[i]? = some x) :
    x.StoredFrom b (8 + 28 * i) := by
  obtain ⟨hi, rfl⟩ := List.getElem?_eq_some_iff.1 h
  simpa [extentsOf] using extentAt_storedFrom b (8 + 28 * i)

/-! ## STAGE with records to add, by the state of the volume (01 R12) -/

section takeStage
variable {id : ParentRef} {v : Volume} {n : Nat} {b : Block} {s : State}

theorem takeStage_absent (h : (s.vol v).state = .absent) : takeStage id v n b s = answerResult id .badVolume 0 s := by
  simp only [takeStage, h]

theorem takeStage_inProgress (h : (s.vol v).state = .switching ∨ (s.vol v).state = .retiring) :
    takeStage id v n b s = answerResult id .inProgress 0 s := by
  rcases h with h | h <;> simp only [takeStage, h]

theorem takeStage_badCount (h : (s.vol v).state = .online) (hn : n = 0 ∨ 16 < n) :
    takeStage id v n b s = answerResult id .badEntry 0 s := by
  simp only [takeStage, h, if_pos hn]

theorem takeStage_poolShort (h : (s.vol v).state = .online) (h1 : 1 ≤ n) (h16 : n ≤ 16) (hf : s.freeExtents < n) :
    takeStage id v n b s = answerResult id .tableFull 0 s := by
  have hn : ¬(n = 0 ∨ 16 < n) := by omega
  simp only [takeStage, h, if_neg hn, if_pos hf]

theorem takeStage_appends (h : (s.vol v).state = .online) (h1 : 1 ≤ n) (h16 : n ≤ 16) (hf : n ≤ s.freeExtents) :
    takeStage id v n b s = answerResult id .good 0
      (updVol v (fun r => { r with staged := r.staged ++ extentsOf b n }) { s with freeExtents := s.freeExtents - n }) := by
  have hn : ¬(n = 0 ∨ 16 < n) := by omega
  simp only [takeStage, h, if_neg hn, if_neg (Nat.not_lt.2 hf)]

end takeStage

/-! ## CLEAR, by the state of the volume (01 R13) -/

section takeClear
variable {id : ParentRef} {v : Volume} {s : State}

theorem takeClear_absent (h : (s.vol v).state = .absent) : takeClear id v s = answerResult id .badVolume 0 s := by
  simp only [takeClear, h]

theorem takeClear_inProgress (h : (s.vol v).state = .switching ∨ (s.vol v).state = .retiring) :
    takeClear id v s = answerResult id .inProgress 0 s := by
  rcases h with h | h <;> simp only [takeClear, h]

theorem takeClear_returns (h : (s.vol v).state = .online) :
    takeClear id v s = answerResult id .good 0
      (updVol v (fun r => { r with staged := [] }) { s with freeExtents := s.freeExtents + (s.vol v).staged.length }) := by
  simp only [takeClear, h]

end takeClear

/-! ## A WRITE to the STAGE page, by its action byte (09 R143, 10 R160) -/

section stagePage
variable {p : Parent} {v : Volume} {b : Block}

theorem action_of (hb : p.slots = [some b]) : action p = byteAt b 0 := by
  rw [action, writeData_of hb]

theorem stageWrite_add (s : State) (hb : p.slots = [some b]) (h1 : byteAt b 0 = 1) :
    stageWrite p v s = takeStage p.id v (byteAt b 1).toNat b s := by
  rw [stageWrite, action_of hb, if_pos h1, writeData_of hb]

theorem stageWrite_clear (s : State) (hb : p.slots = [some b]) (h2 : byteAt b 0 = 2) :
    stageWrite p v s = takeClear p.id v s := by
  rw [stageWrite, action_of hb, h2, if_neg (by decide), if_pos rfl]

theorem stageWrite_badAction (s : State) (hb : p.slots = [some b]) (h1 : byteAt b 0 ≠ 1) (h2 : byteAt b 0 ≠ 2) :
    stageWrite p v s = answerResult p.id .badEntry 0 s := by
  rw [stageWrite, action_of hb, if_neg h1, if_neg h2]

theorem pageOp_stage (hv : v ≠ 0) (ha : addressed p .write 5 v.val) : pageOp p = some (.stageWrite v) := by
  rw [pageOp_write ha]
  simp only [writePage, selVolume_of hv, Option.map_some]

/-- The STAGE row picks up a STAGE page WRITE whose action is not CLEAR. -/
theorem pickStage_of (hv : v ≠ 0) (ha : addressed p .write 5 v.val) (hb : p.slots = [some b]) (h2 : byteAt b 0 ≠ 2) :
    pickStage p = some (managed p (stageWrite p v)) := by
  simp only [pickStage, pageOp_stage hv ha, action_of hb, if_neg h2]

/-- The CLEAR row picks up a STAGE page WRITE whose action is not ADD. -/
theorem pickClear_of (hv : v ≠ 0) (ha : addressed p .write 5 v.val) (hb : p.slots = [some b]) (h1 : byteAt b 0 ≠ 1) :
    pickClear p = some (managed p (stageWrite p v)) := by
  simp only [pickClear, pageOp_stage hv ha, action_of hb, if_neg h1]

/-- The manager's STAGE is the answer that its page WRITE gives, after a move that leaves the Command Table as it is (09 R137). -/
theorem exec_stage_of {s t : State} {st : Status} {detail : Nat} (h : Running p s) (hm : s.manager = some p.initiator) (hv : v ≠ 0)
    (ha : addressed p .write 5 v.val) (hb : p.slots = [some b]) (h2 : byteAt b 0 ≠ 2)
    (hw : stageWrite p v s = answerResult p.id st detail t) (hp : t.parents = s.parents := by rfl)
    (hn : t.nextParent = s.nextParent := by rfl) : exec .stage s = .next (answered p st (resultBlock detail) t) :=
  congrArg Host.Outcome.next (execute_managed st _ h hm (pickStage_of hv ha hb h2) hw hp hn)

/-- The manager's CLEAR is the answer that its page WRITE gives, after a move that leaves the Command Table as it is (09 R137). -/
theorem exec_clear_of {s t : State} {st : Status} {detail : Nat} (h : Running p s) (hm : s.manager = some p.initiator) (hv : v ≠ 0)
    (ha : addressed p .write 5 v.val) (hb : p.slots = [some b]) (h1 : byteAt b 0 ≠ 1)
    (hw : stageWrite p v s = answerResult p.id st detail t) (hp : t.parents = s.parents := by rfl)
    (hn : t.nextParent = s.nextParent := by rfl) : exec .clear s = .next (answered p st (resultBlock detail) t) :=
  congrArg Host.Outcome.next (execute_managed st _ h hm (pickClear_of hv ha hb h1) hw hp hn)

end stagePage

/-! ## The obligations -/

/-- Settles O34: each clause is the case of `takeStage` that its hypotheses name; the appended records are `extentsOf b n`. -/
theorem stageAppendsRecordsFromPool : Obligations.StageAppendsRecordsFromPool := by
  rintro s p v b n hr hm hv ha hb rfl
  refine ⟨fun h1 h2 => exec_stage_of hr hm hv ha hb h2 (stageWrite_badAction s hb h1 h2), fun h1 => ?_⟩
  have h2 : byteAt b 0 ≠ 2 := by rw [h1]; decide
  have hw := stageWrite_add (v := v) s hb h1
  refine ⟨?absent, ?inProgress, ?badCount, ?poolShort, ?appends⟩
  case absent => exact fun h => exec_stage_of hr hm hv ha hb h2 (hw.trans (takeStage_absent h))
  case inProgress => exact fun h => exec_stage_of hr hm hv ha hb h2 (hw.trans (takeStage_inProgress h))
  case badCount => exact fun h hn => exec_stage_of hr hm hv ha hb h2 (hw.trans (takeStage_badCount h hn))
  case poolShort =>
    exact fun h hn h16 hf => exec_stage_of hr hm hv ha hb h2 (hw.trans (takeStage_poolShort h hn h16 hf))
  case appends =>
    exact fun h hn h16 hf => ⟨extentsOf b _, extentsOf_length b _, fun _ _ => extentsOf_storedFrom,
      exec_stage_of hr hm hv ha hb h2 (hw.trans (takeStage_appends h hn h16 hf))⟩

/-- Settles O35: each clause is the case of `takeClear` that the volume's state names. -/
theorem clearReturnsStagedRecords : Obligations.ClearReturnsStagedRecords := by
  rintro s p v hr hm hv ha ⟨b, hb, h2⟩
  have h1 : byteAt b 0 ≠ 1 := by rw [h2]; decide
  have hw := stageWrite_clear (v := v) s hb h2
  refine ⟨?absent, ?inProgress, ?returns⟩
  case absent => exact fun h => exec_clear_of hr hm hv ha hb h1 (hw.trans (takeClear_absent h))
  case inProgress => exact fun h => exec_clear_of hr hm hv ha hb h1 (hw.trans (takeClear_inProgress h))
  case returns => exact fun h => exec_clear_of hr hm hv ha hb h1 (hw.trans (takeClear_returns h))

/-- Settles O3: every row of the Volume Table after the RESET input is the reset record. -/
theorem resetInputClearsVolumeTable : Obligations.ResetInputClearsVolumeTable := by
  intro s
  obtain ⟨t, ht, hvol, hfree, hparents⟩ := exec_resetInput s
  exact ⟨t, ht, fun v => by simp only [hvol v, VolRec.reset, and_self], hfree, hparents⟩

end Sys2Proof.Machine
end

section
/-!
TCPLs on a port that takes them: the unknown tag (07 R113).
-/

namespace Sys2Proof.Machine

/-! ## A TCPL by the state of the port and of its tag (07 R111) -/

section tcpl
variable {s : State} {d : Port} {t : DTag} {f : TcplFrame}

/-- A TCPL whose length fits is taken as the port's state says (07 R111, 10 R155). -/
theorem exec_tcpl_of_wf (hf : f.wf = true) : exec (.tcpl d f) s = .next (takeTcpl d f s) :=
  congrArg Host.Outcome.next (if_pos hf)

/-- A port that is UP or HALTED takes a TCPL by its tag (07 R111). -/
theorem takeTcpl_of_up_or_halted (h : (s.port d).state = .up ∨ (s.port d).state = .halted) :
    takeTcpl d f s = takeTagged d f s := by
  rcases h with hup | hhalted
  · simp only [takeTcpl, hup]
  · simp only [takeTcpl, hhalted]

/-- A TCPL for a FREE tag posts UNKNOWN_TAG, and that is all (07 R113). -/
theorem takeTagged_free (ht : f.tag.toNat = t.val) (htag : (s.port d).tags[t] = .free) :
    takeTagged d f s = postTag .unknownTag d f.tag s := by
  simp only [takeTagged, dtagOf_eq ht, htag]

end tcpl

/-! ## The obligation on unknown tags -/

/-- Settles O49: the frame fits, the port takes it by its tag, and the FREE tag leaves only the notice. -/
theorem unknownTagIsDiscardedAndPosted : Obligations.UnknownTagIsDiscardedAndPosted := by
  intro s d t f hf hport ht htag
  calc exec (.tcpl d f) s
      = .next (takeTcpl d f s) := exec_tcpl_of_wf hf
    _ = .next (takeTagged d f s) := by rw [takeTcpl_of_up_or_halted hport]
    _ = .next (postTag .unknownTag d f.tag s) := by rw [takeTagged_free ht htag]
    _ = .next (noticed (portNotice .unknownTag d (some f.tag) none none) s) := by rw [postTag_eq]

end Sys2Proof.Machine
end

section
/-!
Every step: what an event can do to the part, said once, and the laws of Safety.lean that every step keeps.
-/

-- The package is also compiled as one text: one proof after another keeps the number of Lean's threads small there.
set_option Elab.async false

namespace Sys2Proof.Machine

/-! ## What a step can do -/

/-- What a row of the command table does for the CONTROL_ACTIVE parent that it picks up (09 R137). -/
inductive ControlMove (p : Parent) : (State → State) → Prop
  | badPage : ControlMove p (answerResult p.id .badPage 0)
  | page (b : State → Block) : ControlMove p fun s => answerPage p (b s) s
  | notices : ControlMove p fun s => answerPage p (noticesPage s) (takeNotices s)
  | claim : ControlMove p (claimWrite p)
  | volume (v : Volume) : ControlMove p (volumeWrite p v)
  | stage (v : Volume) : ControlMove p (stageWrite p v)
  | commit (v : Volume) : ControlMove p (takeCommit p.id v)
  | access (i : Initiator) : ControlMove p (writeAccess p i)
  | initiator (i : Initiator) : ControlMove p (writeInitiator p i)
  | port (d : Port) : ControlMove p (writePort p d)
  | portReset (d : Port) : ControlMove p (takePortReset p.id d)
  | flushAll : ControlMove p (doFlushAll p.id)
  | managed {f : State → State} (h : ControlMove p f) : ControlMove p (managed p f)

/-- The picks of a row are control moves. -/
def Picks (pick : Parent → Option (State → State)) : Prop := ∀ p f, pick p = some f → ControlMove p f

theorem picks_badPage : Picks pickBadPage := by
  intro p f h
  unfold pickBadPage at h
  split at h <;> cases h
  exact .badPage

theorem picks_identityRead : Picks pickIdentityRead := by
  intro p f h
  unfold pickIdentityRead at h
  split at h <;> cases h
  exact .page identityPage

theorem picks_statusRead : Picks pickStatusRead := by
  intro p f h
  unfold pickStatusRead at h
  split at h <;> cases h
  exact .page statusPage

theorem picks_noticesRead : Picks pickNoticesRead := by
  intro p f h
  unfold pickNoticesRead at h
  split at h <;> cases h
  exact .managed .notices

theorem picks_claim : Picks pickClaim := by
  intro p f h
  unfold pickClaim at h
  split at h
  · split at h <;> cases h
    exact .claim
  · cases h

theorem picks_release : Picks pickRelease := by
  intro p f h
  unfold pickRelease at h
  split at h
  · split at h <;> cases h
    exact .claim
  · cases h

theorem picks_volumeRead : Picks pickVolumeRead := by
  intro p f h
  unfold pickVolumeRead at h
  split at h <;> cases h
  exact .managed (.page _)

theorem picks_define : Picks pickDefine := by
  intro p f h
  unfold pickDefine at h
  split at h
  · split at h <;> cases h
    exact .managed (.volume _)
  · cases h

theorem picks_remove : Picks pickRemove := by
  intro p f h
  unfold pickRemove at h
  split at h
  · split at h <;> cases h
    exact .managed (.volume _)
  · cases h

theorem picks_stage : Picks pickStage := by
  intro p f h
  unfold pickStage at h
  split at h
  · split at h <;> cases h
    exact .managed (.stage _)
  · cases h

theorem picks_clear : Picks pickClear := by
  intro p f h
  unfold pickClear at h
  split at h
  · split at h <;> cases h
    exact .managed (.stage _)
  · cases h

theorem picks_commit : Picks pickCommit := by
  intro p f h
  unfold pickCommit at h
  split at h <;> cases h
  exact .managed (.commit _)

theorem picks_accessRead : Picks pickAccessRead := by
  intro p f h
  unfold pickAccessRead at h
  split at h <;> cases h
  exact .managed (.page _)

theorem picks_accessWrite : Picks pickAccessWrite := by
  intro p f h
  unfold pickAccessWrite at h
  split at h <;> cases h
  exact .managed (.access _)

theorem picks_initiatorRead : Picks pickInitiatorRead := by
  intro p f h
  unfold pickInitiatorRead at h
  split at h <;> cases h
  exact .managed (.page _)

theorem picks_initiatorWrite : Picks pickInitiatorWrite := by
  intro p f h
  unfold pickInitiatorWrite at h
  split at h <;> cases h
  exact .managed (.initiator _)

theorem picks_portRead : Picks pickPortRead := by
  intro p f h
  unfold pickPortRead at h
  split at h <;> cases h
  exact .managed (.page _)

theorem picks_portWrite : Picks pickPortWrite := by
  intro p f h
  unfold pickPortWrite at h
  split at h <;> cases h
  exact .managed (.port _)

theorem picks_portReset : Picks pickPortReset := by
  intro p f h
  unfold pickPortReset at h
  split at h <;> cases h
  exact .managed (.portReset _)

theorem picks_flushAll : Picks pickFlushAll := by
  intro p f h
  unfold pickFlushAll at h
  split at h <;> cases h
  exact .managed .flushAll

theorem picks_liveMapRead : Picks pickLiveMapRead := by
  intro p f h
  unfold pickLiveMapRead at h
  split at h <;> cases h
  exact .managed (.page _)

theorem picks_stagedMapRead : Picks pickStagedMapRead := by
  intro p f h
  unfold pickStagedMapRead at h
  split at h <;> cases h
  exact .managed (.page _)

/-- What an event other than the RESET input makes of a state, with one constructor for all the rows of the Control Unit; `tick` is the idle step that lets time pass. -/
inductive Event (s : State) : State → Prop
  | tick : Event s (tick s)
  | dropped : Event s s
  | linkUp : Event s { s with linkUp := true }
  | upstreamLoss : Event s (takeUpstreamLoss s)
  | sendOutbound : Event s (sendOutbound s)
  | cmd (f : CmdFrame) : Event s (receiveCmd f s)
  | abt (f : AbtFrame) : Event s (receiveAbt f s)
  | mapReport (k : Nat) : Event s (takeMapReportAt k s)
  | orderReport (k : Nat) : Event s (takeOrderReportAt k s)
  | goneMap (k : Nat) : Event s (takeGoneMapAt k s)
  | gonePort (k : Nat) : Event s (takeGonePortAt k s)
  | goneFlush (k : Nat) : Event s (takeGoneFlushAt k s)
  | targetUp (d : Port) : Event s (takeLinkUp d s)
  | targetLost (d : Port) : Event s (takeLinkLost d s)
  | tcpl (d : Port) (f : TcplFrame) : Event s (receiveTcpl d f s)
  | trdy (d : Port) : Event s (takeTrdy d s)
  | deadline (d : Port) (t : DTag) : Event s (takeDeadline d t s)
  | resetTimer (d : Port) : Event s (takeResetTimer d s)
  | lease : Event s (takeLeaseExpiry s)
  | control {pick : Parent → Option (State → State)} (h : Picks pick) : Event s (execute pick s)

/-- Every command but the RESET input is an event. -/
theorem exec_event {c : Instr} {s t : State} (h : exec c s = .next t) (hc : c ≠ .resetInput) : Event s t := by
  cases c with
  | resetInput => exact absurd rfl hc
  | upstreamLinkUp => cases h; exact .linkUp
  | upstreamLinkLoss => cases h; exact .upstreamLoss
  | outboundFrameSend => cases h; exact .sendOutbound
  | droppedFrame => cases h; exact .dropped
  | cmd f => cases h; exact .cmd f
  | abt f => cases h; exact .abt f
  | freeReportMap k => cases h; exact .mapReport k
  | freeReportOrder k => cases h; exact .orderReport k
  | longParentGoneMap k => cases h; exact .goneMap k
  | longParentGonePort k => cases h; exact .gonePort k
  | longParentGoneFlush k => cases h; exact .goneFlush k
  | targetLinkUp d => cases h; exact .targetUp d
  | targetLinkLost d => cases h; exact .targetLost d
  | tcpl d f => cases h; exact .tcpl d f
  | trdy d => cases h; exact .trdy d
  | deadlineExpiry d t => cases h; exact .deadline d t
  | resetTimerExpiry d => cases h; exact .resetTimer d
  | leaseExpiry => cases h; exact .lease
  | badPage => cases h; exact .control picks_badPage
  | identityRead => cases h; exact .control picks_identityRead
  | statusRead => cases h; exact .control picks_statusRead
  | noticesRead => cases h; exact .control picks_noticesRead
  | claim => cases h; exact .control picks_claim
  | release => cases h; exact .control picks_release
  | volumeRead => cases h; exact .control picks_volumeRead
  | define => cases h; exact .control picks_define
  | remove => cases h; exact .control picks_remove
  | stage => cases h; exact .control picks_stage
  | clear => cases h; exact .control picks_clear
  | commit => cases h; exact .control picks_commit
  | accessRead => cases h; exact .control picks_accessRead
  | accessWrite => cases h; exact .control picks_accessWrite
  | initiatorRead => cases h; exact .control picks_initiatorRead
  | initiatorWrite => cases h; exact .control picks_initiatorWrite
  | portRead => cases h; exact .control picks_portRead
  | portWrite => cases h; exact .control picks_portWrite
  | portReset => cases h; exact .control picks_portReset
  | flushAll => cases h; exact .control picks_flushAll
  | liveMapRead => cases h; exact .control picks_liveMapRead
  | stagedMapRead => cases h; exact .control picks_stagedMapRead

/-- The state after the RESET input. -/
def afterReset (s : State) : State := { State.reset with pending := s.pending, now := s.now, sent := s.sent }

theorem exec_reset (s : State) : exec .resetInput s = .next (afterReset s) := rfl

theorem idleEvent_ne_reset {s : State} {c : Instr} (h : idleEvent s = some c) : c ≠ .resetInput := by
  unfold idleEvent at h
  split at h
  · cases h; nofun
  · split at h
    · cases h; nofun
    · obtain ⟨d, -, rfl⟩ := Option.map_eq_some_iff.1 h
      nofun

/-- A step is the RESET input, or an event on the state with what is left of the queue. -/
theorem step_cases {s t : State} (h : step s = .next t) :
    ∃ rest, t = afterReset { s with pending := rest } ∨ Event { s with pending := rest } t := by
  unfold step at h
  split at h
  · refine ⟨s.pending, .inr ?_⟩
    unfold idle at h
    split at h
    case h_1 c hc => exact exec_event h (idleEvent_ne_reset hc)
    case h_2 => cases h; exact .tick
  · next c rest _ =>
    refine ⟨rest, ?_⟩
    by_cases hc : c = .resetInput
    · subst hc; cases h; exact .inl rfl
    · exact .inr (exec_event h hc)

/-! ## The laws at reset -/

theorem reset_initiator (i : Initiator) : State.reset.initiators[i] = InitRec.reset := Vector.getElem_replicate i.isLt

theorem reset_access (i : Initiator) (v : Volume) : State.reset.access[i][v] = .none := by
  rw [show State.reset.access[i] = Vector.replicate 64 Rights.none from Vector.getElem_replicate i.isLt]
  exact Vector.getElem_replicate v.isLt

theorem reset_ranges (v : Volume) : State.reset.ranges[v] = [] := Vector.getElem_replicate v.isLt

theorem reset_holds (v : Volume) : State.reset.holds[v] = [] := Vector.getElem_replicate v.isLt

theorem reset_switchHolds (v : Volume) : State.reset.switchHolds[v] = [] := Vector.getElem_replicate v.isLt

theorem reset_port (d : Port) : State.reset.port d = PortRec.reset := Vector.getElem_replicate d.isLt

theorem reset_queue (c : Sys2Proof.Class) : PortRec.reset.queues[c] = [] := Vector.getElem_replicate c.isLt

theorem reset_tag (t : DTag) : PortRec.reset.tags[t] = .free := Vector.getElem_replicate t.isLt

theorem reset_freeExtents : State.reset.freeExtents = 512 := rfl

theorem commandTableLaw_reset : CommandTableLaw State.reset :=
  ⟨by decide, ⟨.nil, nofun⟩, .nil, ⟨nofun, rfl⟩, fun i => by rw [reset_initiator]; rfl⟩

theorem extentPoolLaw_reset : ExtentPoolLaw State.reset :=
  ⟨fun v => by rw [reset_vol]; exact ⟨rfl, rfl, rfl⟩, by simp [recordsHeld, State.reset, VolRec.reset]⟩

theorem liveMapLaw_reset : LiveMapLaw State.reset := fun v => by
  rw [reset_vol]
  exact ⟨fun _ => rfl, .nil, .nil, nofun, nofun⟩

theorem volumeCountLaw_reset : VolumeCountLaw State.reset :=
  ⟨fun v _ => by rw [reset_vol]; rfl, fun v _ => reset_ranges v⟩

theorem noticeLaw_reset : NoticeLaw State.reset := ⟨by decide, by decide, rfl⟩

theorem managerLaw_reset : ManagerLaw State.reset := ⟨by decide, fun _ => ⟨rfl, rfl⟩, fun _ => rfl⟩

theorem portLaw_reset : PortLaw State.reset := fun d => by
  rw [reset_port]
  exact ⟨by decide, nofun, by decide, by decide, by decide, by decide, by decide⟩

theorem portStateLaw_reset : PortStateLaw State.reset := fun d => by
  rw [reset_port]
  exact ⟨fun _ => reset_queue, fun h => absurd rfl h, fun h => absurd rfl h, nofun, fun _ => reset_tag⟩

theorem subCommandLaw_reset : SubCommandLaw State.reset where
  names := .nil
  fresh := nofun
  tagged p t e h := by rw [reset_port, reset_tag] at h; nomatch h
  issued := nofun
  queued p c e h := by rw [reset_port, reset_queue] at h; nomatch h
  waiting := nofun
  once p c := by rw [reset_port, reset_queue]; exact .nil

theorem boundLaw_reset : BoundLaw State.reset := ⟨by decide, by decide⟩

theorem orderLaw_reset : OrderLaw State.reset where
  admission := ⟨.nil, nofun⟩
  listed := nofun
  sorted v := by rw [reset_ranges]; exact .nil
  known v x h := by rw [reset_ranges] at h; nomatch h
  reported := nofun
  held v x h := by rw [reset_holds] at h; nomatch h
  released := nofun
  waiting := nofun
  holding v x h := by rw [reset_switchHolds] at h; nomatch h

/-- The laws do not speak of the queue, the time and the frames already sent. -/
theorem keeps_afterReset (s : State) : Keeps State.reset (afterReset s) := Same.keeps {}

theorem settles_afterReset (s : State) : Settles State.reset (afterReset s) := Inert.settles {}

theorem orders_afterReset (s : State) : Orders State.reset (afterReset s) := .same .same

/-! ## Every step keeps the laws of the tables -/

theorem ControlMove.keeps {p : Parent} {f : State → State} (h : ControlMove p f) : ∀ s, Keeps s (f s) := by
  induction h with
  | badPage => exact keeps_answerResult _ _ _
  | page b => exact fun s => keeps_answer _ _ _ s
  | notices => exact fun s => (keeps_takeNotices s).trans (keeps_answer _ _ _ _)
  | claim => exact keeps_claimWrite p
  | volume v => exact keeps_volumeWrite p v
  | stage v => exact keeps_stageWrite p v
  | commit v => exact keeps_takeCommit p.id v
  | access i => exact keeps_writeAccess p i
  | initiator i => exact keeps_writeInitiator p i
  | port d => exact keeps_writePort p d
  | portReset d => exact keeps_takePortReset p.id d
  | flushAll => exact keeps_doFlushAll p.id
  | managed _ ih => exact keeps_managed ih

theorem keeps_receiveCmd (f : CmdFrame) (s : State) : Keeps s (receiveCmd f s) := by
  unfold receiveCmd
  split
  · exact .refl s
  · split
    · exact keeps_takeCmd _ f s
    · exact .refl s

theorem keeps_receiveAbt (f : AbtFrame) (s : State) : Keeps s (receiveAbt f s) := by
  unfold receiveAbt
  split
  · exact .refl s
  · split
    · exact keeps_takeAbt _ f.tag s
    · exact .refl s

theorem keeps_receiveTcpl (d : Port) (f : TcplFrame) (s : State) : Keeps s (receiveTcpl d f s) := by
  unfold receiveTcpl
  split
  · exact keeps_takeTcpl d f s
  · exact .refl s

theorem keeps_takeOrderReportAt (k : Nat) (s : State) : Keeps s (takeOrderReportAt k s) := by
  unfold takeOrderReportAt
  split
  · exact .refl s
  · exact (Same.keeps {}).trans (keeps_takeOrderReport _ { s with orderReports := s.orderReports.eraseIdx k })

theorem keeps_takeGoneMapAt (k : Nat) (s : State) : Keeps s (takeGoneMapAt k s) := by
  unfold takeGoneMapAt
  split
  · exact .refl s
  · exact (Same.keeps {}).trans (keeps_takeGoneMap _ { s with goneMap := s.goneMap.eraseIdx k })

theorem keeps_takeGonePortAt (k : Nat) (s : State) : Keeps s (takeGonePortAt k s) := by
  unfold takeGonePortAt
  split
  · exact .refl s
  · exact (Same.keeps {}).trans (keeps_takeGonePort _ { s with gonePort := s.gonePort.eraseIdx k })

theorem keeps_takeGoneFlushAt (k : Nat) (s : State) : Keeps s (takeGoneFlushAt k s) := by
  unfold takeGoneFlushAt
  split
  · exact .refl s
  · exact Same.keeps {}

theorem Event.keeps {s t : State} (h : Event s t) : Keeps s t := by
  cases h with
  | tick => exact Same.keeps {}
  | dropped => exact .refl s
  | linkUp => exact Same.keeps {}
  | upstreamLoss => exact keeps_takeUpstreamLoss s
  | sendOutbound => exact keeps_sendOutbound s
  | cmd f => exact keeps_receiveCmd f s
  | abt f => exact keeps_receiveAbt f s
  | mapReport k => exact keeps_takeMapReportAt k s
  | orderReport k => exact keeps_takeOrderReportAt k s
  | goneMap k => exact keeps_takeGoneMapAt k s
  | gonePort k => exact keeps_takeGonePortAt k s
  | goneFlush k => exact keeps_takeGoneFlushAt k s
  | targetUp d => exact keeps_takeLinkUp d s
  | targetLost d => exact keeps_takeLinkLost d s
  | tcpl d f => exact keeps_receiveTcpl d f s
  | trdy d => exact keeps_takeTrdy d s
  | deadline d t => exact keeps_takeDeadline d t s
  | resetTimer d => exact keeps_takeResetTimer d s
  | lease => exact keeps_takeLeaseExpiry s
  | control hp => exact keeps_execute (fun p f hf => (hp p f hf).keeps) s

/-- A step is a move that keeps the laws of the tables, from the state before it or from the reset state. -/
theorem step_keeps {s t : State} (h : step s = .next t) : Keeps s t ∨ Keeps State.reset t := by
  obtain ⟨rest, rfl | he⟩ := step_cases h
  · exact .inr (keeps_afterReset _)
  · exact .inl ((Same.keeps {}).trans he.keeps)

/-! ## Every step keeps the law of sub-commands and tags, and what goes with each port's state -/

theorem ControlMove.settles {p : Parent} {f : State → State} (h : ControlMove p f) : ∀ s, Settles s (f s) := by
  induction h with
  | badPage => exact fun s => (inert_answerResult _ _ _ s).settles
  | page b => exact fun s => (inert_answer _ _ _ s).settles
  | notices => exact fun s => (Inert.trans (t := takeNotices s) {} (inert_answer _ _ _ _)).settles
  | claim => exact fun s => (inert_claimWrite p s).settles
  | volume v => exact fun s => (inert_volumeWrite p v s).settles
  | stage v => exact fun s => (inert_stageWrite p v s).settles
  | commit v => exact fun s => (flows_takeCommit p.id v s).settles
  | access i => exact fun s => (inert_writeAccess p i s).settles
  | initiator i => exact fun s => (inert_writeInitiator p i s).settles
  | port d => exact settles_writePort p d
  | portReset d => exact settles_takePortReset p.id d
  | flushAll => exact settles_doFlushAll p.id
  | managed _ ih => exact settles_managed ih

theorem inert_sendOutbound (s : State) : Inert s (sendOutbound s) := by
  unfold sendOutbound
  split
  · exact {}
  · split <;> exact {}

theorem flows_receiveCmd (f : CmdFrame) (s : State) : Flows s (receiveCmd f s) := by
  unfold receiveCmd
  split
  · exact .refl s
  · split
    · exact flows_takeCmd _ f s
    · exact .refl s

theorem flows_receiveAbt (f : AbtFrame) (s : State) : Flows s (receiveAbt f s) := by
  unfold receiveAbt
  split
  · exact .refl s
  · split
    · exact flows_takeAbt _ f.tag s
    · exact .refl s

theorem settles_receiveTcpl (d : Port) (f : TcplFrame) (s : State) : Settles s (receiveTcpl d f s) := by
  unfold receiveTcpl
  split
  · exact settles_takeTcpl d f s
  · exact .refl s

theorem flows_takeMapReportAt (k : Nat) (s : State) : Flows s (takeMapReportAt k s) := by
  unfold takeMapReportAt
  split
  · exact .refl s
  · exact (Inert.flows {}).trans (flows_takeMapReport _ { s with mapReports := s.mapReports.eraseIdx k })

theorem flows_takeOrderReportAt (k : Nat) (s : State) : Flows s (takeOrderReportAt k s) := by
  unfold takeOrderReportAt
  split
  · exact .refl s
  · exact (Inert.flows {}).trans (flows_takeOrderReport _ { s with orderReports := s.orderReports.eraseIdx k })

theorem inert_takeGoneMapAt (k : Nat) (s : State) : Inert s (takeGoneMapAt k s) := by
  unfold takeGoneMapAt
  split <;> exact {}

theorem settles_takeGonePortAt (k : Nat) (s : State) : Settles s (takeGonePortAt k s) := by
  unfold takeGonePortAt
  split
  · exact .refl s
  · exact (Inert.settles {}).trans (settles_takeGonePort _ { s with gonePort := s.gonePort.eraseIdx k })

theorem inert_takeGoneFlushAt (k : Nat) (s : State) : Inert s (takeGoneFlushAt k s) := by
  unfold takeGoneFlushAt
  split <;> exact {}

theorem inert_takeLeaseExpiry (s : State) : Inert s (takeLeaseExpiry s) := by
  unfold takeLeaseExpiry
  split
  · exact Inert.trans (t := clearManager s) {} (inert_post _ _)
  · exact .refl s

theorem Event.settles {s t : State} (h : Event s t) : Settles s t := by
  cases h with
  | tick => exact Inert.settles {}
  | dropped => exact .refl s
  | linkUp => exact Inert.settles {}
  | upstreamLoss => exact (flows_takeUpstreamLoss s).settles
  | sendOutbound => exact (inert_sendOutbound s).settles
  | cmd f => exact (flows_receiveCmd f s).settles
  | abt f => exact (flows_receiveAbt f s).settles
  | mapReport k => exact (flows_takeMapReportAt k s).settles
  | orderReport k => exact (flows_takeOrderReportAt k s).settles
  | goneMap k => exact (inert_takeGoneMapAt k s).settles
  | gonePort k => exact settles_takeGonePortAt k s
  | goneFlush k => exact (inert_takeGoneFlushAt k s).settles
  | targetUp d => exact settles_takeLinkUp d s
  | targetLost d => exact settles_takeLinkLost d s
  | tcpl d f => exact settles_receiveTcpl d f s
  | trdy d => exact settles_takeTrdy d s
  | deadline d t => exact settles_takeDeadline d t s
  | resetTimer d => exact settles_takeResetTimer d s
  | lease => exact (inert_takeLeaseExpiry s).settles
  | control hp => exact settles_execute (fun p f hf => (hp p f hf).settles) s

theorem step_settles {s t : State} (h : step s = .next t) : Settles s t ∨ Settles State.reset t := by
  obtain ⟨rest, rfl | he⟩ := step_cases h
  · exact .inr (settles_afterReset _)
  · exact .inl ((Inert.settles {}).trans he.settles)

/-- A tag has one state, so ISSUED and QUARANTINED tags are counted once in the 16 (05 R75). -/
theorem occupancy_le (r : PortRec) : r.issuedTags + r.quarantinedTags ≤ 16 := by
  have h : ∀ l : List TagState, l.countP TagState.isIssued + l.countP (fun t => t == .quarantined) ≤ l.length := by
    intro l
    induction l with
    | nil => exact Nat.le_refl 0
    | cons t l ih =>
      simp only [List.countP_cons, List.length_cons]
      cases t <;> simp [TagState.isIssued] <;> omega
  simpa [PortRec.issuedTags, PortRec.quarantinedTags, PortRec.countTags] using h r.tags.toList

/-! ## Every step keeps the law of ordering -/

theorem ControlMove.orders {p : Parent} {f : State → State} {s : State} (h : ControlMove p f) (hc : VolumeCountLaw s) : Orders s (f s) := by
  induction h with
  | badPage => exact orders_answerResult _ _ _ s
  | page b => exact orders_answer _ _ _ s
  | notices => exact (Orders.same .same : Orders s (takeNotices s)).trans (orders_answer _ _ _ _)
  | claim => exact orders_claimWrite p s
  | volume v => exact orders_volumeWrite p v hc
  | stage v => exact orders_stageWrite p v s
  | commit v => exact orders_takeCommit p.id v s
  | access i => exact orders_writeAccess p i s
  | initiator i => exact orders_writeInitiator p i s
  | port d => exact orders_writePort p d s
  | portReset d => exact orders_takePortReset p.id d s
  | flushAll => exact orders_doFlushAll p.id s
  | managed _ ih => exact orders_managed ih

theorem orders_sendOutbound (s : State) : Orders s (sendOutbound s) := by
  unfold sendOutbound
  split
  · exact .refl s
  · split <;> exact .same .same

theorem law_receiveCmd (f : CmdFrame) {s : State} (h : OrderLaw s) : OrderLaw (receiveCmd f s) := by
  unfold receiveCmd
  split
  · exact h
  · split
    · exact law_takeCmd _ f s h
    · exact h

theorem orders_receiveAbt (f : AbtFrame) (s : State) : Orders s (receiveAbt f s) := by
  unfold receiveAbt
  split
  · exact .refl s
  · split
    · exact orders_takeAbt _ f.tag s
    · exact .refl s

theorem orders_receiveTcpl (d : Port) (f : TcplFrame) (s : State) : Orders s (receiveTcpl d f s) := by
  unfold receiveTcpl
  split
  · exact orders_takeTcpl d f s
  · exact .refl s

/-- A free report names a parent that is gone, which the re-tests of the holds need (03 R44). -/
theorem law_takeOrderReportAt (k : Nat) {s : State} (h : OrderLaw s) : OrderLaw (takeOrderReportAt k s) := by
  unfold takeOrderReportAt
  split
  · exact h
  · next r hr =>
    have hgone := h.reported r (List.mem_of_getElem? hr)
    have herase : Orders s { s with orderReports := s.orderReports.eraseIdx k } :=
      .same (.same (reports := fun _ hm => List.mem_of_mem_eraseIdx hm))
    exact (orders_takeOrderReport (s := { s with orderReports := s.orderReports.eraseIdx k }) hgone (herase h).1).1

theorem orders_takeGoneMapAt (k : Nat) (s : State) : Orders s (takeGoneMapAt k s) := by
  unfold takeGoneMapAt
  split <;> exact .same .same

theorem orders_takeGonePortAt (k : Nat) (s : State) : Orders s (takeGonePortAt k s) := by
  unfold takeGonePortAt
  split <;> exact .same .same

theorem orders_takeGoneFlushAt (k : Nat) (s : State) : Orders s (takeGoneFlushAt k s) := by
  unfold takeGoneFlushAt
  split <;> exact .same .same

theorem Event.law {s t : State} (h : Event s t) (hc : VolumeCountLaw s) (ho : OrderLaw s) : OrderLaw t := by
  cases h with
  | tick => exact (Orders.same .same ho).1
  | dropped => exact ho
  | linkUp => exact (Orders.same .same ho).1
  | upstreamLoss => exact (orders_takeUpstreamLoss s ho).1
  | sendOutbound => exact (orders_sendOutbound s ho).1
  | cmd f => exact law_receiveCmd f ho
  | abt f => exact (orders_receiveAbt f s ho).1
  | mapReport k => exact (orders_takeMapReportAt k hc ho).1
  | orderReport k => exact law_takeOrderReportAt k ho
  | goneMap k => exact (orders_takeGoneMapAt k s ho).1
  | gonePort k => exact (orders_takeGonePortAt k s ho).1
  | goneFlush k => exact (orders_takeGoneFlushAt k s ho).1
  | targetUp d => exact (orders_takeLinkUp d s ho).1
  | targetLost d => exact (orders_takeLinkLost d s ho).1
  | tcpl d f => exact (orders_receiveTcpl d f s ho).1
  | trdy d => exact (orders_takeTrdy d s ho).1
  | deadline d t => exact (orders_takeDeadline d t s ho).1
  | resetTimer d => exact (orders_takeResetTimer d s ho).1
  | lease => exact (orders_takeLeaseExpiry s ho).1
  | control hp => exact (orders_execute (fun p f hf => (hp p f hf).orders hc) ho).1

/-! ## The obligations -/

/-- Settles O6: a step is a move that keeps the law, or one from the reset state, where it holds. -/
theorem stepKeepsCommandTable : Obligations.StepKeepsCommandTable := fun _ _ hs h =>
  (step_keeps h).elim (fun k => k.table hs) fun k => k.table commandTableLaw_reset

/-- Settles O7: as for the Command Table, each of the two laws by itself. -/
theorem stepKeepsExtentPoolAndLiveMaps : Obligations.StepKeepsExtentPoolAndLiveMaps := fun _ _ h =>
  (step_keeps h).elim (fun k => ⟨k.pool, k.maps⟩)
    fun k => ⟨fun _ => k.pool extentPoolLaw_reset, fun _ => k.maps liveMapLaw_reset⟩

/-- Settles O8: as for the Command Table, each of the three laws by itself. -/
theorem stepKeepsNoticesManagerAndBounds : Obligations.StepKeepsNoticesManagerAndBounds := fun _ _ h =>
  (step_keeps h).elim (fun k => ⟨k.notices, k.manager, k.bounds⟩)
    fun k => ⟨fun _ => k.notices noticeLaw_reset, fun _ => k.manager managerLaw_reset, fun _ => k.bounds boundLaw_reset⟩

/-- Settles O9: the records by `Keeps`, what goes with their states by `Settles`. -/
theorem stepKeepsPortRecords : Obligations.StepKeepsPortRecords := fun _ _ h =>
  ⟨fun hs => (step_keeps h).elim (fun k => k.ports hs) fun k => k.ports portLaw_reset,
    fun hs => (step_settles h).elim (fun k => k.ports hs) fun k => k.ports portStateLaw_reset⟩

/-- Settles O10: the counts say that a removed volume has no live parent, so that its emptied list orders none. -/
theorem stepKeepsOrdering : Obligations.StepKeepsOrdering := by
  intro s t hc ho h
  obtain ⟨rest, rfl | he⟩ := step_cases h
  · exact (orders_afterReset _ orderLaw_reset).1
  · exact he.law (Keeps.counts (t := { s with pending := rest }) (Same.keeps {}) hc)
      (Orders.same (t := { s with pending := rest }) .same ho).1

/-- Settles O11: the law by `Settles`; the bound of 16 is that of the table of tags. -/
theorem stepKeepsSubCommandsAndTags : Obligations.StepKeepsSubCommandsAndTags := fun _ t h =>
  ⟨fun hs => (step_settles h).elim (fun k => k.subs hs) fun k => k.subs subCommandLaw_reset, fun p => occupancy_le (t.port p)⟩

/-- Settles O12: as for the Command Table. -/
theorem stepKeepsVolumeCounts : Obligations.StepKeepsVolumeCounts := fun _ _ hs h =>
  (step_keeps h).elim (fun k => k.counts hs) fun k => k.counts volumeCountLaw_reset

/-- Settles O5. -/
theorem lawsHoldAtReset : Obligations.LawsHoldAtReset :=
  ⟨commandTableLaw_reset, extentPoolLaw_reset, liveMapLaw_reset, volumeCountLaw_reset, noticeLaw_reset, managerLaw_reset,
    portLaw_reset, portStateLaw_reset, subCommandLaw_reset, boundLaw_reset, orderLaw_reset⟩

/-- Settles O4: the tables after the RESET input, row by row. -/
theorem resetInputClearsOtherTables : Obligations.ResetInputClearsOtherTables := by
  intro s
  refine ⟨afterReset s, exec_reset s, rfl, rfl, rfl, reset_initiator, reset_access,
    fun v => ⟨reset_ranges v, reset_holds v, reset_switchHolds v⟩, rfl, rfl, fun p => ?_, rfl, rfl, rfl, rfl, rfl, rfl, rfl, rfl, rfl,
    rfl, rfl, rfl, rfl, rfl, rfl, rfl, rfl, rfl⟩
  have hp : (afterReset s).port p = PortRec.reset := reset_port p
  rw [hp]
  exact ⟨rfl, rfl, rfl, rfl, rfl, rfl, rfl, rfl, rfl, rfl, reset_tag, reset_queue⟩

/-- Settles O1: `step` looks at the front of the queue only. -/
theorem stepRunsFrontCommand : Obligations.StepRunsFrontCommand := by
  intro c rest s h
  simp only [step, h]

end Sys2Proof.Machine
end

section
/-!
Time, the upstream link's outbound order, the lease, and the reports that a long operation's parent is gone.
-/

-- The package is also compiled as one text: one proof after another keeps the number of Lean's threads small there.
set_option Elab.async false

namespace Sys2Proof.Machine

/-! ## The idle step (00 section 7.2) -/

theorem step_of_idle {s : State} (h : s.pending = []) : step s = idle s := by
  simp only [step, h]

theorem overdue_iff {now : Nat} {t : Option Nat} : overdue now t = true ↔ ∃ x, t = some x ∧ x < now := by
  cases t <;> simp [overdue]

theorem resetOverdue_of {s : State} {p : Port} (h : resetOverdue s p = true) :
    (s.port p).state = .resetting ∧ ∃ t, (s.port p).resetTimer = some t ∧ t < s.now := by
  simp only [resetOverdue, resetTimerDue, Bool.and_eq_true, beq_iff_eq, overdue_iff] at h
  exact ⟨h.1.1, h.2⟩

theorem issuedUnder_mem {s : State} {p : Port} {t : DTag} {e : SubCmd} (h : issuedUnder p t s = some e) : e ∈ s.subs := by
  unfold issuedUnder at h
  split at h
  · exact List.mem_of_find?_eq_some h
  all_goals cases h

theorem deadlineOverdue_of {s : State} {d : Port × DTag} (h : deadlineOverdue s d = true) :
    ∃ e ∈ s.subs, ∃ i, e.issue = some i ∧ i.deadline < s.now := by
  obtain ⟨e, he, ho⟩ := (Option.any_eq_true _ _).1 h
  obtain ⟨x, hx, hlt⟩ := overdue_iff.1 ho
  obtain ⟨i, hi, rfl⟩ := Option.map_eq_some_iff.1 hx
  exact ⟨e, issuedUnder_mem he, i, hi, hlt⟩

/-- Without a timer past its earliest moment, an idle step takes no expiry (log entry 3). -/
theorem idleEvent_none {s : State} (hl : ∀ t, s.leaseTimer = some t → s.now ≤ t)
    (hr : ∀ p : Port, ∀ t, (s.port p).state = .resetting → (s.port p).resetTimer = some t → s.now ≤ t)
    (hd : ∀ e ∈ s.subs, ∀ i, e.issue = some i → s.now ≤ i.deadline) : idleEvent s = none := by
  have hlease : ¬ overdue s.now s.leaseTimer = true := fun h => by
    obtain ⟨t, ht, hlt⟩ := overdue_iff.1 h
    exact absurd (hl t ht) (Nat.not_le.2 hlt)
  have hreset : (List.finRange 4).find? (resetOverdue s) = none := List.find?_eq_none.2 fun p _ h => by
    obtain ⟨hs, t, ht, hlt⟩ := resetOverdue_of h
    exact absurd (hr p t hs ht) (Nat.not_le.2 hlt)
  have hdead : allTags.find? (deadlineOverdue s) = none := List.find?_eq_none.2 fun d _ h => by
    obtain ⟨e, he, i, hi, hlt⟩ := deadlineOverdue_of h
    exact absurd (hd e he i hi) (Nat.not_le.2 hlt)
  simp only [idleEvent, if_neg hlease, hreset, hdead, Option.map_none]

theorem idleEvent_lease {s : State} {t : Nat} (h : s.leaseTimer = some t) (hlt : t < s.now) : idleEvent s = some .leaseExpiry :=
  if_pos (overdue_iff.2 ⟨t, h, hlt⟩)

/-- Settles O2: no timer is past its earliest moment in the first case, and the lease comes first in the second. -/
theorem idleStepPassesTimeOrExpires : Obligations.IdleStepPassesTimeOrExpires := by
  intro s hp
  refine ⟨fun hl hr hd => ?_, fun t ht hlt => ?_⟩
  · simp only [step_of_idle hp, idle, idleEvent_none hl hr hd, tick]
  · simp only [step_of_idle hp, idle, idleEvent_lease ht hlt]

/-! ## The outbound order (02 R20) -/

theorem sendOutbound_up {s : State} {f : UpFrame} {rest : List UpFrame} (hu : s.linkUp = true) (h : s.outbound = f :: rest) :
    sendOutbound s = { s with outbound := rest, sent := s.sent ++ [.up f] } := by
  simp only [sendOutbound, h, hu, if_true]

theorem sendOutbound_down {s : State} (hu : s.linkUp = false) : sendOutbound s = s := by
  unfold sendOutbound
  split
  · rfl
  · rw [hu]; rfl

/-- Settles O13: the head goes while the link is UP, and nothing while it is DOWN. -/
theorem outboundOrderIsSentFromItsHead : Obligations.OutboundOrderIsSentFromItsHead :=
  ⟨fun _ _ _ hu h => congrArg Host.Outcome.next (sendOutbound_up hu h),
    fun _ hu => congrArg Host.Outcome.next (sendOutbound_down hu), fun _ => rfl⟩

/-! ## The lease (09 R141) -/

/-- Settles O57: a lease timer that is due is the expiry, which clears the record and posts the former manager. -/
theorem leaseExpiryClearsManager : Obligations.LeaseExpiryClearsManager := by
  intro s t ht hd
  have hdue : leaseDue s = true := by simpa [leaseDue, ht] using hd
  calc exec .leaseExpiry s
      = .next (takeLeaseExpiry s) := rfl
    _ = .next (post { notice .managerExpired with initiator := s.manager } (clearManager s)) := by rw [takeLeaseExpiry, if_pos hdue]
    _ = _ := by rw [post_eq]; rfl

/-! ## Reports that a long operation's parent is gone (01 R18, 08 R130, 09 R148) -/

theorem takeGoneMap_eq {s : State} {g : GoneMap} (h : (s.vol g.volume).longParent = some g.parent) :
    takeGoneMap g s = withVol g.volume { s.vol g.volume with longParent := none } s := by
  have h' : s.volumes[g.volume].longParent = some g.parent := h
  simp only [takeGoneMap, updVol, h', if_true]; rfl

theorem takeGonePort_eq {s : State} {g : GonePort} (h : (s.port g.port).pendingReset = some g.parent) :
    takeGonePort g s = withPort g.port { s.port g.port with pendingReset := none } s := by
  have h' : s.ports[g.port].pendingReset = some g.parent := h
  simp only [takeGonePort, updPort, h', if_true]; rfl

theorem takeGoneFlush_eq {s : State} {id : ParentRef} {f : FlushRec} (hf : s.flush = some f) (h : f.parent = some id) :
    takeGoneFlush id s = { s with flush := some { f with parent := none } } := by
  simp only [takeGoneFlush, hf, Option.map_some, h, if_true]

/-- Settles O45: each report finds the reference it names, and clears it. -/
theorem goneReportsClearParentReferences : Obligations.GoneReportsClearParentReferences := by
  refine ⟨fun s k g hg h => ?_, fun s k g hg h => ?_, fun s k id f hg hf h => congrArg Host.Outcome.next ?_⟩
  · calc exec (.longParentGoneMap k) s
        = .next (takeGoneMap g { s with goneMap := s.goneMap.eraseIdx k }) := congrArg Host.Outcome.next (by simp only [takeGoneMapAt, hg])
      _ = _ := congrArg Host.Outcome.next (takeGoneMap_eq (s := { s with goneMap := s.goneMap.eraseIdx k }) h)
  · calc exec (.longParentGonePort k) s
        = .next (takeGonePort g { s with gonePort := s.gonePort.eraseIdx k }) := congrArg Host.Outcome.next (by simp only [takeGonePortAt, hg])
      _ = _ := congrArg Host.Outcome.next (takeGonePort_eq (s := { s with gonePort := s.gonePort.eraseIdx k }) h)
  · calc takeGoneFlushAt k s
        = takeGoneFlush id { s with goneFlush := s.goneFlush.eraseIdx k } := by simp only [takeGoneFlushAt, hg]
      _ = _ := takeGoneFlush_eq (s := { s with goneFlush := s.goneFlush.eraseIdx k }) hf h

end Sys2Proof.Machine
end

section
/-!
Frames: what an inbound frame is taken as (10 R155, R157), the bytes of the frames that the part sends (10 sections 10.2, 10.3, 10.6), and the refusal of a CMD (02 R30, R31).
-/

-- The package is also compiled as one text: one proof after another keeps the number of Lean's threads small there.
set_option Elab.async false

namespace Sys2Proof.Machine

/-! ## Payload blocks (10 R155) -/

/-- Blocks cut from a list, one after another, make the list again. -/
theorem flatten_blocks (n : Nat) (l : List Byte) (h : l.length = 512 * n) :
    ((List.range n).map fun i => (l.drop (512 * i)).take 512).flatten = l := by
  induction n generalizing l with
  | zero => simpa using (List.length_eq_zero_iff.1 h).symm
  | succ n ih =>
    have hrest : (l.drop 512).length = 512 * n := by rw [List.length_drop]; omega
    have hshift : ∀ i, l.drop (512 * (i + 1)) = (l.drop 512).drop (512 * i) := fun i => by
      rw [List.drop_drop, Nat.mul_succ, Nat.add_comm]
    calc ((List.range (n + 1)).map fun i => (l.drop (512 * i)).take 512).flatten
        = l.take 512 ++ ((List.range n).map fun i => ((l.drop 512).drop (512 * i)).take 512).flatten := by
          simp [List.range_succ_eq_map, Function.comp_def, hshift]
      _ = l := by rw [ih _ hrest, List.take_append_drop]

/-- A whole number of blocks is taken as that many blocks of 512 bytes. -/
theorem payloadBlocks_some {l : List Byte} {n : Nat} (h : l.length = 512 * n) :
    ∃ bs, payloadBlocks l = some bs ∧ bs.length = n ∧ (∀ b ∈ bs, b.length = 512) ∧ bs.flatten = l := by
  have hdiv : l.length / 512 = n := by omega
  refine ⟨(List.range n).map fun i => (l.drop (512 * i)).take 512, ?_, by simp, fun b hb => ?_, flatten_blocks n l h⟩
  · rw [payloadBlocks, if_pos (by omega), hdiv]
  · obtain ⟨i, hi, rfl⟩ := List.mem_map.1 hb
    have := List.mem_range.1 hi
    rw [List.length_take, List.length_drop]; omega

/-! ## Frames on the upstream link -/

theorem eq_cons_of_head {l : List Byte} {k : Byte} (h : l.head? = some k) : ∃ rest, l = k :: rest := by
  cases l with
  | nil => cases h
  | cons a rest => cases h; exact ⟨rest, rfl⟩

theorem receiveUpstream_cmd {l : List Byte} (h : l.head? = some 0x01) :
    receiveUpstream true l = ((cmdOfBytes l).map Instr.cmd).getD (.droppedFrame .upstream true l) := by
  obtain ⟨rest, rfl⟩ := eq_cons_of_head h; rfl

theorem receiveUpstream_abt {l : List Byte} (h : l.head? = some 0x02) :
    receiveUpstream true l = ((abtOfBytes l).map Instr.abt).getD (.droppedFrame .upstream true l) := by
  obtain ⟨rest, rfl⟩ := eq_cons_of_head h; rfl

theorem receiveUpstream_other {l : List Byte} (h1 : l.head? ≠ some 0x01) (h2 : l.head? ≠ some 0x02) :
    receiveUpstream true l = .droppedFrame .upstream true l := by
  unfold receiveUpstream
  rw [if_pos rfl]
  split
  · exact absurd rfl h1
  · exact absurd rfl h2
  · rfl

/-- A frame of 16 bytes and a whole number of blocks, from an initiator of 0 to 15, is a CMD with its fields at their offsets. -/
theorem cmdOfBytes_some {l : List Byte} {n : Nat} (hl : l.length = 16 + 512 * n) (hn : n ≤ 2047) (hi : (byteAt l 1).toNat < 16) :
    ∃ bs : List Block, bs.length = n ∧ (∀ b ∈ bs, b.length = 512) ∧ bs.flatten = l.drop 16 ∧
      cmdOfBytes l = some ⟨byteAt l 1, byteAt l 2, byteAt l 3, byteAt l 4, byteAt l 5, word16At l 6, word32At l 8, bs⟩ := by
  obtain ⟨bs, hbs, hlen, hall, hflat⟩ := payloadBlocks_some (l := l.drop 16) (n := n) (by rw [List.length_drop]; omega)
  refine ⟨bs, hlen, hall, hflat, ?_⟩
  simp only [cmdOfBytes, if_neg (show ¬ l.length < 16 by omega), hbs, if_pos (And.intro (hlen.trans_le hn) hi)]

theorem cmdOfBytes_initiator {l : List Byte} (hi : 16 ≤ (byteAt l 1).toNat) : cmdOfBytes l = none := by
  unfold cmdOfBytes
  split
  · rfl
  · split
    · rfl
    · exact if_neg fun h => by omega

/-- A CMD is shorter than its header, not a whole number of blocks beyond it, or longer than 2047 of them. -/
theorem cmdOfBytes_length {l : List Byte} (h : l.length < 16 ∨ (l.length - 16) % 512 ≠ 0 ∨ 2047 < (l.length - 16) / 512) :
    cmdOfBytes l = none := by
  unfold cmdOfBytes
  split
  · rfl
  · split
    · rfl
    · next bs hbs =>
      have hlen := payloadBlocks_length hbs
      have hmod : (l.drop 16).length % 512 = 0 := by
        by_contra hm
        rw [payloadBlocks_none hm] at hbs
        cases hbs
      rw [List.length_drop] at hlen hmod
      exact if_neg fun hle => by omega

theorem abtOfBytes_some {l : List Byte} (hl : l.length = 4) (hi : (byteAt l 1).toNat < 16) :
    abtOfBytes l = some ⟨byteAt l 1, byteAt l 2⟩ := if_pos ⟨hl, hi⟩

theorem abtOfBytes_none {l : List Byte} (h : l.length ≠ 4 ∨ 16 ≤ (byteAt l 1).toNat) : abtOfBytes l = none :=
  if_neg fun hl => h.elim (fun h => h hl.1) fun h => by omega

/-! ## Frames on a target link -/

section downstream
variable {p : Port} {l : List Byte}

theorem receiveDownstream_tcpl (h : l.head? = some 0xC1) :
    receiveDownstream p true l = ((tcplOfBytes l).map (Instr.tcpl p)).getD (.droppedFrame (.target p) true l) := by
  obtain ⟨rest, rfl⟩ := eq_cons_of_head h; rfl

theorem receiveDownstream_trdy (h : l.head? = some 0xC2) :
    receiveDownstream p true l = if l.length = 4 then .trdy p else .droppedFrame (.target p) true l := by
  obtain ⟨rest, rfl⟩ := eq_cons_of_head h; rfl

theorem receiveDownstream_other (h1 : l.head? ≠ some 0xC1) (h2 : l.head? ≠ some 0xC2) :
    receiveDownstream p true l = .droppedFrame (.target p) true l := by
  unfold receiveDownstream
  rw [if_pos rfl]
  split
  · exact absurd rfl h1
  · exact absurd rfl h2
  · rfl

end downstream

/-- A frame of 8 bytes and a whole number of blocks is a TCPL with its fields at their offsets. -/
theorem tcplOfBytes_some {l : List Byte} {n : Nat} (hl : l.length = 8 + 512 * n) (hn : n ≤ 1024) :
    ∃ bs : List Block, bs.length = n ∧ (∀ b ∈ bs, b.length = 512) ∧ bs.flatten = l.drop 8 ∧
      tcplOfBytes l = some ⟨byteAt l 1, byteAt l 2, byteAt l 3, word32At l 4, bs⟩ := by
  obtain ⟨bs, hbs, hlen, hall, hflat⟩ := payloadBlocks_some (l := l.drop 8) (n := n) (by rw [List.length_drop]; omega)
  refine ⟨bs, hlen, hall, hflat, ?_⟩
  simp only [tcplOfBytes, if_neg (show ¬ l.length < 8 by omega), hbs, if_pos (hlen.trans_le hn)]

theorem tcplOfBytes_length {l : List Byte} (h : l.length < 8 ∨ (l.length - 8) % 512 ≠ 0 ∨ 1024 < (l.length - 8) / 512) :
    tcplOfBytes l = none := by
  unfold tcplOfBytes
  split
  · rfl
  · split
    · rfl
    · next bs hbs =>
      have hlen := payloadBlocks_length hbs
      have hmod : (l.drop 8).length % 512 = 0 := by
        by_contra hm
        rw [payloadBlocks_none hm] at hbs
        cases hbs
      rw [List.length_drop] at hlen hmod
      exact if_neg fun hle => by omega

theorem receive_unchecked (k : Link) (l : List Byte) : receive k false l = .droppedFrame k false l := by
  cases k <;> rfl

/-- Settles O14: each clause names the decoder of the frame's kind, and what it gives for the frame's length and initiator. -/
theorem framesAreTakenByKindAndLength : Obligations.FramesAreTakenByKindAndLength := by
  refine ⟨?cmd, ?abt, ?tcpl, ?trdy, ?droppedUp, ?droppedDown, receive_unchecked, fun _ _ _ _ => rfl⟩
  case cmd =>
    intro l n hk hl hn
    rw [receiveUpstream_cmd hk]
    refine ⟨fun hi => ?_, fun hi => by rw [cmdOfBytes_initiator hi]; rfl⟩
    obtain ⟨bs, h1, h2, h3, h4⟩ := cmdOfBytes_some hl hn hi
    exact ⟨bs, h1, h2, h3, by rw [h4]; rfl⟩
  case abt =>
    intro l hk hl
    rw [receiveUpstream_abt hk]
    exact ⟨fun hi => by rw [abtOfBytes_some hl hi]; rfl, fun hi => by rw [abtOfBytes_none (.inr hi)]; rfl⟩
  case tcpl =>
    intro p l n hk hl hn
    rw [receiveDownstream_tcpl hk]
    obtain ⟨bs, h1, h2, h3, h4⟩ := tcplOfBytes_some hl hn
    exact ⟨bs, h1, h2, h3, by rw [h4]; rfl⟩
  case trdy =>
    intro p l hk hl
    rw [receiveDownstream_trdy hk, if_pos hl]
  case droppedUp =>
    rintro l (⟨h1, h2⟩ | ⟨hk, hl⟩ | ⟨hk, hl⟩)
    · exact receiveUpstream_other h1 h2
    · rw [receiveUpstream_cmd hk, cmdOfBytes_length hl]; rfl
    · rw [receiveUpstream_abt hk, abtOfBytes_none (.inl hl)]; rfl
  case droppedDown =>
    rintro p l (⟨h1, h2⟩ | ⟨hk, hl⟩ | ⟨hk, hl⟩)
    · exact receiveDownstream_other h1 h2
    · rw [receiveDownstream_tcpl hk, tcplOfBytes_length hl]; rfl
    · rw [receiveDownstream_trdy hk, if_neg hl]

/-! ## The refusal of a CMD (02 R31, 10 R157) -/

theorem refuse_eq (i : Initiator) (f : CmdFrame) (st : Status) (s : State) :
    refuse i f st s = { s with outbound := s.outbound ++ [.cpl (refusalCpl i f st)] } := by
  rw [refuse, emit, min_1024, refusalCpl]

theorem receiveCmd_dropped {s : State} {f : CmdFrame} (h : s.linkUp = false ∨ 16 ≤ f.initiator.toNat) : receiveCmd f s = s := by
  unfold receiveCmd
  split
  · rfl
  · next i hi =>
    rcases h with h | h
    · exact if_neg fun hu => by simp [h] at hu
    · rw [initiatorOf_none h] at hi; cases hi

theorem receiveAbt_dropped {s : State} {f : AbtFrame} (h : s.linkUp = false ∨ 16 ≤ f.initiator.toNat) : receiveAbt f s = s := by
  unfold receiveAbt
  split
  · rfl
  · next i hi =>
    rcases h with h | h
    · exact if_neg fun hu => by simp [h] at hu
    · rw [initiatorOf_none h] at hi; cases hi

theorem volumeOf_none {b : Byte} (h : 64 ≤ b.toNat) : volumeOf b = none := dif_neg (by omega)

theorem classOf_none {b : Byte} (h : 3 < b.toNat) : classOf b = none := dif_neg (by omega)

theorem opOf_none {b : Byte} (h : b.toNat = 0 ∨ 4 < b.toNat) : opOf b = none := by
  have hne : ∀ k : Byte, 1 ≤ k.toNat → k.toNat ≤ 4 → b ≠ k := by rintro k h1 h4 rfl; omega
  rw [opOf, if_neg (hne 1 (by decide) (by decide)), if_neg (hne 2 (by decide) (by decide)), if_neg (hne 3 (by decide) (by decide)),
    if_neg (hne 4 (by decide) (by decide))]

/-- A field out of its range names no value, so the frame has no fields (10 R157). -/
theorem cmdFields_none {i : Initiator} {f : CmdFrame}
    (h : 64 ≤ f.volume.toNat ∨ f.operation.toNat = 0 ∨ 4 < f.operation.toNat ∨ 3 < f.cls.toNat ∨ 2047 < f.count.toNat) :
    cmdFields i f = none := by
  unfold cmdFields
  split
  · next v op c hv hop hc =>
    rcases h with h | h | h | h | h
    · rw [volumeOf_none h] at hv; cases hv
    · rw [opOf_none (.inl h)] at hop; cases hop
    · rw [opOf_none (.inr h)] at hop; cases hop
    · rw [classOf_none h] at hc; cases hc
    · exact if_neg (by omega)
  · rfl

/-- Settles O15: the port drops the frames of the first two clauses, and a frame without fields is refused. -/
theorem fieldsOutOfRangeAreDroppedOrMalformed : Obligations.FieldsOutOfRangeAreDroppedOrMalformed := by
  refine ⟨fun s f h => congrArg Host.Outcome.next (receiveCmd_dropped h), fun s f h => congrArg Host.Outcome.next (receiveAbt_dropped h), ?_⟩
  intro s f i hu hw hi h
  calc exec (.cmd f) s
      = .next (takeCmd i f s) := by simp only [exec, execCmd, receiveCmd, initiatorOf_eq hi, hu, hw, and_self, if_true]
    _ = .next (refuse i f .malformed s) := by simp only [takeCmd, cmdFields_none h]
    _ = _ := by rw [refuse_eq]

theorem takeCmd_refused {s f i v op c st} (h : Taken s f i v op c) (hf : firstFailure s i v op f = some st) :
    takeCmd i f s = refuse i f st s := by
  have hc := checks_eq h
  rw [hf] at hc
  simp only [takeCmd, cmdFields_taken h]
  split at hc
  · next hs => rw [if_pos hs, Option.some.inj hc]
  · next hs => rw [if_neg hs, hc]

/-- Settles O16: the checks as the part makes them stop at the first failure of the list of checks. -/
theorem firstFailedCheckRefusesCmd : Obligations.FirstFailedCheckRefusesCmd := by
  intro s f i v op c st h hf
  rw [exec_cmd_taken h, takeCmd_refused h hf, refuse_eq]

/-! ## The frames that the part sends -/

theorem cpl_layout (c : Cpl) : byteAt c.bytes 0 = 0x81 ∧ byteAt c.bytes 1 = BitVec.ofNat 8 c.initiator.val ∧ byteAt c.bytes 2 = c.tag
    ∧ byteAt c.bytes 3 = (match c.reply with | .command => 1 | .abort => 2) ∧ byteAt c.bytes 4 = BitVec.ofNat 8 c.status.code
    ∧ byteAt c.bytes 5 = (if c.failBlock.isSome then 1 else 0) ∧ word16At c.bytes 6 = BitVec.ofNat 16 c.residual
    ∧ word32At c.bytes 8 = BitVec.ofNat 32 (c.failBlock.getD 0) ∧ word32At c.bytes 12 = 0
    ∧ c.bytes.length = 16 + c.payload.flatten.length ∧ c.bytes.drop 16 = c.payload.flatten := by
  have hflag : byteAt c.bytes 5 = BitVec.ofNat 8 (boolCode c.failBlock.isSome) := rfl
  refine ⟨rfl, rfl, rfl, rfl, rfl, ?_, word16At_of rfl rfl, word32At_of (word16At_of rfl rfl) (word16At_of rfl rfl),
    word32At_of (n := 0) (word16At_of rfl rfl) (word16At_of rfl rfl), ?_, rfl⟩
  · rw [hflag]; cases c.failBlock <;> rfl
  · simp only [Cpl.bytes, bytes8, bytes16, bytes32, List.length_append, List.length_cons, List.length_nil]

theorem alr_layout (a : Alr) : a.bytes.length = 8 ∧ byteAt a.bytes 0 = 0x82 ∧ byteAt a.bytes 1 = BitVec.ofNat 8 a.initiator.val
    ∧ byteAt a.bytes 2 = BitVec.ofNat 8 a.queued ∧ byteAt a.bytes 3 = 0 ∧ word32At a.bytes 4 = a.oldest :=
  ⟨rfl, rfl, rfl, rfl, rfl, (word32At_of (word16At_of rfl rfl) (word16At_of rfl rfl)).trans (ofNat_of_toNat a.oldest)⟩

theorem sub_layout (f : SubFrame) : byteAt f.bytes 0 = 0x41 ∧ byteAt f.bytes 1 = BitVec.ofNat 8 f.tag.val
    ∧ byteAt f.bytes 2 = (match f.op with | .read => 1 | .write => 2 | .verify => 3 | .flush => 5) ∧ byteAt f.bytes 3 = 0
    ∧ word16At f.bytes 4 = BitVec.ofNat 16 f.count ∧ word16At f.bytes 6 = 0 ∧ word32At f.bytes 8 = BitVec.ofNat 32 f.targetStart
    ∧ f.bytes.length = 12 + f.payload.flatten.length ∧ f.bytes.drop 12 = f.payload.flatten := by
  have hop : byteAt f.bytes 2 = BitVec.ofNat 8 f.op.code := rfl
  refine ⟨rfl, rfl, ?_, rfl, word16At_of rfl rfl, word16At_of (n := 0) rfl rfl, word32At_of (word16At_of rfl rfl) (word16At_of rfl rfl), ?_, rfl⟩
  · rw [hop]; cases f.op <;> rfl
  · simp only [SubFrame.bytes, bytes8, bytes16, bytes32, List.length_append, List.length_cons, List.length_nil]

theorem resultBlock_layout (d : Nat) : (resultBlock d).length = 512 ∧ word16At (resultBlock d) 0 = BitVec.ofNat 16 d
    ∧ ∀ i, 2 ≤ i → byteAt (resultBlock d) i = 0 :=
  ⟨page_length _, word16At_page_of (by decide) rfl rfl, fun _ h => byteAt_page_end h⟩

/-- Settles O27: the layout of each kind of frame, and of the result block. -/
theorem sentFramesAndResultBlockHaveTheirLayout : Obligations.SentFramesAndResultBlockHaveTheirLayout :=
  ⟨cpl_layout, by decide, alr_layout, sub_layout, rfl, resultBlock_layout⟩

end Sys2Proof.Machine
end

section
/-!
Admitted commands: into the Control Queue (09 R136), into a hold (03 R43, R49), and to the split stage (04 R55 to R65).
-/

-- The package is also compiled as one text: one proof after another keeps the number of Lean's threads small there.
set_option Elab.async false

namespace Sys2Proof.Machine

section admitted
variable {s : State} {f : CmdFrame} {i : Initiator} {v : Volume} {op : Op} {c : Sys2Proof.Class}

/-! ## Control commands (02 R36, 09 R136) -/

theorem admit_control (hs : shapeOk (takenFields f i 0 op c) = true) :
    admitCmd (takenFields f i 0 op c) s = handControl s.nextParent
      (if s.manager = some i then startLease (withParent (newParent s f i 0 op c .controlWait) s)
        else withParent (newParent s f i 0 op c .controlWait) s) := by
  obtain ⟨hparent, hentry⟩ := admitEntry_eq (s := s) hs
  rw [admitCmd, hparent, hentry, if_pos rfl, handOn, if_pos (show (newParent s f i 0 op c .controlWait).volume = 0 from rfl)]
  rfl

/-- The manager's own command restarts its lease; another leaves the timer as it is (09 R140). -/
theorem restarted_eq (u : State) :
    (if u.manager = some i then startLease u else u)
      = { u with leaseTimer := if u.manager = some i then (if u.lease = 0 then none else some (u.now + 1000 * u.lease)) else u.leaseTimer } := by
  split <;> rfl

theorem handControl_executing {u : State} {id x : ParentRef} (h : u.executing = some x) :
    handControl id u = { u with controlQueue := u.controlQueue ++ [id] } := by
  simp only [handControl, takeHead, h]

theorem handControl_idle {u : State} {id : ParentRef} (h : u.executing = none) (hq : u.controlQueue = []) :
    handControl id u = setState id .controlActive { u with executing := some id } := by
  simp only [handControl, takeHead, h, hq, List.nil_append]

/-- A new parent changes its state alone: no earlier one has its name. -/
theorem map_new {p : Parent} (ho : AdmissionOrder s) (hp : p.id = s.nextParent) (g : Parent → Parent) :
    ((s.parents ++ [p]).map fun q => if q.id = s.nextParent then g q else q) = s.parents ++ [g p] := by
  rw [List.map_append, map_other (nextParent_fresh ho), List.map_singleton, if_pos hp]

/-- Settles O17: the hand-off puts the parent into the queue, and an idle Control Unit takes it out again. -/
theorem admittedControlCommandIsQueuedOrTaken : Obligations.AdmittedControlCommandIsQueuedOrTaken := by
  intro s f i op c ho h hf
  obtain ⟨hexec, hs⟩ := exec_cmd_admitted h hf
  have hadmit := (admit_control (s := s) hs).trans (congrArg (handControl s.nextParent)
    (restarted_eq (withParent (newParent s f i 0 op c .controlWait) s)))
  refine ⟨fun id hid => ?queued, fun hid hq => ?taken⟩
  case queued =>
    rw [hexec, hadmit, handControl_executing (x := id)]
    · rfl
    · exact hid
  case taken =>
    rw [hexec, hadmit, handControl_idle]
    · simp only [setState, updParent, withParent]
      rw [map_new ho rfl]
      rfl
    · exact hid
    · exact hq

/-! ## Holds (03 R43, R49) -/

theorem setState_same {u : State} {id : ParentRef} {x : ParentState} (h : ∀ q ∈ u.parents, q.id = id → q.state = x) : setState id x u = u := by
  have hmap : (u.parents.map fun q => if q.id = id then { q with state := x } else q) = u.parents :=
    (List.map_congr_left fun q hq => by
      split
      · next hid => rw [← h q hq hid]
      · rfl).trans (List.map_id' _)
  rw [setState, updParent, hmap]

/-- The state of a new parent is set with its entry, so that a hold does not change it again. -/
theorem setState_new {u : State} {p : Parent} {x : ParentState} (ho : AdmissionOrder s) (hx : p.state = x)
    (hu : u.parents = s.parents ++ [p]) : setState s.nextParent x u = u :=
  setState_same fun q hq hid => by
    rw [hu] at hq
    rcases List.mem_append.1 hq with hq | hq
    · exact absurd hid (nextParent_fresh ho q hq)
    · rw [List.mem_singleton.1 hq, hx]

theorem admit_drain (hv : v ≠ 0) (hs : shapeOk (takenFields f i v .drain c) = true) :
    admitCmd (takenFields f i v .drain c) s = handDrain (newParent s f i v .drain c .orderWait)
      (withLiveParent v (withParent (newParent s f i v .drain c .orderWait) s)) := by
  obtain ⟨hparent, hentry⟩ := admitEntry_eq (s := s) hs
  rw [admitCmd, hparent, hentry, if_neg hv, handOn, if_neg (show (newParent s f i v .drain c .orderWait).volume ≠ 0 from hv),
    if_pos (show (newParent s f i v .drain c .orderWait).op = .drain from rfl)]
  rfl

/-- A DRAIN is held while an earlier parent of its initiator and volume is live (03 R49). -/
theorem drainHeld_new (ho : AdmissionOrder s) : drainHeld (newParent s f i v .drain c .orderWait)
      (withLiveParent v (withParent (newParent s f i v .drain c .orderWait) s)) = true
    ↔ ∃ q ∈ s.parents, q.initiator = i ∧ q.volume = v := by
  simp only [drainHeld, List.any_eq_true, Bool.and_eq_true, beq_iff_eq, decide_eq_true_eq]
  constructor
  · rintro ⟨q, hq, ⟨hi, hv⟩, hlt⟩
    rcases List.mem_append.1 hq with hq | hq
    · exact ⟨q, hq, hi, hv⟩
    · rw [List.mem_singleton.1 hq] at hlt
      exact absurd hlt (Nat.lt_irrefl _)
  · rintro ⟨q, hq, hi, hv⟩
    exact ⟨q, List.mem_append_left _ hq, ⟨hi, hv⟩, ho.2 q hq⟩

/-- Settles O18: the conflict, or the earlier parent, is what the hand-off tests; the hold is its record. -/
theorem conflictingCommandOrDrainIsHeld : Obligations.ConflictingCommandOrDrainIsHeld := by
  refine ⟨?range, ?drain⟩
  case range =>
    intro s f i v op c e ho h hf hv hd he h1 h2 hw
    obtain ⟨hexec, hs⟩ := exec_cmd_admitted h hf
    have hheld := (rangeHeld_new (v := v) (f := f) (i := i) (op := op) (c := c) ho).trans
      (List.any_eq_true.2 ⟨e, he, conflicts_iff.2 ⟨h1, h2, hw⟩⟩)
    rw [hexec, admit_range hv hd hs]
    exact congrArg Host.Outcome.next ((if_pos hheld).trans (setState_new ho.admission rfl rfl))
  case drain =>
    intro s f i v c q ho h hf hv hq hi hqv
    obtain ⟨hexec, hs⟩ := exec_cmd_admitted h hf
    rw [hexec, admit_drain hv hs, handDrain, if_pos ((drainHeld_new ho).2 ⟨q, hq, hi, hqv⟩), holdParent]
    exact congrArg Host.Outcome.next (setState_new ho rfl rfl)

/-! ## The split stage (04 R55 to R65) -/

/-- The part with a new READ, WRITE or VERIFY that the Order Unit lets pass to the split stage (02 R35, 03 R43). -/
abbrev passedOn (s : State) (f : CmdFrame) (i : Initiator) (v : Volume) (op : Op) (c : Sys2Proof.Class) : State :=
  appendRange (newParent s f i v op c .orderWait) (withLiveParent v (withParent (newParent s f i v op c .orderWait) s))

theorem passedOn_mem : newParent s f i v op c .orderWait ∈ (passedOn s f i v op c).parents :=
  List.mem_append_right _ (List.mem_singleton_self _)

theorem passedOn_vol : (passedOn s f i v op c).vol v = { s.vol v with liveParents := (s.vol v).liveParents + 1 } :=
  put_get_self _ _ _

/-- A command that nothing holds back becomes what the split stage makes of it (04 R56). -/
theorem exec_cmd_arrives {t : State} (ho : OrderLaw s) (hm : LiveMapLaw s) (hsub : ∀ e ∈ s.subs, e.id < s.nextSub)
    (h : Taken s f i v op c) (hf : firstFailure s i v op f = none) (hv : v ≠ 0) (hd : op ≠ .drain) (hon : (s.vol v).state = .online)
    (hc : ∀ e ∈ s.ranges[v], f.start.toNat < e.start + e.count → e.start < f.start.toNat + f.count.toNat → op ≠ .write ∧ e.op ≠ .write)
    (ha : Arrives (newParent s f i v op c .orderWait) (passedOn s f i v op c) t) : exec (.cmd f) s = .next t := by
  rw [(exec_cmd_released ho h hf hv hd hc).1]
  have hvol := passedOn_vol (s := s) (f := f) (i := i) (v := v) (op := op) (c := c)
  refine congrArg Host.Outcome.next (arrive_eq (admissionOrder_new ho) passedOn_mem hsub ?_ ?_ ?_ ha) <;>
    rw [show (newParent s f i v op c .orderWait).volume = v from rfl, hvol]
  · rw [hon]; nofun
  · exact (hm v).sorted
  · exact (hm v).apart

theorem filter_new {p : Parent} (ho : AdmissionOrder s) (hp : p.id = s.nextParent) :
    (s.parents ++ [p]).filter (fun q => q.id ≠ s.nextParent) = s.parents := by
  rw [List.filter_append, List.filter_eq_self.2 fun q hq => by simpa using nextParent_fresh ho q hq]
  simp [hp]

/-- The live count place that an admission takes and a free gives back (02 R26). -/
theorem initiators_restored (i : Initiator) (l : Vector InitRec 16) :
    put (put l i { l[i] with liveCount := l[i].liveCount + 1 }) i
      { (put l i { l[i] with liveCount := l[i].liveCount + 1 })[i] with
        liveCount := (put l i { l[i] with liveCount := l[i].liveCount + 1 })[i].liveCount - 1 } = l := by
  rw [put_put, put_get_self]
  exact put_same l i

/-- A parent that is freed in the event that admitted it gives back what admission took; its free reports are on their way (02 R37). -/
theorem freed_new {u : State} {p : Parent} (ho : AdmissionOrder s) (hp : p.id = s.nextParent) (hv : p.volume ≠ 0)
    (hslots : p.slots.length ≤ s.freeSlots) (h1 : u.parents = (withParent p s).parents) (h2 : u.freeSlots = (withParent p s).freeSlots)
    (h3 : u.initiators = (withParent p s).initiators) :
    freed p u = { u with
      parents := s.parents
      freeSlots := s.freeSlots
      initiators := s.initiators
      mapReports := u.mapReports ++ [{ volume := p.volume, split := p.generation.isSome }]
      orderReports := u.orderReports ++ [{ volume := p.volume, parent := p.id }] } := by
  unfold freed
  rw [if_neg hv, if_neg hv, h1, h2, h3]
  apply State.ext
  case parents => rw [hp]; exact filter_new ho hp
  case initiators => exact initiators_restored p.initiator s.initiators
  case freeSlots => exact Nat.sub_add_cancel hslots
  all_goals rfl

theorem freed_passedOn (ho : AdmissionOrder s) (hv : v ≠ 0) (hslots : (newParent s f i v op c .orderWait).slots.length ≤ s.freeSlots) :
    freed (newParent s f i v op c .orderWait) (passedOn s f i v op c) = { withLiveParent v s with
      nextParent := s.nextParent + 1
      ranges := put s.ranges v (s.ranges[v] ++ [{ parent := s.nextParent, op := op, start := f.start.toNat, count := f.count.toNat }])
      mapReports := s.mapReports ++ [{ volume := v, split := false }]
      orderReports := s.orderReports ++ [{ volume := v, parent := s.nextParent }] } :=
  freed_new (u := passedOn s f i v op c) ho rfl hv hslots rfl rfl rfl

/-- Settles O19: over a hole the split stage completes the parent UNMAPPED, and the free restores what admission took. -/
theorem rangeOverHoleCompletesUnmapped : Obligations.RangeOverHoleCompletesUnmapped := by
  intro s f i v op c b ho h hf hv hd hon hc h1 h2 hhole
  obtain ⟨hexec, hslots⟩ := exec_cmd_released ho h hf hv hd hc
  have hvol := passedOn_vol (s := s) (f := f) (i := i) (v := v) (op := op) (c := c)
  have hverdict : verdict (passedOn s f i v op c) (newParent s f i v op c .orderWait) = .completed .unmapped (some f.start.toNat) f.count.toNat := by
    have hlookup := lookup_hole (start := f.start.toNat) (count := f.count.toNat) h1 h2 hhole
    simp only [verdict, newParent, if_neg hd, hvol, hon, hlookup]
    exact if_neg nofun
  have harrive : arrive s.nextParent (passedOn s f i v op c)
      = complete s.nextParent .unmapped (some f.start.toNat) f.count.toNat [] (passedOn s f i v op c) := by
    simp only [arrive, parent_new ho, hverdict]
  have hcomplete := complete_eq (p := newParent s f i v op c .orderWait) (admissionOrder_new ho) passedOn_mem .unmapped
    (some f.start.toNat) f.count.toNat []
  rw [freed_passedOn ho.admission hv hslots] at hcomplete
  rw [hexec]
  exact congrArg Host.Outcome.next (harrive.trans hcomplete)

end admitted

end Sys2Proof.Machine
end

section
/-!
Splits: a range inside one extent, the commands that come to the split stage, and the tries at the Split-Wait List (04 R55 to R70).
-/

-- The package is also compiled as one text: one proof after another keeps the number of Lean's threads small there.
set_option Elab.async false

namespace Sys2Proof.Machine

/-! ## A range inside one extent -/

theorem portOfCopy_eq {x : Extent} {k : CopyNo} {y : Copy} {d : Port} (hy : x.copy? k = some y) (hd : y.port.toNat = d.val) :
    x.portOfCopy k = d := by
  simp only [Extent.portOfCopy, hy, Option.map_some, Option.getD_some, portOf, hd]
  exact Fin.ext (Nat.mod_eq_of_lt d.isLt)

theorem targetOf_eq {x : Extent} {k : CopyNo} {y : Copy} (hy : x.copy? k = some y) (b : Nat) :
    x.targetOf k b = b - x.first.toNat + y.first.toNat := by
  simp only [Extent.targetOf, hy, Option.map_some, Option.getD_some]

/-- A READ or VERIFY is served by the lead while the lead's port is UP (04 R61). -/
theorem servingCopies_lead {s : State} {op : Op} {x : Extent} (hop : op ≠ .write) (hup : (s.port (x.portOfCopy x.lead)).state = .up) :
    servingCopies s op x = [x.lead] := by
  simp only [servingCopies, if_neg hop]
  exact if_neg fun h => h.1 (.inl hup)

/-- The piece of a range that one copy serves whole. -/
abbrev wholePiece (start count n : Nat) (k : CopyNo) (d : Port) (target : Nat) : PlannedPiece := ⟨start, count, n, [⟨k, d, target⟩]⟩

section one
variable {s : State} {p : Parent} {n : Nat} {x : Extent} {y : Copy} {d : Port} {t : DTag}

/-- A range inside one extent and no longer than a maximum transfer is one piece on the lead (04 R57, R58). -/
theorem cutsFrom_one {live : List Extent} {op : Op} {start count : Nat} (hop : op ≠ .write) (hc : 1 ≤ count) (hx : live[n]? = some x)
    (h1 : x.first.toNat ≤ start) (h2 : start + count ≤ x.first.toNat + x.length.toNat) (hy : x.copy? x.lead = some y)
    (hd : y.port.toNat = d.val) (hup : (s.port d).state = .up) (hm : count ≤ (s.port d).maxTransfer) :
    CutsFrom s live op (start + count) start [wholePiece start count n x.lead d (start - x.first.toNat + y.first.toNat)] := by
  have hport := portOfCopy_eq hy hd
  have hserve : servingCopies s op x = [x.lead] := servingCopies_lead hop (by rw [hport]; exact hup)
  refine ⟨rfl, hc, ⟨x, hx, h1, h2, Nat.le_refl _, ?_, .inr (.inl rfl), ?_⟩, rfl⟩
  · rw [hserve]
    intro k hk
    rw [List.mem_singleton.1 hk, hport]
    exact hm
  · rw [hserve, List.map_singleton, hport, targetOf_eq hy]

theorem canBegin_one {k : CopyNo} {tgt : Nat} (hop : p.op ≠ .write) (hup : (s.port d).state = .up)
    (hq : ∀ c : Sys2Proof.Class, (s.port d).queues[c] = []) (hw : (s.port d).occupancy < (s.port d).window)
    (ht : (s.port d).tags[t] = .free) (hl : ∀ u : DTag, u < t → (s.port d).tags[u] ≠ .free) :
    CanBegin s p [wholePiece p.start p.count n k d tgt] [some t] := by
  refine ⟨rfl, fun z hz => ?_, List.pairwise_singleton _ _, fun h => absurd h hop⟩
  rw [List.mem_singleton.1 hz]
  exact ⟨hup, hq, hw, ht, hl⟩

theorem carried_nil (hop : p.op ≠ .write) (qs : List PlannedPiece) (e : SubCmd) : carried p qs e = [] := by
  unfold carried
  split
  · next h _ => exact absurd h hop
  · rfl

/-- The part after the split of parent `p` into one piece, whose entry is issued under tag `t` at once (04 R63 to R65, 05 R81). -/
abbrev begunOne (s : State) (p : Parent) (n : Nat) (k : CopyNo) (d : Port) (tgt : Nat) (t : DTag) : State := { s with
  parents := s.parents.map fun q => if q.id = p.id then
      { p with state := .active, generation := some (s.vol p.volume).generation
               pieces := [⟨0, p.count, n, [⟨k, some s.nextSub, none⟩], false, .pending⟩] } else q
  volumes := put s.volumes p.volume { s.vol p.volume with splitParents := (s.vol p.volume).splitParents + 1 }
  nextSub := s.nextSub + 1
  subs := s.subs ++ [⟨s.nextSub, p.id, some 0, some k, d, subOpOf p.op, p.cls, tgt, p.count, some ⟨t, s.now + (s.port d).responseLimit⟩⟩]
  ports := put s.ports d { s.port d with tags := put (s.port d).tags t (.issued s.nextSub), passCount := 0 }
  sent := s.sent ++ [.down d (.sub ⟨t, subOpOf p.op, tgt, p.count, []⟩)] }

theorem begun_one {k : CopyNo} {tgt : Nat} (hop : p.op ≠ .write) (hsub : ∀ e ∈ s.subs, e.id < s.nextSub)
    (hq : ∀ c : Sys2Proof.Class, (s.port d).queues[c] = []) :
    begun p [wholePiece p.start p.count n k d tgt] [some t] s = begunOne s p n k d tgt t := by
  have hqueue : put (s.port d).queues p.cls [] = (s.port d).queues := by
    have := put_same (s.port d).queues p.cls
    rwa [hq] at this
  have hothers : ∀ f : SubCmd → SubCmd, (s.subs.map fun z => if z.id = s.nextSub then f z else z) = s.subs := fun f =>
    (List.map_congr_left fun z hz => if_neg (Nat.ne_of_lt (hsub z hz))).trans (List.map_id' _)
  have hpieces : splitPieces p.start s.nextSub [wholePiece p.start p.count n k d tgt]
      = [⟨0, p.count, n, [⟨k, some s.nextSub, none⟩], false, .pending⟩] := by
    simp [splitPieces, entriesBefore]
  have hentries : splitEntries p s.nextSub [wholePiece p.start p.count n k d tgt]
      = [⟨s.nextSub, p.id, some 0, some k, d, subOpOf p.op, p.cls, tgt, p.count, none⟩] := by
    simp [splitEntries, entriesBefore]
  simp only [begun, hentries, List.zip_cons_cons, List.zip_nil_left, List.foldl_cons, List.foldl_nil, carried_nil hop, startedBy,
    issued, splitInto, hpieces]
  apply State.ext
  case subs => simp only [List.map_append, List.map_singleton, if_true, hothers]; rfl
  case ports => exact congrArg (fun l => put s.ports d { s.port d with queues := l, tags := put (s.port d).tags t (.issued s.nextSub), passCount := 0 }) hqueue
  all_goals rfl

end one

/-- The count of a READ, WRITE or VERIFY of a data volume that passes every check is 1 at least (02 R32). -/
theorem count_pos {s : State} {f : CmdFrame} {i : Initiator} {v : Volume} {op : Op} {c : Sys2Proof.Class} (h : Taken s f i v op c)
    (hf : firstFailure s i v op f = none) (hv : v ≠ 0) (hd : op ≠ .drain) : 1 ≤ f.count.toNat := by
  have hlater : laterChecks (takenFields f i v op c) s = none := by
    have hc := checks_eq h
    rw [hf, if_neg (not_not.2 (exec_cmd_admitted h hf).2)] at hc
    exact hc
  have hcount := (passed_of_laterChecks hlater).count
  simp only [countOk, if_neg hv, if_neg hd, Bool.and_eq_true, decide_eq_true_eq] at hcount
  exact hcount.1

theorem begunOne_passedOn {s : State} {f : CmdFrame} {i : Initiator} {v : Volume} {op : Op} {c : Sys2Proof.Class} {n : Nat} {k : CopyNo}
    {d : Port} {tgt : Nat} {t : DTag} (ho : AdmissionOrder s) :
    begunOne (passedOn s f i v op c) (newParent s f i v op c .orderWait) n k d tgt t = { withParent
      { newParent s f i v op c .active with
        generation := some (s.vol v).generation
        pieces := [⟨0, f.count.toNat, n, [⟨k, some s.nextSub, none⟩], false, .pending⟩] } s with
      volumes := put s.volumes v { s.vol v with liveParents := (s.vol v).liveParents + 1, splitParents := (s.vol v).splitParents + 1 }
      ranges := put s.ranges v (s.ranges[v] ++ [⟨s.nextParent, op, f.start.toNat, f.count.toNat⟩])
      nextSub := s.nextSub + 1
      subs := s.subs ++ [⟨s.nextSub, s.nextParent, some 0, some k, d, subOpOf op, c, tgt, f.count.toNat,
        some ⟨t, s.now + (s.port d).responseLimit⟩⟩]
      ports := put s.ports d { s.port d with tags := put (s.port d).tags t (.issued s.nextSub), passCount := 0 }
      sent := s.sent ++ [.down d (.sub ⟨t, subOpOf op, tgt, f.count.toNat, []⟩)] } := by
  have hvol := passedOn_vol (s := s) (f := f) (i := i) (v := v) (op := op) (c := c)
  apply State.ext
  case parents =>
    refine (map_new (p := newParent s f i v op c .orderWait) ho rfl _).trans ?_
    rw [show (newParent s f i v op c .orderWait).volume = v from rfl, hvol]
    rfl
  case volumes =>
    show put (put s.volumes v _) v { (passedOn s f i v op c).vol v with splitParents := ((passedOn s f i v op c).vol v).splitParents + 1 } = _
    rw [hvol, put_put]
  all_goals rfl

/-- Settles O60: what arrives at the split stage becomes what R56 says; a range inside one extent arrives as one piece. -/
theorem rangeIsCutAndSplit : Obligations.RangeIsCutAndSplit := by
  refine ⟨?one, fun s t f i v op c ho hm hsub h hf hv hd hon hc ha => exec_cmd_arrives ho hm hsub h hf hv hd hon hc ha⟩
  intro s f i v op c n x y d t ho hm hsub hop h hf hv hon hc hw hfree hx h1 h2 hy hyd hup hmax hq hwin ht hl
  have hwrite : op ≠ .write := by rcases hop with rfl | rfl <;> nofun
  have hdrain : op ≠ .drain := by rcases hop with rfl | rfl <;> nofun
  have hvol := passedOn_vol (s := s) (f := f) (i := i) (v := v) (op := op) (c := c)
  have hcuts := cutsFrom_one (s := passedOn s f i v op c) (op := op) hwrite (count_pos h hf hv hdrain)
    (live := ((passedOn s f i v op c).vol v).live) (by rw [hvol]; exact hx) h1 h2 hy hyd hup hmax
  have harrives : Arrives (newParent s f i v op c .orderWait) (passedOn s f i v op c)
      (begun (newParent s f i v op c .orderWait) _ [some t] (passedOn s f i v op c)) :=
    .inr (.inl ⟨hdrain, _, hcuts, .inr (.inr ⟨show 1 ≤ 16 by decide, hw, Nat.le_sub_of_add_le' hfree, _,
      canBegin_one hwrite hup hq hwin ht hl, rfl⟩)⟩)
  rw [exec_cmd_arrives ho hm hsub h hf hv hdrain hon (fun e he a b => ⟨hwrite, hc e he a b⟩) harrives]
  refine congrArg Host.Outcome.next ((begun_one (s := passedOn s f i v op c) (p := newParent s f i v op c .orderWait) hwrite hsub hq).trans ?_)
  rw [begunOne_passedOn ho.admission]
  rcases hop with rfl | rfl <;> rfl

/-! ## Tries at the Split-Wait List (04 R68) -/

section head
variable {s : State} {p : Parent} {rest : List ParentRef}

theorem popSplitWait_eq (h : s.splitWait = p.id :: rest) : popSplitWait s = { s with splitWait := rest } := by
  rw [popSplitWait, h]
  rfl

theorem tryOnce_switching (ho : AdmissionOrder s) (hp : p ∈ s.parents) (h : s.splitWait = p.id :: rest) (hv : verdict s p = .switching) :
    tryOnce s = some (holdSwitch p { s with splitWait := rest }) := by
  simp only [tryOnce, h, find?_of_order ho hp, hv, popSplitWait_eq h]

theorem tryOnce_completed {st : Status} {fail : Option Nat} {res : Nat} (ho : AdmissionOrder s) (hp : p ∈ s.parents)
    (h : s.splitWait = p.id :: rest) (hv : verdict s p = .completed st fail res) :
    tryOnce s = some { freed p s with splitWait := rest, outbound := s.outbound ++ [.cpl (commandCpl p st fail res [])] } := by
  have hcomplete := complete_eq (s := { s with splitWait := rest }) ho hp st fail res []
  simp only [tryOnce, h, find?_of_order ho hp, hv, popSplitWait_eq h, hcomplete]
  rfl

theorem tryOnce_pieces {ps : List PlannedPiece} (ho : AdmissionOrder s) (hp : p ∈ s.parents) (h : s.splitWait = p.id :: rest)
    (hv : verdict s p = .pieces ps) :
    tryOnce s = if (Verdict.pieces ps).need ≤ s.freeSubs then some (split p (.pieces ps) { s with splitWait := rest }) else none := by
  simp only [tryOnce, h, find?_of_order ho hp, hv, popSplitWait_eq h]

end head

/-- Settles O21: each clause is the verdict on the head, and what the split stage makes of it once the head has left the list. -/
theorem splitWaitHeadIsTried : Obligations.SplitWaitHeadIsTried := by
  intro s
  refine ⟨tryHeads_nil, fun p rest ho hp hw => ⟨fun hsw hlast => ?switching, fun b hon hd h1 h2 hhole => ?hole, ?split⟩⟩
  case switching =>
    have hverdict : verdict s p = .switching := if_pos hsw
    rw [tryHeads_cons hw (tryOnce_switching ho hp hw hverdict) rfl, holdSwitch, insertAdmitted_last hlast]
    rfl
  case hole =>
    have hverdict : verdict s p = .completed .unmapped (some p.start) p.count := by
      rw [verdict, if_neg (by rw [hon]; nofun), if_neg hd, lookup_hole h1 h2 hhole]
    exact tryHeads_cons hw (tryOnce_completed ho hp hw hverdict) rfl
  case split =>
    intro n x y d t hm hsub hon hop hc hx h1 h2 hy hyd hup hmax hq hwin ht hl
    have hwrite : p.op ≠ .write := by rw [hop]; nofun
    have hdrain : p.op ≠ .drain := by rw [hop]; nofun
    have hverdict : verdict s p = .pieces [wholePiece p.start p.count n x.lead d (p.start - x.first.toNat + y.first.toNat)] :=
      (verdict_cuts (hm p.volume).sorted (hm p.volume).apart (by rw [hon]; nofun) hdrain
        (cutsFrom_one hwrite hc hx h1 h2 hy hyd hup hmax)).trans (if_neg (show ¬ 16 < 1 by decide))
    have htry := tryOnce_pieces ho hp hw hverdict
    refine ⟨fun hfull => tryHeads_stay hw (htry.trans (if_neg ?_)), fun hfree => ?_⟩
    · show ¬ 1 ≤ 256 - s.subs.length
      omega
    · have hsplit := split_eq (s := { s with splitWait := rest }) ho hp hsub
        (canBegin_one (s := { s with splitWait := rest }) (n := n) (k := x.lead) (tgt := p.start - x.first.toNat + y.first.toNat) hwrite hup hq hwin ht hl)
      rw [begun_one (s := { s with splitWait := rest }) hwrite hsub hq] at hsplit
      have hneed : (Verdict.pieces [wholePiece p.start p.count n x.lead d (p.start - x.first.toNat + y.first.toNat)]).need ≤ s.freeSubs := by
        show 1 ≤ 256 - s.subs.length
        omega
      have hread : subOpOf p.op = .read := by rw [hop]; rfl
      rw [if_pos hneed, hsplit] at htry
      rw [tryHeads_cons hw htry rfl]
      simp only [begunOne, hread]
      rfl

end Sys2Proof.Machine
end

section
/-!
DRAINs at their hand-off: phase 2, the FLUSHes that they are split into, and how those start (03 R49 to R52, 04 R66, R71).
-/

-- The package is also compiled as one text: one proof after another keeps the number of Lean's threads small there.
set_option Elab.async false

namespace Sys2Proof.Machine

/-! ## The ports of a DRAIN (04 R71) -/

/-- A live record's port byte is a port's number, so that the port it names is that number (01 R14). -/
theorem current_on {x : Extent} {k : CopyNo} {d : Port} (h : ∀ y, x.copy? k = some y → y.port.toNat ≤ 3) :
    (x.isCurrent k && x.portOfCopy k == d) = (x.copy? k).any fun y => y.state == .current && y.port.toNat == d.val := by
  cases hy : x.copy? k with
  | none => simp [Extent.isCurrent, hy]
  | some y =>
    have hmod : (portOf y.port == d) = (y.port.toNat == d.val) := by
      have := h y hy
      rw [Bool.eq_iff_iff, beq_iff_eq, beq_iff_eq, Fin.ext_iff, portOf, Fin.val_ofNat, Nat.mod_eq_of_lt (by omega)]
    simp [Extent.isCurrent, Extent.portOfCopy, hy, hmod]

theorem drainPorts_eq {live : List Extent} {cap : Nat} (h : ∀ x ∈ live, x.Sound cap) :
    drainPorts live = (List.finRange 4).filter (fun d => live.any fun x => [CopyNo.one, .two].any fun k =>
      (x.copy? k).any fun y => y.state == .current && y.port.toNat == d.val) := by
  refine List.filter_congr fun d _ => ?_
  rw [Bool.eq_iff_iff, List.any_eq_true, List.any_eq_true]
  refine exists_congr fun x => and_congr_right fun hx => ?_
  have h1 := current_on (x := x) (k := .one) (d := d) fun y hy => by cases hy; exact (h x hx).port1
  have h2 := current_on (x := x) (k := .two) (d := d) fun y hy => ((h x hx).port2 y hy).1
  simp only [List.any_cons, List.any_nil, Bool.or_false, h1, h2]

/-! ## The FLUSHes and how they start (04 R66, R67, R71) -/

/-- The FLUSH entry of a DRAIN for one of its ports, with the port's place among them (04 R71). -/
def flushEntry (p : Parent) (n : Nat) (q : Port × Nat) : SubCmd :=
  { id := n + q.2, parent := p.id, piece := none, copy := none, port := q.1, op := .flush, cls := p.cls, targetStart := 0, count := 0, issue := none }

theorem flushEntries_eq (p : Parent) (n : Nat) (ports : List Port) : flushEntries p n ports = ports.zipIdx.map (flushEntry p n) := rfl

theorem flushEntries_one (p : Parent) (n : Nat) (d : Port) : flushEntries p n [d] = [flushEntry p n (d, 0)] := rfl

theorem handOver_one (e : SubCmd) (u : State) : handOver [e] u = failNew (queueNew u e) e := rfl

theorem queueNew_resetting {u : State} {e : SubCmd} (h : (u.port e.port).state = .resetting) :
    queueNew u e = withPort e.port { u.port e.port with queues := put (u.port e.port).queues e.cls ((u.port e.port).queues[e.cls] ++ [e.id]) } u := by
  have husable : usable u e.port = true := by rw [usable, h]; rfl
  rw [queueNew, if_pos husable, joinQueue, issueTest_notUp]
  · rfl
  · rw [updPort_port, if_pos rfl, h]; nofun

theorem withPort_get (d q : Port) (r : PortRec) (u : State) : (withPort d r u).port q = if q = d then r else u.port q := put_get _ _ _ _

theorem port_ofFn {g : Port → PortRec} {u : State} (h : u.ports = Vector.ofFn g) (d : Port) : u.port d = g d := by
  simp [State.port, h]

/-- FLUSHes for RESETTING ports join the class queues, each port its own (04 R67). -/
theorem foldl_queueNew_resetting {p : Parent} {n : Nat} : ∀ (ports : List Port) (k : Nat) (u : State), ports.Nodup →
    (∀ d ∈ ports, (u.port d).state = .resetting) →
    ((ports.zipIdx k).map (flushEntry p n)).foldl queueNew u = { u with
      ports := Vector.ofFn fun d : Port => if d ∈ ports then
          { u.port d with queues := put (u.port d).queues p.cls ((u.port d).queues[p.cls] ++ [n + (k + ports.idxOf d)]) }
        else u.port d }
  | [], _, u, _, _ => by
    have hports : u.ports = Vector.ofFn u.port := Vector.ext fun i hi => by rw [Vector.getElem_ofFn]; rfl
    simp only [List.zipIdx_nil, List.map_nil, List.foldl_nil, List.not_mem_nil, if_false, ← hports]
  | a :: ports, k, u, hn, hr => by
    obtain ⟨ha, hn⟩ := List.nodup_cons.1 hn
    have hstep := queueNew_resetting (u := u) (e := flushEntry p n (a, k)) (hr a List.mem_cons_self)
    rw [List.zipIdx_cons, List.map_cons, List.foldl_cons, hstep, foldl_queueNew_resetting ports (k + 1) _ hn fun d hd => ?_]
    · apply State.ext
      case ports =>
        refine congrArg Vector.ofFn (funext fun d => ?_)
        rw [withPort_get]
        by_cases hda : d = a
        · subst hda
          simp [ha, flushEntry]
        · have hidx : (a :: ports).idxOf d = ports.idxOf d + 1 := List.idxOf_cons_ne _ (Ne.symm hda)
          simp [hda, hidx, flushEntry, Nat.add_assoc, Nat.add_comm 1]
      all_goals rfl
    · rw [withPort_get, if_neg]
      · exact hr d (List.mem_cons_of_mem a hd)
      · rintro rfl; exact ha hd

/-- No entry fails at once on a port that is UP or RESETTING (04 R66). -/
theorem foldl_failNew_usable : ∀ (es : List SubCmd) (u : State), (∀ e ∈ es, (u.port e.port).state = .up ∨ (u.port e.port).state = .resetting) →
    es.foldl failNew u = u
  | [], _, _ => rfl
  | e :: es, u, h => by
    have he : failNew u e = u := by
      rcases h e List.mem_cons_self with h | h <;> simp only [failNew, h]
    rw [List.foldl_cons, he, foldl_failNew_usable es u fun x hx => h x (List.mem_cons_of_mem e hx)]

/-- A new entry is found by its name, which no earlier one has (04 R64). -/
theorem find_new {u : State} {e : SubCmd} {l : List SubCmd} (h : ∀ x ∈ l, x.id < e.id) (hu : u.subs = l ++ [e]) : u.sub? e.id = some e := by
  rw [State.sub?, hu, List.find?_append, List.find?_eq_none.2 fun x hx => by simpa using Nat.ne_of_lt (h x hx)]
  simp

theorem erase_new {e : SubCmd} {l : List SubCmd} (h : ∀ x ∈ l, x.id < e.id) : (l ++ [e]).eraseP (fun x => x.id == e.id) = l := by
  rw [List.eraseP_append_right _ fun x hx => by simpa using Nat.ne_of_lt (h x hx)]
  simp

/-! ## The hand-off of a DRAIN that nothing holds back (03 R49, R51) -/

section drain
variable {s : State} {f : CmdFrame} {i : Initiator} {v : Volume} {c : Sys2Proof.Class}

/-- A new DRAIN in phase 2 (03 R51). -/
abbrev newDrain (s : State) (f : CmdFrame) (i : Initiator) (v : Volume) (c : Sys2Proof.Class) : Parent :=
  { newParent s f i v .drain c .orderWait with drainPhase := some .two }

/-- The part with a new DRAIN at the split stage (02 R35, 03 R51). -/
abbrev withDrain (s : State) (f : CmdFrame) (i : Initiator) (v : Volume) (c : Sys2Proof.Class) : State :=
  withLiveParent v (withParent (newDrain s f i v c) s)

/-- The new DRAIN once it is split, with its flush results (04 R65, R71). -/
abbrev splitDrain (s : State) (f : CmdFrame) (i : Initiator) (v : Volume) (c : Sys2Proof.Class) (fs : List FlushResult) : Parent :=
  { newParent s f i v .drain c .active with
    drainPhase := some .two, generation := some (s.vol v).generation, flushResults := fs }

/-- The part with the new DRAIN split and its FLUSHes allocated (04 R65, R71). -/
abbrev withSplitDrain (s : State) (f : CmdFrame) (i : Initiator) (v : Volume) (c : Sys2Proof.Class) (ports : List Port) : State :=
  { withParent (splitDrain s f i v c (ports.map fun d => ⟨d, none⟩)) s with
    volumes := put s.volumes v { s.vol v with liveParents := (s.vol v).liveParents + 1, splitParents := (s.vol v).splitParents + 1 }
    nextSub := s.nextSub + ports.length
    subs := s.subs ++ flushEntries (newDrain s f i v c) s.nextSub ports }

/-- A DRAIN holds no slot (02 R28). -/
theorem drain_slots (hv : v ≠ 0) {n k : Nat} : (List.replicate (slotHolding v .drain n) (none : Option Block)).length ≤ k := by
  simp [slotHolding, hv]

theorem withDrain_vol : (withDrain s f i v c).vol v = { s.vol v with liveParents := (s.vol v).liveParents + 1 } := put_get_self _ _ _

theorem admissionOrder_withParent {p : Parent} (ho : AdmissionOrder s) (hp : p.id = s.nextParent) : AdmissionOrder (withParent p s) := by
  refine ⟨List.pairwise_append.2 ⟨ho.1, List.pairwise_singleton _ _, fun a ha b hb => ?_⟩, fun q hq => ?_⟩
  · rw [List.mem_singleton.1 hb, hp]
    exact ho.2 a ha
  · rcases List.mem_append.1 hq with hq | hq
    · exact Nat.lt_succ_of_lt (ho.2 q hq)
    · rw [List.mem_singleton.1 hq, hp]
      exact Nat.lt_succ_self _

theorem exec_drain_arrives (ho : AdmissionOrder s) (h : Taken s f i v .drain c) (hf : firstFailure s i v .drain f = none) (hv : v ≠ 0)
    (hnone : ∀ q ∈ s.parents, ¬(q.initiator = i ∧ q.volume = v)) :
    exec (.cmd f) s = .next (arrive s.nextParent (withDrain s f i v c)) := by
  obtain ⟨hexec, hs⟩ := exec_cmd_admitted h hf
  have hheld : ¬ drainHeld (newParent s f i v .drain c .orderWait)
      (withLiveParent v (withParent (newParent s f i v .drain c .orderWait) s)) = true := fun hh => by
    obtain ⟨q, hq, hi⟩ := (drainHeld_new ho).1 hh
    exact hnone q hq hi
  have hphase : enterPhase2 s.nextParent (withLiveParent v (withParent (newParent s f i v .drain c .orderWait) s)) = withDrain s f i v c := by
    apply State.ext
    case parents => exact map_new (p := newParent s f i v .drain c .orderWait) ho rfl _
    all_goals rfl
  rw [hexec, admit_drain hv hs, handDrain, if_neg hheld]
  exact congrArg (fun u => Host.Outcome.next (arrive s.nextParent u)) hphase

theorem arrive_withDrain (ho : AdmissionOrder s) (hon : (s.vol v).state = .online) :
    (drainPorts (s.vol v).live = [] → arrive s.nextParent (withDrain s f i v c) = complete s.nextParent .good none 0 [] (withDrain s f i v c))
    ∧ (drainPorts (s.vol v).live ≠ [] → s.splitWait = [] → s.subs.length + (drainPorts (s.vol v).live).length ≤ 256 →
      arrive s.nextParent (withDrain s f i v c) = split (newDrain s f i v c) (.flushes (drainPorts (s.vol v).live)) (withDrain s f i v c)) := by
  have hparent : (withDrain s f i v c).parent? s.nextParent = some (newDrain s f i v c) :=
    find?_of_order (s := withDrain s f i v c) (p := newDrain s f i v c) (admissionOrder_withParent ho rfl)
      (List.mem_append_right _ (List.mem_singleton_self _))
  have hvol := withDrain_vol (s := s) (f := f) (i := i) (v := v) (c := c)
  refine ⟨fun h => ?_, fun h hw hfree => ?_⟩
  · have hverdict : verdict (withDrain s f i v c) (newDrain s f i v c) = .completed .good none 0 := by
      simp only [verdict, newParent, hvol, hon, h, if_true]
      exact if_neg nofun
    simp only [arrive, hparent, hverdict]
  · have hverdict : verdict (withDrain s f i v c) (newDrain s f i v c) = .flushes (drainPorts (s.vol v).live) := by
      simp only [verdict, newParent, hvol, hon, h, if_true, if_false]
      exact if_neg nofun
    simp only [arrive, hparent, hverdict]
    exact if_pos ⟨hw, by show _ ≤ 256 - s.subs.length; simp only [Verdict.need]; omega⟩

theorem split_newDrain (ho : AdmissionOrder s) (ports : List Port) :
    split (newDrain s f i v c) (.flushes ports) (withDrain s f i v c)
      = handOver (flushEntries (newDrain s f i v c) s.nextSub ports) (withSplitDrain s f i v c ports) := by
  have hvol := withDrain_vol (s := s) (f := f) (i := i) (v := v) (c := c)
  refine congrArg (handOver (flushEntries (newDrain s f i v c) s.nextSub ports)) ?_
  apply State.ext
  case parents =>
    refine (map_new (p := newDrain s f i v c) ho rfl _).trans ?_
    rw [show (newDrain s f i v c).volume = v from rfl, hvol]
    rfl
  case volumes =>
    show put (put s.volumes v _) v { (put s.volumes v _)[v] with splitParents := (put s.volumes v _)[v].splitParents + 1 } = _
    rw [put_put, put_get_self]
    rfl
  case nextSub => show s.nextSub + (flushEntries _ _ ports).length = _; simp [flushEntries]
  all_goals rfl

/-- FLUSHes that find their ports RESETTING wait there (04 R67). -/
theorem handOver_resetting {ports : List Port} (hn : ports.Nodup) (hr : ∀ d ∈ ports, (s.port d).state = .resetting) :
    handOver (flushEntries (newDrain s f i v c) s.nextSub ports) (withSplitDrain s f i v c ports) = { withSplitDrain s f i v c ports with
      ports := Vector.ofFn fun d : Port => if d ∈ ports then
          { s.port d with queues := put (s.port d).queues c ((s.port d).queues[c] ++ [s.nextSub + ports.idxOf d]) }
        else s.port d } := by
  have hqueued := foldl_queueNew_resetting (p := newDrain s f i v c) (n := s.nextSub) ports 0 (withSplitDrain s f i v c ports) hn hr
  simp only [Nat.zero_add] at hqueued
  rw [handOver, flushEntries_eq, hqueued]
  refine foldl_failNew_usable _ _ fun e he => .inr ?_
  obtain ⟨q, hq, rfl⟩ := List.mem_map.1 he
  have hmem : q.1 ∈ ports := List.fst_mem_of_mem_zipIdx hq
  refine (congrArg PortRec.state ((port_ofFn rfl q.1).trans (if_pos hmem))).trans ?_
  exact hr q.1 hmem

/-- A FLUSH that finds its port UP, with nothing queued and room, is issued (05 R78, R81). -/
theorem handOver_up {d : Port} {t : DTag} (ho : AdmissionOrder s) (hsub : ∀ e ∈ s.subs, e.id < s.nextSub) (hr : Ready s d (some t)) :
    handOver (flushEntries (newDrain s f i v c) s.nextSub [d]) (withSplitDrain s f i v c [d])
      = issued d c 0 t (flushEntry (newDrain s f i v c) s.nextSub (d, 0)) [] [] (withSplitDrain s f i v c [d]) := by
  have hfind : (withSplitDrain s f i v c [d]).sub? s.nextSub = some (flushEntry (newDrain s f i v c) s.nextSub (d, 0)) :=
    find_new (e := flushEntry (newDrain s f i v c) s.nextSub (d, 0)) hsub rfl
  have hqueue : queueNew (withSplitDrain s f i v c [d]) (flushEntry (newDrain s f i v c) s.nextSub (d, 0)) = _ :=
    queueNew_eq (o := some t) (bs := []) hr (admissionOrder_withParent (p := splitDrain s f i v c _) ho rfl) hfind (.inl ⟨nofun, rfl⟩)
  have hup : (issued d c 0 t (flushEntry (newDrain s f i v c) s.nextSub (d, 0)) [] [] (withSplitDrain s f i v c [d])).port d = _ := issued_port ..
  rw [flushEntries_one, handOver_one, hqueue]
  refine foldl_failNew_usable [flushEntry (newDrain s f i v c) s.nextSub (d, 0)] _ fun e he => .inl ?_
  rw [List.mem_singleton.1 he]
  exact (congrArg PortRec.state hup).trans hr.1

/-- A FLUSH that finds its port DOWN or HALTED fails at once, and with it the DRAIN (04 R66, 03 R53). -/
theorem handOver_fails {d : Port} {st : Status} (ho : AdmissionOrder s) (hsub : ∀ e ∈ s.subs, e.id < s.nextSub) (hv : v ≠ 0)
    (hst : ((s.port d).state = .down ∧ st = .targetLost) ∨ ((s.port d).state = .halted ∧ st = .targetHalted)) :
    handOver (flushEntries (newDrain s f i v c) s.nextSub [d]) (withSplitDrain s f i v c [d]) = { s with
      volumes := put s.volumes v { s.vol v with liveParents := (s.vol v).liveParents + 1, splitParents := (s.vol v).splitParents + 1 }
      nextParent := s.nextParent + 1
      nextSub := s.nextSub + 1
      outbound := s.outbound ++ [.cpl (commandCpl (newParent s f i v .drain c .orderWait) st none 0 [])]
      mapReports := s.mapReports ++ [⟨v, true⟩]
      orderReports := s.orderReports ++ [⟨v, s.nextParent⟩] } := by
  set A := withSplitDrain s f i v c [d] with hA
  set e := flushEntry (newDrain s f i v c) s.nextSub (d, 0) with he
  have hfind : A.sub? e.id = some e := find_new (l := s.subs) hsub rfl
  have herase : A.subs.eraseP (fun x => x.id == e.id) = s.subs := erase_new hsub
  have hfree : freed (splitDrain s f i v c [⟨d, none⟩]) A = _ := freed_new (u := A) ho rfl hv (drain_slots hv) rfl rfl rfl
  have hmerge : ∀ k : ResultKind, mergeResult e.id (bareResult k false) A
      = { freed (splitDrain s f i v c [⟨d, none⟩]) A with
          subs := s.subs, outbound := s.outbound ++ [.cpl (commandCpl (newParent s f i v .drain c .orderWait) (drainStatus [⟨d, some k.status⟩]) none 0 [])] } :=
    fun k => (mergeResult_flush (u := A) (d := d) (e := e) (p := splitDrain s f i v c [⟨d, none⟩]) (admissionOrder_withParent ho rfl)
      (List.mem_append_right _ (List.mem_singleton_self _)) rfl rfl ⟨rfl, rfl, rfl⟩ hfind herase (bareResult k false) [⟨d, some k.status⟩]
      (by simp [bareResult])).trans (if_pos rfl)
  have hstays : queueNew A e = A := if_neg (by
    show ¬ ((s.port d).state == .up || (s.port d).state == .resetting) = true
    rcases hst with ⟨h, -⟩ | ⟨h, -⟩ <;> rw [h] <;> decide)
  rw [flushEntries_one, handOver_one, hstays]
  rcases hst with ⟨h, rfl⟩ | ⟨h, rfl⟩
  · have hfail : failNew A e = mergeResult e.id (bareResult .lost false) A := by
      unfold failNew
      rw [show (A.port e.port).state = .down from h]
    rw [hfail, hmerge, hfree]
    rfl
  · have hfail : failNew A e = mergeResult e.id (bareResult .halted false) A := by
      unfold failNew
      rw [show (A.port e.port).state = .halted from h]
    rw [hfail, hmerge, hfree]
    rfl

end drain

/-- Settles O20: the ports with a CURRENT copy are those the split stage finds; each clause is how the FLUSHes for them start. -/
theorem drainInPhase2IsSplitIntoFlushes : Obligations.DrainInPhase2IsSplitIntoFlushes := by
  intro s f i v c ports ho hm hsub h hf hv hon hnone hports
  rw [← drainPorts_eq (hm v).sound] at hports
  obtain ⟨hempty, hsplit⟩ := arrive_withDrain (f := f) (i := i) (c := c) ho hon
  rw [← hports] at hempty hsplit
  have hexec := exec_drain_arrives ho h hf hv hnone
  have hsplits : ports ≠ [] → s.splitWait = [] → s.subs.length + ports.length ≤ 256 → exec (.cmd f) s
      = .next (handOver (flushEntries (newDrain s f i v c) s.nextSub ports) (withSplitDrain s f i v c ports)) := fun h1 h2 h3 => by
    rw [hexec, hsplit h1 h2 h3, split_newDrain ho]
  refine ⟨fun h0 => ?none, fun hne hw hfree => ⟨fun hr => ?resetting, fun d t hd hup hq hwin ht hl => ?up, fun d st hd hst => ?fails⟩⟩
  case none =>
    have hcomplete := complete_eq (s := withDrain s f i v c) (p := newDrain s f i v c) (admissionOrder_withParent ho rfl)
      (List.mem_append_right _ (List.mem_singleton_self _)) .good none 0 []
    rw [freed_new (u := withDrain s f i v c) ho rfl hv (drain_slots hv) rfl rfl rfl] at hcomplete
    rw [hexec]
    exact congrArg Host.Outcome.next ((hempty h0).trans hcomplete)
  case resetting =>
    have hnodup : ports.Nodup := hports ▸ (List.nodup_finRange 4).filter _
    rw [hsplits hne hw hfree, handOver_resetting hnodup hr]
    rfl
  case up =>
    subst hd
    rw [hsplits hne hw hfree, handOver_up ho hsub ⟨hup, hq, hwin, ht, hl⟩]
    have hqueue : put (s.port d).queues c [] = (s.port d).queues := by
      have := put_same (s.port d).queues c
      rwa [hq] at this
    have hothers : ∀ g : SubCmd → SubCmd, (s.subs.map fun z => if z.id = s.nextSub then g z else z) = s.subs := fun g =>
      (List.map_congr_left fun z hz => if_neg (Nat.ne_of_lt (hsub z hz))).trans (List.map_id' _)
    refine congrArg Host.Outcome.next ?_
    apply State.ext
    case subs =>
      refine (List.map_append ..).trans (congrArg₂ HAppend.hAppend (hothers _) ?_)
      exact congrArg (fun z => [z]) (if_pos rfl)
    case ports => exact congrArg (fun l => put s.ports d { s.port d with queues := l, passCount := 0, tags := put (s.port d).tags t (.issued s.nextSub) }) hqueue
    all_goals rfl
  case fails =>
    subst hd
    rw [hsplits hne hw hfree, handOver_fails ho hsub hv hst]

end Sys2Proof.Machine
end

section
/-!
ABTs: the victim that is answered alone, the one that waits, and the one that is ACTIVE (07 R115 to R120).
-/

-- The package is also compiled as one text: one proof after another keeps the number of Lean's threads small there.
set_option Elab.async false

namespace Sys2Proof.Machine

/-- Two live parents with one name are one parent (02 R23). -/
theorem parent_unique {s : State} {p q : Parent} (ho : AdmissionOrder s) (hp : p ∈ s.parents) (hq : q ∈ s.parents) (h : p.id = q.id) : p = q :=
  Option.some.inj ((find?_of_order ho hp).symm.trans ((congrArg s.parent? h).trans (find?_of_order ho hq)))

/-! ## The try at the Split-Wait List after an abort (04 R68) -/

section tryAfter
variable {s u : State}

theorem tryAfterAbort_kept (hw : u.splitWait.head? = s.splitWait.head?) (hs : u.subs = s.subs) : tryAfterAbort s u = u := by
  rw [tryAfterAbort, if_neg]
  rintro (h | h)
  · exact h hw.symm
  · exact absurd h (by rw [hs]; exact Nat.lt_irrefl _)

theorem tryAfterAbort_nil (hw : u.splitWait = []) : tryAfterAbort s u = u := by
  rw [tryAfterAbort]
  split
  · exact tryHeads_nil hw
  · rfl

/-- The head that an abort takes out of the list, or leaves in it (04 R68). -/
theorem tryAfterAbort_erased {id : ParentRef} (hw : u.splitWait = s.splitWait.erase id) (hs : u.subs = s.subs)
    (h : (∃ q rest, s.splitWait = q :: rest ∧ q ≠ id) ∨ s.splitWait = [id]) : tryAfterAbort s u = u := by
  rcases h with ⟨q, rest, hq, hne⟩ | hone
  · refine tryAfterAbort_kept ?_ hs
    rw [hw, hq, List.erase_cons_tail (by simpa using hne)]
    rfl
  · refine tryAfterAbort_nil ?_
    rw [hw, hone, List.erase_cons_head]

end tryAfter

/-! ## A victim in a wait (07 R117) -/

/-- A parent that waits is completed ABORTED once it is out of its wait (07 R117). -/
theorem abortParent_waiting {s : State} {p : Parent} (ho : AdmissionOrder s) (hp : p ∈ s.parents)
    (h : p.state = .controlWait ∨ p.state = .orderWait ∨ p.state = .splitWait ∨ p.state = .switchWait) :
    abortParent p s = { freed p (leaveWait p s) with
      outbound := (leaveWait p s).outbound ++ [.cpl (commandCpl p .aborted none p.count [])] } := by
  obtain ⟨hparents, hnext, -⟩ := leaveWait_parents p s
  have habort : abortParent p s = completeAborted p.id (leaveWait p s) := by
    rcases h with h | h | h | h <;> simp only [abortParent, h]
  rw [habort]
  exact completeAborted_eq (by unfold AdmissionOrder; rw [hparents, hnext]; exact ho) (by rw [hparents]; exact hp)

/-- A parent that an ABT does not change (07 R116, R119, R120). -/
theorem abortParent_unchanged {s : State} {p : Parent}
    (h : p.state = .controlActive ∨ p.state = .controlLong ∨ p.state = .aborting ∨ p.state = .discarding) : abortParent p s = s := by
  rcases h with h | h | h | h <;> simp only [abortParent, h]

/-- An ABT that finds no victim (07 R115). -/
theorem takeAbt_notFound {s : State} {i : Initiator} {t : Byte} (h : ∀ p ∈ s.parents, ¬(p.initiator = i ∧ p.tag = t)) :
    takeAbt i t s = abortReply i t .notFound s := by
  have hnone : (s.parents.find? fun p => p.initiator == i && p.tag == t) = none :=
    List.find?_eq_none.2 fun p hp => by simpa using h p hp
  simp only [takeAbt, hnone]

/-- An ABT of a parent that it does not change sends its reply alone (07 R116). -/
theorem exec_abt_unchanged {s : State} {f : AbtFrame} {p : Parent} (hup : s.linkUp = true) (hi : f.initiator.toNat = p.initiator.val)
    (ht : f.tag = p.tag) (hk : KeyLaw s) (hp : p ∈ s.parents)
    (h : p.state = .controlActive ∨ p.state = .controlLong ∨ p.state = .aborting ∨ p.state = .discarding) :
    exec (.abt f) s = .next (abortReply p.initiator p.tag (abortStatus p.state) s) := by
  rw [exec_abt_live hup hi ht hk hp, abortParent_unchanged h]
  exact congrArg Host.Outcome.next (tryAfterAbort_kept rfl rfl)

/-- An ABT of a parent that waits: it leaves its wait and is freed, its CPL ABORTED before the reply (07 R117). -/
theorem exec_abt_waiting {s : State} {f : AbtFrame} {p : Parent} (hup : s.linkUp = true) (hi : f.initiator.toNat = p.initiator.val)
    (ht : f.tag = p.tag) (hk : KeyLaw s) (ho : AdmissionOrder s) (hp : p ∈ s.parents)
    (h : p.state = .controlWait ∨ p.state = .orderWait ∨ p.state = .splitWait ∨ p.state = .switchWait)
    (htry : ∀ u : State, u.splitWait = (leaveWait p s).splitWait → u.subs = s.subs → tryAfterAbort s u = u) :
    exec (.abt f) s = .next { freed p (leaveWait p s) with
      outbound := s.outbound ++ [.cpl (commandCpl p .aborted none p.count []), .cpl (abortCpl p.initiator p.tag .good)] } := by
  obtain ⟨-, -, hsubs⟩ := leaveWait_parents p s
  have hout : (leaveWait p s).outbound = s.outbound := by unfold leaveWait; split <;> rfl
  have hgood : abortStatus p.state = .good := by rcases h with h | h | h | h <;> rw [h] <;> rfl
  rw [exec_abt_live hup hi ht hk hp, htry, abortParent_waiting ho hp h, hgood, hout]
  · refine congrArg Host.Outcome.next ?_
    apply State.ext
    case outbound => exact List.append_assoc ..
    all_goals rfl
  · rw [abortParent_waiting ho hp h]; rfl
  · rw [abortParent_waiting ho hp h]; exact hsubs

/-- Settles O23: the state of the victim names its reply, and what else the ABT does. -/
theorem abortRepliesAndFreesWaitingParent : Obligations.AbortRepliesAndFreesWaitingParent := by
  refine ⟨fun s f i hup hi => ⟨fun hnone => ?notFound, fun hk p hp hpi hpt => ?unchanged⟩, fun s f p hup hi ht hk ho hp => ?waiting⟩
  case notFound =>
    rw [exec_abt hup hi, takeAbt_notFound hnone]
    rfl
  case unchanged =>
    subst hpi
    have hreply := fun h => exec_abt_unchanged hup hi hpt.symm hk hp h
    refine ⟨fun h => ?denied, fun h => ?aborting, fun h => ?discarding⟩
    case denied =>
      rw [hreply (h.elim .inl fun h => .inr (.inl h)), ← hpt]
      rcases h with h | h <;> rw [h] <;> rfl
    case aborting => rw [hreply (.inr (.inr (.inl h))), ← hpt, h]; rfl
    case discarding => rw [hreply (.inr (.inr (.inr h))), ← hpt, h]; rfl
  case waiting =>
    refine ⟨fun h => ?control, fun h => ?order, fun h => ?switch, fun h hhead => ?split⟩
    case control =>
      have hleave : leaveWait p s = { s with controlQueue := s.controlQueue.erase p.id } := by simp only [leaveWait, h]
      rw [exec_abt_waiting hup hi ht hk ho hp (.inl h) fun u hu hs => tryAfterAbort_kept (by rw [hu, hleave]) hs, hleave]
      rfl
    case order =>
      have hleave : leaveWait p s = { s with holds := put s.holds p.volume (s.holds[p.volume].filter fun h => h.parent ≠ p.id) } := by
        simp only [leaveWait, h, filter_holds]
      rw [exec_abt_waiting hup hi ht hk ho hp (.inr (.inl h)) fun u hu hs => tryAfterAbort_kept (by rw [hu, hleave]) hs, hleave]
      rfl
    case switch =>
      have hleave : leaveWait p s = { s with switchHolds := put s.switchHolds p.volume (s.switchHolds[p.volume].erase p.id) } := by
        simp only [leaveWait, h]
      rw [exec_abt_waiting hup hi ht hk ho hp (.inr (.inr (.inr h))) fun u hu hs => tryAfterAbort_kept (by rw [hu, hleave]) hs, hleave]
      rfl
    case split =>
      have hleave : leaveWait p s = { s with splitWait := s.splitWait.erase p.id } := by simp only [leaveWait, h]
      rw [exec_abt_waiting hup hi ht hk ho hp (.inr (.inr (.inl h))) fun u hu hs => tryAfterAbort_erased (hu.trans (by rw [hleave])) hs hhead,
        hleave]
      rfl

/-! ## An ACTIVE victim (07 R118) -/

section active
variable {s : State} {p : Parent}

theorem queuedSubs_contains (id : ParentRef) (s : State) (r : SubRef) :
    (queuedSubs id s).contains r = s.subs.any fun e => e.id == r && e.parent == id && e.issue.isNone := by
  rw [Bool.eq_iff_iff, List.contains_iff_mem, queuedSubs, List.mem_map, List.any_eq_true]
  simp only [List.mem_filter, Bool.and_eq_true, beq_iff_eq]
  constructor
  · rintro ⟨e, ⟨he, hparent, hissue⟩, hid⟩
    exact ⟨e, he, ⟨hid, hparent⟩, hissue⟩
  · rintro ⟨e, he, ⟨hid, hparent⟩, hissue⟩
    exact ⟨e, ⟨he, hparent, hissue⟩, hid⟩

/-- The class queues close up behind the entries that leave them (05 R83). -/
theorem removeQueued_queue (id : ParentRef) (s : State) (d : Port) (c : Sys2Proof.Class) : ((removeQueued id s).port d).queues[c]
    = (s.port d).queues[c].filter fun r => !(s.subs.any fun e => e.id == r && e.parent == id && e.issue.isNone) := by
  rw [removeQueued_port]
  show (mapRows _ (s.port d).queues)[c] = _
  simp only [mapRows_eq, Fin.getElem_fin, Vector.getElem_map, queuedSubs_contains]

theorem holdsIssued_iff {id : ParentRef} : holdsIssued id s = true ↔ ∃ e ∈ s.subs, e.parent = id ∧ e.issue ≠ none := by
  simp [holdsIssued, Option.isSome_iff_ne_none]

theorem admissionOrder_removeQueued {id : ParentRef} (ho : AdmissionOrder s) : AdmissionOrder (removeQueued id s) := by
  refine ⟨pairwise_updParent (fun _ => rfl) ho, fun q hq => ?_⟩
  obtain ⟨r, hr, rfl⟩ := List.mem_map.1 hq
  have hlt := ho.2 r hr
  show _ < s.nextParent
  split <;> exact hlt

/-- The parent that an abort without ISSUED entries completes is the one of before, but for its pieces (07 R118). -/
theorem completeAborted_removeQueued (ho : AdmissionOrder s) (hp : p ∈ s.parents) :
    completeAborted p.id (removeQueued p.id s) = { freed p s with
      subs := (removeQueued p.id s).subs
      ports := (removeQueued p.id s).ports
      outbound := s.outbound ++ [.cpl (commandCpl p .aborted none p.count [])] } := by
  have hlive : { p with pieces := p.pieces.map (Piece.without (queuedSubs p.id s)) } ∈ (removeQueued p.id s).parents :=
    List.mem_map.2 ⟨p, hp, if_pos rfl⟩
  refine (completeAborted_eq (admissionOrder_removeQueued ho) hlive).trans ?_
  apply State.ext
  case parents => exact filter_map_id (f := fun q => { q with pieces := q.pieces.map (Piece.without (queuedSubs p.id s)) }) fun _ => rfl
  all_goals rfl

/-- The parent that keeps an ISSUED entry changes its state, and is without the references of its QUEUED ones (02 R38, 07 R118, 06 R95). -/
theorem setState_removeQueued (x : ParentState) (ho : AdmissionOrder s) (hp : p ∈ s.parents) :
    setState p.id x (removeQueued p.id s) = { s with
      subs := (removeQueued p.id s).subs
      ports := (removeQueued p.id s).ports
      parents := s.parents.map fun q => if q.id = p.id then { withoutQueued s p with state := x } else q } := by
  refine (updParent_comp p.id (fun q => { q with pieces := q.pieces.map (Piece.without (queuedSubs p.id s)) }) (fun q => { q with state := x })
    (fun _ => rfl) _).trans ?_
  apply State.ext
  case parents =>
    refine List.map_congr_left fun q hq => ?_
    by_cases e : q.id = p.id
    · obtain rfl : q = p := parent_unique ho hq hp e
      rw [if_pos rfl, if_pos rfl, ← withoutQueued_eq]
    · rw [if_neg e, if_neg e]
  all_goals rfl

theorem abortParent_active (h : p.state = .active) : abortParent p s =
    if holdsIssued p.id s then setState p.id .aborting (removeQueued p.id s) else completeAborted p.id (removeQueued p.id s) := by
  simp only [abortParent, h, holdsIssued_removeQueued_self]

end active

/-- Settles O24: the QUEUED entries go; an ISSUED one decides between ABORTING and the end of the parent. -/
theorem abortOfActiveParentRemovesItsQueuedEntries : Obligations.AbortOfActiveParentRemovesItsQueuedEntries := by
  intro s f p hup hi ht hk ho hp hs hw
  have habt := exec_abt_live hup hi ht hk hp
  have hframe : ∀ d : Port, { (removeQueued p.id s).port d with queues := (s.port d).queues } = s.port d := fun d => by rw [removeQueued_port]; rfl
  rw [hs, abortParent_active hs] at habt
  cases hissued : holdsIssued p.id s
  case false =>
    rw [hissued, if_neg (by decide), completeAborted_removeQueued ho hp] at habt
    refine ⟨_, habt.trans (congrArg Host.Outcome.next (tryAfterAbort_nil (by exact hw))), rfl, removeQueued_queue p.id s, hframe, fun _ => ?_, fun h => ?_⟩
    · apply State.ext
      case outbound => exact List.append_assoc ..
      all_goals rfl
    · exact absurd (holdsIssued_iff.2 h) (by rw [hissued]; decide)
  case true =>
    rw [hissued, if_pos rfl, setState_removeQueued .aborting ho hp] at habt
    refine ⟨_, habt.trans (congrArg Host.Outcome.next (tryAfterAbort_nil (by exact hw))), rfl, removeQueued_queue p.id s, hframe, fun h => ?_, fun _ => rfl⟩
    obtain ⟨e, he, hparent, hne⟩ := holdsIssued_iff.1 hissued
    exact absurd (h e he hparent) hne

end Sys2Proof.Machine
end

section
/-!
Control addresses: what each page and selector names (09 R135), what each row of the command table picks up, and the two tests that every page makes (09 R137).
-/

-- The package is also compiled as one text: one proof after another keeps the number of Lean's threads small there.
set_option Elab.async false

namespace Sys2Proof.Machine

/-! ## Addresses that name nothing (09 R135) -/

theorem selZero_none {n : Nat} {x : PageOp} (h : n ≠ 0) : selZero n x = none := if_neg h

theorem selVolume_none {n : Nat} (h : ¬(1 ≤ n ∧ n < 64)) : selVolume n = none := dif_neg h

theorem selInitiator_none {n : Nat} (h : ¬ n < 16) : selInitiator n = none := dif_neg h

theorem selPort_none {n : Nat} (h : ¬ n < 4) : selPort n = none := dif_neg h

/-- The table of pages accepts a READ or a WRITE of a page and selector (09 R135). -/
def tableAccepts (access : PageRow → Bool) (pg sel : Nat) : Bool :=
  pageRows.any fun r => r.page == pg && access r && decide (r.first ≤ sel) && decide (sel ≤ r.last)

theorem readPage_none {pg sel : Nat} (hs : sel < 65536) (h : tableAccepts PageRow.reads pg sel = false) : readPage pg sel = none := by
  unfold readPage
  split <;> simp [tableAccepts, pageRows] at h
  case h_1 | h_2 | h_3 => exact selZero_none (by omega)
  case h_4 => rw [selVolume_none (by omega)]; rfl
  case h_5 | h_6 => rw [selInitiator_none (by omega)]; rfl
  case h_7 => rw [selPort_none (by omega)]; rfl
  case h_8 | h_9 => rw [selVolume_none (by omega)]; rfl
  case h_10 => rfl

theorem writePage_none {pg sel : Nat} (h : tableAccepts PageRow.writes pg sel = false) : writePage pg sel = none := by
  unfold writePage
  split <;> simp [tableAccepts, pageRows] at h
  case h_1 => exact selZero_none (by omega)
  case h_2 | h_3 | h_4 => rw [selVolume_none (by omega)]; rfl
  case h_5 | h_6 => rw [selInitiator_none (by omega)]; rfl
  case h_7 | h_8 => rw [selPort_none (by omega)]; rfl
  case h_9 => exact selZero_none (by omega)
  case h_10 => rfl

theorem pageOp_none {p : Parent} (hop : p.op = .read ∨ p.op = .write) (h : pageRows.any (PageRow.names p) = false) : pageOp p = none := by
  rcases hop with hop | hop
  · have hr : tableAccepts PageRow.reads (p.start / 65536) (p.start % 65536) = false :=
      (congrArg pageRows.any (funext fun r => by simp only [PageRow.names, hop, if_true])).trans h
    simp only [pageOp, hop, readPage_none (Nat.mod_lt _ (by decide)) hr]
  · have hw : tableAccepts PageRow.writes (p.start / 65536) (p.start % 65536) = false :=
      (congrArg pageRows.any (funext fun r => by simp only [PageRow.names, hop, if_neg (show ¬ Op.write = Op.read by decide)])).trans h
    simp only [pageOp, hop, writePage_none hw]

/-- Settles O25: an address outside the table of pages names no page operation, which is what the BAD_PAGE row picks up. -/
theorem invalidControlAddressIsBadPage : Obligations.InvalidControlAddressIsBadPage := by
  intro s p hr hop h
  have hpick : pickBadPage p = some (answerResult p.id .badPage 0) := by simp only [pickBadPage, pageOp_none hop h]
  exact congrArg Host.Outcome.next (execute_answer .badPage (resultBlock 0) hr hpick rfl)

/-! ## What each address names (09 R135) -/

section names
variable {p : Parent} {v : Volume} {i : Initiator} {d : Port} {n : Nat}

theorem pageOp_volumeRead (hv : v ≠ 0) (ha : addressed p .read 4 v.val) : pageOp p = some (.volumeRead v) := by
  rw [pageOp_read ha]; simp only [readPage, selVolume_of hv, Option.map_some]

theorem pageOp_volumeWrite (hv : v ≠ 0) (ha : addressed p .write 4 v.val) : pageOp p = some (.volumeWrite v) := by
  rw [pageOp_write ha]; simp only [writePage, selVolume_of hv, Option.map_some]

theorem pageOp_commitWrite (hv : v ≠ 0) (ha : addressed p .write 6 v.val) : pageOp p = some (.commitWrite v) := by
  rw [pageOp_write ha]; simp only [writePage, selVolume_of hv, Option.map_some]

theorem pageOp_accessRead (ha : addressed p .read 7 i.val) : pageOp p = some (.accessRead i) := by
  rw [pageOp_read ha]; simp only [readPage, selInitiator_of, Option.map_some]

theorem pageOp_accessWrite (ha : addressed p .write 7 i.val) : pageOp p = some (.accessWrite i) := by
  rw [pageOp_write ha]; simp only [writePage, selInitiator_of, Option.map_some]

theorem pageOp_initiatorRead (ha : addressed p .read 8 i.val) : pageOp p = some (.initiatorRead i) := by
  rw [pageOp_read ha]; simp only [readPage, selInitiator_of, Option.map_some]

theorem pageOp_initiatorWrite (ha : addressed p .write 8 i.val) : pageOp p = some (.initiatorWrite i) := by
  rw [pageOp_write ha]; simp only [writePage, selInitiator_of, Option.map_some]

theorem pageOp_portRead (ha : addressed p .read 9 d.val) : pageOp p = some (.portRead d) := by
  rw [pageOp_read ha]; simp only [readPage, selPort_of, Option.map_some]

theorem pageOp_portWrite (ha : addressed p .write 9 d.val) : pageOp p = some (.portWrite d) := by
  rw [pageOp_write ha]; simp only [writePage, selPort_of, Option.map_some]

theorem pageOp_portReset (ha : addressed p .write 10 d.val) : pageOp p = some (.portResetWrite d) := by
  rw [pageOp_write ha]; simp only [writePage, selPort_of, Option.map_some]

/-- A map selector is the volume times 1024 plus the first ordinal (09 R135). -/
theorem mapSelector (hn : n < 1024) : (v.val * 1024 + n) / 1024 = v.val ∧ (v.val * 1024 + n) % 1024 = n := by omega

theorem pageOp_liveMapRead (hv : v ≠ 0) (hn : n < 1024) (ha : addressed p .read 12 (v.val * 1024 + n)) : pageOp p = some (.liveMapRead v n) := by
  obtain ⟨hdiv, hmod⟩ := mapSelector (v := v) hn
  rw [pageOp_read ha]; simp only [readPage, hdiv, hmod, selVolume_of hv, Option.map_some]

theorem pageOp_stagedMapRead (hv : v ≠ 0) (hn : n < 1024) (ha : addressed p .read 13 (v.val * 1024 + n)) : pageOp p = some (.stagedMapRead v n) := by
  obtain ⟨hdiv, hmod⟩ := mapSelector (v := v) hn
  rw [pageOp_read ha]; simp only [readPage, hdiv, hmod, selVolume_of hv, Option.map_some]

/-! ## What each row picks up (log entry 14) -/

theorem pickIdentityRead_of (ha : addressed p .read 0 0) : pickIdentityRead p = some fun s => answerPage p (identityPage s) s := by
  simp only [pickIdentityRead, pageOp_read ha, readPage, selZero_zero]

theorem pickStatusRead_of (ha : addressed p .read 1 0) : pickStatusRead p = some fun s => answerPage p (statusPage s) s := by
  simp only [pickStatusRead, pageOp_read ha, readPage, selZero_zero]

theorem pickNoticesRead_of (ha : addressed p .read 2 0) :
    pickNoticesRead p = some (managed p fun s => answerPage p (noticesPage s) (takeNotices s)) := by
  simp only [pickNoticesRead, pageOp_read ha, readPage, selZero_zero]

theorem pickClaim_of (ha : addressed p .write 3 0) (h : action p ≠ 2) : pickClaim p = some (claimWrite p) := by
  simp only [pickClaim, pageOp_write ha, writePage, selZero_zero, if_neg h]

theorem pickRelease_of (ha : addressed p .write 3 0) (h : action p ≠ 1) : pickRelease p = some (claimWrite p) := by
  simp only [pickRelease, pageOp_write ha, writePage, selZero_zero, if_neg h]

theorem pickVolumeRead_of (hv : v ≠ 0) (ha : addressed p .read 4 v.val) :
    pickVolumeRead p = some (managed p fun s => answerPage p (volumePage (s.vol v)) s) := by
  simp only [pickVolumeRead, pageOp_volumeRead hv ha]

theorem pickDefine_of (hv : v ≠ 0) (ha : addressed p .write 4 v.val) (h : action p ≠ 2) :
    pickDefine p = some (managed p (volumeWrite p v)) := by
  simp only [pickDefine, pageOp_volumeWrite hv ha, if_neg h]

theorem pickRemove_of (hv : v ≠ 0) (ha : addressed p .write 4 v.val) (h : action p ≠ 1) :
    pickRemove p = some (managed p (volumeWrite p v)) := by
  simp only [pickRemove, pageOp_volumeWrite hv ha, if_neg h]

theorem pickCommit_of (hv : v ≠ 0) (ha : addressed p .write 6 v.val) : pickCommit p = some (managed p (takeCommit p.id v)) := by
  simp only [pickCommit, pageOp_commitWrite hv ha]

theorem pickAccessRead_of (ha : addressed p .read 7 i.val) :
    pickAccessRead p = some (managed p fun s => answerPage p (accessPage s.access[i]) s) := by
  simp only [pickAccessRead, pageOp_accessRead ha]

theorem pickAccessWrite_of (ha : addressed p .write 7 i.val) : pickAccessWrite p = some (managed p (writeAccess p i)) := by
  simp only [pickAccessWrite, pageOp_accessWrite ha]

theorem pickInitiatorRead_of (ha : addressed p .read 8 i.val) :
    pickInitiatorRead p = some (managed p fun s => answerPage p (initiatorPage s.initiators[i]) s) := by
  simp only [pickInitiatorRead, pageOp_initiatorRead ha]

theorem pickInitiatorWrite_of (ha : addressed p .write 8 i.val) : pickInitiatorWrite p = some (managed p (writeInitiator p i)) := by
  simp only [pickInitiatorWrite, pageOp_initiatorWrite ha]

theorem pickPortRead_of (ha : addressed p .read 9 d.val) :
    pickPortRead p = some (managed p fun s => answerPage p (portPage (s.port d)) s) := by
  simp only [pickPortRead, pageOp_portRead ha]

theorem pickPortWrite_of (ha : addressed p .write 9 d.val) : pickPortWrite p = some (managed p (writePort p d)) := by
  simp only [pickPortWrite, pageOp_portWrite ha]

theorem pickPortReset_of (ha : addressed p .write 10 d.val) : pickPortReset p = some (managed p (takePortReset p.id d)) := by
  simp only [pickPortReset, pageOp_portReset ha]

theorem pickFlushAll_of (ha : addressed p .write 11 0) : pickFlushAll p = some (managed p (doFlushAll p.id)) := by
  simp only [pickFlushAll, pageOp_write ha, writePage, selZero_zero]

theorem pickLiveMapRead_of (hv : v ≠ 0) (hn : n < 1024) (ha : addressed p .read 12 (v.val * 1024 + n)) :
    pickLiveMapRead p = some (managed p fun s => answerPage p (mapPage (s.vol v).live (s.vol v).generation n) s) := by
  simp only [pickLiveMapRead, pageOp_liveMapRead hv hn ha]

theorem pickStagedMapRead_of (hv : v ≠ 0) (hn : n < 1024) (ha : addressed p .read 13 (v.val * 1024 + n)) :
    pickStagedMapRead p = some (managed p fun s => answerPage p (mapPage (s.vol v).staged (s.vol v).generation n) s) := by
  simp only [pickStagedMapRead, pageOp_stagedMapRead hv hn ha]

end names

/-! ## The test of the manager (09 R137) -/

theorem execute_notManager {s : State} {p : Parent} {pick : Parent → Option (State → State)} {g : State → State} (hr : Running p s)
    (hm : s.manager ≠ some p.initiator) (hp : pick p = some (managed p g)) :
    execute pick s = answered p .notManager (resultBlock 0) s :=
  execute_answer .notManager (resultBlock 0) hr hp (if_neg hm)

theorem action_ne {p : Parent} {a b : Byte} (h : wroteAction p a) (hab : a ≠ b) : action p ≠ b := by
  obtain ⟨blk, hb, ha⟩ := h
  rw [action_of hb, ha]
  exact hab

/-- Settles O26: at its address each row picks up a managed operation, whose test comes first. -/
theorem managedPageRefusesOtherInitiators : Obligations.ManagedPageRefusesOtherInitiators := by
  intro c s p hr hm ha
  have refused : ∀ {pick : Parent → Option (State → State)} {g : State → State}, pick p = some (managed p g) →
      Host.Outcome.next (execute pick s) = (.next (answered p .notManager (resultBlock 0) s) : Host.Outcome State Fault Refusal) :=
    fun hp => congrArg Host.Outcome.next (execute_notManager hr hm hp)
  cases c
  case noticesRead => exact refused (pickNoticesRead_of ha)
  case volumeRead => obtain ⟨v, hv, ha⟩ := ha; exact refused (pickVolumeRead_of hv ha)
  case define => obtain ⟨⟨v, hv, ha⟩, hw⟩ := ha; exact refused (pickDefine_of hv ha (action_ne hw (by decide)))
  case remove => obtain ⟨⟨v, hv, ha⟩, hw⟩ := ha; exact refused (pickRemove_of hv ha (action_ne hw (by decide)))
  case stage =>
    obtain ⟨⟨v, hv, ha⟩, b, hb, hw⟩ := ha
    exact refused (pickStage_of hv ha hb (by rw [hw]; decide))
  case clear =>
    obtain ⟨⟨v, hv, ha⟩, b, hb, hw⟩ := ha
    exact refused (pickClear_of hv ha hb (by rw [hw]; decide))
  case commit => obtain ⟨v, hv, ha⟩ := ha; exact refused (pickCommit_of hv ha)
  case accessRead => obtain ⟨i, ha⟩ := ha; exact refused (pickAccessRead_of ha)
  case accessWrite => obtain ⟨i, ha⟩ := ha; exact refused (pickAccessWrite_of ha)
  case initiatorRead => obtain ⟨i, ha⟩ := ha; exact refused (pickInitiatorRead_of ha)
  case initiatorWrite => obtain ⟨i, ha⟩ := ha; exact refused (pickInitiatorWrite_of ha)
  case portRead => obtain ⟨d, ha⟩ := ha; exact refused (pickPortRead_of ha)
  case portWrite => obtain ⟨d, ha⟩ := ha; exact refused (pickPortWrite_of ha)
  case portReset => obtain ⟨d, ha⟩ := ha; exact refused (pickPortReset_of ha)
  case flushAll => exact refused (pickFlushAll_of ha)
  case liveMapRead => obtain ⟨v, n, hv, hn, ha⟩ := ha; exact refused (pickLiveMapRead_of hv hn ha)
  case stagedMapRead => obtain ⟨v, n, hv, hn, ha⟩ := ha; exact refused (pickStagedMapRead_of hv hn ha)
  all_goals exact ha.elim

end Sys2Proof.Machine
end

section
/-!
READs of the control pages: what each page holds, byte by byte (09 R142, R143, R146, R151, 10 section 10.6).
-/

-- The package is also compiled as one text: one proof after another keeps the number of Lean's threads small there.
set_option Elab.async false

namespace Sys2Proof.Machine

/-- A managed READ answers the manager with its page, after a move that leaves the Command Table as it is (09 R137). -/
theorem exec_page_of {s t : State} {p : Parent} {pick : Parent → Option (State → State)} {g : State → State} {b : Block} (hr : Running p s)
    (hm : s.manager = some p.initiator) (hp : pick p = some (managed p g)) (hg : g s = answerPage p b t)
    (h1 : t.parents = s.parents := by rfl) (h2 : t.nextParent = s.nextParent := by rfl) :
    Host.Outcome.next (execute pick s) = (.next (answered p .good b t) : Host.Outcome State Fault Refusal) :=
  congrArg Host.Outcome.next (execute_managed .good b hr hm hp hg h1 h2)

/-! ## IDENTITY (09 R142) -/

theorem revisionByte_range (i : Nat) (h : i < Config.revisionLength % 16 + 1) :
    0x20 ≤ (revisionByte i).toNat ∧ (revisionByte i).toNat ≤ 0x7E := by
  rw [revisionByte, if_pos h, BitVec.toNat_ofNat]
  omega

/-- The revision field stands after the three names (10 section 10.6). -/
theorem identityPage_revision (s : State) {i : Nat} (h : i < 16) : byteAt (identityPage s) (48 + i) = revisionByte i := by
  have hrev : byteAt ((List.range 16).map revisionByte) i = revisionByte i := by simp [byteAt, h]
  rw [identityPage, byteAt_page (by omega)]
  simp only [List.append_assoc]
  rw [← List.append_assoc, ← List.append_assoc, byteAt_append_right (show 48 ≤ 48 + i by omega), byteAt_append_left]
  · exact (congrArg (byteAt _) (Nat.add_sub_cancel_left 48 i)).trans hrev
  · show 48 + i - 48 < 16
    omega

theorem leaseLeft_none {s : State} (h : s.manager = none ∨ s.leaseTimer = none) : leaseLeft s = 0 := by
  rcases h with h | h
  · simp only [leaseLeft, h]
  · cases hm : s.manager <;> simp only [leaseLeft, h, hm]

theorem leaseLeft_some {s : State} {m : Initiator} {t : Nat} (hm : s.manager = some m) (ht : s.leaseTimer = some t) :
    leaseLeft s = (t - s.now) / 1000 ∨ leaseLeft s = (t + 1 - s.now) / 1000 := by
  simp only [leaseLeft, hm, ht]
  cases Config.leaseRunsLate t
  · exact .inl rfl
  · exact .inr rfl

/-- Settles O28: the IDENTITY page, field by field. -/
theorem identityReadReturnsIdentity : Obligations.IdentityReadReturnsIdentity := by
  intro s p hr ha
  have hlease : byteAt (identityPage s) 79 = BitVec.ofNat 8 (leaseLeft s) := byteAt_page_of (by decide) rfl
  have hflag : byteAt (identityPage s) 76 = BitVec.ofNat 8 (boolCode s.manager.isSome) := byteAt_page_of (by decide) rfl
  refine ⟨identityPage s, page_length _, rfl, ⟨Config.revisionLength % 16 + 1, by omega, by omega, fun i hi => ?revision, fun i h1 h2 => ?fill⟩,
    word16At_page_of (by decide) rfl rfl, word16At_page_of (by decide) rfl rfl, word16At_page_of (by decide) rfl rfl,
    word16At_page_of (by decide) rfl rfl, byteAt_page_of (by decide) rfl, byteAt_page_of (by decide) rfl, byteAt_page_of (by decide) rfl,
    byteAt_page_of (by decide) rfl, ?flag, byteAt_page_of (by decide) rfl, byteAt_page_of (by decide) rfl, fun h => ?noLease,
    fun m t hm ht => ?lease, fun i hi => byteAt_page_end hi, ?exec⟩
  case revision => rw [identityPage_revision s (by omega)]; exact revisionByte_range i hi
  case fill => rw [identityPage_revision s h2, revisionByte, if_neg (by omega)]
  case flag => rw [hflag]; cases s.manager <;> rfl
  case noLease => rw [hlease, leaseLeft_none h]; rfl
  case lease => rw [hlease]; exact (leaseLeft_some hm ht).imp (congrArg _) (congrArg _)
  case exec => exact congrArg Host.Outcome.next (execute_answer .good _ hr (pickIdentityRead_of ha) rfl)

/-! ## STATUS (09 R142) -/

theorem statusPort_length (r : PortRec) : (statusPort r).length = 8 := rfl

/-- Each port has 8 bytes of the STATUS page, in ascending number (10 section 10.6). -/
theorem statusPage_port (s : State) (d : Port) {j : Nat} (hj : j < 8) : byteAt (statusPage s) (8 * d + j) = byteAt (statusPort (s.port d)) j := by
  have hd := d.isLt
  have hports : ([s.port 0, s.port 1, s.port 2, s.port 3].map statusPort)[d.val]? = some (statusPort (s.port d)) := by
    match d with
    | 0 | 1 | 2 | 3 => rfl
  have hlen : ∀ x ∈ [s.port 0, s.port 1, s.port 2, s.port 3].map statusPort, x.length = 8 := fun x hx => by
    obtain ⟨r, -, rfl⟩ := List.mem_map.1 hx
    rfl
  have hflat : statusPort (s.port 0) ++ statusPort (s.port 1) ++ statusPort (s.port 2) ++ statusPort (s.port 3)
      = ([s.port 0, s.port 1, s.port 2, s.port 3].map statusPort).flatten := by simp
  rw [statusPage, byteAt_page (by omega), hflat]
  simp only [List.append_assoc]
  rw [byteAt_append_left, byteAt_flatten hlen hports hj]
  rw [flatten_length hlen]
  show _ < 8 * 4
  omega

/-- The part of the STATUS page that counts the tables. -/
def statusCounts (s : State) : List Byte :=
  bytes16 s.freeParents ++ bytes16 s.freeSubs ++ bytes16 s.freeSlots ++ bytes16 s.freeExtents ++ bytes16 s.splitWait.length ++ bytes8 s.notices.length

theorem statusPorts_length (s : State) :
    (statusPort (s.port 0) ++ statusPort (s.port 1) ++ statusPort (s.port 2) ++ statusPort (s.port 3)).length = 32 := by
  simp only [List.length_append, statusPort_length]

theorem statusPage_eq (s : State) : statusPage s =
    page ((statusPort (s.port 0) ++ statusPort (s.port 1) ++ statusPort (s.port 2) ++ statusPort (s.port 3)) ++ statusCounts s) := by
  simp only [statusPage, statusCounts, List.append_assoc]

/-- The counts of the tables stand behind the 32 bytes of the ports (10 section 10.6). -/
theorem statusPage_count (s : State) {i j : Nat} {x : Byte} (hi : i < 512) (hj : i = 32 + j) (hx : byteAt (statusCounts s) j = x) :
    byteAt (statusPage s) i = x := by
  have hlen := statusPorts_length s
  rw [statusPage_eq, byteAt_page hi, byteAt_append_right (by omega), hlen, hj, Nat.add_sub_cancel_left, hx]

/-- A count of a table, from the two bytes of its field. -/
theorem statusPage_count16 (s : State) {i j n : Nat} (hi : i + 1 < 512) (hj : i = 32 + j) (h0 : byteAt (statusCounts s) j = BitVec.ofNat 8 (n / 256))
    (h1 : byteAt (statusCounts s) (j + 1) = BitVec.ofNat 8 n) : word16At (statusPage s) i = BitVec.ofNat 16 n :=
  word16At_of (statusPage_count s (by omega) hj h0) (statusPage_count s hi (by omega) h1)

theorem statusPage_end (s : State) {i : Nat} (h : 43 ≤ i) : byteAt (statusPage s) i = 0 := by
  rw [statusPage_eq, byteAt_page_end]
  rw [List.length_append, statusPorts_length]
  exact h

/-- Settles O29: the four parts of the ports, and then the counts of the tables. -/
theorem statusReadReturnsCounts : Obligations.StatusReadReturnsCounts := by
  intro s p hr ha
  refine ⟨statusPage s, page_length _, fun d => ?port, statusPage_count16 (j := 0) s (by decide) rfl rfl rfl,
    statusPage_count16 (j := 2) s (by decide) rfl rfl rfl, statusPage_count16 (j := 4) s (by decide) rfl rfl rfl,
    statusPage_count16 (j := 6) s (by decide) rfl rfl rfl, statusPage_count16 (j := 8) s (by decide) rfl rfl rfl,
    statusPage_count (j := 10) s (by decide) rfl rfl, fun i hi => statusPage_end s hi, ?exec⟩
  case port =>
    have hbyte : ∀ j, j < 8 → byteAt (statusPage s) (8 * d + j) = byteAt (statusPort (s.port d)) j := fun _ hj => statusPage_port s d hj
    refine ⟨(hbyte 0 (by decide)).trans ?state, (hbyte 1 (by decide)).trans ?reason, (hbyte 2 (by decide)).trans ?free,
      (hbyte 3 (by decide)).trans ?issued, (hbyte 4 (by decide)).trans ?quarantined, (hbyte 5 (by decide)).trans rfl,
      (hbyte 6 (by decide)).trans rfl, (hbyte 7 (by decide)).trans rfl⟩
    case state => show BitVec.ofNat 8 (s.port d).state.code = _; cases (s.port d).state <;> rfl
    case reason =>
      show BitVec.ofNat 8 (haltByte (s.port d).reason) = _
      rcases (s.port d).reason with _ | _ | _ <;> rfl
    case free => exact congrArg (BitVec.ofNat 8) (countTags_eq _ _)
    case issued => exact congrArg (BitVec.ofNat 8) (countTags_eq _ _)
    case quarantined => exact congrArg (BitVec.ofNat 8) (countTags_eq _ _)
  case exec => exact congrArg Host.Outcome.next (execute_answer .good _ hr (pickStatusRead_of ha) rfl)

/-! ## NOTICES (09 R151) -/

theorem noticeRecords_length (l : List Notice) : (l.map Notice.bytes).flatten.length = 16 * l.length := by
  rw [flatten_length (w := 16), List.length_map]
  intro x hx
  obtain ⟨n, -, rfl⟩ := List.mem_map.1 hx
  exact notice_length n

/-- Record `k` of the NOTICES page stands at 16 + 16 k (10 section 10.6). -/
theorem noticesPage_record {s : State} {k : Nat} {n : Notice} (hk : k < 15) (hn : s.notices[k]? = some n) :
    n.ReadsAt (noticesPage s) (16 + 16 * k) := by
  refine notice_readsAt fun j hj => ?_
  have hrec : ((s.notices.take 15).map Notice.bytes)[k]? = some n.bytes := by
    rw [List.getElem?_map, List.getElem?_take, if_pos hk, hn]; rfl
  have hlen : ∀ x ∈ (s.notices.take 15).map Notice.bytes, x.length = 16 := fun x hx => by
    obtain ⟨m, -, rfl⟩ := List.mem_map.1 hx
    exact notice_length m
  rw [noticesPage, byteAt_page (by omega), byteAt_append_right (show 16 ≤ 16 + 16 * k + j by omega)]
  exact (congrArg (byteAt _) (show 16 + 16 * k + j - 16 = 16 * k + j by omega)).trans (byteAt_flatten hlen hrec hj)

/-- Settles O30: the fields before the records, the records, and the end of the page; the records then leave the queue. -/
theorem noticesReadTakesRecordsFromHead : Obligations.NoticesReadTakesRecordsFromHead := by
  intro s p hr hm ha
  have htake : (s.notices.take 15).length = if s.notices.length < 15 then s.notices.length else 15 := by
    rw [List.length_take]; split <;> omega
  have hcount : byteAt (noticesPage s) 0 = BitVec.ofNat 8 (s.notices.take 15).length := byteAt_page_of (by decide) rfl
  have hfill : ∀ i, i < 12 → byteAt (noticesPage s) (4 + i) = 0 := fun i hi => by
    rw [noticesPage, byteAt_page (by omega), byteAt_append_left (show 4 + i < 16 by omega), byteAt_append_right (show 4 ≤ 4 + i by omega)]
    exact byteAt_zeros 12 _
  refine ⟨noticesPage s, page_length _, hcount.trans (congrArg _ htake), byteAt_page_of (by decide) rfl, word16At_page_of (by decide) rfl rfl,
    fun i h1 h2 => ?fill, fun k n hk hn => noticesPage_record hk hn, fun i hi => byteAt_page_end ?_, ?exec⟩
  case fill => have := hfill (i - 4) (by omega); rwa [Nat.add_sub_cancel' h1] at this
  case exec =>
    have halert : (if s.notices.drop 15 = [] then Alert.armed else s.alert) = if s.notices.length ≤ 15 then .armed else s.alert := by
      simp only [List.drop_eq_nil_iff]
    refine (exec_page_of hr hm (pickNoticesRead_of ha) (t := takeNotices s) rfl).trans ?_
    rw [takeNotices, halert]
  · rw [List.length_append, noticeRecords_length, htake]
    show 16 + _ ≤ i
    split <;> omega

/-! ## VOLUME (09 R143) -/

/-- Settles O32: the VOLUME page, field by field. -/
theorem volumeReadReturnsRecord : Obligations.VolumeReadReturnsRecord := by
  intro s p v hr hm hv ha
  have hflags : byteAt (volumePage (s.vol v)) 1 = BitVec.ofNat 8 (boolCode (s.vol v).capacity.isSome + 2 * boolCode (s.vol v).writeProtected) :=
    byteAt_page_of (by decide) rfl
  have hstate : byteAt (volumePage (s.vol v)) 0 = BitVec.ofNat 8 (s.vol v).state.code := byteAt_page_of (by decide) rfl
  have hlong : byteAt (volumePage (s.vol v)) 12 = BitVec.ofNat 8 (longOpCode (s.vol v).longOp) := byteAt_page_of (by decide) rfl
  refine ⟨volumePage (s.vol v), page_length _, ?state, ?capacity, ?writeProtected, fun k hk => ?flags,
    (word16At_page_of (by decide) rfl rfl).trans (ofNat_of_toNat _), word32At_of (word16At_page_of (by decide) rfl rfl) (word16At_page_of (by decide) rfl rfl),
    word16At_page_of (by decide) rfl rfl, word16At_page_of (by decide) rfl rfl, ?long, byteAt_page_of (by decide) rfl,
    word16At_page_of (by decide) rfl rfl, word16At_page_of (by decide) rfl rfl, fun i hi => byteAt_page_end hi,
    exec_page_of hr hm (pickVolumeRead_of hv ha) rfl⟩
  case state => rw [hstate]; cases (s.vol v).state <;> rfl
  case capacity => rw [hflags]; cases (s.vol v).capacity.isSome <;> cases (s.vol v).writeProtected <;> rfl
  case writeProtected => rw [hflags]; cases (s.vol v).capacity.isSome <;> cases (s.vol v).writeProtected <;> rfl
  case flags =>
    have hsmall : boolCode (s.vol v).capacity.isSome + 2 * boolCode (s.vol v).writeProtected < 4 := by
      cases (s.vol v).capacity.isSome <;> cases (s.vol v).writeProtected <;> decide
    rw [hflags, BitVec.getLsbD_ofNat, Nat.testBit_lt_two_pow, Bool.and_false]
    exact hsmall.trans_le (Nat.pow_le_pow_right (n := 2) (by decide) hk)
  case long => rw [hlong]; rcases (s.vol v).longOp with _ | _ | _ <;> rfl

/-! ## LIVE MAP and STAGED MAP (09 R146) -/

section map
variable {xs : List Extent} {g : BitVec 16} {n : Nat}

theorem mapRecords_length : (mapRecords xs n).length = if xs.length - n < 18 then xs.length - n else 18 := by
  rw [mapRecords, List.length_map, List.length_zipIdx, List.length_take, List.length_drop]
  split <;> omega

theorem mapRecords_size : ∀ x ∈ mapRecords xs n, x.length = 28 := fun x hx => by
  obtain ⟨r, -, rfl⟩ := List.mem_map.1 hx
  exact extent_length _ _

/-- Record `k` of a map page stands at 8 + 28 k, with its ordinal (10 section 10.6). -/
theorem mapPage_record {k : Nat} {x : Extent} (hk : k < 18) (hx : xs[n + k]? = some x) : x.ReadsAt (mapPage xs g n) (8 + 28 * k) (n + k) := by
  refine extent_readsAt fun j hj => ?_
  have hrec : (mapRecords xs n)[k]? = some (x.bytes (n + k)) := by
    simp only [mapRecords, List.getElem?_map, List.getElem?_zipIdx, List.getElem?_take, if_pos hk, List.getElem?_drop, hx, Option.map_some, Nat.zero_add]
  rw [mapPage, byteAt_page (by omega), byteAt_append_right (show 8 ≤ 8 + 28 * k + j by omega)]
  exact (congrArg (byteAt _) (show 8 + 28 * k + j - 8 = 28 * k + j by omega)).trans (byteAt_flatten mapRecords_size hrec hj)

/-- What a map page holds (09 R146). -/
theorem mapPage_layout (hl : xs.length ≤ 512) : (mapPage xs g n).length = 512 ∧ (word16At (mapPage xs g n) 0).toNat = xs.length
    ∧ (byteAt (mapPage xs g n) 2).toNat = (if xs.length - n < 18 then xs.length - n else 18)
    ∧ byteAt (mapPage xs g n) 3 = 0 ∧ word16At (mapPage xs g n) 4 = g ∧ word16At (mapPage xs g n) 6 = 0
    ∧ (∀ (k : Nat) (x : Extent), k < 18 → xs[n + k]? = some x → x.ReadsAt (mapPage xs g n) (8 + 28 * k) (n + k))
    ∧ ∀ i, 8 + 28 * (xs.length - n) ≤ i → byteAt (mapPage xs g n) i = 0 := by
  have htotal : word16At (mapPage xs g n) 0 = BitVec.ofNat 16 xs.length := word16At_page_of (by decide) rfl rfl
  have hcount : byteAt (mapPage xs g n) 2 = BitVec.ofNat 8 (mapRecords xs n).length := byteAt_page_of (by decide) rfl
  refine ⟨page_length _, ?_, ?_, byteAt_page_of (by decide) rfl, (word16At_page_of (by decide) rfl rfl).trans (ofNat_of_toNat g),
    word16At_page_of (n := 0) (by decide) rfl rfl, fun k x hk hx => mapPage_record hk hx, fun i hi => byteAt_page_end ?_⟩
  · rw [htotal, BitVec.toNat_ofNat]; omega
  · rw [hcount, BitVec.toNat_ofNat, mapRecords_length]; split <;> omega
  · rw [List.length_append, flatten_length mapRecords_size, mapRecords_length]
    show 8 + _ ≤ i
    split <;> omega

end map

/-- Settles O38: both map pages are the one page of extent records, of the live or of the staged map. -/
theorem mapReadsReturnRecords : Obligations.MapReadsReturnRecords := by
  intro s p v n c xs hr hm hv hn hl hc
  obtain ⟨h1, h2, h3, h4, h5, h6, h7, h8⟩ := mapPage_layout (g := (s.vol v).generation) (n := n) hl
  refine ⟨mapPage xs (s.vol v).generation n, h1, h2, h3, h4, h5, h6, h7, h8, ?_⟩
  rcases hc with ⟨rfl, ha, rfl⟩ | ⟨rfl, ha, rfl⟩
  · exact exec_page_of hr hm (pickLiveMapRead_of hv hn ha) rfl
  · exact exec_page_of hr hm (pickStagedMapRead_of hv hn ha) rfl

end Sys2Proof.Machine
end

section
/-!
CLAIM, RELEASE, DEFINE, COMMIT and REMOVE: each answers with a result block, or hands its parent to a long operation
(01 R11, R14, R16, R17, 09 R140, R143).
-/

-- The package is also compiled as one text: one proof after another keeps the number of Lean's threads small there.
set_option Elab.async false

namespace Sys2Proof.Machine

/-- A row that answers a running command with a result block, after a move that leaves the Command Table as it is (09 R137). -/
theorem exec_result_of {s t : State} {p : Parent} {pick : Parent → Option (State → State)} {g : State → State} {st : Status} {n : Nat}
    (hr : Running p s) (hp : pick p = some g) (hg : g s = answerResult p.id st n t) (h1 : t.parents = s.parents := by rfl)
    (h2 : t.nextParent = s.nextParent := by rfl) :
    Host.Outcome.next (execute pick s) = (.next (answered p st (resultBlock n) t) : Host.Outcome State Fault Refusal) :=
  congrArg Host.Outcome.next (execute_answer st _ hr hp hg h1 h2)

/-- A managed row that answers the manager with a result block (09 R137). -/
theorem exec_managed_result {s t : State} {p : Parent} {pick : Parent → Option (State → State)} {g : State → State} {st : Status} {n : Nat}
    (hr : Running p s) (hm : s.manager = some p.initiator) (hp : pick p = some (managed p g)) (hg : g s = answerResult p.id st n t)
    (h1 : t.parents = s.parents := by rfl) (h2 : t.nextParent = s.nextParent := by rfl) :
    Host.Outcome.next (execute pick s) = (.next (answered p st (resultBlock n) t) : Host.Outcome State Fault Refusal) :=
  exec_result_of hr hp ((managed_of g hm).trans hg) h1 h2

/-- A managed row whose operation is a whole move; the Control Unit then goes on (09 R136). -/
theorem exec_managed_move {s u : State} {p : Parent} {pick : Parent → Option (State → State)} {g : State → State}
    (hr : Running p s) (hm : s.manager = some p.initiator) (hp : pick p = some (managed p g)) (hg : g s = u) :
    Host.Outcome.next (execute pick s) = (.next (nextControl u) : Host.Outcome State Fault Refusal) := by
  rw [execute_eq hr hp, endExecution_eq, managed_of g hm, hg]

/-! ## CLAIM and RELEASE (09 R140) -/

section claim
variable {p : Parent} {b : Block}

theorem claimWrite_badAction (s : State) (hb : p.slots = [some b]) (h1 : byteAt b 0 ≠ 1) (h2 : byteAt b 0 ≠ 2) :
    claimWrite p s = answerResult p.id .badEntry 0 s := by
  rw [claimWrite, action_of hb, if_neg h1, if_neg h2]

theorem claimWrite_badLease (s : State) (hb : p.slots = [some b]) (h1 : byteAt b 0 = 1) (hn : 255 < (word16At b 2).toNat) :
    claimWrite p s = answerResult p.id .badEntry 0 s := by
  rw [claimWrite, action_of hb, if_pos h1, writeData_of hb, if_pos hn]

theorem claimWrite_claim (s : State) (hb : p.slots = [some b]) (h1 : byteAt b 0 = 1) (hn : (word16At b 2).toNat ≤ 255) :
    claimWrite p s = doClaim p (word16At b 2).toNat s := by
  rw [claimWrite, action_of hb, if_pos h1, writeData_of hb, if_neg (Nat.not_lt.2 hn)]

theorem claimWrite_release (s : State) (hb : p.slots = [some b]) (h2 : byteAt b 0 = 2) : claimWrite p s = doRelease p s := by
  rw [claimWrite, action_of hb, h2, if_neg (by decide), if_pos rfl]

/-- A claim by the initiator that becomes manager is a CPL, with the ALR behind it where notices wait (09 R140, R152). -/
theorem doClaim_new {s : State} (n : Nat) (hr : Running p s) (hm : s.manager = none) :
    doClaim p n s = alertNew p.initiator { withoutControl p s with
      manager := some p.initiator, lease := n, alert := .armed, leaseTimer := if n = 0 then none else some (s.now + 1000 * n)
      outbound := s.outbound ++ [.cpl (controlCpl p .good (resultBlock 0))] } := by
  rw [doClaim, hm]
  exact congrArg (alertNew p.initiator)
    (answer_eq (s := startLease { s with manager := some p.initiator, lease := n, alert := .armed }) .good _ hr.order hr.live hr.volume hr.slot)

end claim

/-- Settles O31: each clause is the branch of the CLAIM page WRITE that its action byte and the manager record name. -/
theorem claimAndReleaseFollowManagerTable : Obligations.ClaimAndReleaseFollowManagerTable := by
  rintro s p b n hr ha hb rfl
  have hact : action p = byteAt b 0 := action_of hb
  have claims : byteAt b 0 ≠ 2 → pickClaim p = some (claimWrite p) := fun h => pickClaim_of ha (hact ▸ h)
  have releases : byteAt b 0 = 2 → pickRelease p = some (claimWrite p) := fun h => pickRelease_of ha (by rw [hact, h]; decide)
  have claims1 : byteAt b 0 = 1 → pickClaim p = some (claimWrite p) := fun h => claims (by rw [h]; decide)
  refine ⟨fun h1 h2 => exec_result_of hr (claims h2) (claimWrite_badAction s hb h1 h2),
    fun h1 hn => exec_result_of hr (claims1 h1) (claimWrite_badLease s hb h1 hn), fun h1 hn => ?claim, fun h2 hm => ?release, fun h2 hm => ?notManager⟩
  case claim =>
    have hw := claimWrite_claim s hb h1 hn
    refine ⟨fun hm hq => ?quiet, fun x rest hm hq => ?alerted, fun hm => ?renewed, fun m hm hne => ?present⟩
    case quiet =>
      refine congrArg Host.Outcome.next ((execute_eq hr (claims1 h1)).trans ((endExecution_eq _).trans (congrArg nextControl (hw.trans ?_))))
      exact (doClaim_new _ hr hm).trans (if_pos hq)
    case alerted =>
      refine congrArg Host.Outcome.next ((execute_eq hr (claims1 h1)).trans ((endExecution_eq _).trans (congrArg nextControl (hw.trans ?_))))
      have hne : s.notices ≠ [] := by rw [hq]; exact List.cons_ne_nil _ _
      refine (doClaim_new _ hr hm).trans ((if_neg hne).trans ?_)
      have hold : s.oldest = x.seq := by simp only [State.oldest, hq]
      apply State.ext
      case outbound =>
        show (s.outbound ++ _) ++ [UpFrame.alr ⟨p.initiator, s.notices.length, s.oldest⟩] = _
        rw [hold, List.append_assoc]
        rfl
      all_goals rfl
    case renewed =>
      refine exec_result_of hr (claims1 h1) (hw.trans ?_)
      simp only [doClaim, hm, if_true]
      rfl
    case present =>
      refine exec_result_of hr (claims1 h1) (hw.trans ?_)
      simp only [doClaim, hm, if_neg hne]
  case release => exact exec_result_of hr (releases h2) ((claimWrite_release s hb h2).trans (if_pos hm))
  case notManager => exact exec_result_of hr (releases h2) ((claimWrite_release s hb h2).trans (if_neg hm))

/-! ## DEFINE (01 R11) -/

section define
variable {p : Parent} {v : Volume} {b : Block} {s : State} {id : ParentRef} {c : Nat} {wp : Bool}

theorem volumeWrite_badAction (s : State) (hb : p.slots = [some b]) (h1 : byteAt b 0 ≠ 1) (h2 : byteAt b 0 ≠ 2) :
    volumeWrite p v s = answerResult p.id .badEntry 0 s := by
  rw [volumeWrite, action_of hb, if_neg h1, if_neg h2]

theorem volumeWrite_badProtect (s : State) (hb : p.slots = [some b]) (h1 : byteAt b 0 = 1) (h : 1 < (byteAt b 1).toNat) :
    volumeWrite p v s = answerResult p.id .badEntry 0 s := by
  have h0 : byteAt b 1 ≠ 0 := fun e => by rw [e] at h; exact absurd h (by decide)
  have hne : byteAt b 1 ≠ 1 := fun e => by rw [e] at h; exact absurd h (by decide)
  rw [volumeWrite, action_of hb, if_pos h1, writeData_of hb, if_neg h0, if_neg hne]

/-- A DEFINE takes its write protection from byte 1 of the data (10 R160). -/
theorem volumeWrite_define (s : State) (hb : p.slots = [some b]) (h1 : byteAt b 0 = 1) (h : (byteAt b 1).toNat ≤ 1) :
    volumeWrite p v s = takeDefine p.id v (word32At b 4).toNat (byteAt b 1 == 1) s := by
  rw [volumeWrite, action_of hb, if_pos h1, writeData_of hb]
  by_cases h0 : byteAt b 1 = 0
  · rw [if_pos h0, h0]; rfl
  · have hone : byteAt b 1 = 1 := BitVec.eq_of_toNat_eq (by
      have : (byteAt b 1).toNat ≠ 0 := fun e => h0 (BitVec.eq_of_toNat_eq e)
      show _ = 1
      omega)
    rw [if_neg h0, if_pos hone, hone]; rfl

theorem volumeWrite_remove (s : State) (hb : p.slots = [some b]) (h2 : byteAt b 0 = 2) : volumeWrite p v s = takeRemove p.id v s := by
  rw [volumeWrite, action_of hb, h2, if_neg (by decide), if_pos rfl]

theorem takeDefine_zero (h : (s.vol v).state = .absent ∨ (s.vol v).state = .online) : takeDefine id v 0 wp s = answerResult id .badEntry 0 s := by
  rcases h with h | h <;> simp only [takeDefine, h, if_true]

theorem takeDefine_absent (h : (s.vol v).state = .absent) (hc : c ≠ 0) :
    takeDefine id v c wp s = answerResult id .good 0 (withVol v
      { s.vol v with state := .online, capacity := some c, writeProtected := wp, generation := 0, live := [], staged := [], longOp := none } s) := by
  simp only [takeDefine, h, if_neg hc]
  rfl

theorem takeDefine_online (h : (s.vol v).state = .online) (hc : c ≠ 0) (hl : firstBeyond c 0 (s.vol v).live = none) :
    takeDefine id v c wp s = answerResult id .good 0 (withVol v { s.vol v with capacity := some c, writeProtected := wp } s) := by
  have hset : takeDefine id v c wp s = answerResult id .good 0 (updVol v (fun r => { r with capacity := some c, writeProtected := wp }) s) := by
    simp only [takeDefine, h, if_neg hc, hl]
  exact hset

theorem takeDefine_beyond {i : Nat} (h : (s.vol v).state = .online) (hc : c ≠ 0) (hl : firstBeyond c 0 (s.vol v).live = some i) :
    takeDefine id v c wp s = answerResult id .badEntry i s := by
  simp only [takeDefine, h, if_neg hc, hl]

theorem takeDefine_inProgress (h : (s.vol v).state = .switching ∨ (s.vol v).state = .retiring) :
    takeDefine id v c wp s = answerResult id .inProgress 0 s := by
  rcases h with h | h <;> simp only [takeDefine, h]

end define

/-- Settles O33: each clause is the case of `takeDefine` that its hypotheses name. -/
theorem defineActsByVolumeState : Obligations.DefineActsByVolumeState := by
  rintro s p v b n hr hm hv ha hb rfl
  have hpick : byteAt b 0 ≠ 2 → pickDefine p = some (managed p (volumeWrite p v)) := fun h => pickDefine_of hv ha (action_of hb ▸ h)
  have hne : byteAt b 0 = 1 → byteAt b 0 ≠ 2 := fun h => by rw [h]; decide
  refine ⟨fun h1 h2 => exec_managed_result hr hm (hpick h2) (volumeWrite_badAction s hb h1 h2),
    fun h1 hp => exec_managed_result hr hm (hpick (hne h1)) (volumeWrite_badProtect s hb h1 hp), fun h1 hp => ?_⟩
  have hw := volumeWrite_define (v := v) s hb h1 hp
  refine ⟨fun h hc => ?zero, fun h hc => ?absent, fun h hc hl => ?online, fun i x h hc hx hlt hl => ?beyond, fun h => ?inProgress⟩
  case zero =>
    rw [hc] at hw
    exact exec_managed_result hr hm (hpick (hne h1)) (hw.trans (takeDefine_zero h))
  case absent => exact exec_managed_result hr hm (hpick (hne h1)) (hw.trans (takeDefine_absent h hc))
  case online => exact exec_managed_result hr hm (hpick (hne h1)) (hw.trans (takeDefine_online h hc (firstBeyond_eq_none hl)))
  case beyond =>
    have hfirst : firstBeyond (word32At b 4).toNat 0 (s.vol v).live = some i := (firstBeyond_some hx hlt hl).trans (by rw [Nat.zero_add])
    exact exec_managed_result hr hm (hpick (hne h1)) (hw.trans (takeDefine_beyond h hc hfirst))
  case inProgress => exact exec_managed_result hr hm (hpick (hne h1)) (hw.trans (takeDefine_inProgress h))

/-! ## COMMIT (01 R14, R16) -/

section commit
variable {s : State} {id : ParentRef} {v : Volume} {p : Parent}

theorem takeCommit_absent (h : (s.vol v).state = .absent) : takeCommit id v s = answerResult id .badVolume 0 s := by
  simp only [takeCommit, h]

theorem takeCommit_inProgress (h : (s.vol v).state = .switching ∨ (s.vol v).state = .retiring) :
    takeCommit id v s = answerResult id .inProgress 0 s := by
  rcases h with h | h <;> simp only [takeCommit, h]

theorem takeCommit_bad {c i : Nat} (h : (s.vol v).state = .online) (hc : (s.vol v).capacity = some c)
    (hb : firstBad c 0 [] (s.vol v).staged = some i) : takeCommit id v s = answerResult id .badEntry i s := by
  simp only [takeCommit, h, hc, Option.getD_some, hb]

theorem takeCommit_good {c : Nat} (h : (s.vol v).state = .online) (hc : (s.vol v).capacity = some c)
    (hb : firstBad c 0 [] (s.vol v).staged = none) : takeCommit id v s = startCommit id v s := by
  simp only [takeCommit, h, hc, Option.getD_some, hb]

/-- A volume that a long operation takes: its record, and its parent CONTROL_LONG (09 R138). -/
def longBegun (p : Parent) (v : Volume) (x : VolState) (o : LongOp) (s : State) : State :=
  setState p.id .controlLong (withVol v { s.vol v with state := x, longOp := some o, longParent := some p.id } s)

theorem startCommit_waits (h : (s.vol v).splitParents ≠ 0) : startCommit p.id v s = longBegun p v .switching .commit s := if_neg h

theorem startCommit_swaps (h : (s.vol v).splitParents = 0) : startCommit p.id v s = commitSwap v (longBegun p v .switching .commit s) := if_pos h

theorem longBegun_vol (x : VolState) (o : LongOp) :
    (longBegun p v x o s).vol v = { s.vol v with state := x, longOp := some o, longParent := some p.id } := put_get_self _ _ _

/-- Steps 1 to 5 of the swap, as a whole (01 R16). -/
theorem swapMaps_eq (v : Volume) (u : State) : swapMaps v u =
    { withVol v ((u.vol v).swapped (sortExtents (u.vol v).staged)) u with freeExtents := u.freeExtents + (u.vol v).live.length } := rfl

/-- An empty switch hold releases no parent (01 R16 step 6). -/
theorem releaseSwitch_empty {u : State} (h : u.switchHolds[v] = []) : releaseSwitch v u = u := by
  rw [releaseSwitch, h]
  apply State.ext
  case switchHolds =>
    show put u.switchHolds v [] = u.switchHolds
    rw [← h, put_same]
  all_goals rfl

/-- What the swap leaves of the begun commit, before the CPL (01 R16). -/
theorem swapMaps_begun : swapMaps v (longBegun p v .switching .commit s)
    = setState p.id .controlLong { withVol v ((s.vol v).swapped (sortExtents (s.vol v).staged)) s with
        freeExtents := s.freeExtents + (s.vol v).live.length } := by
  rw [swapMaps_eq, longBegun_vol]
  apply State.ext
  case volumes => exact put_put ..
  all_goals rfl

/-- The answer that ends a long operation in its own execution event, when the move behind it keeps the record of the long parent (09 R137). -/
theorem answer_longBegun {t : State} (hr : Running p s) (h1 : t.parents = s.parents) (h2 : t.nextParent = s.nextParent) :
    nextControl (answer p.id .good (resultBlock 0) (setState p.id .controlLong t)) = answered p .good (resultBlock 0) t := by
  rw [answer_long (u := setState p.id .controlLong t) .good hr (by rw [← h1]; rfl) h2]
  refine congrArg nextControl ?_
  apply State.ext
  case parents => exact congrArg (List.filter _) h1.symm
  all_goals rfl

theorem commitSwap_begun (hr : Running p s) (hh : s.switchHolds[v] = []) :
    nextControl (commitSwap v (longBegun p v .switching .commit s))
      = answered p .good (resultBlock 0) { withVol v ((s.vol v).swapped (sortExtents (s.vol v).staged)) s with
          freeExtents := s.freeExtents + (s.vol v).live.length } := by
  have hheld : (swapMaps v (longBegun p v .switching .commit s)).switchHolds[v] = [] := hh
  rw [commitSwap, longBegun_vol, releaseSwitch_empty hheld, swapMaps_begun]
  exact answer_longBegun hr rfl rfl

end commit

/-- Settles O36: validation picks the clause; a commit that meets no split parent swaps at once, and its CPL is that of a short command. -/
theorem commitValidatesThenSwitches : Obligations.CommitValidatesThenSwitches := by
  intro s p v hr hm hv ha
  have hpick := pickCommit_of (p := p) hv ha
  refine ⟨fun h => exec_managed_result hr hm hpick (takeCommit_absent h), fun h => exec_managed_result hr hm hpick (takeCommit_inProgress h),
    fun c i x h hc hx hbad hgood => ?bad, fun c h hc hgood => ⟨fun hsp => ?waits, fun hsp hh => ⟨_, sortExtents_sortedFrom _, ?swaps⟩⟩⟩
  case bad =>
    have hfirst : firstBad c 0 [] (s.vol v).staged = some i := (firstBad_some hx hbad hgood).trans (by rw [Nat.zero_add])
    exact exec_managed_result hr hm hpick (takeCommit_bad h hc hfirst)
  case waits =>
    exact exec_managed_move hr hm hpick ((takeCommit_good h hc (firstBad_eq_none hgood)).trans (startCommit_waits hsp))
  case swaps =>
    refine (exec_managed_move hr hm hpick ((takeCommit_good h hc (firstBad_eq_none hgood)).trans (startCommit_swaps hsp))).trans ?_
    exact congrArg Host.Outcome.next (commitSwap_begun hr hh)

/-! ## REMOVE (01 R17) -/

section remove
variable {s : State} {id : ParentRef} {v : Volume} {p : Parent}

theorem takeRemove_absent (h : (s.vol v).state = .absent) : takeRemove id v s = answerResult id .badVolume 0 s := by
  simp only [takeRemove, h]

theorem takeRemove_inProgress (h : (s.vol v).state = .switching ∨ (s.vol v).state = .retiring) :
    takeRemove id v s = answerResult id .inProgress 0 s := by
  rcases h with h | h <;> simp only [takeRemove, h]

theorem takeRemove_online (h : (s.vol v).state = .online) : takeRemove id v s = startRemove id v s := by
  simp only [takeRemove, h]

theorem startRemove_waits (h : (s.vol v).liveParents ≠ 0) : startRemove p.id v s = longBegun p v .retiring .remove s := if_neg h

theorem startRemove_removes (h : (s.vol v).liveParents = 0) : startRemove p.id v s = removal v (longBegun p v .retiring .remove s) := if_pos h

/-- What the removal leaves of the begun operation is what it leaves of the volume as it stood (01 R17). -/
theorem removed_begun : removed v (longBegun p v .retiring .remove s) = setState p.id .controlLong (removed v s) :=
  congrArg (setState p.id .controlLong)
    (removed_withVol (r := { s.vol v with state := .retiring, longOp := some .remove, longParent := some p.id }) rfl rfl)

theorem removal_begun (hr : Running p s) :
    nextControl (removal v (longBegun p v .retiring .remove s)) = answered p .good (resultBlock 0) (removed v s) := by
  rw [removal_eq, longBegun_vol, removed_begun]
  exact answer_longBegun hr rfl rfl

end remove

/-- Settles O37: each clause is the case of `takeRemove` that the volume's state names. -/
theorem removeRetiresOrRemovesVolume : Obligations.RemoveRetiresOrRemovesVolume := by
  intro s p v hr hm hv ha hwrote
  obtain ⟨b, hb, h2⟩ := id hwrote
  have hpick := pickRemove_of hv ha (action_ne hwrote (by decide))
  have hw := volumeWrite_remove (v := v) s hb h2
  refine ⟨fun h => exec_managed_result hr hm hpick (hw.trans (takeRemove_absent h)),
    fun h => exec_managed_result hr hm hpick (hw.trans (takeRemove_inProgress h)), fun h hl => ?waits, fun h hl => ?removes⟩
  case waits => exact exec_managed_move hr hm hpick (hw.trans ((takeRemove_online h).trans (startRemove_waits hl)))
  case removes =>
    refine (exec_managed_move hr hm hpick (hw.trans ((takeRemove_online h).trans (startRemove_removes hl)))).trans ?_
    exact congrArg Host.Outcome.next (removal_begun hr)

end Sys2Proof.Machine
end

section
/-!
The ACCESS, INITIATOR and PORT pages: what a READ returns and what a WRITE does (09 R144, R145, 05 R77, 07 R110).
-/

-- The package is also compiled as one text: one proof after another keeps the number of Lean's threads small there.
set_option Elab.async false

namespace Sys2Proof.Machine

/-! ## ACCESS (09 R144) -/

/-- Byte `v` of the ACCESS page holds the rights on volume `v`, for a volume that is not 0. -/
theorem accessPage_volume (row : Vector Rights 64) {v : Volume} (hv : v ≠ 0) : byteAt (accessPage row) v.val = BitVec.ofNat 8 (row[v]).code := by
  obtain ⟨k, rfl⟩ := Fin.exists_succ_eq.2 hv
  rw [accessPage, byteAt_page (by omega)]
  simp [byteAt]

theorem accessPage_length : (0 :: (List.finRange 63).map fun k => BitVec.ofNat 8 ((row : Vector Rights 64)[k.succ]).code).length = 64 := by
  simp

/-- A rights byte is at fault when it names no value, or gives rights on an ABSENT volume (09 R144, 10 R160). -/
theorem rightsFault_iff {b : Byte} {r : VolRec} : rightsFault b r = true ↔ 2 < b.toNat ∨ (b ≠ 0 ∧ r.state = .absent) := by
  by_cases h0 : b = 0
  · subst h0; simp [rightsFault, rightsOf]
  by_cases h1 : b = 1
  · subst h1; simp [rightsFault, rightsOf]
  by_cases h2 : b = 2
  · subst h2; simp [rightsFault, rightsOf]
  have hbig : 2 < b.toNat := by
    have e0 : b.toNat ≠ 0 := fun e => h0 (BitVec.eq_of_toNat_eq e)
    have e1 : b.toNat ≠ 1 := fun e => h1 (BitVec.eq_of_toNat_eq e)
    have e2 : b.toNat ≠ 2 := fun e => h2 (BitVec.eq_of_toNat_eq e)
    omega
  have hnone : rightsOf b = none := by rw [rightsOf, if_neg h0, if_neg h1, if_neg h2]
  simp [rightsFault, hnone, hbig]

/-- A rights byte that is not at fault (09 R144). -/
theorem rightsFault_false {b : Byte} {r : VolRec} (h : b.toNat ≤ 2 ∧ (b = 0 ∨ r.state ≠ .absent)) : rightsFault b r = false := by
  rw [Bool.eq_false_iff, Ne, rightsFault_iff]
  rintro (hb | ⟨hb, hr⟩)
  · exact absurd h.1 (Nat.not_le.2 hb)
  · exact h.2.elim hb fun hn => hn hr

/-- The code of a rights byte's value is the byte (10 section 10.4). -/
theorem rightsOf_code {b : Byte} (h : b.toNat ≤ 2) : b = BitVec.ofNat 8 ((rightsOf b).getD .none).code := by
  have hcases : b.toNat = 0 ∨ b.toNat = 1 ∨ b.toNat = 2 := by omega
  rcases hcases with e | e | e
  · obtain rfl : b = 0 := BitVec.eq_of_toNat_eq e
    rfl
  · obtain rfl : b = 1 := BitVec.eq_of_toNat_eq e
    rfl
  · obtain rfl : b = 2 := BitVec.eq_of_toNat_eq e
    rfl

theorem ofNat_code (x : Rights) : BitVec.ofNat 8 x.code = (match x with | .none => 0 | .read => 1 | .full => 2 : Byte) := by
  cases x <;> rfl

section access
variable {s : State} {b : Block}

/-- The fault that an ACCESS write names is that of the lowest volume at fault (09 R144). -/
theorem firstRightsFault_some {v : Volume} (hv : v ≠ 0) (hf : rightsFault (byteAt b v.val) (s.vol v) = true)
    (hl : ∀ u : Volume, u ≠ 0 → u < v → rightsFault (byteAt b u.val) (s.vol u) = false) : firstRightsFault b s = some v := by
  obtain ⟨k, rfl⟩ := Fin.exists_succ_eq.2 hv
  rw [firstRightsFault, List.find?_eq_some_iff_getElem]
  refine ⟨hf, k.val, by simp, by simp, fun j hj => ?_⟩
  have hlow := hl (Fin.succ ⟨j, hj.trans k.isLt⟩) (Fin.succ_ne_zero _) (Fin.succ_lt_succ_iff.2 hj)
  simpa [State.vol] using hlow

theorem firstRightsFault_none (h : ∀ v : Volume, v ≠ 0 → rightsFault (byteAt b v.val) (s.vol v) = false) : firstRightsFault b s = none := by
  rw [firstRightsFault, List.find?_eq_none]
  intro v hv
  obtain ⟨k, -, rfl⟩ := List.mem_map.1 hv
  exact Bool.eq_false_iff.1 (h k.succ (Fin.succ_ne_zero k))

theorem writeAccess_fault {p : Parent} {i : Initiator} {v : Volume} (hb : p.slots = [some b]) (h : firstRightsFault b s = some v) :
    writeAccess p i s = answerResult p.id .badEntry v.val s := by
  simp only [writeAccess, writeData_of hb, h]

theorem writeAccess_good {p : Parent} {i : Initiator} (hb : p.slots = [some b]) (h : firstRightsFault b s = none) :
    writeAccess p i s = answerResult p.id .good 0 { s with access := put s.access i (writtenRights b s.access[i]) } := by
  simp only [writeAccess, writeData_of hb, h]

theorem writeInitiator_badCredit {p : Parent} {i : Initiator} (hb : p.slots = [some b]) (h : (byteAt b 0).toNat < 1 ∨ 32 < (byteAt b 0).toNat) :
    writeInitiator p i s = answerResult p.id .badEntry 0 s := by
  rw [writeInitiator, writeData_of hb, if_pos h]

theorem writeInitiator_badFlag {p : Parent} {i : Initiator} (hb : p.slots = [some b]) (h1 : 1 ≤ (byteAt b 0).toNat) (h2 : (byteAt b 0).toNat ≤ 32)
    (h : 1 < (byteAt b 1).toNat) : writeInitiator p i s = answerResult p.id .badEntry 1 s := by
  rw [writeInitiator, writeData_of hb, if_neg (by omega), if_pos h]

theorem writeInitiator_good {p : Parent} {i : Initiator} (hb : p.slots = [some b]) (h1 : 1 ≤ (byteAt b 0).toNat) (h2 : (byteAt b 0).toNat ≤ 32)
    (h : (byteAt b 1).toNat ≤ 1) : writeInitiator p i s = answerResult p.id .good 0
      { s with initiators := put s.initiators i ⟨(byteAt b 0).toNat, byteAt b 1 == 1, s.initiators[i].liveCount⟩ } := by
  rw [writeInitiator, writeData_of hb, if_neg (by omega), if_neg (by omega)]

end access

/-- Settles O39: the pages byte by byte, and the checks of a WRITE in their order. -/
theorem accessAndInitiatorPagesReadAndWrite : Obligations.AccessAndInitiatorPagesReadAndWrite := by
  refine ⟨fun s p i hr hm => ⟨fun ha => ?accessRead, fun b ha hb => ⟨fun v hv hf hl => ?accessFault, fun h => ?accessGood⟩⟩,
    fun s p i hr hm => ⟨fun ha => ?initiatorRead, fun b ha hb => ⟨fun h => ?badCredit, fun h1 h2 h => ?badFlag, fun h1 h2 h => ?initiatorGood⟩⟩⟩
  case accessRead =>
    refine ⟨accessPage s.access[i], page_length _, byteAt_page_of (by decide) rfl, fun k hk => byteAt_page_end ?_,
      fun v hv => (accessPage_volume _ hv).trans (ofNat_code _), exec_page_of hr hm (pickAccessRead_of ha) rfl⟩
    rw [accessPage_length]
    exact hk
  case accessFault =>
    exact exec_managed_result hr hm (pickAccessWrite_of ha)
      (writeAccess_fault hb (firstRightsFault_some hv (rightsFault_iff.2 hf) fun u hu hlt => rightsFault_false (hl u hu hlt)))
  case accessGood =>
    refine ⟨writtenRights b s.access[i], (writtenRights_get b _ 0).trans (if_pos rfl), fun v hv => ?_,
      exec_managed_result hr hm (pickAccessWrite_of ha) (writeAccess_good hb (firstRightsFault_none fun v hv => rightsFault_false (h v hv)))⟩
    rw [writtenRights_get, if_neg hv]
    exact (rightsOf_code (h v hv).1).trans (ofNat_code _)
  case initiatorRead =>
    have hflag : byteAt (initiatorPage s.initiators[i]) 1 = BitVec.ofNat 8 (boolCode s.initiators[i].barred) := byteAt_page_of (by decide) rfl
    refine ⟨initiatorPage s.initiators[i], page_length _, byteAt_page_of (by decide) rfl, ?_, word16At_page_of (by decide) rfl rfl,
      fun k hk => byteAt_page_end hk, exec_page_of hr hm (pickInitiatorRead_of ha) rfl⟩
    rw [hflag]
    cases s.initiators[i].barred <;> rfl
  case badCredit => exact exec_managed_result hr hm (pickInitiatorWrite_of ha) (writeInitiator_badCredit hb h)
  case badFlag => exact exec_managed_result hr hm (pickInitiatorWrite_of ha) (writeInitiator_badFlag hb h1 h2 h)
  case initiatorGood => exact exec_managed_result hr hm (pickInitiatorWrite_of ha) (writeInitiator_good hb h1 h2 h)

/-! ## PORT (09 R145, 05 R77) -/

theorem ofNat_portCode (x : PortState) : BitVec.ofNat 8 x.code = (match x with | .down => 0 | .resetting => 1 | .up => 2 | .halted => 3 : Byte) := by
  cases x <;> rfl

theorem ofNat_haltByte (r : Option HaltReason) :
    BitVec.ofNat 8 (haltByte r) = (match r with | none => 0 | some .tagsExhausted => 1 | some .resetUnanswered => 2 : Byte) := by
  rcases r with _ | _ | _ <;> rfl

theorem parameterFault_window {w l m : Nat} (h : w < 1 ∨ 16 < w) : parameterFault w l m = some 0 := if_pos h

theorem parameterFault_limit {w l m : Nat} (h1 : 1 ≤ w) (h2 : w ≤ 16) (h : l < 10 ∨ 60000 < l) : parameterFault w l m = some 1 := by
  rw [parameterFault, if_neg (by omega), if_pos h]

theorem parameterFault_transfer {w l m : Nat} (h1 : 1 ≤ w) (h2 : w ≤ 16) (h3 : 10 ≤ l) (h4 : l ≤ 60000) (h : m < 8 ∨ 1024 < m) :
    parameterFault w l m = some 2 := by
  rw [parameterFault, if_neg (by omega), if_neg (by omega), if_pos h]

section port
variable {p : Parent} {d : Port} {s : State} {b : Block}

theorem writePort_fault {k : Nat} (hb : p.slots = [some b])
    (h : parameterFault (byteAt b 0).toNat (word16At b 4).toNat (word16At b 6).toNat = some k) : writePort p d s = answerResult p.id .badEntry k s := by
  simp only [writePort, writeData_of hb, h]

theorem writePort_good (hb : p.slots = [some b]) (h : parameterFault (byteAt b 0).toNat (word16At b 4).toNat (word16At b 6).toNat = none) :
    writePort p d s = answerResult p.id .good 0 (setParameters d (byteAt b 0).toNat (word16At b 4).toNat (word16At b 6).toNat s) := by
  simp only [writePort, writeData_of hb, h]

/-- A port record with new parameters (09 R145). -/
abbrev withParameters (w l m : Nat) (r : PortRec) : PortRec := { r with window := w, responseLimit := l, maxTransfer := m }

variable {w l m : Nat}

/-- The test of a port with a free place in its window beside the QUARANTINED tags halts nothing (07 R110). -/
theorem haltingTest_keeps {u : State} (h : (u.port d).quarantinedTags < (u.port d).window) (hs : u.subs = s.subs) : haltingTest d s u = u :=
  (if_neg fun hh => absurd hh.2 (Nat.not_le.2 h)).trans (tryIfFreed_same hs)

/-- A window that halts no port leaves the raise's issue test (05 R77). -/
theorem setParameters_kept (hq : (s.port d).state ≠ .up ∨ (s.port d).quarantinedTags < w) (hw : (s.port d).window ≠ w) :
    setParameters d w l m s = if (s.port d).window < w then issueTest d (withPort d (withParameters w l m (s.port d)) s)
      else withPort d (withParameters w l m (s.port d)) s := by
  have hport : (withPort d (withParameters w l m (s.port d)) s).port d = withParameters w l m (s.port d) := withPort_port _ _ _
  have htest : haltingTest d s (withPort d (withParameters w l m (s.port d)) s) = withPort d (withParameters w l m (s.port d)) s := by
    rcases hq with hq | hq
    · exact (haltingTest_notUp (by rw [hport]; exact hq)).trans (tryIfFreed_same rfl)
    · exact haltingTest_keeps (by rw [hport]; exact hq) rfl
  have hwritten : haltingTest d s (writeParameters d w l m s) = withPort d (withParameters w l m (s.port d)) s := htest
  rw [setParameters, if_neg hw, hwritten]

/-- A write that keeps the window, or whose issue test finds nothing to issue, only takes the three values (05 R77). -/
theorem setParameters_plain (h : (s.port d).window = w ∨ (s.port d).state ≠ .up
      ∨ ((s.port d).quarantinedTags < w ∧ (w < (s.port d).window ∨ (s.port d).occupancy ≥ w ∨ ∀ c : Sys2Proof.Class, (s.port d).queues[c] = []))) :
    setParameters d w l m s = withPort d (withParameters w l m (s.port d)) s := by
  have hport : (withPort d (withParameters w l m (s.port d)) s).port d = withParameters w l m (s.port d) := withPort_port _ _ _
  by_cases hw : (s.port d).window = w
  · exact if_pos hw
  have hkept : (s.port d).state ≠ .up ∨ (s.port d).quarantinedTags < w := (h.resolve_left hw).imp_right And.left
  rw [setParameters_kept hkept hw]
  by_cases hlt : (s.port d).window < w
  · rw [if_pos hlt]
    rcases h.resolve_left hw with hup | ⟨-, hlow | hfull | hidle⟩
    · exact issueTest_notUp (by rw [hport]; exact hup)
    · omega
    · exact issueTest_full (by rw [hport]; exact hfull)
    · exact issueTest_idle (by rw [hport]; exact hidle)
  · exact if_neg hlt

/-- A window at or below the QUARANTINED tags of an UP port halts it (07 R110), and then no raise issues anything. -/
theorem setParameters_of_halt {R : State} (hup : (s.port d).state = .up) (hw : (s.port d).window ≠ w) (hq : w ≤ (s.port d).quarantinedTags)
    (hR : haltPort d .tagsExhausted (withPort d (withParameters w l m (s.port d)) s) = R) (hstate : (R.port d).state ≠ .up)
    (hwait : R.splitWait = []) : setParameters d w l m s = R := by
  have hport : (writeParameters d w l m s).port d = withParameters w l m (s.port d) := withPort_port _ _ _
  have hpos : ((writeParameters d w l m s).port d).state = .up ∧ ((writeParameters d w l m s).port d).window ≤ ((writeParameters d w l m s).port d).quarantinedTags := by
    rw [hport]
    exact ⟨hup, hq⟩
  have htest : haltingTest d s (writeParameters d w l m s) = R :=
    (if_pos hpos).trans ((congrArg tryHeads hR).trans (tryHeads_nil hwait))
  rw [setParameters, if_neg hw, htest, issueTest_notUp hstate, ite_self]

/-- The halt of a port with nothing queued, by its window (07 R110, 08 R127). -/
theorem setParameters_halts (hup : (s.port d).state = .up) (hw : (s.port d).window ≠ w) (hq : w ≤ (s.port d).quarantinedTags)
    (hidle : ∀ c : Sys2Proof.Class, (s.port d).queues[c] = []) (hwait : s.splitWait = []) :
    setParameters d w l m s = noticed (portNotice .portHalted d none (some 1) none)
      (withPort d { withParameters w l m (s.port d) with state := .halted, reason := some .tagsExhausted, resetTimer := none } s) := by
  have hport : (withPort d (withParameters w l m (s.port d)) s).port d = withParameters w l m (s.port d) := withPort_port _ _ _
  refine setParameters_of_halt hup hw hq ?_ ?_ ((noticed_splitWait ..).trans hwait)
  · rw [haltPort_idle (by rw [hport]; exact hidle), hport]
    exact congrArg (noticed _) (withPort_upd d _ (fun r => withParameters w l m r) s)
  · rw [noticed_port, withPort_port]
    show PortState.halted ≠ .up
    decide

/-- A raise lets the one queued entry of an UP port issue at once (05 R77, R78). -/
theorem setParameters_issues {c : Sys2Proof.Class} {t : DTag} {x : SubCmd} {bs : List Block} (ho : AdmissionOrder s) (hup : (s.port d).state = .up)
    (hw : (s.port d).window < w) (hq : (s.port d).quarantinedTags < w) (hocc : (s.port d).occupancy < w) (hc : (s.port d).queues[c] = [x.id])
    (hk : ∀ k : Sys2Proof.Class, k ≠ c → (s.port d).queues[k] = []) (hx : x ∈ s.subs) (hn : s.subs.Pairwise fun y z => y.id ≠ z.id)
    (hb : Carries s x bs) (ht : (s.port d).tags[t] = .free) (hl : ∀ u : DTag, u < t → (s.port d).tags[u] ≠ .free) :
    setParameters d w l m s = issued d c 0 t x [] bs (withPort d (withParameters w l m (s.port d)) s) := by
  have hport : (withPort d (withParameters w l m (s.port d)) s).port d = withParameters w l m (s.port d) := withPort_port _ _ _
  rw [setParameters_kept (.inr hq) (Nat.ne_of_lt hw), if_pos hw]
  refine issueTest_one (by rw [hport]; exact hup) (by rw [hport]; exact hocc) (by rw [hport]; exact arbiter_one (by rw [hc]; exact List.cons_ne_nil _ _) hk)
    (by rw [hport]; exact lowestFree_eq ht hl) (by rw [hport]; exact ht) (by rw [hport]; exact hc) ho (sub_of_mem hn hx) hb (.inr ⟨rfl, ?_⟩)
  rw [hport]
  exact hk

end port

/-- Settles O40: the page byte by byte, the first parameter at fault, and the three ends of a good WRITE. -/
theorem portPageReadsAndWritesParameters : Obligations.PortPageReadsAndWritesParameters := by
  intro s p d hr hm
  refine ⟨fun ha => ⟨portPage (s.port d), page_length _, byteAt_page_of (by decide) rfl, (byteAt_page_of (by decide) rfl).trans (ofNat_portCode _),
    (byteAt_page_of (by decide) rfl).trans (ofNat_haltByte _), byteAt_page_of (by decide) rfl, word16At_page_of (by decide) rfl rfl,
    word16At_page_of (by decide) rfl rfl, fun k hk => byteAt_page_end hk, exec_page_of hr hm (pickPortRead_of ha) rfl⟩, ?_⟩
  rintro b w l m ha hb rfl rfl rfl
  have hpick := pickPortWrite_of (p := p) ha
  refine ⟨fun h => exec_managed_result hr hm hpick (writePort_fault hb (parameterFault_window h)),
    fun h1 h2 h => exec_managed_result hr hm hpick (writePort_fault hb (parameterFault_limit h1 h2 h)),
    fun h1 h2 h3 h4 h => exec_managed_result hr hm hpick (writePort_fault hb (parameterFault_transfer h1 h2 h3 h4 h)),
    fun h1 h2 h3 h4 h5 h6 => ?_⟩
  have hw := writePort_good (p := p) (d := d) (s := s) hb (parameterFault_none h1 h2 h3 h4 h5 h6)
  refine ⟨fun h => ?plain, fun c t x bs hup hlt hq hocc hc hk hx hn hcar ht hl => ?issues, fun hup hne hq hidle hwait => ?halts⟩
  case plain => exact exec_managed_result hr hm hpick (hw.trans (congrArg (answerResult p.id .good 0) (setParameters_plain h)))
  case issues =>
    exact exec_managed_result hr hm hpick
      (hw.trans (congrArg (answerResult p.id .good 0) (setParameters_issues hr.order hup hlt hq hocc hc hk hx hn hcar ht hl)))
  case halts =>
    exact exec_managed_result hr hm hpick (hw.trans (congrArg (answerResult p.id .good 0) (setParameters_halts hup hne hq hidle hwait)))
      (noticed_parents _ _) (noticed_next _ _)

end Sys2Proof.Machine
end

section
/-!
PORT RESET and FLUSH ALL (08 R128, R129, R131, 09 R147, R148).
-/

-- The package is also compiled as one text: one proof after another keeps the number of Lean's threads small there.
set_option Elab.async false

namespace Sys2Proof.Machine

/-! ## PORT RESET (08 R128, R129) -/

section portReset
variable {id : ParentRef} {d : Port} {s : State}

theorem takePortReset_down (h : (s.port d).state = .down) : takePortReset id d s = answerResult id .targetLost 0 s := by
  simp only [takePortReset, h]

theorem takePortReset_pending (h : (s.port d).state = .resetting) (hp : (s.port d).pendingReset ≠ none) :
    takePortReset id d s = answerResult id .inProgress 0 s := by
  simp only [takePortReset, h, if_neg hp]

theorem takePortReset_attaches (h : (s.port d).state = .resetting) (hp : (s.port d).pendingReset = none) :
    takePortReset id d s = attachReset id d s := by
  simp only [takePortReset, h, if_pos hp]

theorem takePortReset_begins (h : (s.port d).state = .up ∨ (s.port d).state = .halted) :
    takePortReset id d s = tryHeads (attachReset id d (beginReset d s)) := by
  rcases h with h | h <;> simp only [takePortReset, h]

/-- A reset begun with no tag ISSUED, with the request attached to it (08 R128, R129). -/
theorem attachReset_begun (ht : ∀ t : DTag, (s.port d).tags[t].isIssued = false) :
    attachReset id d (beginReset d s) = { withPort d
      { s.port d with state := .resetting, reason := none, tags := Vector.replicate 16 .free, attempts := 1,
                      resetTimer := some (s.now + (s.port d).responseLimit), pendingReset := some id } s with
      sent := s.sent ++ [.down d .trst]
      parents := s.parents.map fun q => if q.id = id then { q with state := .controlLong } else q } := by
  rw [beginReset_idle ht, attachReset_eq]
  apply State.ext
  case ports =>
    exact put_put_get s.ports d { s.port d with state := .resetting, reason := none, tags := Vector.replicate 16 .free, attempts := 1,
                                                resetTimer := some (s.now + (s.port d).responseLimit) } fun r => { r with pendingReset := some id }
  all_goals rfl

end portReset

/-- Settles O41: each clause is the case of `takePortReset` that the port's state names. -/
theorem portResetActsByPortState : Obligations.PortResetActsByPortState := by
  intro s p d hr hm ha
  have hpick := pickPortReset_of (p := p) ha
  refine ⟨fun h => exec_managed_result hr hm hpick (takePortReset_down h), fun h hp => exec_managed_result hr hm hpick (takePortReset_pending h hp),
    fun h hp => exec_managed_move hr hm hpick (takePortReset_attaches h hp), fun h ht => exec_managed_move hr hm hpick ?begins⟩
  case begins => rw [takePortReset_begins h, attachReset_begun ht]

/-! ## FLUSH ALL (09 R147, R148) -/

section flushAll
variable {s : State} {p : Parent}

theorem doFlushAll_busy {id : ParentRef} (h : s.flush ≠ none) : doFlushAll id s = answerResult id .inProgress 0 s :=
  if_pos (Option.isSome_iff_ne_none.2 h)

/-- The state in which the record of a new flush-all is made (09 R147 step 1). -/
def flushOpened (p : Parent) (s : State) : State := { s with flush := some { op := p.id, parent := some p.id, awaited := [] } }

theorem doFlushAll_new (h : s.flush = none) : doFlushAll p.id s = tryIfFreed s (flushSteps p.id (flushOpened p s)) :=
  if_neg (by rw [h]; decide)

/-- The end test of a flush that awaits no port ends the flush (09 R148). -/
theorem flushEndTest_empty {t : State} {f : FlushRec} (h : t.flush = some f) (ha : f.awaited = []) :
    flushEndTest t = finishLong f.parent .good { t with flush := none } := by
  simp only [flushEndTest, h, if_pos ha]

theorem flushEndTest_awaits {t : State} {f : FlushRec} (h : t.flush = some f) (ha : f.awaited ≠ []) : flushEndTest t = t := by
  simp only [flushEndTest, h, if_neg ha]

/-- With no live data parent, and every port DOWN or RESETTING, a flush-all only joins the flush waiters (09 R147 steps 2 and 3). -/
theorem flush_waits (hc : ∀ q ∈ s.parents, q.volume = 0) (hd : ∀ d : Port, (s.port d).state = .down ∨ (s.port d).state = .resetting) :
    (List.finRange 4).foldl (takeFlushRequest p.id) ((flushOpened p s).parents.foldl flushParent (flushOpened p s))
      = { s with
          ports := waitedPorts (List.finRange 4) p.id s
          flush := some ⟨p.id, some p.id, (List.finRange 4).filter fun d => (s.port d).state == .resetting⟩ } := by
  rw [flushParent_control (s := flushOpened p s) (l := (flushOpened p s).parents) hc,
    takeFlushRequest_waits _ (flushOpened p s) (List.nodup_finRange 4) fun d _ => hd d]
  rfl

theorem waitedPorts_down {op : ParentRef} (hd : ∀ d : Port, (s.port d).state = .down) : waitedPorts (List.finRange 4) op s = s.ports := by
  apply vector_ext
  intro d
  have hdown : s.ports[d].state = .down := hd d
  rw [waitedPorts, ofFn_port, if_neg]
  rw [hdown]
  exact fun h => absurd h.2 (by decide)

theorem waitedPorts_all {op : ParentRef} : waitedPorts (List.finRange 4) op s
    = s.ports.map fun r => if r.state = .resetting then { r with flushWaiters := r.flushWaiters ++ [op] } else r := by
  apply vector_ext
  intro d
  rw [waitedPorts, ofFn_port]
  simp

theorem resetPorts_all {op : ParentRef} : resetPorts (List.finRange 4) op s = s.ports.map (resetPort s.now op) := by
  apply vector_ext
  intro d
  rw [resetPorts, ofFn_port, if_pos (List.mem_finRange d)]
  simp

/-- A flush-all with no live data parent and every port DOWN ends at once (09 R148). -/
theorem doFlushAll_ends (hr : Running p s) (hf : s.flush = none) (hc : ∀ q ∈ s.parents, q.volume = 0) (hd : ∀ d : Port, (s.port d).state = .down) :
    nextControl (doFlushAll p.id s) = answered p .good (resultBlock 0) s := by
  have hnone : ((List.finRange 4).filter fun d => (s.port d).state == .resetting) = [] :=
    List.filter_eq_nil_iff.2 fun d _ => by rw [hd d]; decide
  have hsteps : flushSteps p.id (flushOpened p s) = answer p.id .good (resultBlock 0) (setState p.id .controlLong s) := by
    rw [flushSteps, flush_waits hc fun d => .inl (hd d), hnone, waitedPorts_down hd]
    refine (flushEndTest_empty (f := ⟨p.id, some p.id, []⟩) rfl rfl).trans (congrArg (answer p.id .good (resultBlock 0)) ?_)
    apply State.ext
    case flush => exact hf.symm
    all_goals rfl
  have hsubs : (answer p.id .good (resultBlock 0) (setState p.id .controlLong s)).subs = s.subs := by
    rw [answer_long (u := setState p.id .controlLong s) .good hr rfl rfl]; rfl
  rw [doFlushAll_new hf, hsteps, tryIfFreed_same hsubs]
  exact answer_longBegun hr rfl rfl

/-- A flush-all with no live data parent waits for the ports that are RESETTING (09 R147). -/
theorem doFlushAll_waits (hf : s.flush = none) (hc : ∀ q ∈ s.parents, q.volume = 0)
    (hd : ∀ d : Port, (s.port d).state = .down ∨ (s.port d).state = .resetting) (hone : ∃ d : Port, (s.port d).state = .resetting) :
    doFlushAll p.id s = setState p.id .controlLong { s with
      flush := some ⟨p.id, some p.id, (List.finRange 4).filter fun d => (s.port d).state == .resetting⟩
      ports := s.ports.map fun r => if r.state = .resetting then { r with flushWaiters := r.flushWaiters ++ [p.id] } else r } := by
  obtain ⟨d, hres⟩ := hone
  have hsome : ((List.finRange 4).filter fun d => (s.port d).state == .resetting) ≠ [] :=
    List.ne_nil_of_mem (List.mem_filter.2 ⟨List.mem_finRange d, by rw [hres]; rfl⟩)
  rw [doFlushAll_new hf, flushSteps, flush_waits hc hd, waitedPorts_all]
  exact (tryIfFreed_same (congrArg State.subs (flushEndTest_awaits rfl hsome))).trans (flushEndTest_awaits rfl hsome)

/-- The part after the abort of a parent in ORDER_WAIT: it is out of its hold, and completed ABORTED (07 R117). -/
def orderAborted (q : Parent) (t : State) : State :=
  { freed q t with
    holds := put t.holds q.volume (t.holds[q.volume].filter fun h => h.parent ≠ q.id)
    outbound := t.outbound ++ [.cpl (commandCpl q .aborted none q.count [])] }

theorem abortParent_orderWait {q : Parent} {t : State} (ho : AdmissionOrder t) (hq : q ∈ t.parents) (hs : q.state = .orderWait) :
    abortParent q t = orderAborted q t := by
  have hleave : leaveWait q t = { t with holds := put t.holds q.volume (t.holds[q.volume].filter fun h => h.parent ≠ q.id) } := by
    simp only [leaveWait, hs, filter_holds]
  rw [abortParent_waiting ho hq (.inr (.inl hs)), hleave]
  rfl

theorem parents_nodup {t : State} (ho : AdmissionOrder t) : t.parents.Nodup :=
  ho.1.imp fun hlt => fun e => absurd (e ▸ hlt) (Nat.lt_irrefl _)

end flushAll

/-- Settles O42: the aborts leave the ports alone and the requests leave the parents alone, so both parts are read off one after the other. -/
theorem flushAllAbortsResetsAndWaits : Obligations.FlushAllAbortsResetsAndWaits := by
  refine ⟨fun s p hr hm ha => ⟨fun hf => ?busy, fun hf hc hd => ?ends, fun hf hc hd hone => ?waits⟩,
    fun s p q hr hm ha hf hw hq hv hs hone hup => ?aborts⟩
  case busy => exact exec_managed_result hr hm (pickFlushAll_of ha) (doFlushAll_busy hf)
  case ends =>
    exact (exec_managed_move hr hm (pickFlushAll_of ha) rfl).trans (congrArg Host.Outcome.next (doFlushAll_ends hr hf hc hd))
  case waits => exact exec_managed_move hr hm (pickFlushAll_of ha) (doFlushAll_waits hf hc hd hone)
  case aborts =>
    refine exec_managed_move hr hm (pickFlushAll_of ha) ?_
    have hlive : (flushOpened p s).parents.foldl flushParent (flushOpened p s) = abortParent q (flushOpened p s) :=
      flushParent_one (parents_nodup hr.order) hq hv hone
    have habort := abortParent_orderWait (t := flushOpened p s) hr.order hq hs
    rw [doFlushAll_new hf, flushSteps, hlive, habort,
      takeFlushRequest_resets _ (orderAborted q (flushOpened p s)) (List.nodup_finRange 4) (fun d _ => hup d) hw]
    have hawaits : ([] ++ List.finRange 4 : List Port) ≠ [] := by decide
    refine (congrArg (tryIfFreed s) (flushEndTest_awaits rfl hawaits)).trans ((tryIfFreed_nil (by exact hw)).trans ?_)
    apply State.ext
    case ports => exact resetPorts_all
    all_goals rfl

end Sys2Proof.Machine
end

section
/-!
Free reports: what the Map Unit and the Order Unit do with one (01 R9, R16, R17, 03 R44, 04 R70).
-/

-- The package is also compiled as one text: one proof after another keeps the number of Lean's threads small there.
set_option Elab.async false

namespace Sys2Proof.Machine

/-! ## The Map Unit (01 R9) -/

section map
variable {s u : State} {k : Nat} {r : MapReport}

/-- The record of a volume after a free report has lowered its counts (01 R9). -/
abbrev loweredVol (r : MapReport) (x : VolRec) : VolRec :=
  { x with liveParents := x.liveParents - 1, splitParents := if r.split then x.splitParents - 1 else x.splitParents }

/-- The part after a free report is taken and the counts are lowered, before what that ends (01 R9). -/
def lowered (k : Nat) (r : MapReport) (s : State) : State :=
  { withVol r.volume (loweredVol r (s.vol r.volume)) s with mapReports := s.mapReports.eraseIdx k }

theorem exec_freeReportMap (h : s.mapReports[k]? = some r) : exec (.freeReportMap k) s = .next (endWaits r (lowered k r s)) := by
  have htake : takeMapReportAt k s = takeMapReport r { s with mapReports := s.mapReports.eraseIdx k } := by
    simp only [takeMapReportAt, h]
  exact congrArg Host.Outcome.next htake

theorem lowered_vol : (lowered k r s).vol r.volume = loweredVol r (s.vol r.volume) := put_get_self _ _ _

theorem endWaits_swaps (hs : (u.vol r.volume).state = .switching) (hr : r.split = true) (h0 : (u.vol r.volume).splitParents = 0) :
    endWaits r u = commitSwap r.volume u := by
  simp only [endWaits, hs, hr, h0, and_self, if_true]

theorem endWaits_removes (hs : (u.vol r.volume).state = .retiring) (h0 : (u.vol r.volume).liveParents = 0) :
    endWaits r u = removal r.volume u := by
  simp only [endWaits, hs, h0, if_true]

theorem endWaits_none (hc : ¬((u.vol r.volume).state = .switching ∧ r.split = true ∧ (u.vol r.volume).splitParents = 0))
    (hm : ¬((u.vol r.volume).state = .retiring ∧ (u.vol r.volume).liveParents = 0)) : endWaits r u = u := by
  unfold endWaits
  cases hs : (u.vol r.volume).state
  case absent | online => rfl
  case switching => exact if_neg fun h => hc ⟨hs, h⟩
  case retiring => exact if_neg fun h => hm ⟨hs, h⟩

/-- The part after the maps of a volume have been swapped by a free report, the parents of its switch hold still to come (01 R16, 04 R70). -/
abbrev reportSwapped (k : Nat) (v : Volume) (s : State) : State :=
  { withVol v { (s.vol v).swapped (sortExtents (s.vol v).staged) with liveParents := (s.vol v).liveParents - 1, splitParents := 0 } s with
    freeExtents := s.freeExtents + (s.vol v).live.length, mapReports := s.mapReports.eraseIdx k }

/-- The same part with the switch hold emptied, before its parents arrive at the split stage (04 R70). -/
def reportEmptied (k : Nat) (v : Volume) (s : State) : State := { reportSwapped k v s with switchHolds := put s.switchHolds v [] }

theorem reportEmptied_vol (k : Nat) (v : Volume) (s : State) : (reportEmptied k v s).vol v =
    { (s.vol v).swapped (sortExtents (s.vol v).staged) with liveParents := (s.vol v).liveParents - 1, splitParents := 0 } := put_get_self _ _ _

theorem swapMaps_lowered (hr : r.split = true) (h1 : (s.vol r.volume).splitParents = 1) :
    swapMaps r.volume (lowered k r s) = reportSwapped k r.volume s := by
  rw [swapMaps_eq, lowered_vol]
  apply State.ext
  case volumes =>
    refine (put_put ..).trans (congrArg (put s.volumes r.volume) ?_)
    simp only [VolRec.swapped, hr, h1, if_true, Nat.sub_self]
  all_goals rfl

/-- The report that lowers the split parent count of a SWITCHING volume to 0 takes the swap (01 R16). -/
theorem exec_freeReport_swaps (h : s.mapReports[k]? = some r) (hs : (s.vol r.volume).state = .switching) (hr : r.split = true)
    (h1 : (s.vol r.volume).splitParents = 1) :
    exec (.freeReportMap k) s = .next (finishLong (s.vol r.volume).longParent .good (releaseSwitch r.volume (reportSwapped k r.volume s))) := by
  have hvol := lowered_vol (k := k) (r := r) (s := s)
  have hstate : ((lowered k r s).vol r.volume).state = .switching := by rw [hvol]; exact hs
  have hzero : ((lowered k r s).vol r.volume).splitParents = 0 := by
    rw [hvol]
    simp only [hr, h1, if_true, Nat.sub_self]
  rw [exec_freeReportMap h, endWaits_swaps hstate hr hzero, commitSwap, swapMaps_lowered hr h1, hvol]

/-- The report that lowers the live parent count of a RETIRING volume to 0 takes the removal (01 R17). -/
theorem exec_freeReport_removes (h : s.mapReports[k]? = some r) (hs : (s.vol r.volume).state = .retiring) (h1 : (s.vol r.volume).liveParents = 1) :
    exec (.freeReportMap k) s
      = .next (finishLong (s.vol r.volume).longParent .good { removed r.volume s with mapReports := s.mapReports.eraseIdx k }) := by
  have hvol := lowered_vol (k := k) (r := r) (s := s)
  have hstate : ((lowered k r s).vol r.volume).state = .retiring := by rw [hvol]; exact hs
  have hzero : ((lowered k r s).vol r.volume).liveParents = 0 := by
    rw [hvol]
    show (s.vol r.volume).liveParents - 1 = 0
    rw [h1]
  have hremoved : removed r.volume (lowered k r s) = { removed r.volume s with mapReports := s.mapReports.eraseIdx k } :=
    removed_withVol (v := r.volume) (r := loweredVol r (s.vol r.volume)) (s := { s with mapReports := s.mapReports.eraseIdx k }) rfl rfl
  rw [exec_freeReportMap h, endWaits_removes hstate hzero, removal_eq, hvol, hremoved]

end map

/-- The long operation of a volume ends with the CPL of its parent, where it has one (09 R137). -/
theorem finishLong_for {s : State} {o : Option Parent} (st : Status) (h : ∀ p, o = some p → LongParent p s) :
    finishLong (o.map Parent.id) st s = longEndedFor o st s := by
  cases o with
  | none => rfl
  | some p => exact finishLong_eq st (h p rfl) rfl rfl

/-- Settles O43: a report ends no wait, the wait of a commit, or the wait of a removal. -/
theorem freeReportLowersCountsAndEndsWaits : Obligations.FreeReportLowersCountsAndEndsWaits := by
  refine ⟨fun s k r h hc hm => ?none, ?_⟩
  case none =>
    have hvol := lowered_vol (k := k) (r := r) (s := s)
    rw [exec_freeReportMap h, endWaits_none]
    · rfl
    · rw [hvol]
      rintro ⟨hs, hr, h0⟩
      simp only [hr, if_true] at h0
      exact hc ⟨hs, hr, by omega⟩
    · rw [hvol]
      rintro ⟨hs, h0⟩
      simp only at h0
      exact hm ⟨hs, by omega⟩
  rintro s k r v h rfl
  refine ⟨fun hs hr h1 hh => ⟨_, sortExtents_sortedFrom _, ?_⟩,
    fun o held hs hr h1 hv hlive ho hsub hlong hparent hheld hpw hin => ⟨_, sortExtents_sortedFrom _, fun t ht => ?held⟩, fun hs h1 => ?_⟩
  · have hempty : releaseSwitch r.volume (reportSwapped k r.volume s) = reportSwapped k r.volume s := releaseSwitch_empty hh
    rw [exec_freeReport_swaps h hs hr h1, hempty]
    exact ⟨fun hl => by rw [hl]; rfl, fun p hp hl => by rw [hl]; exact congrArg Host.Outcome.next (finishLong_eq .good hp rfl rfl)⟩
  case held =>
    have hsound := (hlive r.volume).validated hs
    obtain ⟨harrive, hto, hkept⟩ := arriveAll_eq (v := r.volume) (ps := held) (t := t) (s := reportEmptied k r.volume s) ho hsub
      (hpw.imp fun hlt => Nat.ne_of_lt hlt) hin
      (by rw [reportEmptied_vol]; exact fun e => nomatch e)
      (by rw [reportEmptied_vol]; exact (sortExtents_sortedFrom _).2)
      (by rw [reportEmptied_vol]; exact ((sortExtents_sortedFrom _).1.pairwise_iff Extent.Apart.symm).2 hsound.1) ht
    have hrelease : releaseSwitch r.volume (reportSwapped k r.volume s) = t := by
      refine Eq.trans ?_ harrive
      rw [← hheld]
      rfl
    rw [exec_freeReport_swaps h hs hr h1, hrelease, hlong, finishLong_for .good]
    intro p hp
    obtain ⟨hpo, hpl, hpv, hps⟩ := hparent p hp
    refine ⟨hto, hkept p hpl fun q hq e => ?_, hpv, hps⟩
    obtain ⟨hql, hqv⟩ := hin q hq
    exact hv (hqv.symm.trans ((congrArg Parent.volume (parent_unique ho hpl hql e)).symm.trans hpv))
  · rw [exec_freeReport_removes h hs h1]
    exact ⟨fun hl => by rw [hl]; rfl, fun p hp hl => by rw [hl]; exact congrArg Host.Outcome.next (finishLong_eq .good hp rfl rfl)⟩

/-! ## The Order Unit (03 R44) -/

section order
variable {s : State} {k : Nat} {r : OrderReport}

theorem exec_freeReportOrder (h : s.orderReports[k]? = some r) :
    exec (.freeReportOrder k) s = .next (takeOrderReport r { s with orderReports := s.orderReports.eraseIdx k }) := by
  have htake : takeOrderReportAt k s = takeOrderReport r { s with orderReports := s.orderReports.eraseIdx k } := by
    simp only [takeOrderReportAt, h]
  exact congrArg Host.Outcome.next htake

/-- A free report after which every hold of the volume stays only takes its entry from the list (03 R44). -/
theorem takeOrderReport_allStay (h : ∀ x ∈ s.holds[r.volume], holdPasses s (s.ranges[r.volume].filter fun e => e.parent != r.parent) x = false) :
    takeOrderReport r s = { s with ranges := put s.ranges r.volume (s.ranges[r.volume].filter fun x => x.parent ≠ r.parent) } := by
  have hnone : s.holds[r.volume].filter (holdPasses s (s.ranges[r.volume].filter fun e => e.parent != r.parent)) = [] :=
    List.filter_eq_nil_iff.2 fun x hx => by rw [h x hx]; decide
  have hall : (s.holds[r.volume].filter fun x => !holdPasses s (s.ranges[r.volume].filter fun e => e.parent != r.parent) x) = s.holds[r.volume] :=
    List.filter_eq_self.2 fun x hx => by rw [h x hx]; rfl
  rw [takeOrderReport, hnone, hall, put_same, filter_entries]
  rfl

/-- A free report that lets the one hold of the volume pass releases its parent (03 R44). -/
theorem takeOrderReport_onePasses {x : Hold} (hx : s.holds[r.volume] = [x])
    (h : holdPasses s (s.ranges[r.volume].filter fun e => e.parent != r.parent) x = true) :
    takeOrderReport r s = release x.parent { s with
      ranges := put s.ranges r.volume (s.ranges[r.volume].filter fun x => x.parent ≠ r.parent), holds := put s.holds r.volume [] } := by
  rw [takeOrderReport, hx, List.filter_cons_of_pos h, List.filter_cons_of_neg (by rw [h]; decide), filter_entries]
  rfl

/-- What stands before an entry of a list that is in admission order was admitted before it (03 R40). -/
theorem earlier_lt {l : List RangeEntry} {id : ParentRef} (hs : l.Pairwise fun x y => x.parent < y.parent) {x : RangeEntry} (hx : x ∈ l)
    (hid : x.parent = id) : ∀ y ∈ earlier id l, y ∈ l ∧ y.parent < id := by
  induction l with
  | nil => exact absurd hx List.not_mem_nil
  | cons a l ih =>
    obtain ⟨hfirst, hrest⟩ := List.pairwise_cons.1 hs
    intro y hy
    by_cases ha : a.parent = id
    · rw [earlier, List.takeWhile_cons_of_neg (by simpa using ha)] at hy
      exact absurd hy List.not_mem_nil
    · have hxl : x ∈ l := (List.mem_cons.1 hx).resolve_left fun e => ha (e ▸ hid)
      rw [earlier, List.takeWhile_cons_of_pos (by simpa using ha)] at hy
      rcases List.mem_cons.1 hy with rfl | hy
      · exact ⟨List.mem_cons_self .., hid ▸ hfirst x hxl⟩
      · obtain ⟨hmem, hlt⟩ := ih hrest hxl y hy
        exact ⟨List.mem_cons_of_mem _ hmem, hlt⟩

/-- The one entry of a parent in a list in admission order (03 R40). -/
theorem find_entry {l : List RangeEntry} {x : RangeEntry} (hs : l.Pairwise fun x y => x.parent < y.parent) (hx : x ∈ l) :
    l.find? (fun e => e.parent == x.parent) = some x := by
  induction l with
  | nil => exact absurd hx List.not_mem_nil
  | cons a l ih =>
    obtain ⟨hfirst, hrest⟩ := List.pairwise_cons.1 hs
    rcases List.mem_cons.1 hx with rfl | hx
    · exact List.find?_cons_of_pos (by simp)
    · rw [List.find?_cons_of_neg (by simpa using Nat.ne_of_lt (hfirst x hx))]
      exact ih hrest hx

/-- A range hold without an earlier conflict passes its re-test (03 R44). -/
theorem holdPasses_range {l : List RangeEntry} {x : RangeEntry} (hs : l.Pairwise fun x y => x.parent < y.parent) (hx : x ∈ l)
    (hfree : ∀ y ∈ l, y.parent < x.parent → ¬(x.start < y.start + y.count ∧ y.start < x.start + x.count ∧ (x.op = .write ∨ y.op = .write))) :
    holdPasses s l ⟨x.parent, .range⟩ = true := by
  have hheld : rangeHeld l x.parent = false := by
    rw [rangeHeld, find_entry hs hx, List.any_eq_false]
    intro y hy
    obtain ⟨hmem, hlt⟩ := earlier_lt hs hx rfl y hy
    rw [conflicts_iff]
    exact hfree y hmem hlt
  show (!rangeHeld l x.parent) = true
  rw [hheld]; rfl

/-- A parent that is no DRAIN is released to the split stage as it is (03 R51). -/
theorem enterPhase2_other {u : State} {p : Parent} (ho : AdmissionOrder u) (hp : p ∈ u.parents) (hop : p.op ≠ .drain) : enterPhase2 p.id u = u := by
  apply State.ext
  case parents =>
    refine (List.map_congr_left fun q hq => ?_).trans (List.map_id _)
    by_cases e : q.id = p.id
    · obtain rfl : q = p := parent_unique ho hq hp e
      show (if q.id = q.id then _ else q) = q
      rw [if_pos rfl]
      exact if_neg hop
    · exact if_neg e
  all_goals rfl

/-- A parent of a SWITCHING volume that arrives at the split stage goes into the empty switch hold (04 R70). -/
theorem arrive_switching {u : State} {p : Parent} (ho : AdmissionOrder u) (hp : p ∈ u.parents) (hs : (u.vol p.volume).state = .switching)
    (hh : u.switchHolds[p.volume] = []) :
    arrive p.id u = setState p.id .switchWait { u with switchHolds := put u.switchHolds p.volume [p.id] } := by
  have hv : verdict u p = .switching := if_pos hs
  simp only [arrive, find?_of_order ho hp, hv, holdSwitch, hh]
  rfl

/-- A parent of a SWITCHING volume, released from its hold, goes into the empty switch hold (03 R44, 04 R70). -/
theorem release_switching {u : State} {p : Parent} (ho : AdmissionOrder u) (hp : p ∈ u.parents) (hop : p.op ≠ .drain)
    (hs : (u.vol p.volume).state = .switching) (hh : u.switchHolds[p.volume] = []) :
    release p.id u = setState p.id .switchWait { u with switchHolds := put u.switchHolds p.volume [p.id] } := by
  rw [release, enterPhase2_other ho hp hop, arrive_switching ho hp hs hh]

end order

/-- Settles O44: the re-test of a hold that still conflicts fails, and that of one that no longer does passes. -/
theorem freeReportReTestsHolds : Obligations.FreeReportReTestsHolds := by
  rintro s k ⟨v, gone⟩ _ ho h rfl
  refine ⟨fun hall => ?stay, fun p hp hpv hv hop hone hfree hs hsw => ?pass⟩
  case stay =>
    rw [exec_freeReportOrder h, takeOrderReport_allStay]
    intro x hx
    show holdPasses s _ x = false
    exact holdPasses_false ho (hall x hx)
  case pass =>
    obtain rfl : p.volume = v := hpv
    have hkept : (⟨p.id, p.op, p.start, p.count⟩ : RangeEntry) ∈ s.ranges[p.volume].filter fun e => e.parent != gone :=
      List.mem_filter.2 ⟨ho.listed p hp hv hop, bne_iff_ne.2 ((ho.reported _ (List.mem_of_getElem? h)).2 p hp)⟩
    have hpass := holdPasses_range (s := { s with orderReports := s.orderReports.eraseIdx k }) ((ho.sorted p.volume).filter _) hkept
      fun y hy hlt => hfree y (List.mem_filter.1 hy).1 (bne_iff_ne.1 (List.mem_filter.1 hy).2) hlt
    have hrelease := takeOrderReport_onePasses (r := ⟨p.volume, gone⟩) (s := { s with orderReports := s.orderReports.eraseIdx k }) hone hpass
    rw [exec_freeReportOrder h, hrelease]
    exact congrArg Host.Outcome.next (release_switching (p := p) ho.admission hp hop hs hsw)

end Sys2Proof.Machine
end

section
/-!
The reset exchange of a port: its link events, its timer, its TRDY, and the TCPLs that carry no result
(07 R111 to R113, 08 R123 to R126, R130, R131).
-/

-- The package is also compiled as one text: one proof after another keeps the number of Lean's threads small there.
set_option Elab.async false

namespace Sys2Proof.Machine

/-! ## Port operations on a record that is known -/

section port
variable {s u : State} {d : Port} {r : PortRec} {b : NoticeBody}

/-- A TRST sent from a port whose record is known (08 R123, R126). -/
theorem sendTrst_withPort (n : Nat) : sendTrst d n (withPort d r s) =
    { withPort d { r with attempts := n, resetTimer := some (s.now + r.responseLimit) } s with sent := s.sent ++ [.down d .trst] } := by
  rw [sendTrst, updPort_withPort]
  rfl

theorem updPort_longEnded (d : Port) (g : PortRec → PortRec) (p : Parent) (st : Status) (u : State) :
    updPort d g (longEnded p st u) = longEnded p st (updPort d g u) := rfl

theorem updPort_withFlush (d : Port) (g : PortRec → PortRec) (f : Option FlushRec) (u : State) :
    updPort d g { u with flush := f } = { updPort d g u with flush := f } := rfl

/-- The end of a pending management reset and of the flush waiters, where a port has neither (08 R130, R131). -/
theorem endWaiters_none {st : Status} (hp : r.pendingReset = none) (hw : r.flushWaiters = []) :
    endFlushWaiters d (endManagementReset d st (noticed b (withPort d r s))) = noticed b (withPort d r s) := by
  have hport : (noticed b (withPort d r s)).port d = r := (noticed_port ..).trans (withPort_port ..)
  rw [endManagementReset_none (s := s) (by rw [hport]; exact hp), endFlushWaiters_nil (by rw [hport]; exact hw)]

/-- The end of a pending management reset, where the port has no flush waiter (08 R130). -/
theorem endWaiters_reset {st : Status} {p : Parent} (h : LongParent p s) (hp : r.pendingReset = some p.id) (hw : r.flushWaiters = []) :
    endFlushWaiters d (endManagementReset d st (noticed b (withPort d r s)))
      = longEnded p st (noticed b (withPort d { r with pendingReset := none } s)) := by
  rw [endManagementReset_some h hp, endFlushWaiters_nil]
  rw [longEnded_port, noticed_port, withPort_port]
  exact hw

end port

/-! ## The link and the reset timer (08 R123, R126) -/

section timer
variable {s : State} {d : Port}

theorem takeLinkUp_down (h : (s.port d).state = .down) :
    takeLinkUp d s = sendTrst d 1 (withPort d { s.port d with state := .resetting, reason := none } s) := if_pos h

theorem resetTimerDue_of {t : Nat} (hs : (s.port d).state = .resetting) (ht : (s.port d).resetTimer = some t) (hle : t ≤ s.now) :
    resetTimerDue d s = true := by
  simp [resetTimerDue, hs, ht, hle]

theorem takeResetTimer_retries (hd : resetTimerDue d s = true) (ha : (s.port d).attempts < 3) :
    takeResetTimer d s = sendTrst d ((s.port d).attempts + 1) s := by
  rw [takeResetTimer, if_pos hd, if_pos ha]

/-- The third expiry halts a port with nothing queued, and what waits for it is told (08 R126). -/
theorem takeResetTimer_fails (hd : resetTimerDue d s = true) (ha : (s.port d).attempts = 3) (hq : ∀ c : Sys2Proof.Class, (s.port d).queues[c] = []) :
    takeResetTimer d s = tryHeads (endFlushWaiters d (endManagementReset d .targetTimeout (noticed (portNotice .portHalted d none (some 2) none)
      (withPort d { s.port d with state := .halted, reason := some .resetUnanswered, resetTimer := none } s)))) := by
  rw [takeResetTimer, if_pos hd, if_neg (by omega), resetFailed, haltPort_idle hq]
  rfl

end timer

/-- Settles O46: a TRST for the link and the first two expiries; the third halts the port. -/
theorem resetExchangeSendsTrstAndHalts : Obligations.ResetExchangeSendsTrstAndHalts := by
  refine fun s d => ⟨fun h => ?linkUp, fun t hs ht hle => ⟨fun ha => ?again, fun ha hq hw => ⟨fun hp => ?halts, fun p hl hp => ?ends⟩⟩⟩
  case linkUp =>
    refine congrArg Host.Outcome.next ((takeLinkUp_down h).trans ?_)
    rw [sendTrst_withPort]
  case again => exact congrArg Host.Outcome.next (takeResetTimer_retries (resetTimerDue_of hs ht hle) ha)
  case halts =>
    refine congrArg Host.Outcome.next ((takeResetTimer_fails (resetTimerDue_of hs ht hle) ha hq).trans (congrArg tryHeads ?_))
    exact endWaiters_none hp hw
  case ends =>
    refine congrArg Host.Outcome.next ((takeResetTimer_fails (resetTimerDue_of hs ht hle) ha hq).trans (congrArg tryHeads ?_))
    exact endWaiters_reset hl hp hw

/-! ## The loss of the link (08 R124) -/

section loss
variable {s : State} {d : Port}

/-- The loss of the link of a port with no tag ISSUED and nothing queued, up to what waits for it (08 R124). -/
theorem losePort_idle (ht : ∀ t : DTag, (s.port d).tags[t].isIssued = false) (hq : ∀ c : Sys2Proof.Class, (s.port d).queues[c] = []) :
    losePort d s = endFlushWaiters d (endManagementReset d .targetLost (noticed (portNotice .portDown d none none none)
      (withPort d { s.port d with state := .down, reason := none, resetTimer := none, tags := Vector.replicate 16 .free } s))) := by
  have hlost : updPort d (fun r => { r with state := .down, reason := none, resetTimer := none }) s
      = withPort d { s.port d with state := .down, reason := none, resetTimer := none } s := rfl
  have hnone : ∀ t : DTag, ((noticed (portNotice .portDown d none none none)
      (withPort d { s.port d with state := .down, reason := none, resetTimer := none } s)).port d).tags[t].isIssued = false := fun t => by
    rw [noticed_port, withPort_port]
    exact ht t
  rw [losePort, hlost, postPort_eq, endAllIssued_none hnone, freeQuarantined, updPort_noticed, emptyQueues_noticed (by exact hq)]
  simp only [freeQuarantined_tags ht]

theorem takeLinkLost_up (h : (s.port d).state ≠ .down) : takeLinkLost d s = tryHeads (losePort d s) := if_neg h

end loss

/-- Settles O47: the loss as a whole, with or without a pending management reset. -/
theorem targetLinkLossTakesPortDown : Obligations.TargetLinkLossTakesPortDown := by
  intro s d hs ht hq hw
  refine ⟨fun hp => ?down, fun p hl hp => ?ends⟩
  case down =>
    refine congrArg Host.Outcome.next ((takeLinkLost_up hs).trans (congrArg tryHeads ((losePort_idle ht hq).trans ?_)))
    exact endWaiters_none hp hw
  case ends =>
    refine congrArg Host.Outcome.next ((takeLinkLost_up hs).trans (congrArg tryHeads ((losePort_idle ht hq).trans ?_)))
    exact endWaiters_reset hl hp hw

/-! ## TRDY (08 R125) -/

section trdy
variable {s : State} {d : Port}

theorem takeTrdy_other (h : (s.port d).state ≠ .resetting) : takeTrdy d s = s := by
  unfold takeTrdy
  cases hs : (s.port d).state
  case resetting => exact absurd hs h
  case down | up | halted => rfl

/-- The record of a port that its TRDY has brought UP (08 R125). -/
abbrev broughtUp (r : PortRec) : PortRec := { r with state := .up, resetTimer := none }

theorem takeTrdy_resetting (h : (s.port d).state = .resetting) :
    takeTrdy d s = issueTest d (updPort d (fun r => { r with passCount := 0 }) (endFlushWaiters d (endManagementReset d .good
      (noticed (portNotice .portUp d none (some (s.port d).attempts) none) (withPort d (broughtUp (s.port d)) s))))) := by
  have hup : takeTrdy d s = endReset d s := by simp only [takeTrdy, h]
  rw [hup, endReset, postPort_eq]
  rfl

/-- A flush-all that awaited this port alone ends GOOD (08 R131, 09 R148). -/
theorem endFlushWaiters_last {u : State} {p : Parent} {f : FlushRec} (h : LongParent p u) (hw : (u.port d).flushWaiters = [f.op])
    (hf : u.flush = some f) (ha : f.awaited = [d]) (hp : f.parent = some p.id) :
    endFlushWaiters d u = longEnded p .good { updPort d (fun r => { r with flushWaiters := [] }) u with flush := none } := by
  have htell : tellFlush d (updPort d (fun r => { r with flushWaiters := [] }) u) f.op
      = flushEndTest { updPort d (fun r => { r with flushWaiters := [] }) u with flush := some { f with awaited := f.awaited.filter fun q => q ≠ d } } := by
    have hflush : (updPort d (fun r => { r with flushWaiters := [] }) u).flush = some f := hf
    simp only [tellFlush, hflush, if_true]
  have hempty : (f.awaited.filter fun q => q ≠ d) = [] := by rw [ha]; simp
  rw [endFlushWaiters, hw, List.foldl_cons, List.foldl_nil, htell, hempty]
  refine Eq.trans ?_ (finishLong_eq (s := u) .good h rfl rfl)
  simp only [flushEndTest, if_true, hp]

end trdy

/-- Settles O48: the port's end of reset, what it tells, and the issue test that finds nothing to issue. -/
theorem trdyEndsReset : Obligations.TrdyEndsReset := by
  refine fun s d => ⟨fun h => congrArg Host.Outcome.next (takeTrdy_other h), fun h hq => ⟨fun hp hw => ?up, fun p hl hp hw => ?reset, fun p f hl hp hw hf ha hfp => ?flush⟩⟩
  case up =>
    refine congrArg Host.Outcome.next ((takeTrdy_resetting h).trans ?_)
    rw [endWaiters_none (r := broughtUp (s.port d)) hp hw, updPort_noticed]
    refine issueTest_idle ?_
    rw [noticed_port, withPort_port]
    exact hq
  case reset =>
    refine congrArg Host.Outcome.next ((takeTrdy_resetting h).trans ?_)
    rw [endWaiters_reset (r := broughtUp (s.port d)) hl hp hw, updPort_longEnded, updPort_noticed]
    refine issueTest_idle ?_
    rw [longEnded_port, noticed_port, withPort_port]
    exact hq
  case flush =>
    refine congrArg Host.Outcome.next ((takeTrdy_resetting h).trans ?_)
    have hport : (noticed (portNotice .portUp d none (some (s.port d).attempts) none) (withPort d (broughtUp (s.port d)) s)).port d = broughtUp (s.port d) :=
      (noticed_port ..).trans (withPort_port ..)
    have hlong : LongParent p (noticed (portNotice .portUp d none (some (s.port d).attempts) none) (withPort d (broughtUp (s.port d)) s)) := by
      obtain ⟨ho, hlive, hv, hs⟩ := hl
      exact ⟨by unfold AdmissionOrder; rw [noticed_parents, noticed_next]; exact ho, by rw [noticed_parents]; exact hlive, hv, hs⟩
    rw [endManagementReset_none (s := s) (by rw [hport]; exact hp),
      endFlushWaiters_last hlong (by rw [hport]; exact hw) (by rw [noticed_flush]; exact hf) ha hfp, updPort_noticed, updPort_longEnded, updPort_withFlush,
      updPort_noticed]
    refine issueTest_idle ?_
    show ∀ c : Sys2Proof.Class, ((noticed _ (withPort d _ s)).port d).queues[c] = []
    rw [noticed_port, withPort_port]
    exact hq

/-! ## TCPLs without a result (07 R111, R112) -/

section tcpl
variable {s : State} {d : Port} {t : DTag} {f : TcplFrame}

theorem takeTcpl_notTaken (h : (s.port d).state = .down ∨ (s.port d).state = .resetting) : takeTcpl d f s = s := by
  rcases h with h | h <;> simp only [takeTcpl, h]

/-- A tag above 15 names no tag of a port (07 R113). -/
theorem takeTagged_above (h : 16 ≤ f.tag.toNat) : takeTagged d f s = postTag .unknownTag d f.tag s := by
  have hnone : dtagOf f.tag = none := dif_neg (Nat.not_lt.2 h)
  simp only [takeTagged, hnone]

theorem takeTagged_quarantined (ht : f.tag.toNat = t.val) (htag : (s.port d).tags[t] = .quarantined) : takeTagged d f s = takeLate d t f s := by
  simp only [takeTagged, dtagOf_eq ht, htag]

/-- A late completion on a port that then issues nothing frees the tag and posts its notice (07 R112). -/
theorem takeLate_idle (h : (s.port d).state ≠ .up ∨ ∀ c : Sys2Proof.Class, (s.port d).queues[c] = []) :
    takeLate d t f s = noticed (portNotice .lateCompletion d (some f.tag) none none)
      (withPort d { s.port d with tags := put (s.port d).tags t .free } s) := by
  have hport : (noticed (portNotice .lateCompletion d (some f.tag) none none)
      (withPort d { s.port d with tags := put (s.port d).tags t .free } s)).port d = { s.port d with tags := put (s.port d).tags t .free } :=
    (noticed_port ..).trans (withPort_port ..)
  have hlate : takeLate d t f s = issueTest d (noticed (portNotice .lateCompletion d (some f.tag) none none)
      (withPort d { s.port d with tags := put (s.port d).tags t .free } s)) := by
    rw [takeLate, postTag_eq]
    rfl
  rw [hlate]
  rcases h with h | h
  · exact issueTest_notUp (by rw [hport]; exact h)
  · exact issueTest_idle (by rw [hport]; exact h)

end tcpl

/-- Settles O50: a TCPL that is not taken, one whose tag names none, and a late completion. -/
theorem lateAndStrayTcplsCarryNoResult : Obligations.LateAndStrayTcplsCarryNoResult := by
  refine fun s d f hf => ⟨fun h => ?notTaken, fun hport htag => ?above, fun t hport ht htag => ?late⟩
  case notTaken => rw [exec_tcpl_of_wf hf, takeTcpl_notTaken h]
  case above => rw [exec_tcpl_of_wf hf, takeTcpl_of_up_or_halted hport, takeTagged_above htag, postTag_eq]
  case late =>
    have htaken : (s.port d).state = .up ∨ (s.port d).state = .halted := hport.elim .inr fun h => .inl h.1
    have hidle : (s.port d).state ≠ .up ∨ ∀ c : Sys2Proof.Class, (s.port d).queues[c] = [] :=
      hport.imp (fun h => by rw [h]; decide) And.right
    rw [exec_tcpl_of_wf hf, takeTcpl_of_up_or_halted htaken, takeTagged_quarantined ht htag, takeLate_idle hidle]

end Sys2Proof.Machine
end

section
/-!
Results that end a parent: the one sub-command of a READ, the last entry of a leaving parent, and the FLUSHes of a DRAIN
(03 R52, R53, 06 R88 to R91, R101 to R104, 07 R106 to R110).
-/

-- The package is also compiled as one text: one proof after another keeps the number of Lean's threads small there.
set_option Elab.async false

namespace Sys2Proof.Machine

/-! ## The events that bring a result -/

section events
variable {s R : State} {d : Port} {t : DTag} {e : SubCmd}

/-- A TCPL whose result leaves nothing to issue on its port and nothing to split is the merge of that result (07 R111). -/
theorem exec_tcpl_merges {f : TcplFrame} (htag : (s.port d).tags[t] = .issued e.id) (hn : s.subs.Pairwise fun x y => x.id ≠ y.id) (hk : e ∈ s.subs)
    (hst : (s.port d).state = .up ∨ (s.port d).state = .halted) (hf : f.wf = true) (ht : f.tag.toNat = t.val)
    (hR : mergeResult e.id (tcplResult e f) (withPort d { s.port d with tags := put (s.port d).tags t .free } s) = R)
    (hq : ∀ c : Sys2Proof.Class, (R.port d).queues[c] = []) (hw : R.splitWait = []) : exec (.tcpl d f) s = .next R := by
  rw [exec_tcpl_issued htag hn hk hst hf ht]
  have hmerged : mergeResult e.id (tcplResult e f) (freeTag d t s) = R := hR
  rw [hmerged, issueTest_idle hq, tryIfFreed_nil hw]

/-- The state in which the expired entry's result is taken: its tag QUARANTINED, and SUB_EXPIRED posted (07 R107, R108). -/
abbrev expiredAt (s : State) (d : Port) (t : DTag) (v : Volume) : State :=
  noticed (portNotice .subExpired d (some (BitVec.ofNat 8 t.val)) none (some v))
    (withPort d { s.port d with tags := put (s.port d).tags t .quarantined } s)

theorem expiredAt_port (v : Volume) : (expiredAt s d t v).port d = { s.port d with tags := put (s.port d).tags t .quarantined } :=
  (noticed_port ..).trans (withPort_port ..)

variable {p : Parent} {i : Issue}

/-- An expiry that does not bring the QUARANTINED tags of an UP port to its window is the merge of TARGET_TIMEOUT (07 R107, R110). -/
theorem exec_deadline_merges (ho : AdmissionOrder s) (hp : p ∈ s.parents) (he : e.parent = p.id) (htag : (s.port d).tags[t] = .issued e.id)
    (hn : s.subs.Pairwise fun x y => x.id ≠ y.id) (hk : e ∈ s.subs) (hi : e.issue = some i) (hd : i.deadline ≤ s.now)
    (hup : (s.port d).state ≠ .up ∨ (s.port d).quarantinedTags + 1 < (s.port d).window)
    (hR : mergeResult e.id (bareResult .timeout true) (expiredAt s d t p.volume) = R)
    (hport : R.port d = { s.port d with tags := put (s.port d).tags t .quarantined }) (hw : R.splitWait = []) :
    exec (.deadlineExpiry d t) s = .next R := by
  have hnot : ¬((R.port d).state = .up ∧ (R.port d).window ≤ (R.port d).quarantinedTags) := by
    rw [hport, quarantinedTags_put htag]
    rintro ⟨hstate, hwindow⟩
    exact hup.elim (fun h => h hstate) fun h => absurd hwindow (Nat.not_le.2 h)
  rw [exec_deadline ho hp he htag hn hk hi hd, hR, haltingTest, if_neg hnot, tryIfFreed_nil hw]

/-- An expiry that brings the QUARANTINED tags of an UP port to its window halts it, when it has nothing queued (07 R110, 08 R127). -/
theorem exec_deadline_halts (ho : AdmissionOrder s) (hp : p ∈ s.parents) (he : e.parent = p.id) (htag : (s.port d).tags[t] = .issued e.id)
    (hn : s.subs.Pairwise fun x y => x.id ≠ y.id) (hk : e ∈ s.subs) (hi : e.issue = some i) (hd : i.deadline ≤ s.now)
    (hup : (s.port d).state = .up) (hwin : (s.port d).window ≤ (s.port d).quarantinedTags + 1)
    (hR : mergeResult e.id (bareResult .timeout true) (expiredAt s d t p.volume) = R)
    (hport : R.port d = { s.port d with tags := put (s.port d).tags t .quarantined }) (hq : ∀ c : Sys2Proof.Class, (s.port d).queues[c] = [])
    (hw : R.splitWait = []) :
    exec (.deadlineExpiry d t) s = .next (noticed (portNotice .portHalted d none (some 1) none)
      (withPort d { R.port d with state := .halted, reason := some .tagsExhausted, resetTimer := none } R)) := by
  have hhalts : (R.port d).state = .up ∧ (R.port d).window ≤ (R.port d).quarantinedTags := by
    rw [hport, quarantinedTags_put htag]
    exact ⟨hup, hwin⟩
  rw [exec_deadline ho hp he htag hn hk hi hd, hR, haltingTest, if_pos hhalts, haltPort_idle (by rw [hport]; exact hq), tryHeads_nil]
  · rfl
  · rw [noticed_splitWait]
    exact hw

end events

/-! ## The one sub-command of a READ (06 R89 to R91, R101, R102) -/

section read
variable {s u : State} {d : Port} {t : DTag} {p : Parent} {pc : Piece} {e : SubCmd} {f : TcplFrame}

/-- A TCPL OK with as many blocks as the entry reads (06 R88, 10 R158). -/
theorem tcplResult_ok (he : e.op = .read) (hr : f.result = 0) (hflag : f.flags.getLsbD 0 = false) (hl : f.payload.length = e.count) :
    tcplResult e f = { kind := .ok, errorBlock := none, payload := f.payload, issued := true } := by
  have herr : errorOf f = none := by rw [errorOf, hflag]; rfl
  have hkind : tcplKind f.result = some .ok := if_pos hr
  have hfit : tcplFit e f .ok = true := by simp [tcplFit, herr, he, hl]
  simp only [tcplResult, hkind, hfit, if_true, herr]

/-- An OK result of the one sub-command completes the READ with all its blocks (06 R89, R101). -/
theorem mergeResult_readOk (h : SoleRead s d p pc e) (hp : u.parents = s.parents) (hs : u.subs = s.subs) (hn : u.nextParent = s.nextParent)
    (hr : f.result = 0) (hflag : f.flags.getLsbD 0 = false) (hl : f.payload.length = p.count) :
    mergeResult e.id (tcplResult e f) u = { freed p u with
      subs := s.subs.filter fun x => x.id ≠ e.id, outbound := u.outbound ++ [.cpl (commandCpl p .good none 0 f.payload)] } := by
  obtain ⟨-, -, hop, hcount, -⟩ := h.entry
  rw [tcplResult_ok hop hr hflag (hl.trans hcount.symm)]
  refine mergeResult_read h u hp hs hn _ (.inl rfl) .good none 0 f.payload ?_
  rintro q hid - hcnt hqop hslots ⟨ms, hpieces⟩ w
  have hgood : lowestFailure q.pieces = none := by rw [hpieces]; rfl
  have hpay : readPayload q q.count = f.payload := by
    rw [readPayload, if_pos hqop, hslots, if_pos (.inl rfl), hcnt]
    exact readSlots_writeSlots (by rw [h.slots]) hl
  simp only [completePieces, hgood, hpay, hid]

/-- A failing TCPL of the one sub-command, where no copy takes a retry, completes the READ with its status, its fail block and the blocks before it
(06 R89, R91, R94, R101, R102). -/
theorem mergeResult_tcplFails {n : Nat} {st : Status} (h : SoleRead s d p pc e) (hp : u.parents = s.parents) (hs : u.subs = s.subs)
    (hn : u.nextParent = s.nextParent) (hf : Fails f e n st) (hr : ∀ c, e.copy = some c → retryTarget p pc c u = none) :
    mergeResult e.id (tcplResult e f) u = { freed p u with
      subs := s.subs.filter fun x => x.id ≠ e.id
      outbound := u.outbound ++ [.cpl (commandCpl p st (some (p.start + n)) (p.count - n) f.payload)] } := by
  obtain ⟨-, -, hop, hcount, -⟩ := h.entry
  obtain ⟨hne, hst, hpay, hkind, hfail⟩ := tcplResult_fails hf hop
  have hlen : f.payload.length = n := hf.2.1
  have hblock : failBlock p pc e (tcplResult e f) = p.start + n := by
    rw [hfail, pieceFirst, h.whole.1]; rfl
  refine mergeResult_read h u hp hs hn _ (.inr hr) st (some (p.start + n)) (p.count - n) f.payload ?_
  rintro q hid hstart hcnt hqop hslots ⟨ms, hpieces⟩ w
  have hlow : lowestFailure q.pieces = some (st, p.start + n) := by
    rw [hpieces, hblock]
    simp only [lowestFailure, pieceStateOf, if_neg hne, hst]
  have hread : readPayload q (p.start + n - q.start) = f.payload := by
    rw [readPayload, if_pos hqop, hstart, Nat.add_sub_cancel_left, hslots]
    rcases hkind with hmedium | hempty
    · rw [if_pos (.inr hmedium), hpay]
      refine readSlots_writeSlots ?_ hlen
      rw [h.slots]
      obtain ⟨-, -, ⟨rfl, -⟩ | ⟨-, -, -, -, hlt⟩⟩ := hf
      · exact Nat.zero_le _
      · exact Nat.le_of_lt (hcount ▸ hlt)
    · have hnil : f.payload = [] := hpay.symm.trans hempty
      rw [hnil] at hlen ⊢
      subst hlen
      simp [readSlots]
  simp only [completePieces, hlow, hread]
  rw [hid, hstart, hcnt, Nat.add_sub_add_left]

end read

/-! ## The obligations -/

/-- A leaving parent's frames at its end (06 R103, R104). -/
theorem endFrames_leaving {p : Parent} {l : List UpFrame}
    (h : (p.state = .aborting ∧ l = [.cpl (commandCpl p .aborted none p.count [])]) ∨ (p.state = .discarding ∧ l = [])) (c : Cpl) :
    endFrames p c = l := by
  rcases h with ⟨hs, rfl⟩ | ⟨hs, rfl⟩ <;> simp only [endFrames, hs]

/-- What a notice beside a tag adds to the outbound order is what it adds without it (09 R152). -/
theorem expiredAt_outbound (s : State) (d : Port) (t : DTag) (v : Volume) : (expiredAt s d t v).outbound
    = (noticed (portNotice .subExpired d (some (BitVec.ofNat 8 t.val)) none (some v)) s).outbound :=
  noticed_outbound rfl rfl rfl rfl rfl

/-- Settles O51: the merge of the last result, and then a port with nothing to issue and a list with nothing to split. -/
theorem lastReadResultCompletesParent : Obligations.LastReadResultCompletesParent := by
  refine ⟨fun s d t p pc e f h hst hq hw hf ht => ⟨fun hr hflag hl => ?ok, fun n hr hflag hb hlt hl hretried => ?medium⟩,
    fun s d t p e l h hw hl => ⟨fun f hst hq hf ht => ?tcpl, fun i hi hd hup => ?deadline⟩⟩
  case ok =>
    refine exec_tcpl_merges h.tag h.names h.known hst hf ht (mergeResult_readOk h.toSoleRead rfl rfl rfl hr hflag hl) ?_ hw
    show ∀ c : Sys2Proof.Class, ((withPort d _ s).port d).queues[c] = []
    rw [withPort_port]
    exact hq
  case medium =>
    have hfails : Fails f e n .mediumError := ⟨hf, hl, .inr ⟨hr, rfl, hflag, hb, h.entry.2.2.2.1 ▸ hlt⟩⟩
    refine exec_tcpl_merges h.tag h.names h.known hst hf ht
      (mergeResult_tcplFails h.toSoleRead rfl rfl rfl hfails fun c _ => retryTarget_retried hretried c _) ?_ hw
    show ∀ c : Sys2Proof.Class, ((withPort d _ s).port d).queues[c] = []
    rw [withPort_port]
    exact hq
  case tcpl =>
    have hmerge := mergeResult_leaving (u := withPort d { s.port d with tags := put (s.port d).tags t .free } s) h rfl rfl rfl (tcplResult e f)
      (commandCpl p .good none 0 [])
    rw [endFrames_leaving hl] at hmerge
    refine exec_tcpl_merges h.tag h.names h.known hst hf ht hmerge ?_ hw
    show ∀ c : Sys2Proof.Class, ((withPort d _ s).port d).queues[c] = []
    rw [withPort_port]
    exact hq
  case deadline =>
    have hmerge := mergeResult_leaving (u := expiredAt s d t p.volume) h (noticed_parents ..) (noticed_subs ..) (noticed_next ..)
      (bareResult .timeout true) (commandCpl p .good none 0 [])
    rw [endFrames_leaving hl, expiredAt_outbound] at hmerge
    refine exec_deadline_merges h.order h.live h.entry.1 h.tag h.names h.known hi hd hup hmerge (expiredAt_port p.volume) ?_
    exact (noticed_splitWait ..).trans hw

/-- Settles O52: the expiry is the merge of TARGET_TIMEOUT, and the halting test looks at the QUARANTINED tags that it leaves. -/
theorem deadlineExpiryQuarantinesTag : Obligations.DeadlineExpiryQuarantinesTag := by
  rintro s u d t p pc e i h hretried hi hd hw hu
  have hmerge := mergeResult_readFails h.toSoleRead (expiredAt s d t p.volume) (noticed_parents ..) (noticed_subs ..) (noticed_next ..) .timeout true
    (fun c _ => retryTarget_retried hretried c _) (by decide) (by decide)
  rw [expiredAt_outbound, show ResultKind.status .timeout = .targetTimeout from rfl] at hmerge
  have hR := hmerge.trans hu.symm
  have hport : u.port d = { s.port d with tags := put (s.port d).tags t .quarantined } := by
    rw [hu]
    exact expiredAt_port p.volume
  have hwait : u.splitWait = [] := by
    rw [hu]
    exact (noticed_splitWait ..).trans hw
  exact ⟨fun hup => exec_deadline_merges h.order h.live h.entry.1 h.tag h.names h.known hi hd hup hR hport hwait,
    fun hup hwin hq => exec_deadline_halts h.order h.live h.entry.1 h.tag h.names h.known hi hd hup hwin hR hport hq hwait⟩

/-! ## The FLUSHes of a DRAIN (03 R52, R53) -/

/-- The status that a TCPL gives a FLUSH entry, which takes no payload (06 R88, 10 R158). -/
theorem tcplResult_flush {e : SubCmd} {f : TcplFrame} {st : Status} (he : e.op = .flush) (hp : f.payload = [])
    (h : (f.result = 0 ∧ f.flags.getLsbD 0 = false ∧ st = .good) ∨ (f.result = 1 ∧ st = .mediumError)
      ∨ (f.result = 2 ∧ f.flags.getLsbD 0 = false ∧ st = .targetFault) ∨ (f.result = 3 ∧ f.flags.getLsbD 0 = false ∧ st = .targetRefused)) :
    (tcplResult e f).kind.status = st := by
  rcases h with ⟨hr, hflag, rfl⟩ | ⟨hr, rfl⟩ | ⟨hr, hflag, rfl⟩ | ⟨hr, hflag, rfl⟩
  · rw [tcplResult_bare (k := .ok) hflag hp (.inl ⟨hr, rfl, by rw [he]; decide⟩)]; rfl
  · have hkind : tcplKind f.result = some .medium := by rw [hr]; rfl
    have hfit : tcplFit e f .medium = true := by simp [tcplFit, he, hp]
    simp only [tcplResult, hkind, hfit, if_true]
    rfl
  · rw [tcplResult_bare (k := .fault) hflag hp (.inr (.inl ⟨hr, rfl⟩))]; rfl
  · rw [tcplResult_bare (k := .refused) hflag hp (.inr (.inr ⟨hr, rfl⟩))]; rfl

/-- Settles O53: the result is written into its port's flush result; the last one completes the DRAIN with the status that the results give. -/
theorem flushResultsCompleteDrain : Obligations.FlushResultsCompleteDrain := by
  intro s d t p e f st rs h hst hq hw ht hp hf hrs
  have hmerge := mergeResult_flush (u := withPort d { s.port d with tags := put (s.port d).tags t .free } s) h.order h.live h.state h.op h.entry
    (sub_of_mem h.names h.known) (eraseP_sub h.names) (tcplResult e f) rs (by rw [tcplResult_flush h.entry.2.1 hp hf]; exact hrs)
  have hqueues : ∀ c : Sys2Proof.Class, ((withPort d { s.port d with tags := put (s.port d).tags t .free } s).port d).queues[c] = [] := by
    rw [withPort_port]
    exact hq
  refine ⟨fun ⟨r, hr, hnone⟩ => ?pending, fun st' hall hst' => ?last⟩
  case pending =>
    have hopen : rs.all (fun f => f.status.isSome) ≠ true := fun hall => by
      have hsome := List.all_eq_true.1 hall r hr
      rw [hnone] at hsome
      exact absurd hsome (by decide)
    rw [if_neg hopen] at hmerge
    exact exec_tcpl_merges h.tag h.names h.known hst (tcpl_wf_nil hp) ht hmerge hqueues hw
  case last =>
    have hdone : rs.all (fun f => f.status.isSome) = true := List.all_eq_true.2 fun r hr => Option.isSome_iff_ne_none.2 (hall r hr)
    have hsorted : rs.Pairwise fun x y => x.port < y.port := by
      rw [hrs, List.pairwise_map]
      refine h.results.imp fun {a b} hab => ?_
      split <;> split <;> simp_all
    have hstatus : drainStatus rs = st' := by
      rcases hst' with ⟨hgood, rfl⟩ | ⟨hbad, q, hmem, hlow⟩
      · exact drainStatus_good hgood
      · exact drainStatus_bad hsorted hmem hbad hlow
    rw [if_pos hdone, hstatus] at hmerge
    exact exec_tcpl_merges h.tag h.names h.known hst (tcpl_wf_nil hp) ht hmerge hqueues hw

end Sys2Proof.Machine
end

section
/-!
The resolution of a WRITE piece, and the result that settles it (06 R95 to R99, R101).
-/

-- The package is also compiled as one text: one proof after another keeps the number of Lean's threads small there.
set_option Elab.async false

namespace Sys2Proof.Machine

/-! ## The table of a two-copy piece (06 R96, R99) -/

section table
variable {lead : CopyNo} {cur : Bool} {first : Nat} {a b : MemberResult}

/-- A piece with two members is resolved by the table (06 R96). -/
theorem resolveWrite_two {x : Extent} {pc : Piece} (h : pc.members.length = 2) :
    resolveWrite x first pc = resolveTwo x.lead (x.isCurrent x.lead.other) first (pc.resultOf x.lead) (pc.resultOf x.lead.other) := by
  unfold resolveWrite
  split
  next m hm => rw [hm] at h; exact absurd h (by simp)
  next => rfl

theorem pieceStateOf_ok {k : ResultKind} {n : Nat} (h : k = .ok) : pieceStateOf k n = .good := if_pos h

theorem pieceStateOf_failed {k : ResultKind} {n : Nat} (h : k ≠ .ok) : pieceStateOf k n = .failed k.status n := if_neg h

theorem resolveTwo_leadOnly : resolveTwo lead cur first (some a) none = (pieceStateOf a.kind a.failBlock, .none) := rfl

theorem resolveTwo_leadOk (ha : a.kind = .ok) :
    resolveTwo lead cur first (some a) (some b) = (.good, if b.kind ≠ .ok ∧ cur then .stale lead.other else .none) := if_pos ha

theorem resolveTwo_otherOk (ha : a.kind ≠ .ok) (hb : b.kind = .ok) :
    resolveTwo lead true first (some a) (some b) = (.good, .swap lead.other) := (if_neg ha).trans (if_pos ⟨hb, rfl⟩)

theorem resolveTwo_bothFail (ha : a.kind ≠ .ok) (hb : b.kind ≠ .ok) :
    resolveTwo lead true first (some a) (some b) = (.failed a.kind.status a.failBlock, .stale lead.other) := by
  refine (if_neg ha).trans ((if_neg fun h => hb h.1).trans ?_)
  rw [if_pos ⟨hb, rfl⟩]

theorem resolveTwo_leadFails (ha : a.kind ≠ .ok) :
    resolveTwo lead false first (some a) (some b) = (.failed a.kind.status a.failBlock, .none) := by
  refine (if_neg ha).trans ((if_neg fun h => absurd h.2 (by decide)).trans ?_)
  rw [if_neg fun h => absurd h.2 (by decide)]

end table

/-! ## The effect on the copies (01 R4, 06 R97) -/

theorem setCopy_lead (x : Extent) (c : CopyNo) (st : CopyState) : (x.setCopy c st).lead = x.lead := by
  cases c <;> rfl

theorem setCopy_self (x : Extent) (c : CopyNo) (st : CopyState) : (x.setCopy c st).copy? c = (x.copy? c).map fun y => { y with state := st } := by
  cases c <;> rfl

theorem setCopy_other (x : Extent) (c : CopyNo) (st : CopyState) : (x.setCopy c st).copy? c.other = x.copy? c.other := by
  cases c <;> rfl

theorem other_other (c : CopyNo) : c.other.other = c := by cases c <;> rfl

/-- Settles O58: each clause is a row of the table, or what an effect writes. -/
theorem twoCopyWriteResolvesByTable : Obligations.TwoCopyWriteResolvesByTable := by
  rintro x first pc l o hlen rfl rfl
  rw [resolveWrite_two hlen]
  refine ⟨fun a hl ha ho => ?ok, fun a b hl ho ha hb hc => ?stale, fun a b hl ho ha hb hc => ?swap, fun a b hl ho ha hb hc => ?both,
    fun a hl ha ho => ?lead, fun b hl ho => ?other, fun c => ⟨setCopy_lead x c .stale, setCopy_other x c .stale, setCopy_self x c .stale⟩,
    rfl, ?swapOther, ?swapLead⟩
  case ok =>
    rcases ho with ho | ⟨b, ho, hb⟩
    · rw [hl, ho, resolveTwo_leadOnly, pieceStateOf_ok ha]
    · rw [hl, ho, resolveTwo_leadOk ha, if_neg]
      rintro ⟨hne, hcur⟩
      exact hb.elim hne fun h => by rw [h] at hcur; exact absurd hcur (by decide)
  case stale => rw [hl, ho, resolveTwo_leadOk ha, if_pos ⟨hb, hc⟩]
  case swap => rw [hl, ho, hc, resolveTwo_otherOk ha hb]
  case both => rw [hl, ho, hc, resolveTwo_bothFail ha hb]
  case lead =>
    cases hother : pc.resultOf x.lead.other with
    | none => rw [hl, resolveTwo_leadOnly, pieceStateOf_failed ha]
    | some b =>
      have hcur : x.isCurrent x.lead.other = false := ho.resolve_left (by rw [hother]; exact Option.some_ne_none b)
      rw [hl, hcur, resolveTwo_leadFails ha]
  case other => rw [hl, ho]; rfl
  case swapOther =>
    have hset := setCopy_other x x.lead.other.other .stale
    rw [other_other] at hset
    show (x.setCopy x.lead.other.other .stale).copy? x.lead.other = _
    rw [other_other]
    exact hset
  case swapLead =>
    show (x.setCopy x.lead.other.other .stale).copy? x.lead = _
    rw [other_other]
    exact setCopy_self x x.lead .stale

/-! ## The result that settles the piece (06 R96 to R98, R101) -/

section write
variable {s u : State} {d : Port} {t : DTag} {p : Parent} {pc : Piece} {e : SubCmd} {c : CopyNo} {n : Nat} {x : Extent}

theorem effected_port (g : Effect) (d : Port) : (effected p n x g u).port d = u.port d := by
  obtain ⟨-, -, -, hports, -⟩ := effected_same p n x g u
  exact congrArg (·[d]) hports

theorem effected_splitWait (g : Effect) : (effected p n x g u).splitWait = u.splitWait := by
  obtain ⟨-, -, -, -, hwait⟩ := effected_same p n x g u
  exact hwait

theorem noticed_volumes (b : NoticeBody) (s : State) : (noticed b s).volumes = s.volumes := by
  unfold noticed
  split
  · rfl
  · split <;> rfl

end write

/-- Settles O59: the merge resolves the piece, and the effect leaves the port and the Split-Wait List as they were. -/
theorem writeResultChangesCopiesAndCompletes : Obligations.WriteResultChangesCopiesAndCompletes := by
  intro s d t p pc e c n x k y g h hw hres
  refine ⟨fun f hst hq ht hflag hp hk => ?tcpl, fun i hk hi hd hup => ?deadline⟩
  case tcpl =>
    have hne : k ≠ .medium := by rcases hk with ⟨-, rfl⟩ | ⟨-, rfl⟩ | ⟨-, rfl⟩ <;> decide
    have hbare : tcplResult e f = bareResult k true :=
      tcplResult_bare hflag hp (hk.imp_left fun h' => ⟨h'.1, h'.2, by rw [h.entry.2.2.2.1]; decide⟩)
    have hmerge := mergeResult_write (u := withPort d { s.port d with tags := put (s.port d).tags t .free } s) h rfl rfl rfl rfl hne hres
    have hout : (effected p n x g (withPort d { s.port d with tags := put (s.port d).tags t .free } s)).outbound = (effected p n x g s).outbound :=
      effected_outbound rfl rfl rfl rfl rfl
    rw [hout, ← hbare] at hmerge
    refine exec_tcpl_merges h.tag h.names h.known hst (tcpl_wf_nil hp) ht hmerge ?_ ?_
    · show ∀ q : Sys2Proof.Class, ((effected p n x g (withPort d _ s)).port d).queues[q] = []
      rw [effected_port, withPort_port]
      exact hq
    · exact (effected_splitWait g).trans hw
  case deadline =>
    subst hk
    have hmerge := mergeResult_write (u := expiredAt s d t p.volume) h (noticed_parents ..) (noticed_subs ..) (noticed_next ..) (noticed_volumes ..)
      (by decide) hres
    have hout : (effected p n x g (expiredAt s d t p.volume)).outbound
        = (effected p n x g (noticed (portNotice .subExpired d (some (BitVec.ofNat 8 t.val)) none (some p.volume)) s)).outbound := by
      rw [expiredAt, noticed_withPort]
      exact effected_outbound rfl rfl rfl rfl rfl
    rw [hout] at hmerge
    refine exec_deadline_merges h.order h.live h.entry.1 h.tag h.names h.known hi hd hup hmerge ?_ ?_
    · exact (effected_port g d).trans (expiredAt_port p.volume)
    · exact (effected_splitWait g).trans ((noticed_splitWait ..).trans hw)

end Sys2Proof.Machine
end

section
/-!
The one issue that a late completion makes room for (05 R78, R79, R81, 07 R112).
-/

-- The package is also compiled as one text: one proof after another keeps the number of Lean's threads small there.
set_option Elab.async false

namespace Sys2Proof.Machine

section late
variable {s : State} {d : Port} {t u : DTag} {f : TcplFrame} {c : Sys2Proof.Class} {n : Nat} {x : SubCmd} {rest : List SubRef} {bs : List Block}

/-- The record of a port with a tag freed. -/
abbrev tagFreed (r : PortRec) (t : DTag) : PortRec := { r with tags := put r.tags t .free }

/-- A QUARANTINED tag that is freed makes one place in the window (05 R75, R76). -/
theorem occupancy_tagFreed {r : PortRec} (h : r.tags[t] = .quarantined) : (tagFreed r t).occupancy + 1 = r.occupancy := by
  have hput := occupancy_put (r := r) (t := t) (x := .free)
  rw [if_neg (by rw [h]; decide), if_pos rfl, Nat.add_zero] at hput
  exact hput

/-- The lowest FREE tag once a tag is freed (05 R81). -/
theorem lowestFree_tagFreed {r : PortRec} (hu : u = t ∨ r.tags[u] = .free) (hl : ∀ k : DTag, k < u → k ≠ t ∧ r.tags[k] ≠ .free) :
    (tagFreed r t).tags[u] = .free ∧ (tagFreed r t).lowestFree = some u := by
  have hfree : (tagFreed r t).tags[u] = .free := by
    show (put r.tags t .free)[u] = .free
    rw [put_get]
    split
    · rfl
    · next hne => exact hu.resolve_left hne
  refine ⟨hfree, lowestFree_eq hfree fun k hk => ?_⟩
  show (put r.tags t .free)[k] ≠ .free
  rw [put_get, if_neg (hl k hk).1]
  exact (hl k hk).2

/-- The late completion of a full port lets the entry issue that its arbiter names (05 R78, R79). -/
theorem exec_tcpl_late_issues (hf : f.wf = true) (ht : f.tag.toNat = t.val) (hup : (s.port d).state = .up) (htag : (s.port d).tags[t] = .quarantined)
    (hocc : (s.port d).occupancy = (s.port d).window) (hu : u = t ∨ (s.port d).tags[u] = .free)
    (hl : ∀ k : DTag, k < u → k ≠ t ∧ (s.port d).tags[k] ≠ .free) (ho : AdmissionOrder s) (hx : x ∈ s.subs)
    (hn : s.subs.Pairwise fun y z => y.id ≠ z.id) (hb : Carries s x bs) (harb : (s.port d).arbiter = some (c, n))
    (hq : (s.port d).queues[c] = x.id :: rest) :
    exec (.tcpl d f) s = .next (issued d c n u x rest bs
      (noticed (portNotice .lateCompletion d (some f.tag) none none) (withPort d (tagFreed (s.port d) t) s))) := by
  have hlate : takeLate d t f s = issueTest d
      (noticed (portNotice .lateCompletion d (some f.tag) none none) (withPort d (tagFreed (s.port d) t) s)) := by
    rw [takeLate, postTag_eq]
    rfl
  rw [exec_tcpl_of_wf hf, takeTcpl_of_up_or_halted (.inl hup), takeTagged_quarantined ht htag, hlate]
  generalize hv : noticed (portNotice .lateCompletion d (some f.tag) none none) (withPort d (tagFreed (s.port d) t) s) = v
  have hport : v.port d = tagFreed (s.port d) t := by rw [← hv, noticed_port, withPort_port]
  have hparents : v.parents = s.parents := by rw [← hv, noticed_parents]; rfl
  have hnext : v.nextParent = s.nextParent := by rw [← hv, noticed_next]; rfl
  have hsubs : v.subs = s.subs := by rw [← hv, noticed_subs]; rfl
  have hroom := occupancy_tagFreed htag
  obtain ⟨hfree, hlow⟩ := lowestFree_tagFreed hu hl
  refine congrArg Host.Outcome.next (issueTest_one (by rw [hport]; exact hup) ?_ (by rw [hport]; exact harb) (by rw [hport]; exact hlow)
    (by rw [hport]; exact hfree) (by rw [hport]; exact hq) (by unfold AdmissionOrder; rw [hparents, hnext]; exact ho)
    (by unfold State.sub?; rw [hsubs]; exact sub_of_mem hn hx) (by unfold Carries; rw [hparents]; exact hb) (.inl ?_))
  · rw [hport]
    show (tagFreed (s.port d) t).occupancy < (s.port d).window
    omega
  · rw [hport]
    show (s.port d).window ≤ (tagFreed (s.port d) t).occupancy + 1
    omega

end late

/-- Settles O56: the freed tag makes one place, and the arbiter names the class that takes it. -/
theorem arbiterIssuesUnderLowestTag : Obligations.ArbiterIssuesUnderLowestTag := by
  intro s d t u f h x rest bs hf ht hup htag hocc hu hl hne hbelow ho hx hn hb
  have issues : ∀ {c : Sys2Proof.Class} {n : Nat}, (s.port d).arbiter = some (c, n) → (s.port d).queues[c] = x.id :: rest →
      exec (.tcpl d f) s = .next (issued d c n u x rest bs
        (noticed (portNotice .lateCompletion d (some f.tag) none none) (withPort d (tagFreed (s.port d) t) s))) :=
    fun harb hq => exec_tcpl_late_issues hf ht hup htag hocc hu hl ho hx hn hb harb hq
  refine ⟨fun hq habove => ?alone, fun l hlt hlne hbetween => ⟨fun hpass hq => ?higher, fun hpass hq => ?lower⟩⟩
  case alone =>
    refine issues (arbiter_one hne fun k hk => ?_) hq
    rcases lt_or_gt_of_ne hk with hlow | hhigh
    · exact hbelow k hlow
    · exact habove k hhigh
  case higher => exact issues ((arbiter_two hlt hne hlne hbelow hbetween).trans (if_pos hpass)) hq
  case lower => exact issues ((arbiter_two hlt hne hlne hbelow hbetween).trans (if_neg (by omega))) hq

end Sys2Proof.Machine
end

section
/-!
What a port's loss, reset or halt gives its one sub-command (05 R82, 07 R110, 08 R124, R126, R127, R129). Each event is said once,
for whatever the merge of that sub-command's result leaves.
-/

-- The package is also compiled as one text: one proof after another keeps the number of Lean's threads small there.
set_option Elab.async false

namespace Sys2Proof.Machine

/-! ## Port records on the way DOWN, HALTED or RESETTING -/

/-- A port that has gone DOWN, its tags still to be freed (08 R124). -/
abbrev lostRec (r : PortRec) : PortRec := { r with state := .down, reason := none, resetTimer := none }

/-- A port that has gone HALTED (08 R127). -/
abbrev haltedRec (w : HaltReason) (r : PortRec) : PortRec := { r with state := .halted, reason := some w, resetTimer := none }

/-- A port at the start of a reset, its tags still to be freed (08 R129). -/
abbrev resettingRec (r : PortRec) : PortRec := { r with state := .resetting, reason := none }

/-- A port record with every tag FREE. -/
abbrev allFree (r : PortRec) : PortRec := { r with tags := Vector.replicate 16 .free }

/-- A port record with empty class queues. -/
abbrev drained (r : PortRec) : PortRec := { r with queues := Vector.replicate 4 [] }

section port
variable {s u R : State} {d : Port} {r : PortRec}

theorem drained_queues (r : PortRec) (c : Sys2Proof.Class) : (drained r).queues[c] = [] := by
  simp

/-- Changes of one port, one after another, are one change of it. -/
theorem updPort_updPort (d : Port) (f g : PortRec → PortRec) (u : State) : updPort d g (updPort d f u) = updPort d (fun r => g (f r)) u := by
  apply State.ext
  case ports =>
    show put (put u.ports d _) d (g (put u.ports d _)[d]) = put u.ports d _
    rw [put_put, put_get_self]
  all_goals rfl

theorem updPort_port_self (d : Port) (f : PortRec → PortRec) (u : State) : (updPort d f u).port d = f (u.port d) := put_get_self _ _ _

/-- The free of the QUARANTINED tags of a port with no tag ISSUED leaves every tag FREE (08 R124, R129). -/
theorem freeQuarantined_none (h : ∀ t : DTag, (u.port d).tags[t].isIssued = false) : freeQuarantined d u = updPort d allFree u := by
  have htags : ({ u.port d with tags := mapRows (fun t => if t = .quarantined then .free else t) (u.port d).tags } : PortRec) = allFree (u.port d) := by
    rw [freeQuarantined_tags h]
  exact congrArg (fun x => { u with ports := put u.ports d x }) htags

/-- A port that nothing waits for: the end of its reset tells nobody (08 R130, R131). -/
theorem endWaiters_nobody {st : Status} (hp : (u.port d).pendingReset = none) (hw : (u.port d).flushWaiters = []) :
    endFlushWaiters d (endManagementReset d st u) = u := by
  rw [endManagementReset_none (s := u) hp, endFlushWaiters_nil hw]

end port

/-! ## The loss of the link (08 R124) -/

section loss
variable {s R : State} {d : Port} {e : SubRef} {t : DTag} {k : Sys2Proof.Class}

/-- PORT_DOWN beside the records of the port that is lost (08 R124). -/
abbrev lostAt (s : State) (d : Port) (r : PortRec) : State := withPort d r (noticed (portNotice .portDown d none none none) s)

theorem postPort_lost : postPort .portDown d none (updPort d lostRec s) = lostAt s d (lostRec (s.port d)) := by
  rw [postPort_eq]
  exact noticed_withPort _ d (lostRec (s.port d)) s

/-- The loss of the link of a port whose one ISSUED entry is merged TARGET_LOST (08 R124). -/
theorem exec_lost_issued (hs : (s.port d).state = .up ∨ (s.port d).state = .halted) (ht : (s.port d).tags[t] = .issued e)
    (ho : ∀ k : DTag, k ≠ t → (s.port d).tags[k].isIssued = false) (hq : ∀ c : Sys2Proof.Class, (s.port d).queues[c] = [])
    (hp : (s.port d).pendingReset = none) (hw : (s.port d).flushWaiters = [])
    (hR : mergeResult e (bareResult .lost true) (lostAt s d (tagFreed (lostRec (s.port d)) t)) = R)
    (hport : R.port d = tagFreed (lostRec (s.port d)) t) (hwait : R.splitWait = []) :
    exec (.targetLinkLost d) s = .next (updPort d allFree R) := by
  have hne : (s.port d).state ≠ .down := by rcases hs with hs | hs <;> rw [hs] <;> decide
  have hfreed : freeTag d t (lostAt s d (lostRec (s.port d))) = lostAt s d (tagFreed (lostRec (s.port d)) t) := updPort_withPort ..
  have hissued : ∀ u : DTag, (R.port d).tags[u].isIssued = false := by
    rw [hport]
    exact noIssued_freed ho
  have hend : endAllIssued d .lost (lostAt s d (lostRec (s.port d))) = R := by
    rw [endAllIssued_one (by rw [withPort_port]; exact ht) (by rw [withPort_port]; exact ho), hfreed, hR]
    rw [hfreed, hR]
    exact hissued
  have hfinal : (updPort d allFree R).port d = allFree (tagFreed (lostRec (s.port d)) t) := by rw [updPort_port_self, hport]
  refine congrArg Host.Outcome.next ((takeLinkLost_up hne).trans ?_)
  have hlose : losePort d s = updPort d allFree R := by
    rw [losePort, show postPort .portDown d none (updPort d (fun r => lostRec r) s) = _ from postPort_lost, hend, freeQuarantined_none hissued,
      emptyQueues_idle (by rw [hfinal]; exact hq), endWaiters_nobody (by rw [hfinal]; exact hp) (by rw [hfinal]; exact hw)]
  rw [hlose]
  exact tryHeads_nil hwait

/-- The loss of the link of a port whose one QUEUED entry is merged TARGET_LOST (08 R124, 05 R82). -/
theorem exec_lost_queued (hs : (s.port d).state = .up ∨ (s.port d).state = .resetting) (hq : (s.port d).queues[k] = [e])
    (hoq : ∀ j : Sys2Proof.Class, j ≠ k → (s.port d).queues[j] = []) (ht : ∀ u : DTag, (s.port d).tags[u].isIssued = false)
    (hp : (s.port d).pendingReset = none) (hw : (s.port d).flushWaiters = [])
    (hR : mergeResult e (bareResult .lost false) (lostAt s d (drained (allFree (lostRec (s.port d))))) = R)
    (hport : R.port d = drained (allFree (lostRec (s.port d)))) (hwait : R.splitWait = []) : exec (.targetLinkLost d) s = .next R := by
  have hne : (s.port d).state ≠ .down := by rcases hs with hs | hs <;> rw [hs] <;> decide
  have hlost : ((lostAt s d (lostRec (s.port d))).port d) = lostRec (s.port d) := withPort_port ..
  have hfree : freeQuarantined d (lostAt s d (lostRec (s.port d))) = lostAt s d (allFree (lostRec (s.port d))) :=
    (freeQuarantined_none (by rw [hlost]; exact ht)).trans (updPort_withPort ..)
  have hempty : emptyQueues d .lost (lostAt s d (allFree (lostRec (s.port d)))) = R := by
    rw [emptyQueues_one (by rw [withPort_port]; exact hq) (by rw [withPort_port]; exact hoq), updPort_withPort]
    exact hR
  refine congrArg Host.Outcome.next ((takeLinkLost_up hne).trans ?_)
  have hlose : losePort d s = R := by
    rw [losePort, show postPort .portDown d none (updPort d (fun r => lostRec r) s) = _ from postPort_lost,
      endAllIssued_none (by rw [hlost]; exact ht), hfree, hempty,
      endWaiters_nobody (by rw [hport]; exact hp) (by rw [hport]; exact hw)]
  rw [hlose, tryHeads_nil hwait]

end loss

/-! ## A reset (08 R129) -/

section reset
variable {s R : State} {d : Port} {e : SubRef} {t : DTag} {r : Parent}

/-- A port record that a management reset has begun, and that waits for its TRDY (08 R128, R129). -/
abbrev resetBegun (now : Nat) (id : ParentRef) (r : PortRec) : PortRec :=
  { r with tags := Vector.replicate 16 .free, attempts := 1, resetTimer := some (now + r.responseLimit), pendingReset := some id }

/-- The reset of a port whose one ISSUED entry is merged TARGET_RESET (08 R129). -/
theorem exec_reset_issued (hr : Running r s) (hm : s.manager = some r.initiator) (ha : addressed r .write 10 d.val)
    (hs : (s.port d).state = .up ∨ (s.port d).state = .halted) (ht : (s.port d).tags[t] = .issued e)
    (ho : ∀ k : DTag, k ≠ t → (s.port d).tags[k].isIssued = false)
    (hR : mergeResult e (bareResult .reset true) (withPort d (tagFreed (resettingRec (s.port d)) t) s) = R)
    (hport : R.port d = tagFreed (resettingRec (s.port d)) t) (hwait : R.splitWait = []) (hnow : R.now = s.now) :
    exec .portReset s = .next (handedOff r { updPort d (resetBegun s.now r.id) R with sent := R.sent ++ [.down d .trst] }) := by
  have hissued : ∀ u : DTag, (R.port d).tags[u].isIssued = false := by
    rw [hport]
    exact noIssued_freed ho
  have hfreed : freeTag d t (withPort d (resettingRec (s.port d)) s) = withPort d (tagFreed (resettingRec (s.port d)) t) s := updPort_withPort ..
  have hend : endAllIssued d .reset (withPort d (resettingRec (s.port d)) s) = R := by
    rw [endAllIssued_one (by rw [withPort_port]; exact ht) (by rw [withPort_port]; exact ho), hfreed, hR]
    rw [hfreed, hR]
    exact hissued
  have hbegin : beginReset d s = sendTrst d 1 (updPort d allFree R) := by
    rw [beginReset, show updPort d (fun r => resettingRec r) s = withPort d (resettingRec (s.port d)) s from rfl, hend, freeQuarantined_none hissued]
  have hattach : attachReset r.id d (beginReset d s)
      = setState r.id .controlLong { updPort d (resetBegun s.now r.id) R with sent := R.sent ++ [.down d .trst] } := by
    rw [hbegin, sendTrst, updPort_updPort, show (updPort d allFree R).now = s.now from hnow]
    have hone : updPort d (fun x => { x with pendingReset := some r.id })
        (updPort d (fun x => { allFree x with attempts := 1, resetTimer := some (s.now + x.responseLimit) }) R)
          = updPort d (resetBegun s.now r.id) R := updPort_updPort ..
    apply State.ext
    case ports => exact (congrArg State.ports hone :)
    all_goals rfl
  refine exec_managed_move hr hm (pickPortReset_of ha) ((takePortReset_begins hs).trans ?_)
  rw [hattach]
  exact tryHeads_nil hwait

end reset

/-! ## A halt (08 R126, R127) -/

section halt
variable {s R : State} {d : Port} {e : SubRef} {k : Sys2Proof.Class} {w : HaltReason}

/-- PORT_HALTED beside the record of the port that halts (08 R127). -/
abbrev haltedAt (s : State) (d : Port) (w : HaltReason) (r : PortRec) : State :=
  withPort d r (noticed (portNotice .portHalted d none (some w.code) none) s)

/-- The halt of a port whose one QUEUED entry is merged TARGET_HALTED (08 R127, 05 R82). -/
theorem haltPort_queued (hq : (s.port d).queues[k] = [e]) (hoq : ∀ j : Sys2Proof.Class, j ≠ k → (s.port d).queues[j] = []) :
    haltPort d w s = mergeResult e (bareResult .halted false) (haltedAt s d w (drained (haltedRec w (s.port d)))) := by
  have hpost : postPort .portHalted d (some w.code) (updPort d (haltedRec w) s) = haltedAt s d w (haltedRec w (s.port d)) := by
    rw [postPort_eq]
    exact noticed_withPort _ d (haltedRec w (s.port d)) s
  have hport : (haltedAt s d w (haltedRec w (s.port d))).port d = haltedRec w (s.port d) := withPort_port ..
  rw [haltPort, show postPort .portHalted d (some w.code) (updPort d (fun r => haltedRec w r) s) = _ from hpost,
    emptyQueues_one (by rw [hport]; exact hq) (by rw [hport]; exact hoq), updPort_withPort]

/-- The third expiry of the reset timer halts a port with one QUEUED entry (08 R126). -/
theorem exec_timer_queued {i : Nat} (hs : (s.port d).state = .resetting) (ht : (s.port d).resetTimer = some i) (hi : i ≤ s.now)
    (ha : (s.port d).attempts = 3) (hp : (s.port d).pendingReset = none) (hw : (s.port d).flushWaiters = [])
    (hq : (s.port d).queues[k] = [e]) (hoq : ∀ j : Sys2Proof.Class, j ≠ k → (s.port d).queues[j] = [])
    (hR : mergeResult e (bareResult .halted false) (haltedAt s d .resetUnanswered (drained (haltedRec .resetUnanswered (s.port d)))) = R)
    (hport : R.port d = drained (haltedRec .resetUnanswered (s.port d))) (hwait : R.splitWait = []) :
    exec (.resetTimerExpiry d) s = .next R := by
  have hhalt : haltPort d .resetUnanswered s = R := (haltPort_queued hq hoq).trans hR
  have hfails : takeResetTimer d s = resetFailed d s := by
    rw [takeResetTimer, if_pos (resetTimerDue_of hs ht hi), if_neg (by omega)]
  refine congrArg Host.Outcome.next (hfails.trans ?_)
  rw [resetFailed, hhalt, endWaiters_nobody (by rw [hport]; exact hp) (by rw [hport]; exact hw), tryHeads_nil hwait]

/-- A managed row that answers with a result block after a move in which other parents may have ended (09 R137). -/
theorem exec_managed_answer {t : State} {r : Parent} {pick : Parent → Option (State → State)} {g : State → State} {st : Status} {n : Nat}
    (hr : Running r s) (hm : s.manager = some r.initiator) (hp : pick r = some (managed r g)) (hg : g s = answerResult r.id st n t)
    (ho : AdmissionOrder t) (hlive : r ∈ t.parents) :
    Host.Outcome.next (execute pick s) = (.next (answered r st (resultBlock n) t) : Host.Outcome State Fault Refusal) := by
  rw [execute_eq hr hp, managed_of g hm, hg]
  exact congrArg Host.Outcome.next (endExecution_answer st _ ho hlive hr.volume hr.slot)

/-- A lowered window halts a port with one QUEUED entry, and the PORT WRITE is then answered (05 R77, 07 R110). -/
theorem exec_window_queued {r : Parent} {b : Block} (hr : Running r s) (hm : s.manager = some r.initiator) (ha : addressed r .write 9 d.val)
    (hb : r.slots = [some b]) (hfault : parameterFault (byteAt b 0).toNat (word16At b 4).toNat (word16At b 6).toNat = none)
    (hup : (s.port d).state = .up) (hne : (s.port d).window ≠ (byteAt b 0).toNat) (hle : (byteAt b 0).toNat ≤ (s.port d).quarantinedTags)
    (hq : (s.port d).queues[k] = [e]) (hoq : ∀ j : Sys2Proof.Class, j ≠ k → (s.port d).queues[j] = [])
    (hR : mergeResult e (bareResult .halted false) (haltedAt s d .tagsExhausted (drained (haltedRec .tagsExhausted
      (withParameters (byteAt b 0).toNat (word16At b 4).toNat (word16At b 6).toNat (s.port d))))) = R)
    (hport : R.port d = drained (haltedRec .tagsExhausted
      (withParameters (byteAt b 0).toNat (word16At b 4).toNat (word16At b 6).toNat (s.port d)))) (hwait : R.splitWait = [])
    (ho : AdmissionOrder R) (hlive : r ∈ R.parents) : exec .portWrite s = .next (answered r .good (resultBlock 0) R) := by
  have hwritten : (withPort d (withParameters (byteAt b 0).toNat (word16At b 4).toNat (word16At b 6).toNat (s.port d)) s).port d
      = withParameters (byteAt b 0).toNat (word16At b 4).toNat (word16At b 6).toNat (s.port d) := withPort_port ..
  have hhalt : haltPort d .tagsExhausted (withPort d (withParameters (byteAt b 0).toNat (word16At b 4).toNat (word16At b 6).toNat (s.port d)) s) = R := by
    rw [haltPort_queued (by rw [hwritten]; exact hq) (by rw [hwritten]; exact hoq), hwritten, haltedAt, noticed_withPort]
    refine (congrArg (mergeResult e _) ?_).trans hR
    exact withPort_upd d _ (fun _ => withParameters (byteAt b 0).toNat (word16At b 4).toNat (word16At b 6).toNat (s.port d)) _
  have hset := setParameters_of_halt hup hne hle hhalt (by rw [hport]; show PortState.halted ≠ .up; decide) hwait
  exact exec_managed_answer hr hm (pickPortWrite_of ha) ((writePort_good hb hfault).trans (congrArg (answerResult r.id .good 0) hset)) ho hlive

end halt

/-! ## The READ that the result ends (06 R89, R101) -/

section ends
variable {s : State} {d : Port} {p : Parent} {pc : Piece} {e : SubCmd} {r : PortRec} {b : NoticeBody}

/-- The READ that its one failed sub-command ends, whose piece is retried already, beside a change of a port (06 R89, R94, R101). -/
abbrev readEnded (s u : State) (p : Parent) (e : SubCmd) (st : Status) : State := { freed p u with
  subs := s.subs.filter fun x => x.id ≠ e.id
  outbound := u.outbound ++ [.cpl (commandCpl p st (some p.start) p.count [])] }

theorem mergeResult_readEnded {k : ResultKind} {i : Bool} (h : SoleRead s d p pc e) (hretried : pc.retried = true) (hk : k ≠ .ok) (hk' : k ≠ .medium) :
    mergeResult e.id (bareResult k i) (withPort d r (noticed b s)) = readEnded s (withPort d r (noticed b s)) p e k.status :=
  mergeResult_readFails h (withPort d r (noticed b s)) (noticed_parents ..) (noticed_subs ..) (noticed_next ..) k i (fun c _ => retryTarget_retried hretried c _) hk hk'

theorem readEnded_port {st : Status} : (readEnded s (withPort d r (noticed b s)) p e st).port d = r := withPort_port ..

theorem readEnded_wait {st : Status} (h : s.splitWait = []) : (readEnded s (withPort d r (noticed b s)) p e st).splitWait = [] :=
  (noticed_splitWait b s).trans h

/-- A notice beside the record of a port leaves the order of the Command Table as it was. -/
theorem noticedAt_order (h : AdmissionOrder s) : AdmissionOrder (withPort d r (noticed b s)) := by
  unfold AdmissionOrder
  rw [show (withPort d r (noticed b s)).parents = s.parents from noticed_parents b s,
    show (withPort d r (noticed b s)).nextParent = s.nextParent from noticed_next b s]
  exact h

theorem readEnded_order {st : Status} (h : AdmissionOrder s) : AdmissionOrder (readEnded s (withPort d r (noticed b s)) p e st) :=
  admissionOrder_freed (noticedAt_order h)

theorem readEnded_live {st : Status} {q : Parent} (hq : q ∈ s.parents) (hne : q.id ≠ p.id) :
    q ∈ (readEnded s (withPort d r (noticed b s)) p e st).parents :=
  List.mem_filter.2 ⟨by rw [show (withPort d r (noticed b s)).parents = s.parents from noticed_parents b s]; exact hq, by simpa using hne⟩

end ends

/-- Settles O55: each event is the merge of its result, which ends the READ. -/
theorem portLossResetAndHaltGiveResults : Obligations.PortLossResetAndHaltGiveResults := by
  intro s d p pc e hretried hv hwait
  simp only [noticed_withPort]
  refine ⟨fun t h ho hq => ⟨fun hs hp hw => ?lostIssued, fun r hr hm ha hs => ?resetIssued⟩,
    fun c h ht => ⟨fun hs hp hw => ?lostQueued, fun i hs hi hle h3 hp hw => ?timer, ?window⟩⟩
  case lostIssued =>
    have hended := exec_lost_issued hs h.tag ho hq hp hw (mergeResult_readEnded h.toSoleRead hretried (by decide) (by decide)) readEnded_port
      (readEnded_wait hwait)
    rw [hended]
    refine congrArg Host.Outcome.next ?_
    apply State.ext
    case ports => exact (congrArg State.ports (updPort_withPort d _ allFree (noticed (portNotice .portDown d none none none) s)) :)
    all_goals rfl
  case resetIssued =>
    have hmerge : mergeResult e.id (bareResult .reset true) (withPort d (tagFreed (resettingRec (s.port d)) t) s)
        = readEnded s (withPort d (tagFreed (resettingRec (s.port d)) t) s) p e .targetReset :=
      mergeResult_readFails h.toSoleRead (withPort d (tagFreed (resettingRec (s.port d)) t) s) rfl rfl rfl .reset true (fun c _ => retryTarget_retried hretried c _) (by decide) (by decide)
    rw [exec_reset_issued hr hm ha hs h.tag ho hmerge (withPort_port ..) hwait rfl]
    refine congrArg (fun u => Host.Outcome.next (handedOff r u)) ?_
    apply State.ext
    case ports => exact (congrArg State.ports (updPort_withPort d _ (resetBegun s.now r.id) s) :)
    all_goals rfl
  case lostQueued =>
    obtain ⟨hqc, hoq⟩ := h.queue
    exact exec_lost_queued hs hqc hoq ht hp hw (mergeResult_readEnded h.toSoleRead hretried (by decide) (by decide)) readEnded_port (readEnded_wait hwait)
  case timer =>
    obtain ⟨hqc, hoq⟩ := h.queue
    exact exec_timer_queued hs hi hle h3 hp hw hqc hoq (mergeResult_readEnded h.toSoleRead hretried (by decide) (by decide)) readEnded_port
      (readEnded_wait hwait)
  case window =>
    rintro r b w l m hr hm ha hb rfl rfl rfl h1 h2 h3 h4 h5 h6 hup hne hle
    obtain ⟨hqc, hoq⟩ := h.queue
    have hother : r.id ≠ p.id := fun he => hv ((parent_unique h.order hr.live h.live he) ▸ hr.volume)
    exact exec_window_queued hr hm ha hb (parameterFault_none h1 h2 h3 h4 h5 h6) hup hne hle hqc hoq
      (mergeResult_readEnded h.toSoleRead hretried (by decide) (by decide)) readEnded_port (readEnded_wait hwait) (readEnded_order h.order)
      (readEnded_live hr.live hother)

end Sys2Proof.Machine
end

section
/-!
The retry of the one sub-command of a READ on the other copy, by every event that fails it (06 R92), and its end where no copy takes it
(06 R101, R102).
-/

-- The package is also compiled as one text: one proof after another keeps the number of Lean's threads small there.
set_option Elab.async false

namespace Sys2Proof.Machine

section retry
variable {s u : State} {d q : Port} {p : Parent} {pc : Piece} {e : SubCmd} {x : Extent} {c : CopyNo} {y : Copy} {o : Option DTag} {n : Nat}

theorem keeping_nil (p : Parent) : keeping p [] = p := by simp [keeping]

/-- What a retry needs: a sole sub-command that is not retried, and its other copy CURRENT on another port that takes the entry (06 R92). -/
structure CanRetry (s : State) (d : Port) (p : Parent) (pc : Piece) (e : SubCmd) (x : Extent) (c : CopyNo) (y : Copy) (q : Port)
    (o : Option DTag) : Prop where
  sole : SoleRead s d p pc e
  fresh : pc.retried = false
  copy : e.copy = some c
  extent : (s.vol p.volume).live[pc.ordinal]? = some x
  other : x.copy? c.other = some y
  current : y.state = .current
  port : y.port.toNat = q.val
  away : q ≠ d
  ready : Ready s q o

/-- Where the retried entry starts on its new target (04 R62, 06 R92). -/
abbrev retryStart (p : Parent) (x : Extent) (y : Copy) : Nat := p.start - x.first.toNat + y.first.toNat

/-- A failed result of a sub-command that may be retried goes to the other copy, in a part that differs only in other ports' affairs (06 R92). -/
theorem mergeResult_retriedTo (h : CanRetry s d p pc e x c y q o) (hp : u.parents = s.parents) (hs : u.subs = s.subs)
    (hn : u.nextParent = s.nextParent) (hv : u.volumes = s.volumes) (hq : u.port q = s.port q) (r : Result) (hk : r.kind ≠ .ok)
    (hb : r.kind = .medium ∨ r.payload = []) (hl : r.payload.length ≤ p.count) :
    mergeResult e.id r u = retriedTo (keeping p r.payload) pc e c.other q (retryStart p x y) o u := by
  have hready : Ready u q o := ready_of hq h.ready
  have hstate : (u.port q).state = .resetting ∨ (u.port q).state = .up := by
    cases o with
    | none => exact .inl hready
    | some t => exact .inr hready.1
  rw [mergeResult_retry h.sole hp hs hn hv h.fresh h.copy h.extent h.other h.current h.port hstate r hk hb hl]
  exact issueTest_retried h.sole hp hs hn rfl hready

/-- The retry that a result without payload brings (06 R92). -/
theorem mergeResult_retriedBare (h : CanRetry s d p pc e x c y q o) (hp : u.parents = s.parents) (hs : u.subs = s.subs)
    (hn : u.nextParent = s.nextParent) (hv : u.volumes = s.volumes) (hq : u.port q = s.port q) {k : ResultKind} (hk : k ≠ .ok) (i : Bool) :
    mergeResult e.id (bareResult k i) u = retriedTo p pc e c.other q (retryStart p x y) o u := by
  rw [mergeResult_retriedTo h hp hs hn hv hq (bareResult k i) hk (.inr rfl) (Nat.zero_le _)]
  exact congrArg (fun r => retriedTo r pc e c.other q _ o u) (keeping_nil p)

/-- The same beside a notice and the record of the port that failed it. -/
theorem mergeResult_retriedAt (h : CanRetry s d p pc e x c y q o) {k : ResultKind} (hk : k ≠ .ok) (i : Bool) (b : NoticeBody) (r : PortRec) :
    mergeResult e.id (bareResult k i) (withPort d r (noticed b s))
      = retriedTo p pc e c.other q (retryStart p x y) o (withPort d r (noticed b s)) := by
  refine mergeResult_retriedBare (u := withPort d r (noticed b s)) h (noticed_parents ..) (noticed_subs ..) (noticed_next ..) (noticed_volumes ..) ?_ hk i
  rw [withPort_get, if_neg h.away, noticed_port]

variable {start : Nat}

theorem retriedTo_port (h : d ≠ q) : (retriedTo p pc e c q start o u).port d = u.port d := (retriedTo_same h).1

theorem retriedTo_wait (h : d ≠ q) : (retriedTo p pc e c q start o u).splitWait = u.splitWait := (retriedTo_same h).2

theorem retriedTo_now : (retriedTo p pc e c q start o u).now = u.now := by cases o <;> rfl

theorem retriedTo_parents : (retriedTo p pc e c q start o u).parents = u.parents.map fun z =>
    if z.id = p.id then { p with pieces := [{ pc with retried := true, members := [⟨c, some e.id, none⟩] }] } else z := by
  cases o <;> rfl

theorem retriedTo_next : (retriedTo p pc e c q start o u).nextParent = u.nextParent := by cases o <;> rfl

/-- A retry leaves the order of the Command Table, and every other parent, as it was (06 R92). -/
theorem retriedTo_order (ho : AdmissionOrder u) : AdmissionOrder (retriedTo p pc e c q start o u) := by
  unfold AdmissionOrder
  rw [retriedTo_parents, retriedTo_next]
  have hid : ∀ z : Parent, (if z.id = p.id then { p with pieces := [{ pc with retried := true, members := [⟨c, some e.id, none⟩] }] } else z : Parent).id
      = z.id := fun z => by
    split
    · next h => exact h.symm
    · rfl
  constructor
  · rw [List.pairwise_map]
    exact ho.1.imp fun {a b} hab => by rw [hid, hid]; exact hab
  · intro z hz
    obtain ⟨z', hz', rfl⟩ := List.mem_map.1 hz
    rw [hid]
    exact ho.2 z' hz'

theorem retriedTo_live {r : Parent} (hr : r ∈ u.parents) (hne : r.id ≠ p.id) : r ∈ (retriedTo p pc e c q start o u).parents := by
  rw [retriedTo_parents]
  exact List.mem_map.2 ⟨r, hr, if_neg hne⟩

theorem tagFreed_state (t : DTag) : ((withPort d (tagFreed (s.port d) t) s).port q).state = (s.port q).state := by
  rw [withPort_get]
  split
  · next h => rw [h]
  · rfl

/-- No copy takes the retry: the other is absent, STALE, or on a port that is DOWN or HALTED (06 R92). -/
theorem retryTarget_none (hx : (u.vol p.volume).live[pc.ordinal]? = some x)
    (h : ∀ y, x.copy? c.other = some y → y.state = .stale
      ∨ ∃ q : Port, y.port.toNat = q.val ∧ ((u.port q).state = .down ∨ (u.port q).state = .halted)) : retryTarget p pc c u = none := by
  have hnot : ¬(x.isCurrent c.other = true ∧ usable u (x.portOfCopy c.other) = true) := by
    rintro ⟨hcur, huse⟩
    obtain ⟨y, hy, hstate⟩ := (Option.any_eq_true _ _).1 hcur
    rcases h y hy with hstale | ⟨q, hq, hdown⟩
    · rw [hstale] at hstate
      exact absurd hstate (by decide)
    · rw [portOfCopy_eq hy hq] at huse
      rcases hdown with hdown | hdown <;> simp only [usable, hdown] at huse <;> exact absurd huse (by decide)
  unfold retryTarget
  split
  · rfl
  · rw [hx]
    exact if_neg hnot

end retry

/-- Settles O54: each failing event is the merge of its result, and that merge is the retry; where no copy takes it, the TCPL ends the READ. -/
theorem failedReadIsRetriedOnOtherCopy : Obligations.FailedReadIsRetriedOnOtherCopy := by
  intro s d p pc e x c h hfresh hwait hc hx
  simp only [noticed_withPort]
  refine ⟨fun y q o w hy hcur hport hqd hready hw => ⟨fun t htag hidle => ?issued, fun k hqk hok ht => ?queued⟩,
    fun t f n st htag hst hidle ht hf hnone => ?ends⟩
  case issued =>
    have hcan : CanRetry s d p pc e x c y q o := ⟨h, hfresh, hc, hx, hy, hcur, hport, hqd, hready⟩
    have hdq : d ≠ q := Ne.symm hqd
    simp only [hw]
    refine ⟨fun f n st hst ht hf => ?tcpl, fun i hi hd hup => ?deadline, fun ho hst hp hfw => ?lost, ?reset⟩
    case tcpl =>
      obtain ⟨hne, -, hpay, hkind, -⟩ := tcplResult_fails hf h.entry.2.2.1
      have hlen : (tcplResult e f).payload.length ≤ p.count := by
        obtain ⟨-, hl, ⟨rfl, -⟩ | ⟨-, -, -, -, hlt⟩⟩ := hf
        · rw [hpay, hl]; exact Nat.zero_le _
        · rw [hpay, hl, ← h.entry.2.2.2.1]; exact Nat.le_of_lt hlt
      have hmerge := mergeResult_retriedTo (u := withPort d (tagFreed (s.port d) t) s) hcan rfl rfl rfl rfl
        ((withPort_get ..).trans (if_neg hqd)) (tcplResult e f) hne hkind hlen
      rw [hpay] at hmerge
      refine exec_tcpl_merges htag h.names h.known hst hf.1 ht hmerge ?_ ((retriedTo_wait hdq).trans hwait)
      rw [retriedTo_port hdq, withPort_port]
      exact hidle
    case deadline =>
      have hat : expiredAt s d t p.volume = withPort d { s.port d with tags := put (s.port d).tags t .quarantined }
          (noticed (portNotice .subExpired d (some (BitVec.ofNat 8 t.val)) none (some p.volume)) s) := noticed_withPort ..
      refine exec_deadline_merges h.order h.live h.entry.1 htag h.names h.known hi hd hup
        ((congrArg _ hat).trans (mergeResult_retriedAt hcan (by decide) true _ _)) ?_ ?_
      · rw [retriedTo_port hdq, withPort_port]
      · exact (retriedTo_wait hdq).trans ((noticed_splitWait ..).trans hwait)
    case lost =>
      refine (exec_lost_issued hst htag ho hidle hp hfw (mergeResult_retriedAt hcan (by decide) true _ _) ?_ ?_).trans (congrArg Host.Outcome.next ?_)
      · rw [retriedTo_port hdq, withPort_port]
      · exact (retriedTo_wait hdq).trans ((noticed_splitWait ..).trans hwait)
      · rw [updPort_retriedTo hdq, updPort_withPort]
    case reset =>
      rintro r v ho - hr hm ha hst rfl
      refine (exec_reset_issued hr hm ha hst htag ho
        (mergeResult_retriedBare (u := withPort d (tagFreed (resettingRec (s.port d)) t) s) hcan rfl rfl rfl rfl
          ((withPort_get ..).trans (if_neg hqd)) (by decide) true) ?_ ?_ ?_).trans (congrArg Host.Outcome.next ?_)
      · rw [retriedTo_port hdq, withPort_port]
      · exact (retriedTo_wait hdq).trans hwait
      · exact retriedTo_now
      · have hbegun : updPort d (resetBegun s.now r.id)
            (retriedTo p pc e c.other q (retryStart p x y) o (withPort d (tagFreed (resettingRec (s.port d)) t) s))
              = retriedTo p pc e c.other q (retryStart p x y) o (withPort d (resetBegun s.now r.id (resettingRec (s.port d))) s) := by
          rw [updPort_retriedTo hdq, updPort_withPort]
        exact congrArg (fun v : State => handedOff r { v with sent := v.sent ++ [.down d .trst] }) hbegun
  case queued =>
    have hcan : CanRetry s d p pc e x c y q o := ⟨h, hfresh, hc, hx, hy, hcur, hport, hqd, hready⟩
    have hdq : d ≠ q := Ne.symm hqd
    simp only [hw]
    refine ⟨fun hst hp hfw => ?lost, fun i hs hi hle h3 hp hfw => ?timer, ?window⟩
    case lost =>
      refine exec_lost_queued hst hqk hok ht hp hfw (mergeResult_retriedAt hcan (by decide) false _ _) ?_ ?_
      · rw [retriedTo_port hdq, withPort_port]
      · exact (retriedTo_wait hdq).trans ((noticed_splitWait ..).trans hwait)
    case timer =>
      refine exec_timer_queued hs hi hle h3 hp hfw hqk hok (mergeResult_retriedAt hcan (by decide) false _ _) ?_ ?_
      · rw [retriedTo_port hdq, withPort_port]
      · exact (retriedTo_wait hdq).trans ((noticed_splitWait ..).trans hwait)
    case window =>
      rintro r b m l n hv hr hm ha hb rfl rfl rfl h1 h2 h3 h4 h5 h6 hup hne hle
      have hother : r.id ≠ p.id := fun he => hv ((parent_unique h.order hr.live h.live he) ▸ hr.volume)
      refine exec_window_queued hr hm ha hb (parameterFault_none h1 h2 h3 h4 h5 h6) hup hne hle hqk hok
        (mergeResult_retriedAt hcan (by decide) false _ _) ?_ ?_ ?_ ?_
      · rw [retriedTo_port hdq, withPort_port]
      · exact (retriedTo_wait hdq).trans ((noticed_splitWait ..).trans hwait)
      · exact retriedTo_order (noticedAt_order h.order)
      · exact retriedTo_live ((noticed_parents ..).symm ▸ hr.live) hother
  case ends =>
    have hmerge := mergeResult_tcplFails (u := withPort d (tagFreed (s.port d) t) s) h rfl rfl rfl hf fun c' hc' => by
      obtain rfl : c = c' := Option.some.inj (hc.symm.trans hc')
      refine retryTarget_none hx fun y hy => (hnone y hy).imp_right fun ⟨q, hq, hdown⟩ => ⟨q, hq, ?_⟩
      rw [tagFreed_state]
      exact hdown
    refine exec_tcpl_merges htag h.names h.known hst hf.1 ht hmerge ?_ hwait
    show ∀ k : Sys2Proof.Class, ((withPort d _ s).port d).queues[k] = []
    rw [withPort_port]
    exact hidle

end Sys2Proof.Machine
end

section
/-!
The loss of the upstream link: what each live parent does to the tables, and what all of them leave (02 R37 to R39).

The loss goes through the parents one by one and frees each in the tables of its moment. `lossStep` says what one parent
changes beside the Command Table, in terms of the state before the loss; so what all of them change is a fold per field.
-/

-- The package is also compiled as one text: one proof after another keeps the number of Lean's threads small there.
set_option Elab.async false

namespace Sys2Proof.Machine

/-! ## One parent -/

/-- The parent has sub-commands, or had them (02 R38). -/
def runs (p : Parent) : Bool := p.state == .active || p.state == .aborting

/-- The parent is DISCARDING after the loss (02 R38). -/
def lossStays (s : State) (p : Parent) : Bool := p.state == .discarding || (runs p && holdsIssued p.id s)

/-- The entry of a parent that is DISCARDING after the loss (02 R38, 06 R95). -/
def lossKept (s : State) (p : Parent) : Parent :=
  if p.state = .discarding then p else { withoutQueued s p with state := .discarding }

/-- The report of a CONTROL_LONG parent to the Map Unit (01 R18). -/
def goneMapOf (p : Parent) : List GoneMap :=
  if p.state = .controlLong then
    match pageOp p with
    | some (.volumeWrite v) | some (.commitWrite v) => [{ volume := v, parent := p.id }]
    | _ => []
  else []

/-- The report of a CONTROL_LONG parent to a Target Port Unit (08 R130). -/
def gonePortOf (p : Parent) : List GonePort :=
  if p.state = .controlLong then
    match pageOp p with
    | some (.portResetWrite d) => [{ port := d, parent := p.id }]
    | _ => []
  else []

/-- The report of a CONTROL_LONG parent to the flush record (09 R147). -/
def goneFlushOf (p : Parent) : List ParentRef :=
  if p.state = .controlLong then
    match pageOp p with
    | some .flushAllWrite => [p.id]
    | _ => []
  else []

/-- What one parent of state `s` changes at the loss, beside the Command Table (02 R37, R38). -/
def lossStep (s w : State) (p : Parent) : State :=
  { w with
    freeSlots := if lossStays s p then w.freeSlots else w.freeSlots + p.slots.length
    initiators := if lossStays s p then w.initiators
      else put w.initiators p.initiator { w.initiators[p.initiator] with liveCount := w.initiators[p.initiator].liveCount - 1 }
    mapReports := if !lossStays s p && p.volume != 0 then w.mapReports ++ [⟨p.volume, p.generation.isSome⟩] else w.mapReports
    orderReports := if !lossStays s p && p.volume != 0 then w.orderReports ++ [⟨p.volume, p.id⟩] else w.orderReports
    goneMap := w.goneMap ++ goneMapOf p
    gonePort := w.gonePort ++ gonePortOf p
    goneFlush := w.goneFlush ++ goneFlushOf p
    controlQueue := if p.state == .controlWait then w.controlQueue.erase p.id else w.controlQueue
    executing := if p.state = .controlActive then none else w.executing
    holds := if p.state = .orderWait then put w.holds p.volume (w.holds[p.volume].filter fun h => h.parent != p.id) else w.holds
    splitWait := if p.state == .splitWait then w.splitWait.erase p.id else w.splitWait
    switchHolds := if p.state = .switchWait then put w.switchHolds p.volume (w.switchHolds[p.volume].erase p.id) else w.switchHolds
    subs := if runs p then w.subs.filter fun e => !(e.parent == p.id && e.issue.isNone) else w.subs
    ports := if runs p then mapRows (PortRec.without (queuedSubs p.id s)) w.ports else w.ports }

/-- The part in the middle of the loss: the tables `w`, with the Command Table given apart. -/
def withParents (w : State) (l : List Parent) : State := { w with parents := l }

/-- The sub-commands of a parent are the ones of before the loss. -/
def SubsOf (s w : State) (id : ParentRef) : Prop := w.subs.filter (fun e => e.parent == id) = s.subs.filter fun e => e.parent == id

theorem SubsOf.holdsIssued {s w : State} {id : ParentRef} (h : SubsOf s w id) : holdsIssued id w = holdsIssued id s := by
  have hcount (u : State) : Sys2Proof.Machine.holdsIssued id u = (u.subs.filter fun e => e.parent == id).any fun e => e.issue.isSome := by
    rw [List.any_filter]; rfl
  rw [hcount, hcount, h]

theorem SubsOf.queuedSubs {s w : State} {id : ParentRef} (h : SubsOf s w id) : queuedSubs id w = queuedSubs id s := by
  have hqueued (u : State) : Sys2Proof.Machine.queuedSubs id u
      = ((u.subs.filter fun e => e.parent == id).filter fun e => e.issue.isNone).map SubCmd.id := by
    rw [List.filter_filter]
    exact congrArg (List.map SubCmd.id) (List.filter_congr fun e _ => Bool.and_comm ..)
  rw [hqueued, hqueued, h]

theorem SubsOf.lossStep {s w : State} {p : Parent} {id : ParentRef} (h : SubsOf s w id) (hne : p.id ≠ id) : SubsOf s (lossStep s w p) id := by
  refine Eq.trans ?_ h
  show List.filter _ (if runs p then _ else _) = _
  split
  · rw [List.filter_filter]
    refine List.filter_congr fun e _ => ?_
    by_cases he : e.parent = id
    · simp [he, hne.symm]
    · simp [he]
  · rfl

section step
variable {s w : State} {p : Parent} {L rest : List Parent}

/-- The middle of the loss, at parent `p` (02 R38). -/
structure AtLoss (s w : State) (L : List Parent) (p : Parent) (rest : List Parent) : Prop where
  order : AdmissionOrder (withParents w (L ++ p :: rest))
  subs : SubsOf s w p.id

theorem AtLoss.live (_ : AtLoss s w L p rest) : p ∈ (withParents w (L ++ p :: rest)).parents := by simp [withParents]

/-- A parent that waits for its turn is freed (02 R38). -/
theorem discard_waiting (h : AtLoss s w L p rest)
    (hst : p.state = .controlWait ∨ p.state = .orderWait ∨ p.state = .splitWait ∨ p.state = .switchWait) :
    discard (withParents w (L ++ p :: rest)) p = withParents (lossStep s w p) (L ++ rest) := by
  obtain ⟨hparents, hnext, -⟩ := leaveWait_parents p (withParents w (L ++ p :: rest))
  have hfree : discard (withParents w (L ++ p :: rest)) p = freed p (leaveWait p (withParents w (L ++ p :: rest))) := by
    have hdiscard : discard (withParents w (L ++ p :: rest)) p = freeParent p.id (leaveWait p (withParents w (L ++ p :: rest))) := by
      rcases hst with e | e | e | e <;> simp only [discard, e]
    rw [hdiscard]
    exact freeParent_eq (by unfold AdmissionOrder; rw [hparents, hnext]; exact h.order) (by rw [hparents]; exact h.live)
  rw [hfree]
  apply State.ext
  case parents => exact (congrArg (List.filter _) hparents).trans (filter_middle h.order.1)
  all_goals rcases hst with e | e | e | e <;>
    simp [freed, leaveWait, lossStep, lossStays, runs, goneMapOf, gonePortOf, goneFlushOf, withParents, e]

/-- The parent that is executing is freed, and the Control Unit executes nothing (02 R38). -/
theorem discard_executing (h : AtLoss s w L p rest) (hst : p.state = .controlActive) :
    discard (withParents w (L ++ p :: rest)) p = withParents (lossStep s w p) (L ++ rest) := by
  have hfree : discard (withParents w (L ++ p :: rest)) p = freed p { withParents w (L ++ p :: rest) with executing := none } := by
    simp only [discard, hst]
    exact freeParent_eq (by exact h.order) (by exact h.live)
  rw [hfree]
  apply State.ext
  case parents => exact filter_middle h.order.1
  all_goals simp [freed, lossStep, lossStays, runs, goneMapOf, gonePortOf, goneFlushOf, withParents, hst]

/-- The owner of a long operation is told where its parent stands in the outbound reports (02 R38). -/
theorem reportGone_eq (hst : p.state = .controlLong) (u : State) : reportGone p u =
    { u with goneMap := u.goneMap ++ goneMapOf p, gonePort := u.gonePort ++ gonePortOf p, goneFlush := u.goneFlush ++ goneFlushOf p } := by
  unfold reportGone goneMapOf gonePortOf goneFlushOf
  rw [if_pos hst, if_pos hst, if_pos hst]
  cases pageOp p with
  | none => simp only [List.append_nil]
  | some x => cases x <;> simp only [List.append_nil]

/-- The parent of a long operation is freed, and the operation's owner is told (02 R38). -/
theorem discard_long (h : AtLoss s w L p rest) (hst : p.state = .controlLong) :
    discard (withParents w (L ++ p :: rest)) p = withParents (lossStep s w p) (L ++ rest) := by
  have hfree : discard (withParents w (L ++ p :: rest)) p = reportGone p (freed p (withParents w (L ++ p :: rest))) := by
    simp only [discard, hst]
    exact congrArg (reportGone p) (freeParent_eq h.order h.live)
  rw [hfree, reportGone_eq hst]
  apply State.ext
  case parents => exact filter_middle h.order.1
  all_goals simp [freed, lossStep, lossStays, runs, withParents, hst]

/-- A parent whose sub-commands are all QUEUED is freed without them (02 R38). -/
theorem freeParent_removeQueued {u : State} (ho : AdmissionOrder u) (hp : p ∈ u.parents) :
    freeParent p.id (removeQueued p.id u) = { freed p u with subs := (removeQueued p.id u).subs, ports := (removeQueued p.id u).ports } := by
  refine (freeParent_eq (p := { p with pieces := p.pieces.map (Piece.without (queuedSubs p.id u)) })
    (admissionOrder_removeQueued ho) (List.mem_map.2 ⟨p, hp, if_pos rfl⟩)).trans ?_
  apply State.ext
  case parents => exact filter_map_id (f := fun q => { q with pieces := q.pieces.map (Piece.without (queuedSubs p.id u)) }) fun _ => rfl
  all_goals rfl

/-- The tables that an ACTIVE or ABORTING parent leaves without its QUEUED sub-commands (05 R83). -/
theorem removeQueued_tables (h : AtLoss s w L p rest) (hr : runs p = true) :
    (removeQueued p.id (withParents w (L ++ p :: rest))).subs = (lossStep s w p).subs
      ∧ (removeQueued p.id (withParents w (L ++ p :: rest))).ports = (lossStep s w p).ports := by
  refine ⟨(if_pos hr).symm, ?_⟩
  show mapRows (PortRec.without (queuedSubs p.id w)) w.ports = if runs p then _ else _
  rw [if_pos hr, h.subs.queuedSubs]

theorem withoutQueued_withParents (h : SubsOf s w p.id) (l : List Parent) : withoutQueued (withParents w l) p = withoutQueued s p := by
  rw [← withoutQueued_eq, ← withoutQueued_eq]
  exact congrArg (fun refs => { p with pieces := p.pieces.map (Piece.without refs) }) h.queuedSubs

/-- The Command Table entry of one parent after the loss, if it is still there (02 R38). -/
def lossEntry (s : State) (p : Parent) : List Parent := if lossStays s p then [lossKept s p] else []

/-- An ACTIVE or ABORTING parent loses its QUEUED sub-commands, and is freed when it has no ISSUED one (02 R38). -/
theorem discard_running (h : AtLoss s w L p rest) (hst : p.state = .active ∨ p.state = .aborting) :
    discard (withParents w (L ++ p :: rest)) p = withParents (lossStep s w p) (L ++ lossEntry s p ++ rest) := by
  have hruns : runs p = true := by rcases hst with e | e <;> simp [runs, e]
  have hne : p.state ≠ .discarding := by rcases hst with e | e <;> simp [e]
  obtain ⟨hsubs, hports⟩ := removeQueued_tables h hruns
  have hdiscard : discard (withParents w (L ++ p :: rest)) p = discardRunning p (withParents w (L ++ p :: rest)) := by
    rcases hst with e | e <;> simp only [discard, e]
  have hissued : holdsIssued p.id (removeQueued p.id (withParents w (L ++ p :: rest))) = holdsIssued p.id s :=
    (holdsIssued_removeQueued_self ..).trans h.subs.holdsIssued
  have hstays : lossStays s p = holdsIssued p.id s := by simp [lossStays, hruns, hne]
  have hgone : goneMapOf p = [] ∧ gonePortOf p = [] ∧ goneFlushOf p = [] := by
    rcases hst with e | e <;> simp [goneMapOf, gonePortOf, goneFlushOf, e]
  obtain ⟨hmap, hport, hflush⟩ := hgone
  rw [hdiscard, discardRunning, hissued, ← hstays]
  cases hs : lossStays s p
  case true =>
    rw [if_pos rfl, setState_removeQueued .discarding h.order h.live, hsubs, hports, withoutQueued_withParents h.subs]
    apply State.ext
    case parents =>
      refine (map_middle (f := fun _ => { withoutQueued s p with state := .discarding }) h.order.1).trans ?_
      simp [lossEntry, hs, lossKept, hne, withParents]
    all_goals rcases hst with e | e <;> simp [lossStep, hs, hmap, hport, hflush, withParents, e]
  case false =>
    rw [if_neg (by decide), freeParent_removeQueued h.order h.live, hsubs, hports]
    apply State.ext
    case parents =>
      refine (filter_middle h.order.1).trans ?_
      simp [lossEntry, hs, withParents]
    all_goals rcases hst with e | e <;> simp [freed, lossStep, hs, hmap, hport, hflush, withParents, e]

/-- What the loss does at one parent, whatever its state (02 R38). -/
theorem discard_eq (h : AtLoss s w L p rest) :
    discard (withParents w (L ++ p :: rest)) p = withParents (lossStep s w p) (L ++ lossEntry s p ++ rest) := by
  have gone (hs : lossStays s p = false)
      (hd : discard (withParents w (L ++ p :: rest)) p = withParents (lossStep s w p) (L ++ rest)) :
      discard (withParents w (L ++ p :: rest)) p = withParents (lossStep s w p) (L ++ lossEntry s p ++ rest) := by
    rw [hd, lossEntry, hs, if_neg (by decide), List.append_nil]
  cases hst : p.state
  case controlWait => exact gone (by simp [lossStays, runs, hst]) (discard_waiting h (.inl hst))
  case orderWait => exact gone (by simp [lossStays, runs, hst]) (discard_waiting h (.inr (.inl hst)))
  case splitWait => exact gone (by simp [lossStays, runs, hst]) (discard_waiting h (.inr (.inr (.inl hst))))
  case switchWait => exact gone (by simp [lossStays, runs, hst]) (discard_waiting h (.inr (.inr (.inr hst))))
  case controlActive => exact gone (by simp [lossStays, runs, hst]) (discard_executing h hst)
  case controlLong => exact gone (by simp [lossStays, runs, hst]) (discard_long h hst)
  case active => exact discard_running h (.inl hst)
  case aborting => exact discard_running h (.inr hst)
  case discarding =>
    simp only [discard, hst]
    apply State.ext
    case parents => simp [lossEntry, lossStays, lossKept, hst, withParents]
    all_goals simp [lossStep, lossStays, runs, goneMapOf, gonePortOf, goneFlushOf, withParents, hst]

end step

/-! ## All parents -/

theorem lossEntry_ids (s : State) (p : Parent) : ((lossEntry s p).map Parent.id).Sublist [p.id] := by
  unfold lossEntry lossKept
  split
  · split <;> exact List.Sublist.refl _
  · exact List.nil_sublist _

theorem admissionOrder_iff {u : State} : AdmissionOrder u ↔
    (u.parents.map Parent.id).Pairwise (· < ·) ∧ ∀ id ∈ u.parents.map Parent.id, id < u.nextParent := by
  simp only [AdmissionOrder, List.pairwise_map, List.forall_mem_map]

/-- The loss, parent by parent: the tables of each step, and the Command Table with the parents that stay (02 R38). -/
theorem foldl_discard (s : State) : ∀ (rest L : List Parent) (w : State), AdmissionOrder (withParents w (L ++ rest)) →
    (∀ p ∈ rest, SubsOf s w p.id) →
    rest.foldl discard (withParents w (L ++ rest)) = withParents (rest.foldl (lossStep s) w) (L ++ rest.flatMap (lossEntry s))
  | [], L, w, _, _ => by simp only [List.foldl_nil, List.flatMap_nil]
  | p :: rest, L, w, ho, hs => by
    rw [List.foldl_cons, discard_eq ⟨ho, hs p List.mem_cons_self⟩, List.foldl_cons, List.flatMap_cons, ← List.append_assoc]
    refine foldl_discard s rest (L ++ lossEntry s p) (lossStep s w p) ?_ fun q hq => ?_
    · obtain ⟨hpair, hnext⟩ := admissionOrder_iff.1 ho
      have hsub : ((L ++ lossEntry s p ++ rest).map Parent.id).Sublist ((L ++ p :: rest).map Parent.id) := by
        rw [List.append_assoc, List.map_append, List.map_append, List.map_append, List.map_cons]
        exact (List.Sublist.refl _).append ((lossEntry_ids s p).append (List.Sublist.refl _))
      exact admissionOrder_iff.2 ⟨hpair.sublist hsub, fun id hid => hnext id (hsub.subset hid)⟩
    · have hpair := (List.pairwise_append.1 ho.1).2.1
      exact (hs q (List.mem_cons_of_mem p hq)).lossStep (Nat.ne_of_lt ((List.pairwise_cons.1 hpair).1 q hq))

end Sys2Proof.Machine
end

section
/-!
The loss of the upstream link, table by table: what all the live parents together leave (02 R37 to R39).
-/

-- The package is also compiled as one text: one proof after another keeps the number of Lean's threads small there.
set_option Elab.async false

namespace Sys2Proof.Machine

/-! ## Folds -/

section folds
variable {α β : Type} {c : β → Bool}

theorem foldl_appendIf (f : β → α) : ∀ (l : List β) (xs : List α),
    l.foldl (fun xs p => if c p then xs ++ [f p] else xs) xs = xs ++ (l.filter c).map f
  | [], xs => by simp
  | p :: l, xs => by
    rw [List.foldl_cons, foldl_appendIf f l]
    cases h : c p <;> simp [h]

theorem foldl_eraseIf [BEq α] [LawfulBEq α] (f : β → α) : ∀ (l : List β) (xs : List α),
    l.foldl (fun xs p => if c p then xs.erase (f p) else xs) xs = xs.diff ((l.filter c).map f)
  | [], xs => by simp
  | p :: l, xs => by
    rw [List.foldl_cons, foldl_eraseIf f l]
    cases h : c p <;> simp [h]

theorem foldl_filter (g : β → α → Bool) : ∀ (l : List β) (xs : List α),
    l.foldl (fun xs p => xs.filter (g p)) xs = xs.filter fun x => l.all fun p => g p x
  | [], xs => by simp
  | p :: l, xs => by
    rw [List.foldl_cons, foldl_filter g l, List.filter_filter]
    exact List.filter_congr fun x _ => by rw [List.all_cons, Bool.and_comm]

theorem foldl_addUnless (f : β → Nat) : ∀ (l : List β) (n : Nat),
    l.foldl (fun n p => if c p then n else n + f p) n = n + ((l.filter fun p => !c p).map f).sum
  | [], n => by simp
  | p :: l, n => by
    rw [List.foldl_cons, foldl_addUnless f l]
    cases h : c p <;> simp [h, Nat.add_assoc]

theorem foldl_clearIf (P : β → Prop) [DecidablePred P] : ∀ (l : List β) (x : Option α),
    l.foldl (fun x p => if P p then none else x) x = if ∃ p ∈ l, P p then none else x
  | [], x => by simp
  | p :: l, x => by
    rw [List.foldl_cons, foldl_clearIf P l]
    by_cases h : P p <;> simp [h]

theorem foldl_liveCount : ∀ (l : List β) (r : InitRec),
    l.foldl (fun r p => if c p then { r with liveCount := r.liveCount - 1 } else r) r = { r with liveCount := r.liveCount - l.countP c }
  | [], r => by simp
  | p :: l, r => by
    rw [List.foldl_cons, foldl_liveCount l]
    cases h : c p <;> simp [h, Nat.sub_sub, Nat.add_comm]

end folds

/-! ## Each table -/

section tables
variable {s : State} (l : List Parent) (w : State)

/-- A part of the state that every parent changes by itself is changed by their fold. -/
theorem lossSteps_fold {α : Type} (f : State → α) {g : α → Parent → α} (h : ∀ w p, g (f w) p = f (lossStep s w p)) :
    f (l.foldl (lossStep s) w) = l.foldl g (f w) := (List.foldl_hom f h).symm

/-- A part of the state that no parent changes. -/
theorem lossSteps_unchanged {α : Type} (f : State → α) (h : ∀ w p, f (lossStep s w p) = f w) : f (l.foldl (lossStep s) w) = f w :=
  (lossSteps_fold l w f (g := fun x _ => x) fun w p => (h w p).symm).trans (List.foldl_fixed l)

theorem lossSteps_freeSlots : (l.foldl (lossStep s) w).freeSlots
    = w.freeSlots + ((l.filter fun p => !lossStays s p).map fun p => p.slots.length).sum :=
  (lossSteps_fold l w State.freeSlots fun _ _ => rfl).trans (foldl_addUnless ..)

theorem lossSteps_initiators (i : Initiator) : (l.foldl (lossStep s) w).initiators[i]
    = { w.initiators[i] with liveCount := w.initiators[i].liveCount - l.countP fun p => !lossStays s p && p.initiator == i } := by
  refine (lossSteps_fold l w (fun u => u.initiators[i])
    (g := fun r p => if !lossStays s p && p.initiator == i then { r with liveCount := r.liveCount - 1 } else r) fun u p => ?_).trans (foldl_liveCount ..)
  show _ = (if lossStays s p then u.initiators else put _ _ _)[i]
  cases lossStays s p
  case true => rfl
  case false =>
    rw [if_neg (α := Vector InitRec 16) Bool.false_ne_true, put_get]
    by_cases h : p.initiator = i
    · subst h; simp
    · simp [h, Ne.symm h]

theorem lossSteps_mapReports : (l.foldl (lossStep s) w).mapReports
    = w.mapReports ++ (l.filter fun p => !lossStays s p && p.volume != 0).map (fun p => ⟨p.volume, p.generation.isSome⟩) :=
  (lossSteps_fold l w State.mapReports fun _ _ => rfl).trans (foldl_appendIf ..)

theorem lossSteps_orderReports : (l.foldl (lossStep s) w).orderReports
    = w.orderReports ++ (l.filter fun p => !lossStays s p && p.volume != 0).map (fun p => ⟨p.volume, p.id⟩) :=
  (lossSteps_fold l w State.orderReports fun _ _ => rfl).trans (foldl_appendIf ..)

theorem lossSteps_goneMap : (l.foldl (lossStep s) w).goneMap = w.goneMap ++ (l.map goneMapOf).flatten :=
  (lossSteps_fold l w State.goneMap fun _ _ => rfl).trans List.foldl_append_eq_append

theorem lossSteps_gonePort : (l.foldl (lossStep s) w).gonePort = w.gonePort ++ (l.map gonePortOf).flatten :=
  (lossSteps_fold l w State.gonePort fun _ _ => rfl).trans List.foldl_append_eq_append

theorem lossSteps_goneFlush : (l.foldl (lossStep s) w).goneFlush = w.goneFlush ++ (l.map goneFlushOf).flatten :=
  (lossSteps_fold l w State.goneFlush fun _ _ => rfl).trans List.foldl_append_eq_append

theorem lossSteps_controlQueue : (l.foldl (lossStep s) w).controlQueue
    = w.controlQueue.diff ((l.filter fun p => p.state == .controlWait).map Parent.id) :=
  (lossSteps_fold l w State.controlQueue fun _ _ => rfl).trans (foldl_eraseIf ..)

theorem lossSteps_splitWait : (l.foldl (lossStep s) w).splitWait
    = w.splitWait.diff ((l.filter fun p => p.state == .splitWait).map Parent.id) :=
  (lossSteps_fold l w State.splitWait fun _ _ => rfl).trans (foldl_eraseIf ..)

theorem lossSteps_executing : (l.foldl (lossStep s) w).executing = if ∃ p ∈ l, p.state = .controlActive then none else w.executing :=
  (lossSteps_fold l w State.executing fun _ _ => rfl).trans (foldl_clearIf ..)

theorem lossSteps_holds (v : Volume) : (l.foldl (lossStep s) w).holds[v]
    = w.holds[v].filter fun h => !l.any fun p => p.state == .orderWait && p.volume == v && p.id == h.parent := by
  refine (lossSteps_fold l w (fun u => u.holds[v])
    (g := fun xs p => xs.filter fun h => !(p.state == .orderWait && p.volume == v && p.id == h.parent)) fun u p => ?_).trans ((foldl_filter ..).trans ?_)
  · show _ = (if p.state = .orderWait then put _ _ _ else u.holds)[v]
    by_cases hst : p.state = .orderWait
    · rw [if_pos hst, put_get]
      by_cases hv : p.volume = v
      · subst hv; simp [hst, Bool.beq_comm, bne]
      · simp [hv, Ne.symm hv]
    · rw [if_neg hst]; simp [hst]
  · exact List.filter_congr fun h _ => by rw [List.not_any_eq_all_not]

theorem lossSteps_switchHolds (v : Volume) : (l.foldl (lossStep s) w).switchHolds[v]
    = w.switchHolds[v].diff ((l.filter fun p => p.state == .switchWait && p.volume == v).map Parent.id) := by
  refine (lossSteps_fold l w (fun u => u.switchHolds[v])
    (g := fun xs p => if p.state == .switchWait && p.volume == v then xs.erase p.id else xs) fun u p => ?_).trans (foldl_eraseIf ..)
  show _ = (if p.state = .switchWait then put _ _ _ else u.switchHolds)[v]
  by_cases hst : p.state = .switchWait
  · rw [if_pos hst, put_get]
    by_cases hv : p.volume = v
    · subst hv; simp [hst]
    · simp [hv, Ne.symm hv]
  · rw [if_neg hst]; simp [hst]

theorem lossSteps_subs : (l.foldl (lossStep s) w).subs
    = w.subs.filter fun e => !(e.issue.isNone && l.any fun p => p.id == e.parent && (p.state == .active || p.state == .aborting)) := by
  refine (lossSteps_fold l w State.subs
    (g := fun xs p => xs.filter fun e => !(runs p && (e.parent == p.id && e.issue.isNone))) fun u p => ?_).trans ((foldl_filter ..).trans ?_)
  · show _ = if runs p then _ else u.subs
    cases runs p <;> simp
  · refine List.filter_congr fun e _ => ?_
    rw [← List.not_any_eq_all_not]
    refine congrArg not (Bool.eq_iff_iff.2 ?_)
    simp only [List.any_eq_true, Bool.and_eq_true, runs, beq_iff_eq]
    constructor
    · rintro ⟨p, hp, hruns, hparent, hissue⟩
      exact ⟨hissue, p, hp, hparent.symm, hruns⟩
    · rintro ⟨hissue, p, hp, hparent, hruns⟩
      exact ⟨p, hp, hruns, hparent.symm, hissue⟩

theorem lossSteps_queues (d : Port) (c : Sys2Proof.Class) : ((l.foldl (lossStep s) w).port d).queues[c]
    = (w.port d).queues[c].filter fun r => !(s.subs.any fun e =>
        e.id == r && e.issue.isNone && l.any fun p => p.id == e.parent && (p.state == .active || p.state == .aborting)) := by
  refine (lossSteps_fold l w (fun u => (u.port d).queues[c])
    (g := fun xs p => xs.filter fun r => !(runs p && (queuedSubs p.id s).contains r)) fun u p => ?_).trans ((foldl_filter ..).trans ?_)
  · show _ = ((if runs p then mapRows _ u.ports else u.ports)[d]).queues[c]
    cases runs p
    · simp [State.port]
    · simp [State.port, PortRec.without]
  · refine List.filter_congr fun r _ => ?_
    rw [← List.not_any_eq_all_not]
    refine congrArg not (Bool.eq_iff_iff.2 ?_)
    simp only [List.any_eq_true, Bool.and_eq_true, queuedSubs_contains, runs, beq_iff_eq]
    constructor
    · rintro ⟨p, hp, hruns, e, he, ⟨hid, hparent⟩, hissue⟩
      exact ⟨e, he, ⟨hid, hissue⟩, p, hp, hparent.symm, hruns⟩
    · rintro ⟨e, he, ⟨hid, hissue⟩, p, hp, hparent, hruns⟩
      exact ⟨p, hp, hruns, e, he, ⟨hid, hparent.symm⟩, hissue⟩

theorem lossSteps_port (d : Port) {q : Vector (List SubRef) 4} :
    { (l.foldl (lossStep s) w).port d with queues := q } = { w.port d with queues := q } := by
  refine lossSteps_unchanged l w (fun u => { u.port d with queues := q }) fun u p => ?_
  show { (if runs p then mapRows _ u.ports else u.ports)[d] with queues := q } = _
  cases runs p
  · rfl
  · simp [State.port, PortRec.without]

end tables

/-! ## The owners that are told (02 R37 step 7) -/

section owners
variable {p : Parent} {v : Volume} {d : Port} {n pg sel : Nat} {x : PageOp}

theorem selVolume_iff : selVolume n = some v ↔ v ≠ 0 ∧ n = v.val := by
  constructor
  · intro h
    unfold selVolume at h
    split at h
    · next hn =>
      obtain rfl := Option.some.inj h
      exact ⟨fun h0 => absurd (congrArg Fin.val h0) (by simp; omega), rfl⟩
    · cases h
  · rintro ⟨hv, rfl⟩
    exact selVolume_of hv

theorem selPort_iff : selPort n = some d ↔ n = d.val := by
  constructor
  · intro h
    unfold selPort at h
    split at h
    · exact congrArg Fin.val (Option.some.inj h)
    · cases h
  · rintro rfl
    exact selPort_of d

/-- Where the WRITE of a long operation is addressed (09 R135). -/
def longPage : PageOp → Option (Nat × Nat)
  | .volumeWrite v => some (4, v.val)
  | .commitWrite v => some (6, v.val)
  | .portResetWrite d => some (10, d.val)
  | .flushAllWrite => some (11, 0)
  | _ => none

/-- The volume of a long operation of the Map Unit is a data volume (09 R135). -/
def longVolume : PageOp → Prop
  | .volumeWrite v | .commitWrite v => v ≠ 0
  | _ => True

theorem readPage_longPage (h : readPage pg sel = some x) : longPage x = none := by
  unfold readPage selZero at h
  split at h
  case h_1 | h_2 | h_3 =>
    split at h
    · obtain rfl := Option.some.inj h; rfl
    · cases h
  case h_4 | h_5 | h_6 | h_7 | h_8 | h_9 => obtain ⟨y, -, rfl⟩ := Option.map_eq_some_iff.1 h; rfl
  case h_10 => cases h

theorem writePage_longPage {a : Nat × Nat} (h : writePage pg sel = some x) (hx : longPage x = some a) : a = (pg, sel) ∧ longVolume x := by
  unfold writePage selZero at h
  split at h
  case h_1 =>
    split at h
    · obtain rfl := Option.some.inj h; cases hx
    · cases h
  case h_2 | h_4 =>
    obtain ⟨y, hy, rfl⟩ := Option.map_eq_some_iff.1 h
    obtain ⟨hv, rfl⟩ := selVolume_iff.1 hy
    exact ⟨(Option.some.inj hx).symm, hv⟩
  case h_3 | h_5 | h_6 | h_7 => obtain ⟨y, -, rfl⟩ := Option.map_eq_some_iff.1 h; cases hx
  case h_8 =>
    obtain ⟨y, hy, rfl⟩ := Option.map_eq_some_iff.1 h
    obtain rfl := selPort_iff.1 hy
    exact ⟨(Option.some.inj hx).symm, trivial⟩
  case h_9 =>
    split at h
    · next h0 => obtain rfl := Option.some.inj h; subst h0; exact ⟨(Option.some.inj hx).symm, trivial⟩
    · cases h
  case h_10 => cases h

/-- A parent whose page names a long operation is addressed to its page, by a WRITE (09 R135). -/
theorem addressed_of_pageOp (h : pageOp p = some x) (hx : longPage x = some (pg, sel)) : addressed p .write pg sel ∧ longVolume x := by
  unfold pageOp at h
  split at h
  case h_1 => exact absurd ((readPage_longPage h).symm.trans hx) (by simp)
  case h_2 hop =>
    obtain ⟨ha, hvol⟩ := writePage_longPage h hx
    obtain ⟨rfl, rfl⟩ := Prod.mk.inj ha
    exact ⟨⟨hop, (Nat.div_add_mod' _ _).symm, Nat.mod_lt _ (by decide)⟩, hvol⟩
  case h_3 | h_4 => cases h

theorem pageOp_volumeWrite_iff : pageOp p = some (.volumeWrite v) ↔ v ≠ 0 ∧ addressed p .write 4 v.val :=
  ⟨fun h => (addressed_of_pageOp h rfl).symm, fun ⟨hv, ha⟩ => pageOp_volumeWrite hv ha⟩

theorem pageOp_commitWrite_iff : pageOp p = some (.commitWrite v) ↔ v ≠ 0 ∧ addressed p .write 6 v.val :=
  ⟨fun h => (addressed_of_pageOp h rfl).symm, fun ⟨hv, ha⟩ => pageOp_commitWrite hv ha⟩

theorem pageOp_portReset_iff : pageOp p = some (.portResetWrite d) ↔ addressed p .write 10 d.val :=
  ⟨fun h => (addressed_of_pageOp h rfl).1, pageOp_portReset⟩

theorem pageOp_flushAll_iff : pageOp p = some .flushAllWrite ↔ addressed p .write 11 0 :=
  ⟨fun h => (addressed_of_pageOp h rfl).1, fun ha => by rw [pageOp_write ha]; rfl⟩

theorem mem_goneMapOf {g : GoneMap} : g ∈ goneMapOf p ↔ g.volume ≠ 0 ∧ p.id = g.parent ∧ p.state = .controlLong
    ∧ (addressed p .write 4 g.volume.val ∨ addressed p .write 6 g.volume.val) := by
  have hop : g ∈ goneMapOf p ↔ p.state = .controlLong ∧ p.id = g.parent
      ∧ (pageOp p = some (.volumeWrite g.volume) ∨ pageOp p = some (.commitWrite g.volume)) := by
    obtain ⟨v, id⟩ := g
    unfold goneMapOf
    split <;> rename_i hst
    · split
      case h_1 h | h_2 h => simp [hst, h, eq_comm, and_comm]
      case h_3 hwrite hcommit =>
        exact ⟨fun hg => absurd hg List.not_mem_nil, fun ⟨_, _, hp⟩ => (hp.elim (hwrite v) (hcommit v)).elim⟩
    · simp [hst]
  rw [hop, pageOp_volumeWrite_iff, pageOp_commitWrite_iff, ← and_or_left]
  tauto

theorem mem_gonePortOf {g : GonePort} : g ∈ gonePortOf p ↔ p.id = g.parent ∧ p.state = .controlLong ∧ addressed p .write 10 g.port.val := by
  rw [← pageOp_portReset_iff]
  obtain ⟨d, id⟩ := g
  unfold gonePortOf
  split <;> rename_i hst
  · split
    case h_1 h => simp [hst, h, eq_comm, and_comm]
    case h_2 hother => exact ⟨fun hg => absurd hg List.not_mem_nil, fun ⟨_, _, hp⟩ => (hother d hp).elim⟩
  · simp [hst]

theorem mem_goneFlushOf {g : ParentRef} : g ∈ goneFlushOf p ↔ p.id = g ∧ p.state = .controlLong ∧ addressed p .write 11 0 := by
  rw [← pageOp_flushAll_iff]
  unfold goneFlushOf
  split <;> rename_i hst
  · split
    case h_1 h => simp [hst, h, eq_comm]
    case h_2 hother => exact ⟨fun hg => absurd hg List.not_mem_nil, fun ⟨_, _, hp⟩ => (hother hp).elim⟩
  · simp [hst]

end owners

/-! ## The loss as a whole -/

section notice
variable {n : Nat} (u : State)

/-- The notice of the loss is the one thing that the cleared state may still change; without a manager it sends no ALR (09 R150). -/
theorem postDiscarded_cleared : postDiscarded n (clearManager u) = { clearManager u with
    notices := (postDiscarded n (clearManager u)).notices
    seq := (postDiscarded n (clearManager u)).seq
    dropped := (postDiscarded n (clearManager u)).dropped } := by
  unfold postDiscarded
  split
  · rfl
  · rw [post_eq, noticed]
    split <;> rfl

theorem postDiscarded_stored (hn : n ≠ 0) (h : u.notices.length < 32) : postDiscarded n (clearManager u) = { clearManager u with
    notices := u.notices ++ [{ seq := u.seq, body := { notice .trafficDiscarded with reason := some n } }], seq := u.seq + 1 } := by
  rw [postDiscarded, if_neg hn, post_eq, noticed]
  exact if_neg (Nat.not_le.2 h)

theorem postDiscarded_dropped (hn : n ≠ 0) (h : 32 ≤ u.notices.length) : postDiscarded n (clearManager u)
    = { clearManager u with dropped := if u.dropped < 65535 then u.dropped + 1 else u.dropped } := by
  rw [postDiscarded, if_neg hn, post_eq, noticed]
  exact if_pos h

end notice

/-- The state of the loss before the parents take it (02 R38). -/
def linkDown (s : State) : State := { s with linkUp := false }

/-- The tables that all parents leave at the loss (02 R38). -/
def lossTables (s : State) : State := s.parents.foldl (lossStep s) (linkDown s)

theorem flatMap_lossEntry (s : State) (l : List Parent) : l.flatMap (lossEntry s) = (l.filter (lossStays s)).map (lossKept s) := by
  induction l with
  | nil => rfl
  | cons p l ih => rw [List.flatMap_cons, ih, lossEntry]; cases h : lossStays s p <;> simp [h]

/-- The state after the loss but for its notice (02 R38, R39). -/
def lossEnd (s : State) : State :=
  withParents (lossTables s) ((s.parents.filter (lossStays s)).map (lossKept s))

theorem exec_upstreamLinkLoss {s : State} (hup : s.linkUp = true) (ho : AdmissionOrder s) :
    exec .upstreamLinkLoss s = .next (postDiscarded s.parents.length (clearManager (lossEnd s))) := by
  have hfold : s.parents.foldl discard (linkDown s) = lossEnd s :=
    (foldl_discard s s.parents [] (linkDown s) ho fun _ _ => rfl).trans (congrArg (withParents _) (flatMap_lossEntry s s.parents))
  show Host.Outcome.next (takeUpstreamLoss s) = _
  rw [takeUpstreamLoss, if_pos hup]
  exact congrArg (fun u => Host.Outcome.next (postDiscarded s.parents.length (clearManager u))) hfold

theorem lossStays_iff {s : State} {p : Parent} : lossStays s p = true ↔
    p.state = .discarding ∨ ((p.state = .active ∨ p.state = .aborting) ∧ ∃ e ∈ s.subs, e.parent = p.id ∧ e.issue.isSome) := by
  simp [lossStays, runs, holdsIssued]

/-- Settles O22: what each parent changes, parent by parent (`discard_eq`), added up table by table. -/
theorem upstreamLinkLossDiscardsTraffic : Obligations.UpstreamLinkLossDiscardsTraffic := by
  intro s hup ho
  have hexec := exec_upstreamLinkLoss hup ho
  rw [postDiscarded_cleared] at hexec
  have same {α : Type} (f : State → α) (h : ∀ w p, f (lossStep s w p) = f w) : f (lossTables s) = f (linkDown s) :=
    lossSteps_unchanged s.parents (linkDown s) f h
  have hnotices : (lossEnd s).notices = s.notices := same State.notices fun _ _ => rfl
  have hseq : (lossEnd s).seq = s.seq := same State.seq fun _ _ => rfl
  have hdropped : (lossEnd s).dropped = s.dropped := same State.dropped fun _ _ => rfl
  have hne (h : s.parents ≠ []) : s.parents.length ≠ 0 := fun h0 => h (List.length_eq_zero_iff.1 h0)
  refine ⟨_, lossStays s, hexec, same State.linkUp fun _ _ => rfl, fun _ => lossStays_iff, rfl,
    lossSteps_freeSlots .., lossSteps_initiators s.parents (linkDown s), lossSteps_mapReports .., lossSteps_orderReports ..,
    ⟨_, lossSteps_goneMap .., fun g => ?goneMap⟩, ⟨_, lossSteps_gonePort .., fun g => ?gonePort⟩, ⟨_, lossSteps_goneFlush .., fun g => ?goneFlush⟩,
    lossSteps_controlQueue .., lossSteps_executing .., lossSteps_holds s.parents (linkDown s), lossSteps_splitWait ..,
    lossSteps_switchHolds s.parents (linkDown s), lossSteps_subs .., lossSteps_queues s.parents (linkDown s),
    fun d => lossSteps_port s.parents (linkDown s) d, rfl, rfl, rfl, rfl,
    fun h => ?silent, fun h hroom => ?stored, fun h hfull => ?dropped,
    same State.outbound fun _ _ => rfl, same State.volumes fun _ _ => rfl, same State.ranges fun _ _ => rfl,
    same State.freeExtents fun _ _ => rfl, same State.access fun _ _ => rfl, same State.flush fun _ _ => rfl,
    same State.nextParent fun _ _ => rfl, same State.nextSub fun _ _ => rfl, same State.pending fun _ _ => rfl,
    same State.now fun _ _ => rfl, same State.sent fun _ _ => rfl⟩
  case goneMap =>
    simp only [← List.flatMap_def, List.mem_flatMap, mem_goneMapOf]
    exact ⟨fun ⟨p, hp, hv, h⟩ => ⟨hv, p, hp, h⟩, fun ⟨hv, p, hp, h⟩ => ⟨p, hp, hv, h⟩⟩
  case gonePort => simp only [← List.flatMap_def, List.mem_flatMap, mem_gonePortOf]
  case goneFlush => simp only [← List.flatMap_def, List.mem_flatMap, mem_goneFlushOf]
  case silent =>
    rw [h]
    exact ⟨hnotices, hseq, hdropped⟩
  case stored =>
    rw [postDiscarded_stored _ (hne h) (by rw [hnotices]; exact hroom), ← hnotices, ← hseq, ← hdropped]
    exact ⟨rfl, rfl, rfl⟩
  case dropped =>
    rw [postDiscarded_dropped _ (hne h) (by rw [hnotices]; exact hfull), ← hnotices, ← hseq, ← hdropped]
    exact ⟨rfl, rfl, rfl⟩

end Sys2Proof.Machine
end
